-- ==== Sys2Proof/Word.lean ====
section
/-! DEFINITION. The word and number types of the Thacrel 4830 (scope file, "Numbering" and "Arithmetic"):
what the manual treats as bits is a bit vector, what it numbers is a `Fin`, what it measures is an `Int` or a `Nat`. -/

namespace Sys2Proof

/-- One byte of a party frame, a station frame or an order (R168, R170). -/
abbrev Byte := BitVec 8
/-- One word of the external store (R172) and the link check (R162). -/
abbrev Word16 := BitVec 16
/-- A reading of the corridor clock: milliseconds modulo 2^32 (R174). -/
abbrev Time := BitVec 32
/-- An event sequence number, modulo 2^32 (R153). -/
abbrev Seq := BitVec 32
/-- A definition generation or an arming generation, 0 to 0xFFFFFF (R51, R72). -/
abbrev Gen := BitVec 24
/-- Party P0 to P3. -/
abbrev PartyId := Fin 4
/-- Station link S0 to S7. -/
abbrev LinkId := Fin 8
/-- Scheme 0 to 31. -/
abbrev SchemeId := Fin 32
/-- Action point 0 to 127. -/
abbrev PointId := Fin 128
/-- Measurement slot 0 to 255. -/
abbrev MeasId := Fin 256
/-- Detection slot 0 to 63. -/
abbrev DetId := Fin 64
/-- Fast detect input FD0 to FD15. -/
abbrev FdId := Fin 16

/-- The number `x` as an object number below `n`, where it is one. -/
def finOf (n x : Nat) : Option (Fin n) :=
  if h : x < n then some ⟨x, h⟩ else none

/-- The largest generation, 0xFFFFFF. -/
abbrev genMax : Gen := 0xFFFFFF#24

end Sys2Proof
end

