-- ==== Sys2Proof/Config.lean ====
section
/-! DEFINITION. The figures the manual fixes for the part, and the FREE VALUES: what the manual leaves to the world.
A free value is an uninterpreted constant: nothing in Lean can evaluate it, so a claim holds whatever it is. Each is
applied to the model's own counter `State.openCount`, so that every use is a fresh one. -/

namespace Sys2Proof.Config

/-- The part code that QUERY_STATUS returns (R169). -/
def partCode : Word16 := 0x4830#16
/-- The revision code that QUERY_STATUS returns (R169). -/
def revision : Byte := 0x01#8
/-- What a word of the external store that holds nothing reads as: "a memory that is blank or not answering reads
0xFFFF in every word" (R172). -/
def blankWord : Word16 := 0xFFFF#16
/-- How many words the external store holds (the configuration store chapter's opening). -/
def storeWords : Nat := 32768
/-- The sum a valid image has (R172). -/
def imageSum : Word16 := 0xA55A#16
/-- Where the modules of a saved image begin (R176). -/
def moduleBase : Nat := 16
/-- How many records the event ring holds (R153). -/
def ringSize : Nat := 256
/-- The rise expiry's age in milliseconds (R116). -/
def riseLife : Time := 1000#32
/-- The greatest time a pass takes, in milliseconds (R106). -/
def passBound : Time := 4#32
/-- The limit a measurement slot takes where the map gives none in range (R2). -/
def defaultLimit : Nat := 2000
/-- The confirm timeout a point takes where the image gives none in range (R22). -/
def defaultTimeout : Nat := 20

/-- FREE VALUE (log entry 3). Which of several things that the manual does not order comes next. -/
opaque pick : Nat → Nat
/-- FREE VALUE (log entry 4). Whether the trigger monitor takes a rising event before the action point table does
(R15: the two hand-offs "are not ordered with respect to each other"). -/
opaque monitorFirst : Nat → Bool
/-- FREE VALUE (log entry 5). How many candidates the selection walk reaches before the next event (R100, R106). -/
opaque walkProgress : Nat → Nat
/-- FREE VALUE (log entry 6). How many words of a save had been written when a cold reset cut it off (R176). -/
opaque saveProgress : Nat → Nat
/-- FREE VALUE (log entry 7). The low 14 bits of word 0 while a save is in flight (R176 gives its signature only). -/
opaque openControlBits : Nat → BitVec 14

end Sys2Proof.Config
end

