-- ==== Sys2Proof/Syntax.lean ====
section
/-! DEFINITION. The commands: one constructor of `Instr` for each row of spec/opcode_table.json, with the operands the
world supplies. A request's number operands are bytes as the frame carries them (R166), so that an out-of-range number
is a command like any other, answered as its rule says. -/

namespace Sys2Proof

/-- One item of a DATA frame, as the frame carries it (R171). -/
inductive DataItem where
  /-- Item code 0x00: slot, quality code and 16-bit value; 0x8000 means "no value". -/
  | measurement (slot quality : Byte) (value : Word16)
  /-- Item code 0x01: slot and state. -/
  | detection (slot : Byte) (asserted : Bool)
  deriving DecidableEq, Repr

/-- The result an ECHO frame carries (R171). -/
inductive EchoResult where
  | executed
  | refused
  deriving DecidableEq, Repr

/-- What a station frame that the layout defines carries (R170, R171). -/
inductive FrameBody where
  | data (items : List DataItem)
  | echo (tag address : Byte) (result : EchoResult)
  | hold
  | release
  deriving DecidableEq, Repr

/-- What the external store answers when an image is read (log entry 8): what it holds, nothing at all (R172: every
word then reads 0xFFFF), or an image that something outside the part has written into it since (manual 3.4: "by means
outside the part"). -/
inductive StoreAnswer where
  | stored
  | silent
  | rewritten (words : List Word16)
  deriving DecidableEq, Repr

/-- The body of WRITE_POINT, byte by byte (R166). -/
structure PointBody where
  point : Byte
  owner : Byte
  kind : Byte
  link : Byte
  address : Byte
  valueSlot : Byte
  statusSlot : Byte
  timeout : Byte
  backup : Byte
  deriving DecidableEq, Repr

/-- The five sections of a definition (R42 to R46), in the order of their codes (R166). -/
inductive Section where
  | header
  | terms
  | curve
  | candidates
  | triggers
  deriving DecidableEq, Repr

/-- Bytes that a gateway clocks in while its select line is active, from the first byte of a select period on or going on with
one under way, and whether the select line then goes inactive (R161; log entry 22). -/
structure Transfer where
  bytes : List Byte
  ends : Bool
  deriving DecidableEq, Repr

/-- A request body that has the layout R166 gives its kind. -/
inductive Request where
  | queryStatus
  | readScheme (scheme : Byte)
  | readPoint (point : Byte)
  | readMeasurements (first last : Byte)
  | readDetections (first last : Byte)
  | readArming (scheme : Byte)
  | readTrigger (scheme : Byte)
  | readEvents (count : Byte)
  | readEventsStart (count : Byte) (start : Seq)
  | writeSection (sec : Section) (scheme : Byte) (contents : List Byte)
  | writePoint (body : PointBody)
  | enable (scheme : Byte)
  | disable (scheme : Byte)
  | consent (scheme : Byte) (generation : Gen)
  | withdraw (scheme : Byte)
  | resetLockout (scheme : Byte)
  | protect (scheme target : Byte)
  | blockImmediate (point : Byte)
  | blockDeferred (point : Byte)
  | unblockPoint (point : Byte)
  | restorePoint (point : Byte)
  | storeLoad
  | storeSave
  deriving DecidableEq, Repr

/-- The commands of the part, in the order of spec/opcode_table.json. `party` is the party link a request arrives on
(R161); `link` is the station link a frame arrives on; `station` is the station number the frame carries. -/
inductive Instr where
  | resetAsserted
  | coldResetEnd (bench : Bool)
  | coldLoadComplete (answer : StoreAnswer)
  | warmResetRequest
  | stagingReadBegin
  | stagingReadEnd (answer : StoreAnswer)
  | warmResetTaken
  | data (link : LinkId) (station : Byte) (items : List DataItem)
  | echo (link : LinkId) (station tag address : Byte) (result : EchoResult)
  | hold (link : LinkId) (station : Byte)
  | release (link : LinkId) (station : Byte)
  | stationFrameDiscarded (link : LinkId) (bytes : List Byte)
  | fdRisingEdge (input : FdId)
  | fdFallingEdge (input : FdId)
  | stalenessExpiry (slot : MeasId)
  | riseExpiry (slot : DetId)
  | deadlineExpiry (point : PointId)
  | passBegin
  | passCompletion
  | transmissionStart (link : LinkId)
  | orderFrameComplete (link : LinkId)
  | executionComplete (scheme : SchemeId)
  | deferredBlockComplete (point : PointId)
  | retriggerReplay (scheme : SchemeId)
  | storeLoadComplete (answer : StoreAnswer)
  | storeSaveComplete
  | queryStatus (party : PartyId)
  | readScheme (party : PartyId) (scheme : Byte)
  | readPoint (party : PartyId) (point : Byte)
  | readMeasurements (party : PartyId) (first last : Byte)
  | readDetections (party : PartyId) (first last : Byte)
  | readArming (party : PartyId) (scheme : Byte)
  | readTrigger (party : PartyId) (scheme : Byte)
  | readEvents (party : PartyId) (count : Byte)
  | readEventsStart (party : PartyId) (count : Byte) (start : Seq)
  | writeHeaderSection (party : PartyId) (scheme : Byte) (contents : List Byte)
  | writeTermsSection (party : PartyId) (scheme : Byte) (contents : List Byte)
  | writeCurveSection (party : PartyId) (scheme : Byte) (contents : List Byte)
  | writeCandidatesSection (party : PartyId) (scheme : Byte) (contents : List Byte)
  | writeTriggersSection (party : PartyId) (scheme : Byte) (contents : List Byte)
  | writePoint (party : PartyId) (body : PointBody)
  | enable (party : PartyId) (scheme : Byte)
  | disable (party : PartyId) (scheme : Byte)
  | consent (party : PartyId) (scheme : Byte) (generation : Gen)
  | withdraw (party : PartyId) (scheme : Byte)
  | resetLockout (party : PartyId) (scheme : Byte)
  | protect (party : PartyId) (scheme target : Byte)
  | blockPointImmediate (party : PartyId) (point : Byte)
  | blockPointDeferred (party : PartyId) (point : Byte)
  | unblockPoint (party : PartyId) (point : Byte)
  | restorePoint (party : PartyId) (point : Byte)
  | storeLoad (party : PartyId)
  | storeSave (party : PartyId)
  | requestRejected (party : PartyId) (transfer : Transfer)
  | responseRead (party : PartyId) (transfer : Transfer)
  | overrun (party : PartyId)
  deriving DecidableEq, Repr

end Sys2Proof
end

