-- ==== Sys2Proof/Decode.lean ====
section
/-! DEFINITION. The command a word spells by the bits of spec/opcode_table.json. Every row of this table has an empty
list of fields and no fixed bits: no word spells a command, and the commands reach the part as frames, edges, line
levels and events (manual, "How the outside reaches the part"). -/

namespace Sys2Proof

/-- The command that the word `w` of `nbits` bits spells: no row of the table gives bits. -/
def decodeTableWord (_nbits _w : Nat) : Option Instr := none

end Sys2Proof
end

