-- ==== Sys2Proof/Machine/State.lean ====
section
/-! DEFINITION. The state of the Thacrel 4830: every table, record, flag, queue, counter and output line the manual gives
its eleven blocks, as plain data. Each type's docstring names the rule it follows. -/

namespace Sys2Proof.Machine

/-! ## The input tables (R1, R3, R12) -/

/-- Quality of the most recent item a measurement slot received (R1). -/
inductive Quality where
  | none
  | good
  | suspect
  | invalid
  deriving DecidableEq, Repr

/-- One of the 256 measurement slots (R1). -/
structure MeasSlot where
  /-- Mapped link, or unmapped. -/
  link : Option LinkId
  value : Option Int
  held : Int
  quality : Quality
  lastUpdate : Option Time
  /-- Staleness limit, 10 to 10,000 ms. -/
  limit : Nat
  stale : Bool
  deriving DecidableEq, Repr

/-- What feeds a detection slot (R12). -/
inductive DetSource where
  | link (l : LinkId)
  | fastDetect (n : FdId)
  | unmapped
  deriving DecidableEq, Repr

/-- One of the 64 detection slots (R12). -/
structure DetSlot where
  source : DetSource
  asserted : Bool
  lastRise : Option Time
  deriving DecidableEq, Repr

/-! ## Station links and trip orders (R3, R133 to R139) -/

inductive LinkMode where
  | full
  | listenOnly
  deriving DecidableEq, Repr

/-- The three reception parameters of a station link (R3). -/
structure LinkParams where
  enabled : Bool
  station : Byte
  mode : LinkMode
  deriving DecidableEq, Repr

/-- What tripping a point does (R21). -/
inductive PointKind where
  | genDrop
  | loadShed
  | lineOpen
  | shuntSwitch
  deriving DecidableEq, Repr

/-- How an entry waits on an order (R133). -/
inductive Role where
  | primary
  | backup
  deriving DecidableEq, Repr

/-- A waiting-entry reference (R133). `position` counts from 0, the manual's from 1. -/
structure WaitRef where
  scheme : SchemeId
  execution : BitVec 32
  position : Nat
  role : Role
  deriving DecidableEq, Repr

/-- Where an order stands on its link (R133, R138). -/
inductive OrderPosition where
  | queued
  | inTransmission
  | sent
  deriving DecidableEq, Repr

/-- The order record of an order in flight (R133). Its station link is the link that holds it. -/
structure TripOrder where
  tag : Byte
  point : PointId
  address : Byte
  kind : PointKind
  placer : SchemeId
  backup : Bool
  deadline : Time
  position : OrderPosition
  waiting : List WaitRef
  deriving DecidableEq, Repr

/-- One station link interface (R3, R133, R137 to R139, R170). `orders` holds the link's orders in flight, oldest
placement first: those not SENT are its queue. `transmitting` is the ORDER frame going out, whichever order it carries.
`receiving` is what has been received of the inbound frame under way (empty outside a frame). -/
structure Link where
  params : LinkParams
  held : Bool
  nextTag : Byte
  orders : List TripOrder
  transmitting : Option (List Byte)
  receiving : List Byte
  deriving DecidableEq, Repr

/-! ## Action points (R21) -/

inductive Availability where
  | inService
  | blocked
  | faulted
  deriving DecidableEq, Repr

inductive OrderState where
  | idle
  | ordered
  | tripped
  deriving DecidableEq, Repr

inductive LastOutcome where
  | none
  | confirmed
  | failed
  deriving DecidableEq, Repr

/-- A point's definition: the first eight fields of R21. -/
structure PointDef where
  owner : PartyId
  kind : PointKind
  link : LinkId
  address : Byte
  valueSlot : MeasId
  statusSlot : Option DetId
  /-- Confirm timeout, 2 to 250 ms. -/
  timeout : Nat
  backup : Option PointId
  deriving DecidableEq, Repr

/-- A defined action point: its definition and its operating state (R21). -/
structure Point where
  defn : PointDef
  availability : Availability
  blockPending : Bool
  orderState : OrderState
  lastTag : Option Byte
  lastOutcome : LastOutcome
  deriving DecidableEq, Repr

/-! ## Arming (R82, R95, R99 to R106) -/

inductive StalePolicy where
  | holdLast
  | armFull
  deriving DecidableEq, Repr

/-- The arming flags (R95). -/
structure ArmFlags where
  indexClamped : Bool
  staleHeld : Bool
  suspectInput : Bool
  fullArming : Bool
  deriving DecidableEq, Repr

/-- The arming figures of a pass (R83). -/
structure Figures where
  q : Option Int
  flags : ArmFlags
  a0 : Nat
  a : Nat
  cap : Nat
  deriving DecidableEq, Repr

/-- Why a candidate was skipped (R23, R100). -/
inductive SkipReason where
  | blocked
  | faulted
  | blockPending
  | ordered
  | tripped
  | stale
  | noOutput
  | overshoot
  deriving DecidableEq, Repr

inductive Adequacy where
  | nil
  | full
  | short
  deriving DecidableEq, Repr

/-- A live arming record that is not empty, or a snapshot (R103). -/
structure ArmingRecord where
  time : Time
  figures : Figures
  selected : List (PointId × Nat)
  skipped : List (PointId × SkipReason)
  total : Nat
  adequacy : Adequacy
  shortfall : Option Nat
  deriving DecidableEq, Repr

/-- What a pass copies of one index term and its slot (R82). -/
structure TermCopy where
  weight : Int
  value : Option Int
  held : Int
  quality : Quality
  stale : Bool
  deriving DecidableEq, Repr

/-- What a pass copies of one candidate's value slot (R82); an undefined point has no value to copy. -/
structure CandidateCopy where
  point : PointId
  value : Option Int
  stale : Bool
  deriving DecidableEq, Repr

/-- The inputs a pass copies as it begins (R82). -/
structure PassInputs where
  terms : List TermCopy
  policy : StalePolicy
  curve : List (Int × Nat)
  margin : Nat
  overshoot : Nat
  candidates : List CandidateCopy
  deriving DecidableEq, Repr

/-- The selection walk as far as it has come (R99): `remaining` are the candidates it may still reach. -/
structure Walk where
  total : Nat
  selected : List (PointId × Nat)
  skipped : List (PointId × SkipReason)
  remaining : List CandidateCopy
  deriving DecidableEq, Repr

/-- The pass in flight (R105, R106). -/
structure Pass where
  scheme : SchemeId
  begun : Time
  void : Bool
  inputs : PassInputs
  walk : Walk
  deriving DecidableEq, Repr

/-! ## Trigger records (R122, R126, R134) -/

/-- What a trigger carries (R117); also what the retrigger latch keeps (R126). -/
structure Trigger where
  time : Time
  slot : DetId
  counted : List (DetId × Time)
  deriving DecidableEq, Repr

inductive FiringAnswer where
  | placed
  | merged
  | alreadyOpen
  | skipped
  deriving DecidableEq, Repr

inductive BackupAnswer where
  | placed
  | follows
  | unavailable
  deriving DecidableEq, Repr

/-- The nine entry outcomes (R147). -/
inductive EntryOutcome where
  | confirmed
  | mergedConfirmed
  | alreadyOpen
  | skipped
  | failed
  | mergedFailed
  | backupConfirmed
  | backupFailed
  | backupUnavailable
  deriving DecidableEq, Repr

/-- An entry result (R134). -/
structure EntryResult where
  answer : Option FiringAnswer
  order : Option (LinkId × Byte)
  backupPoint : Option PointId
  backupAnswer : Option BackupAnswer
  backupTag : Option Byte
  backupValue : Option Nat
  outcome : Option EntryOutcome
  outcomeTime : Option Time
  late : Bool
  deriving DecidableEq, Repr

/-- A trigger record that is not empty (R122), with the number of its execution (R134). -/
structure TriggerRecord where
  trigger : Trigger
  takeTime : Time
  replayed : Bool
  defGen : Gen
  armGen : Gen
  snapshot : ArmingRecord
  entries : List EntryResult
  execution : BitVec 32
  completion : Option Time
  delivered : Option Nat
  deriving DecidableEq, Repr

/-! ## Schemes (R40) -/

inductive Protection where
  | opened
  | locked
  | fixed
  deriving DecidableEq, Repr

/-- The definition part and the standing part of a defined scheme (R40): the five sections, the protection and the
definition generation. Bit n of `authority` stands for party Pn (R168). -/
structure SchemeDef where
  label : List Byte
  owner : PartyId
  authority : BitVec 4
  autoRearm : Bool
  enabledAtStart : Bool
  terms : List (MeasId × Int)
  policy : StalePolicy
  curve : List (Int × Nat)
  margin : Nat
  overshoot : Nat
  candidates : List PointId
  sources : List DetId
  k : Nat
  window : Nat
  protection : Protection
  defGen : Gen
  deriving DecidableEq, Repr

/-- The six scheme states (R60). -/
inductive SchemeState where
  | disabled
  | standby
  | primed
  | armed
  | firing
  | lockout
  deriving DecidableEq, Repr

/-- One of the 32 scheme entries (R40, R41): `defn` is absent while the entry is undefined. -/
structure Scheme where
  defn : Option SchemeDef
  armGen : Gen
  state : SchemeState
  consents : Vector (Option Gen) 4
  pendingPass : Bool
  live : Option ArmingRecord
  record : Option TriggerRecord
  latch : Option Trigger
  rearming : Bool
  deriving DecidableEq, Repr

/-! ## The event record (R153, R154, R156) -/

/-- The 27 event kinds, in the order of the kind table of manual 9.2 (R168). -/
inductive EventKind where
  | storeLoaded
  | storeInvalid
  | storeSaved
  | warmReset
  | schemeEnabled
  | schemeDisabled
  | consent
  | withdraw
  | schemeArmed
  | armingShort
  | lockoutReset
  | triggerTaken
  | triggerUnarmed
  | triggerLocked
  | retriggerLatched
  | retriggerLost
  | retriggerDropped
  | orderPlaced
  | backupPlaced
  | orderConfirmed
  | orderFailed
  | orderLate
  | execComplete
  | pointBlocked
  | pointUnblocked
  | pointRestored
  | measStale
  deriving DecidableEq, Repr

/-- An event record (R154). -/
structure EventRecord where
  seq : Seq
  time : Time
  kind : EventKind
  scheme : Option SchemeId
  point : Option PointId
  party : Option PartyId
  detail : Option Int
  deriving DecidableEq, Repr

/-- What the event record holds for one party, with that party's ATTN line (R156, R159). -/
structure Reader where
  cursor : Seq
  lost : BitVec 32
  attn : Bool
  deriving DecidableEq, Repr

/-! ## Party links (R161, R164, R167) -/

inductive Exchange where
  | idle
  | receiving
  | responseWaiting
  deriving DecidableEq, Repr

/-- The status codes of R167, in order. -/
inductive Status where
  | done
  | frameError
  | unknownRequest
  | badArgument
  | notAuthorized
  | wrongState
  | isProtected
  | staleGeneration
  | pointBusy
  | generationLimit
  | badDefinition
  | storeBusy
  | starting
  deriving DecidableEq, Repr

structure Response where
  status : Status
  body : List Byte
  deriving DecidableEq, Repr

/-- The select line of a party link and what the part does with the select period under way while it is active (R161,
R163 to R165). -/
inductive Select where
  /-- The select line is inactive. -/
  | inactive
  /-- A request period whose frame is not complete: the bytes after its start marker so far. -/
  | receiving (bytes : List Byte)
  /-- A read period: how many bytes have been clocked. -/
  | reading (count : Nat)
  /-- The rest of the period is ignored: its frame has been taken, it is an overrun, or it was already in progress when
  cold reset ended. -/
  | ignored
  deriving DecidableEq, Repr

/-- One party link interface (R161), with its READY line (R164) and its select line. `shiftedOut` is the MODEL'S OWN field:
the bytes the part drove in the link's last read period. -/
structure PartyLink where
  select : Select
  exchange : Exchange
  waiting : Option Response
  overrun : Bool
  ready : Bool
  shiftedOut : List Byte
  deriving DecidableEq, Repr

/-! ## The store interface (R172 to R177) -/

/-- The words of the external store that are not blank, addresses strictly rising. -/
abbrev Memory := List (Nat × Word16)

/-- What the store interface is doing. The store state of R168 is read off it: LOADING for the three reads, SAVING for
a save, otherwise IDLE. A save holds the words it has still to write, in the order of R176, and the image length. -/
inductive StoreOp where
  | idle
  | coldLoad
  | load (party : PartyId)
  | staging
  | save (party : PartyId) (writes : List (Nat × Word16)) (length : Nat)
  deriving DecidableEq, Repr

/-- The warm reset request (R177): none; held with its staging read not ended; or held with its staging read ended, and
then the staged station map, absent where the image was rejected. -/
inductive WarmRequest where
  | none
  | held
  | staged (map : Option (Vector LinkParams 8))
  deriving DecidableEq, Repr

/-! ## The part as a whole -/

/-- The state of the part. `pending` and `openCount` are the MODEL'S OWN: the commands that wait, and the counter the
free values of `Config` are applied to. -/
structure State where
  pending : List Instr
  /-- RESET# is asserted (R174). -/
  inReset : Bool
  clock : Time
  bench : Bool
  store : Memory
  storeOp : StoreOp
  warm : WarmRequest
  meas : Vector MeasSlot 256
  det : Vector DetSlot 64
  /-- The trigger monitor's recent-rise flags (R116). -/
  recentRise : Vector Bool 64
  points : Vector (Option Point) 128
  /-- The execution controller's late lists (R146). -/
  lateLists : Vector (List WaitRef) 128
  schemes : Vector Scheme 32
  /-- The arming engine: the pass in flight, or free (R105). -/
  engine : Option Pass
  links : Vector Link 8
  /-- The number the next execution takes (R134). -/
  execCount : BitVec 32
  /-- The event ring, oldest first (R153). -/
  ring : List EventRecord
  nextSeq : Seq
  readers : Vector Reader 4
  parties : Vector PartyLink 4
  openCount : Nat
  deriving DecidableEq, Repr

/-- Nothing in the manual stops the part, so this type has no constructor: no step of the model can end in a fault. -/
inductive Fault where
  deriving DecidableEq, Repr

/-- Why a command is refused. -/
inductive Refusal where
  /-- Raised by `exec`'s arm for a command that has no meaning yet; SAFE (nothing is claimed of it). No arm raises it. -/
  | notModelled (mnemonic : String)
  deriving DecidableEq, Repr

/-! ## Cold-reset values -/

/-- A measurement slot with its cold-reset contents (R1), fed by `link` with `limit`. -/
def MeasSlot.fresh (link : Option LinkId) (limit : Nat) : MeasSlot :=
  { link := link, value := none, held := 0, quality := .none, lastUpdate := none, limit := limit, stale := true }

/-- A measurement slot that no map entry names (R2). -/
def MeasSlot.unmapped : MeasSlot := .fresh none Config.defaultLimit

/-- What feeds detection slot `d` when no map entry names it (R12). -/
def DetSource.fixed (d : DetId) : DetSource :=
  match finOf 16 (d.val - 48) with
  | some n => if 48 ≤ d.val then .fastDetect n else .unmapped
  | none => .unmapped

/-- A cleared detection slot that has never risen (R12). -/
def DetSlot.cleared (source : DetSource) : DetSlot :=
  { source := source, asserted := false, lastRise := none }

/-- The parameters of a link that no station map pair describes (R173). -/
def LinkParams.default : LinkParams :=
  { enabled := false, station := 0, mode := .listenOnly }

/-- A station link after cold reset (R152). -/
def Link.cold : Link :=
  { params := .default, held := false, nextTag := 0, orders := [], transmitting := none, receiving := [] }

/-- An undefined scheme entry (R41) whose number has arming generation `g`. -/
def Scheme.undefined (g : Gen) : Scheme :=
  { defn := none, armGen := g, state := .disabled, consents := Vector.replicate 4 none, pendingPass := false,
    live := none, record := none, latch := none, rearming := false }

/-- What the event record holds for a party after cold reset (R156, R159). -/
def Reader.cold : Reader := { cursor := 0, lost := 0, attn := false }

/-- A party link after cold reset (R161). -/
def PartyLink.cold : PartyLink :=
  { select := .inactive, exchange := .idle, waiting := none, overrun := false, ready := false, shiftedOut := [] }

/-- A party link when cold reset ends: a select period already in progress is ignored until its select line goes inactive
(R161). -/
def PartyLink.restarted (q : PartyLink) : PartyLink :=
  { PartyLink.cold with select := match q.select with
      | .inactive => .inactive
      | .receiving _ | .reading _ | .ignored => .ignored }

/-- The detection table with no map entry (R12). -/
def detUnmapped : Vector DetSlot 64 := ⟨⟨(List.finRange 64).map (fun d => DetSlot.cleared (.fixed d))⟩, by simp⟩

/-- The part at the moment cold reset ends (R174): every block at its cold-reset values, the clock at 0, BENCH sampled,
and the load of the image in flight. The external store keeps its words, and each party link its select line; `commands`
and `openCount` are the model's. -/
def State.cold (bench : Bool) (store : Memory) (parties : Vector PartyLink 4) (commands : List Instr)
    (openCount : Nat) : State :=
  { pending := commands, inReset := false, clock := 0, bench := bench, store := store, storeOp := .coldLoad,
    warm := .none, meas := Vector.replicate 256 .unmapped, det := detUnmapped,
    recentRise := Vector.replicate 64 false, points := Vector.replicate 128 none,
    lateLists := Vector.replicate 128 [], schemes := Vector.replicate 32 (.undefined 0), engine := none,
    links := Vector.replicate 8 .cold, execCount := 0, ring := [], nextSeq := 0,
    readers := Vector.replicate 4 .cold, parties := parties, openCount := openCount }

/-- The machine right after reset (R174; log entry 1): cold reset has ended with BENCH low, a blank store and every
select line inactive, and the image load is in flight. -/
def State.reset : State := State.cold false [] (Vector.replicate 4 .cold) [] 0

end Sys2Proof.Machine
end

