-- ==== Sys2Proof/Machine/Ops.lean ====
section
/-! DEFINITION. The shared operations every block uses: table updates, the order of things the manual does not order,
the external store, the event record, and the arming requests. -/

namespace Sys2Proof.Machine

/-! ## Tables -/

/-- Every entry of a table, through `f`. -/
def mapV {α β : Type} {n : Nat} (f : α → β) (v : Vector α n) : Vector β n :=
  ⟨⟨v.toList.map f⟩, by simp⟩

/-- The table whose entry `i` is `f i`. -/
def tabulate {α : Type} {n : Nat} (f : Fin n → α) : Vector α n :=
  ⟨⟨(List.finRange n).map f⟩, by simp⟩

/-- A table with entry `i` through `f`. -/
def modV {α : Type} {n : Nat} (v : Vector α n) (i : Fin n) (f : α → α) : Vector α n :=
  v.set i (f v[i])

def State.modScheme (s : State) (k : SchemeId) (f : Scheme → Scheme) : State :=
  { s with schemes := modV s.schemes k f }

/-- Applies `f` to point `p` where it is defined. -/
def State.modPoint (s : State) (p : PointId) (f : Point → Point) : State :=
  { s with points := modV s.points p (fun x => x.map f) }

def State.modLink (s : State) (l : LinkId) (f : Link → Link) : State :=
  { s with links := modV s.links l f }

def State.modMeas (s : State) (m : MeasId) (f : MeasSlot → MeasSlot) : State :=
  { s with meas := modV s.meas m f }

def State.modDet (s : State) (d : DetId) (f : DetSlot → DetSlot) : State :=
  { s with det := modV s.det d f }

def State.modParty (s : State) (p : PartyId) (f : PartyLink → PartyLink) : State :=
  { s with parties := modV s.parties p f }

/-! ## What the manual does not order (log entry 3) -/

/-- The elements of `xs` in an order chosen by the free value `Config.pick`, from use number `n` on. A list of one
element has one order. -/
def arrangeFrom {α : Type} : Nat → Nat → List α → List α
  | _, _, [] => []
  | _, _, [x] => [x]
  | 0, _, xs => xs
  | fuel + 1, n, xs =>
    match xs[Config.pick n % xs.length]? with
    | some x => x :: arrangeFrom fuel (n + 1) (xs.eraseIdx (Config.pick n % xs.length))
    | none => xs

/-- `xs` in some order: the manual gives none. -/
def State.arrange {α : Type} (s : State) (xs : List α) : List α :=
  arrangeFrom xs.length s.openCount xs

/-- Moves on to unused free values. -/
def State.opened (s : State) (n : Nat) : State :=
  { s with openCount := s.openCount + n }

/-- Carries out `f` for every element of `xs`, in some order. -/
def State.forEachInSomeOrder {α : Type} (s : State) (xs : List α) (f : α → State → State) : State :=
  (s.arrange xs).foldl (fun s x => f x s) (s.opened xs.length)

/-! ## The external store (R172; log entry 2) -/

namespace Memory

/-- The word at address `x`: 0xFFFF where nothing is held (R172). -/
def read : Memory → Nat → Word16
  | [], _ => Config.blankWord
  | (a, w) :: m, x => if a = x then w else read m x

/-- The store with word `v` at address `x`, in canonical form. -/
def write : Memory → Nat → Word16 → Memory
  | [], x, v => if v = Config.blankWord then [] else [(x, v)]
  | (a, w) :: m, x, v =>
    if x < a then (if v = Config.blankWord then (a, w) :: m else (x, v) :: (a, w) :: m)
    else if x = a then (if v = Config.blankWord then m else (x, v) :: m)
    else (a, w) :: write m x v

/-- The writes of `ws`, in order. -/
def writeAll (m : Memory) (ws : List (Nat × Word16)) : Memory :=
  ws.foldl (fun m w => write m w.1 w.2) m

/-- The store that holds `words` from address 0 on and is blank beyond them. -/
def ofWords (words : List Word16) : Memory :=
  writeAll [] ((words.take Config.storeWords).zipIdx.map (fun w => (w.2, w.1)))

/-- Addresses strictly rise from `low` and no entry is blank. -/
def wfFrom : Nat → Memory → Bool
  | _, [] => true
  | low, (a, w) :: m => decide (low ≤ a) && decide (w ≠ Config.blankWord) && wfFrom (a + 1) m

/-- The canonical form: equal stores are equal lists. -/
def wf (m : Memory) : Bool := wfFrom 0 m

end Memory

/-! ## The event record (R153 to R159) -/

/-- A party whose cursor stands at the removed record is pulled to the next, and has lost one more (R156). -/
def Reader.pulled (oldest : Seq) (r : Reader) : Reader :=
  if r.cursor = oldest then
    { r with cursor := r.cursor + 1, lost := if r.lost = 0xFFFFFFFF#32 then r.lost else r.lost + 1 }
  else r

/-- The ATTN line follows the lag (R159). -/
def Reader.follow (next : Seq) (r : Reader) : Reader :=
  { r with attn := decide (r.cursor ≠ next) }

/-- The sequence number of the oldest record the ring holds (R153). -/
def State.oldestSeq (s : State) : Seq := s.nextSeq - BitVec.ofNat 32 s.ring.length

/-- How many records a party has not yet read (R156). -/
def State.lag (s : State) (p : PartyId) : Nat := (s.nextSeq - s.readers[p].cursor).toNat

/-- Appends one event record (R155). -/
def State.append (s : State) (kind : EventKind) (scheme : Option SchemeId := none) (point : Option PointId := none)
    (party : Option PartyId := none) (detail : Option Int := none) : State :=
  let full := Config.ringSize ≤ s.ring.length
  { s with
    ring := (if full then s.ring.tail else s.ring) ++
      [{ seq := s.nextSeq, time := s.clock, kind := kind, scheme := scheme, point := point, party := party,
         detail := detail }]
    nextSeq := s.nextSeq + 1
    readers := mapV (fun r => Reader.follow (s.nextSeq + 1) (if full then r.pulled s.oldestSeq else r)) s.readers }

/-! ## Arming requests (R9, R25, R104) -/

/-- The scheme's candidate list names point `p`. -/
def Scheme.lists (sc : Scheme) (p : PointId) : Bool :=
  match sc.defn with
  | some d => d.candidates.contains p
  | none => false

/-- The scheme depends on measurement slot `m` (R9): an index term slot, or the value slot of a listed point. -/
def Scheme.dependsOn (points : Vector (Option Point) 128) (m : MeasId) (sc : Scheme) : Bool :=
  match sc.defn with
  | some d =>
    d.terms.any (fun t => t.1 = m) ||
      d.candidates.any (fun p => match points[p] with | some x => x.defn.valueSlot = m | none => false)
  | none => false

/-- Sets the pending-pass flag of every scheme that `f` picks (R104). -/
def State.requestPasses (s : State) (f : Scheme → Bool) : State :=
  { s with schemes := mapV (fun sc => if f sc then { sc with pendingPass := true } else sc) s.schemes }

/-- The requests of a change at point `p` (R25). -/
def State.requestForPoint (s : State) (p : PointId) : State := s.requestPasses (fun sc => sc.lists p)

/-- The requests of an item or expiry at slot `m` (R9). -/
def State.requestForSlot (s : State) (m : MeasId) : State := s.requestPasses (Scheme.dependsOn s.points m)

/-! ## What several blocks ask of the state -/

/-- The arming engine runs a pass of a scheme in this state (R60, R105). -/
def SchemeState.runsPasses : SchemeState → Bool
  | .primed | .armed | .firing => true
  | .disabled | .standby | .lockout => false

/-- The image is being loaded after cold reset (R163, R174). -/
def State.starting (s : State) : Bool := decide (s.storeOp = .coldLoad)

/-- The store state is IDLE (R168). -/
def State.storeIdle (s : State) : Bool := decide (s.storeOp = .idle)

/-- A STORE_SAVE is in flight (R176). -/
def State.saving (s : State) : Bool :=
  match s.storeOp with
  | .save _ _ _ => true
  | _ => false

/-- A STORE_LOAD is in flight (R175); a staging read is not one (R177). -/
def State.loading (s : State) : Bool :=
  match s.storeOp with
  | .load _ => true
  | _ => false

/-- Some scheme is FIRING. -/
def State.anyFiring (s : State) : Bool := s.schemes.toList.any (fun sc => sc.state = .firing)

/-- The record holds point `p` among its selected entries (R103). -/
def ArmingRecord.holds (r : ArmingRecord) (p : PointId) : Bool := r.selected.any (fun e => e.1 = p)

/-- The scheme's live arming record holds point `p`. -/
def Scheme.holdsPoint (sc : Scheme) (p : PointId) : Bool :=
  match sc.live with
  | some r => r.holds p
  | none => false

/-- How many live arming records hold point `p`. -/
def State.holders (s : State) (p : PointId) : Nat := s.schemes.toList.countP (fun sc => sc.holdsPoint p)

/-- The link takes orders: enabled and in mode FULL. -/
def LinkParams.isFull (l : LinkParams) : Bool := l.enabled && decide (l.mode = .full)

/-- Marks the pass in flight void where it is a pass of scheme `k` (R108). -/
def State.voidPass (s : State) (k : SchemeId) : State :=
  { s with engine := s.engine.map (fun x => if x.scheme = k then { x with void := true } else x) }

/-- Clears the latch of scheme `k`; a set latch is dropped with its record (R130). -/
def State.dropLatch (s : State) (k : SchemeId) : State :=
  match s.schemes[k].latch with
  | some t =>
    (s.modScheme k (fun sc => { sc with latch := none })).append .retriggerDropped (scheme := some k)
      (detail := some (t.slot.val : Int))
  | none => s

/-- Why point `p` is not available for arming, the first reason that applies; absent where it is available (R23). -/
def State.unavailable (s : State) (p : PointId) : Option SkipReason :=
  match s.points[p] with
  | none => some .blocked
  | some x =>
    match x.availability with
    | .blocked => some .blocked
    | .faulted => some .faulted
    | .inService =>
      if x.blockPending then some .blockPending
      else match x.orderState with
        | .ordered => some .ordered
        | .tripped => some .tripped
        | .idle => if s.meas[x.defn.valueSlot].stale then some .stale else none

/-- Completes the deferred block of point `p` where it is due: the flag is set, no live arming record holds the point
and it is not ORDERED (R34). -/
def State.completeBlock (s : State) (p : PointId) : State :=
  match s.points[p] with
  | some x =>
    if x.blockPending = true ∧ s.holders p = 0 ∧ x.orderState ≠ .ordered then
      ((s.modPoint p (fun x => { x with availability := .blocked, blockPending := false })).append .pointBlocked
        (point := some p) (detail := some 0)).requestForPoint p
    else s
  | none => s

end Sys2Proof.Machine
end

