-- ==== Sys2Proof/Machine/Wire.lean ====
section
/-! DEFINITION. The bytes partners see: field encodings (R168), the link check (R162), the station frame envelope and
contents (R170, R171) and the party response frame (R166 to R169, manual 10.4). -/

namespace Sys2Proof.Machine.Wire

/-! ## Fields, most significant byte first (R168) -/

def be16 (w : Word16) : List Byte := [w.extractLsb' 8 8, w.extractLsb' 0 8]
def be24 (w : Gen) : List Byte := [w.extractLsb' 16 8, w.extractLsb' 8 8, w.extractLsb' 0 8]
def be32 (w : BitVec 32) : List Byte :=
  [w.extractLsb' 24 8, w.extractLsb' 16 8, w.extractLsb' 8 8, w.extractLsb' 0 8]
/-- An unsigned number of one byte. -/
def u8 (n : Nat) : Byte := BitVec.ofNat 8 n
/-- An unsigned amount of two bytes. -/
def u16 (n : Nat) : List Byte := be16 (BitVec.ofNat 16 n)
/-- A signed value of two bytes. -/
def i16 (n : Int) : List Byte := be16 (BitVec.ofInt 16 n)
/-- A set or clear indication. -/
def flag (b : Bool) : Byte := if b then 1 else 0
/-- An optional field of one byte whose absent code is 0xFF. -/
def opt8 (x : Option Nat) : Byte := match x with | some n => u8 n | none => 0xFF
/-- An optional signed value, absent as −32768. -/
def optI16 (x : Option Int) : List Byte := match x with | some n => i16 n | none => be16 0x8000
/-- An optional amount, absent as 0xFFFF. -/
def optU16 (x : Option Nat) : List Byte := match x with | some n => u16 n | none => be16 0xFFFF
/-- An optional tag behind its presence byte. -/
def optTag (x : Option Byte) : List Byte := match x with | some t => [1, t] | none => [0, 0]
/-- An optional time or number behind its presence byte. -/
def opt32 (x : Option (BitVec 32)) : List Byte := match x with | some t => 1 :: be32 t | none => [0, 0, 0, 0, 0]
/-- An optional generation behind its presence byte. -/
def optGen (x : Option Gen) : List Byte := match x with | some g => 1 :: be24 g | none => [0, 0, 0, 0]
/-- A list behind its one-byte count. -/
def counted {α : Type} (f : α → List Byte) (xs : List α) : List Byte := u8 xs.length :: xs.flatMap f

/-! ## Value codes (R168) -/

def stateCode : SchemeState → Byte
  | .disabled => 0 | .standby => 1 | .primed => 2 | .armed => 3 | .firing => 4 | .lockout => 5
/-- The state code of an entry: 0xFE for an undefined one. -/
def schemeCode (sc : Scheme) : Byte := match sc.defn with | some _ => stateCode sc.state | none => 0xFE
def protectionCode : Protection → Byte | .opened => 0 | .locked => 1 | .fixed => 2
def policyCode : StalePolicy → Byte | .holdLast => 0 | .armFull => 1
def qualityCode : Quality → Byte | .none => 0 | .good => 1 | .suspect => 2 | .invalid => 3
def kindCode : PointKind → Byte | .genDrop => 0 | .loadShed => 1 | .lineOpen => 2 | .shuntSwitch => 3
def availabilityCode : Availability → Byte | .inService => 0 | .blocked => 1 | .faulted => 2
def orderStateCode : OrderState → Byte | .idle => 0 | .ordered => 1 | .tripped => 2
def lastOutcomeCode : LastOutcome → Byte | .none => 0 | .confirmed => 1 | .failed => 2
def adequacyCode : Adequacy → Byte | .nil => 0 | .full => 1 | .short => 2
def reasonCode : SkipReason → Byte
  | .blocked => 0 | .faulted => 1 | .blockPending => 2 | .ordered => 3
  | .tripped => 4 | .stale => 5 | .noOutput => 6 | .overshoot => 7
def firingAnswerCode : FiringAnswer → Nat | .placed => 0 | .merged => 1 | .alreadyOpen => 2 | .skipped => 3
def backupAnswerCode : BackupAnswer → Nat | .placed => 0 | .follows => 1 | .unavailable => 2
def entryOutcomeCode : EntryOutcome → Nat
  | .confirmed => 1 | .mergedConfirmed => 2 | .alreadyOpen => 3 | .skipped => 4 | .failed => 5
  | .mergedFailed => 6 | .backupConfirmed => 7 | .backupFailed => 8 | .backupUnavailable => 9
def sourceCode : DetSource → Byte
  | .link l => u8 l.val | .fastDetect n => u8 (0x10 + n.val) | .unmapped => 0xFF
def eventCode : EventKind → Byte
  | .storeLoaded => 1 | .storeInvalid => 2 | .storeSaved => 3 | .warmReset => 4 | .schemeEnabled => 5
  | .schemeDisabled => 6 | .consent => 7 | .withdraw => 8 | .schemeArmed => 9 | .armingShort => 10
  | .lockoutReset => 11 | .triggerTaken => 12 | .triggerUnarmed => 13 | .triggerLocked => 14
  | .retriggerLatched => 15 | .retriggerLost => 16 | .retriggerDropped => 17 | .orderPlaced => 18
  | .backupPlaced => 19 | .orderConfirmed => 20 | .orderFailed => 21 | .orderLate => 22 | .execComplete => 23
  | .pointBlocked => 24 | .pointUnblocked => 25 | .pointRestored => 26 | .measStale => 27
def storeCode : StoreOp → Byte
  | .idle => 0 | .coldLoad => 1 | .load _ => 1 | .staging => 1 | .save _ _ _ => 2
def statusCode : Status → Byte
  | .done => 0 | .frameError => 1 | .unknownRequest => 2 | .badArgument => 3 | .notAuthorized => 4
  | .wrongState => 5 | .isProtected => 6 | .staleGeneration => 7 | .pointBusy => 8 | .generationLimit => 9
  | .badDefinition => 10 | .storeBusy => 11 | .starting => 12
def flagsByte (f : ArmFlags) : Byte :=
  u8 (f.indexClamped.toNat + 2 * f.staleHeld.toNat + 4 * f.suspectInput.toNat + 8 * f.fullArming.toNat)

/-! ## The link check (R162) -/

/-- One bit of the CRC with polynomial x¹⁶ + x¹² + x⁵ + 1, most significant bit first. -/
def crcBit (r : Word16) : Word16 := if r.msb then (r <<< 1) ^^^ 0x1021#16 else r <<< 1

def crcByte (r : Word16) (b : Byte) : Word16 :=
  crcBit (crcBit (crcBit (crcBit (crcBit (crcBit (crcBit (crcBit (r ^^^ (b.setWidth 16 <<< 8)))))))))

/-- The link check of the bytes after a start marker: register preset to 0xFFFF, no reflection, no final inversion. -/
def crc (bytes : List Byte) : Word16 := bytes.foldl crcByte 0xFFFF#16

/-! ## Station frames (R170, R171) -/

def stationMarker : Byte := 0x96
def typeData : Byte := 0x11
def typeEcho : Byte := 0x12
def typeHold : Byte := 0x13
def typeRelease : Byte := 0x14
def typeOrder : Byte := 0x21

/-- A station frame around `contents`. -/
def stationFrame (type station : Byte) (contents : List Byte) : List Byte :=
  let checked := [type, station, u8 contents.length] ++ contents
  stationMarker :: checked ++ be16 (crc checked)

/-- The ORDER frame for an order of a link with this station number (R138, R171). -/
def orderFrame (station : Byte) (o : TripOrder) : List Byte :=
  stationFrame typeOrder station [o.tag, o.address, kindCode o.kind]

/-- The items of a DATA frame's contents after the item count, where each is of a kind R171 defines. The value of a
measurement item is taken high byte first: the model's deduction (log entry 35). Structural on `fuel`, at least the number of
bytes. -/
def parseItems : Nat → List Byte → Option (List DataItem)
  | _, [] => some []
  | 0, _ :: _ => none
  | fuel + 1, code :: rest =>
    if code = 0x00 then
      match rest with
      | slot :: quality :: hi :: lo :: more =>
        (parseItems fuel more).map (fun xs => DataItem.measurement slot quality (hi ++ lo) :: xs)
      | _ => none
    else if code = 0x01 then
      match rest with
      | slot :: st :: more =>
        if st = 0x00 then (parseItems fuel more).map (fun xs => DataItem.detection slot false :: xs)
        else if st = 0x01 then (parseItems fuel more).map (fun xs => DataItem.detection slot true :: xs)
        else none
      | _ => none
    else none

/-- What a frame of this type and these contents carries; none where the type or the length condition of R4 fails. -/
def parseContents (type : Byte) (contents : List Byte) : Option FrameBody :=
  if type = typeData then
    match contents with
    | count :: bytes =>
      match parseItems bytes.length bytes with
      | some items => if items.length = count.toNat then some (.data items) else none
      | none => none
    | [] => none
  else if type = typeEcho then
    match contents with
    | [tag, address, result] =>
      if result = 0x01 then some (.echo tag address .executed)
      else if result = 0x02 then some (.echo tag address .refused)
      else none
    | _ => none
  else if type = typeHold then (if contents = [] then some .hold else none)
  else if type = typeRelease then (if contents = [] then some .release else none)
  else none

/-- A whole received frame, from its start marker to its second check byte: the station number and contents it
carries, where its link check is right and its layout is defined (R4, R170, R171). -/
def parseStation (frame : List Byte) : Option (Byte × FrameBody) :=
  match frame with
  | marker :: type :: station :: len :: rest =>
    let contents := rest.take len.toNat
    if marker = stationMarker ∧ rest.drop len.toNat = be16 (crc ([type, station, len] ++ contents)) ∧
        contents.length = len.toNat then
      (parseContents type contents).map (fun b => (station, b))
    else none
  | _ => none

/-- One byte at a station link receiver (R170): what it has of the frame under way, and the whole frame where this byte
was its last. -/
def receiveByte (frame : List Byte) (b : Byte) : List Byte × Option (List Byte) :=
  match frame with
  | [] => (if b = stationMarker then [b] else [], none)
  | _ :: _ =>
    let now := frame ++ [b]
    match now[3]? with
    | none => (now, none)
    | some len =>
      if 240 < len.toNat then ([], none)
      else if now.length = 6 + len.toNat then ([], some now)
      else (now, none)

/-! ## Requests (R161, manual 10.4) -/

/-- The request start marker: the first byte of a request period (R161). -/
def requestMarker : Byte := 0xD1

/-! ## Responses (manual 10.4, R169) -/

/-- The response frame as shifted out, with its OVERRUN mark (R165). -/
def responseFrame (overrun : Bool) (r : Response) : List Byte :=
  let checked := [statusCode r.status, flag overrun] ++ u16 r.body.length ++ r.body
  0xD2 :: checked ++ be16 (crc checked)

/-- An event record in 17 bytes (R169). -/
def eventBytes (e : EventRecord) : List Byte :=
  be32 e.seq ++ be32 e.time ++ [eventCode e.kind, opt8 (e.scheme.map Fin.val), opt8 (e.point.map Fin.val),
    opt8 (e.party.map Fin.val)] ++
  (match e.detail with
   | some d => 1 :: be32 (BitVec.ofInt 32 d)
   | none => [0, 0, 0, 0, 0])

/-- A measurement slot in 14 bytes (R11, manual 10.4). -/
def measBytes (m : MeasSlot) : List Byte :=
  [opt8 (m.link.map Fin.val)] ++ optI16 m.value ++ i16 m.held ++ [qualityCode m.quality] ++ opt32 m.lastUpdate ++
    u16 m.limit ++ [flag m.stale]

/-- A detection slot (R16). -/
def detBytes (d : DetSlot) : List Byte := [sourceCode d.source, flag d.asserted] ++ opt32 d.lastRise

/-- The header section as R166 lays it out. -/
def headerBytes (d : SchemeDef) : List Byte :=
  d.label ++ [u8 d.owner.val, d.authority.setWidth 8, u8 (d.autoRearm.toNat + 2 * d.enabledAtStart.toNat)]

def termsBytes (d : SchemeDef) : List Byte :=
  policyCode d.policy :: counted (fun t => u8 t.1.val :: i16 t.2) d.terms

def curveBytes (d : SchemeDef) : List Byte :=
  u16 d.margin ++ u16 d.overshoot ++ counted (fun c => i16 c.1 ++ u16 c.2) d.curve

def candidatesBytes (d : SchemeDef) : List Byte := counted (fun p => [u8 p.val]) d.candidates

def triggersBytes (d : SchemeDef) : List Byte :=
  u8 d.k :: u16 d.window ++ counted (fun x => [u8 x.val]) d.sources

/-- Every field of a live arming record or snapshot, in the order of R103. -/
def recordBytes (r : ArmingRecord) : List Byte :=
  be32 r.time ++ optI16 r.figures.q ++ [flagsByte r.figures.flags] ++ u16 r.figures.a0 ++ u16 r.figures.a ++
    u16 r.figures.cap ++ counted (fun e => u8 e.1.val :: u16 e.2) r.selected ++
    counted (fun e => [u8 e.1.val, reasonCode e.2]) r.skipped ++ u16 r.total ++ [adequacyCode r.adequacy] ++
    optU16 r.shortfall

/-- The trigger time, trigger slot and counted sources of a trigger (R126). -/
def sourcesBytes (xs : List (DetId × Time)) : List Byte := counted (fun e => u8 e.1.val :: be32 e.2) xs

def latchBytes (t : Trigger) : List Byte := be32 t.time ++ [u8 t.slot.val] ++ sourcesBytes t.counted

/-- An entry result, in the order of R134. -/
def entryBytes (e : EntryResult) : List Byte :=
  [opt8 (e.answer.map firingAnswerCode), opt8 (e.order.map (fun o => o.1.val))] ++ optTag (e.order.map Prod.snd) ++
    [opt8 (e.backupPoint.map Fin.val), opt8 (e.backupAnswer.map backupAnswerCode)] ++ optTag e.backupTag ++
    optU16 e.backupValue ++ [opt8 (e.outcome.map entryOutcomeCode)] ++ opt32 e.outcomeTime ++ [flag e.late]

/-- Every field of a trigger record, in the order of R122. -/
def triggerBytes (r : TriggerRecord) : List Byte :=
  be32 r.trigger.time ++ be32 r.takeTime ++ [flag r.replayed, u8 r.trigger.slot.val] ++
    sourcesBytes r.trigger.counted ++ be24 r.defGen ++ be24 r.armGen ++ recordBytes r.snapshot ++
    counted entryBytes r.entries ++ opt32 r.completion ++ optU16 r.delivered

end Sys2Proof.Machine.Wire
end

