-- ==== Sys2Proof/Machine/Operands.lean ====
section
/-! DEFINITION. The operand forms: what a request body of each kind carries (R166), and the section contents with the
checks R42 to R46 make of them, shared by definition writes and by the image (R55). -/

namespace Sys2Proof.Machine

/-! ## Sections -/

/-- The fields of a header section (R42). -/
structure HeaderFields where
  label : List Byte
  owner : PartyId
  authority : BitVec 4
  autoRearm : Bool
  enabledAtStart : Bool
  deriving DecidableEq, Repr

/-- A printable character, 0x20 to 0x7E. -/
def printable (b : Byte) : Bool := decide (0x20 ≤ b.toNat) && decide (b.toNat ≤ 0x7E)

/-- The header fields that pass R42. `flags` is bit 0 auto-rearm and bit 1 enabled-at-start, with no bit set above. -/
def headerFields (label : List Byte) (owner authority flags : Byte) : Option HeaderFields :=
  match finOf 4 owner.toNat with
  | some o =>
    if label.length = 8 ∧ label.all printable = true ∧ authority.toNat < 16 ∧
        authority.getLsbD o.val = true ∧ flags.toNat < 4 then
      some { label := label, owner := o, authority := authority.setWidth 4, autoRearm := flags.getLsbD 0,
             enabledAtStart := flags.getLsbD 1 }
    else none
  | none => none

/-- The header section's contents: label (8), owner, authority set, flags (R166). -/
def parseHeader (contents : List Byte) : Option HeaderFields :=
  match contents.drop 8 with
  | [owner, authority, flags] => headerFields (contents.take 8) owner authority flags
  | _ => none

/-- A terms list R43 takes, but for its count: slots 0 to 255 without repeats, weights within ±1024. -/
def termsOf (xs : List (Nat × Int)) : Option (List (MeasId × Int)) :=
  if (xs.map Prod.fst).Nodup ∧ xs.all (fun t => decide (-1024 ≤ t.2 ∧ t.2 ≤ 1024)) = true then
    xs.mapM (fun t => (finOf 256 t.1).map (fun m => (m, t.2)))
  else none

def policyOf (code : Byte) : Option StalePolicy :=
  if code = 0 then some .holdLast else if code = 1 then some .armFull else none

/-- Each x is strictly greater than the one before it (R44). -/
def risingX : List (Int × Nat) → Bool
  | (x, _) :: (x', y') :: rest => decide (x < x') && risingX ((x', y') :: rest)
  | _ => true

/-- The breakpoint ranges, M and O that R44 takes, but for the count. -/
def curveValid (curve : List (Int × Nat)) (margin overshoot : Nat) : Bool :=
  curve.all (fun c => decide (-32767 ≤ c.1 ∧ c.1 ≤ 32767 ∧ c.2 ≤ 30000)) && risingX curve &&
    decide (margin ≤ 5000) && decide (overshoot ≤ 30000)

/-- A candidate list R45 takes: at most 16 points 0 to 127, none twice. -/
def candidatesOf (xs : List Nat) : Option (List PointId) :=
  if xs.length ≤ 16 ∧ xs.Nodup then xs.mapM (finOf 128) else none

/-- A list of trigger sources R46 takes, but for its least count: at most 6 slots 0 to 63, none twice. -/
def sourcesOf (xs : List Nat) : Option (List DetId) :=
  if xs.length ≤ 6 ∧ xs.Nodup then xs.mapM (finOf 64) else none

/-- The `n`-th 16-bit field of a byte list, big-endian. -/
def word16At (bytes : List Byte) (n : Nat) : Word16 := (bytes.getD n 0) ++ (bytes.getD (n + 1) 0)

/-- `n × (slot (1), weight (2))`. -/
def termBytesOf : Nat → List Byte → List (Nat × Int)
  | n + 1, slot :: hi :: lo :: rest => (slot.toNat, (hi ++ lo).toInt) :: termBytesOf n rest
  | _, _ => []

/-- `n × (x (2), y (2))`. -/
def curveBytesOf : Nat → List Byte → List (Int × Nat)
  | n + 1, xh :: xl :: yh :: yl :: rest => ((xh ++ xl).toInt, (yh ++ yl).toNat) :: curveBytesOf n rest
  | _, _ => []

/-- Check 1 of R48 on the contents: they have the length their declared count implies (R166), and the one coded field a
section carries, the flow-stale policy, holds a code of its table (R168; log entry 15). -/
def sectionFormOk (sec : Section) (c : List Byte) : Bool :=
  match sec with
  | .header => decide (c.length = 11)
  | .terms => decide (2 ≤ c.length ∧ c.length = 2 + 3 * (c.getD 1 0).toNat) && (policyOf (c.getD 0 0)).isSome
  | .curve => decide (5 ≤ c.length ∧ c.length = 5 + 4 * (c.getD 4 0).toNat)
  | .candidates => decide (1 ≤ c.length ∧ c.length = 1 + (c.getD 0 0).toNat)
  | .triggers => decide (4 ≤ c.length ∧ c.length = 4 + (c.getD 3 0).toNat)

/-- A definition with its header replaced (R42, R49). -/
def SchemeDef.withHeader (d : SchemeDef) (h : HeaderFields) : SchemeDef :=
  { d with label := h.label, owner := h.owner, authority := h.authority, autoRearm := h.autoRearm,
           enabledAtStart := h.enabledAtStart }

/-- The definition with section `sec` replaced by these contents, where they are valid by R42 to R46; the definition
generation is not touched. -/
def writtenSection (sec : Section) (c : List Byte) (d : SchemeDef) : Option SchemeDef :=
  match sec with
  | .header =>
    match parseHeader c with
    | some h => if h.owner = d.owner then some (d.withHeader h) else none
    | none => none
  | .terms =>
    let xs := termBytesOf (c.getD 1 0).toNat (c.drop 2)
    match policyOf (c.getD 0 0), termsOf xs with
    | some pol, some ts =>
      if 1 ≤ ts.length ∧ ts.length ≤ 8 then some { d with terms := ts, policy := pol } else none
    | _, _ => none
  | .curve =>
    let curve := curveBytesOf (c.getD 4 0).toNat (c.drop 5)
    let margin := (word16At c 0).toNat
    let overshoot := (word16At c 2).toNat
    if 2 ≤ curve.length ∧ curve.length ≤ 8 ∧ curveValid curve margin overshoot = true then
      some { d with curve := curve, margin := margin, overshoot := overshoot }
    else none
  | .candidates =>
    match candidatesOf ((c.drop 1).map BitVec.toNat) with
    | some ps => some { d with candidates := ps }
    | none => none
  | .triggers =>
    let k := (c.getD 0 0).toNat
    let w := (word16At c 1).toNat
    match sourcesOf ((c.drop 4).map BitVec.toNat) with
    | some ds =>
      if 1 ≤ ds.length ∧ 1 ≤ k ∧ k ≤ ds.length ∧ 1 ≤ w ∧ w ≤ 1000 then
        some { d with sources := ds, k := k, window := w }
      else none
    | none => none

/-- The definition a header write gives an undefined entry (R49). -/
def SchemeDef.new (h : HeaderFields) : SchemeDef :=
  { label := h.label, owner := h.owner, authority := h.authority, autoRearm := h.autoRearm,
    enabledAtStart := h.enabledAtStart, terms := [], policy := .holdLast, curve := [], margin := 0, overshoot := 0,
    candidates := [], sources := [], k := 1, window := 1, protection := .opened, defGen := 1 }

/-- The definition is complete (R47). -/
def SchemeDef.complete (d : SchemeDef) : Bool :=
  decide (1 ≤ d.terms.length) && decide (2 ≤ d.curve.length) && decide (1 ≤ d.sources.length)

def kindOf (code : Byte) : Option PointKind :=
  if code = 0 then some .genDrop else if code = 1 then some .loadShed
  else if code = 2 then some .lineOpen else if code = 3 then some .shuntSwitch else none

def protectionOf (code : Byte) : Option Protection :=
  if code = 0 then some .opened else if code = 1 then some .locked else if code = 2 then some .fixed else none

/-- An optional object number below `n`: absent as 0xFF, refused where it is neither. -/
def optFinOf (n : Nat) (b : Byte) : Option (Option (Fin n)) :=
  if b = 0xFF then some none else (finOf n b.toNat).map some

/-! ## Point definitions -/

/-- The definition these fields give point `p`, where every field but the confirm timeout lies in the range R21 gives
and the backup is another point (R22). -/
def pointDefOf (p : PointId) (owner kind link address valueSlot statusSlot backup : Byte) (timeout : Nat) :
    Option PointDef :=
  match finOf 4 owner.toNat, kindOf kind, finOf 8 link.toNat, optFinOf 64 statusSlot, optFinOf 128 backup with
  | some o, some kd, some l, some st, some b =>
    if b = some p then none
    else some { owner := o, kind := kd, link := l, address := address, valueSlot := ⟨valueSlot.toNat, valueSlot.isLt⟩,
                statusSlot := st, timeout := timeout, backup := b }
  | _, _, _, _, _ => none

/-- The definitions of the other defined points. -/
def othersDefined (points : Vector (Option Point) 128) (p : PointId) : List PointDef :=
  (List.finRange 128).filterMap (fun q => if q = p then none else points[q].map Point.defn)

/-- The checks R22 makes against the link parameters and the other defined points: an enabled FULL link, no other point
on the same link and output address, and fewer than 32 others on the link. -/
def pointFits (links : Vector Link 8) (points : Vector (Option Point) 128) (p : PointId) (x : PointDef) : Bool :=
  (links[x.link]).params.isFull &&
    (othersDefined points p).all (fun y => !(decide (y.link = x.link) && decide (y.address = x.address))) &&
    decide ((othersDefined points p).countP (fun y => y.link = x.link) < 32)

/-! ## Request bodies (R166) -/

/-- What a request frame's kind code and body ask for. -/
inductive ParsedRequest where
  /-- The kind code names no request. -/
  | unknown
  /-- The body has not the layout of its kind: check 1 of the owning rule, BAD_ARGUMENT. -/
  | malformed
  | request (r : Request)
  deriving DecidableEq, Repr

/-- A body that is one number. -/
def oneByte (body : List Byte) (f : Byte → Request) : ParsedRequest :=
  match body with
  | [x] => .request (f x)
  | _ => .malformed

/-- A body that is two numbers. -/
def twoBytes (body : List Byte) (f : Byte → Byte → Request) : ParsedRequest :=
  match body with
  | [x, y] => .request (f x y)
  | _ => .malformed

/-- An empty body. -/
def noBytes (body : List Byte) (r : Request) : ParsedRequest :=
  match body with
  | [] => .request r
  | _ :: _ => .malformed

def sectionOf (code : Byte) : Option Section :=
  if code = 0 then some .header else if code = 1 then some .terms else if code = 2 then some .curve
  else if code = 3 then some .candidates else if code = 4 then some .triggers else none

/-- The request kinds of R166 by kind code, with their bodies. -/
def parseRequest (kind : Byte) (body : List Byte) : ParsedRequest :=
  if kind = 0x01 then noBytes body .queryStatus
  else if kind = 0x02 then oneByte body .readScheme
  else if kind = 0x03 then oneByte body .readPoint
  else if kind = 0x04 then twoBytes body .readMeasurements
  else if kind = 0x05 then twoBytes body .readDetections
  else if kind = 0x06 then oneByte body .readArming
  else if kind = 0x07 then oneByte body .readTrigger
  else if kind = 0x08 then
    match body with
    | [c] => .request (.readEvents c)
    | [c, a, b, d, e] => .request (.readEventsStart c (a ++ b ++ d ++ e))
    | _ => .malformed
  else if kind = 0x10 then
    match body with
    | k :: code :: contents =>
      match sectionOf code with
      | some sec => .request (.writeSection sec k contents)
      | none => .malformed
    | _ => .malformed
  else if kind = 0x11 then
    match body with
    | [p, o, kd, l, a, v, st, t, b] => .request (.writePoint ⟨p, o, kd, l, a, v, st, t, b⟩)
    | _ => .malformed
  else if kind = 0x20 then oneByte body .enable
  else if kind = 0x21 then oneByte body .disable
  else if kind = 0x22 then
    match body with
    | [k, a, b, c] => .request (.consent k (a ++ b ++ c))
    | _ => .malformed
  else if kind = 0x23 then oneByte body .withdraw
  else if kind = 0x24 then oneByte body .resetLockout
  else if kind = 0x25 then twoBytes body .protect
  else if kind = 0x30 then
    match body with
    | [p, m] =>
      if m = 0 then .request (.blockImmediate p) else if m = 1 then .request (.blockDeferred p) else .malformed
    | _ => .malformed
  else if kind = 0x31 then oneByte body .unblockPoint
  else if kind = 0x32 then oneByte body .restorePoint
  else if kind = 0x40 then noBytes body .storeLoad
  else if kind = 0x41 then noBytes body .storeSave
  else .unknown

/-- What a request period's bytes after the start marker come to (R163, checks 1, 2 and 4): the status of a rejected
frame, or the request. Bytes after a complete frame are ignored. -/
inductive TakenFrame where
  | frameError
  | parsed (r : ParsedRequest)
  deriving DecidableEq, Repr

/-- The frame of a request period is complete (R163): its length byte is 250 or less and its last check byte has been
received (log entry 14 for which byte that is). A frame whose length byte is above 250 is taken when the period ends. -/
def frameComplete (bytes : List Byte) : Bool :=
  match bytes with
  | _ :: len :: rest => decide (len.toNat ≤ 250) && decide (len.toNat + 2 ≤ rest.length)
  | _ => false

/-- Judges the bytes received after the start marker by checks 1 and 2 of R163, and reads the request. -/
def judgeFrame (bytes : List Byte) : TakenFrame :=
  match bytes with
  | kind :: len :: rest =>
    let body := rest.take len.toNat
    let check := (rest.drop len.toNat).take 2
    if 250 < len.toNat ∨ rest.length < len.toNat + 2 then .frameError
    else if check ≠ Wire.be16 (Wire.crc (kind :: len :: body)) then .frameError
    else .parsed (parseRequest kind body)
  | _ => .frameError

end Sys2Proof.Machine
end

