-- ==== Sys2Proof/Machine/Execution.lean ====
section
/-! DEFINITION. Trip orders and executions (manual chapter 8): placing, confirming and failing an order, backups, late
echoes, and the completion of an execution. -/

namespace Sys2Proof.Machine

/-! ## Orders on their links (R133, R136 to R139) -/

/-- The order in flight for point `p`, with the link that holds it. -/
def State.orderOf (s : State) (p : PointId) : Option (LinkId × TripOrder) :=
  match s.points[p] with
  | some x => ((s.links[x.defn.link]).orders.find? (fun o => o.point = p)).map (fun o => (x.defn.link, o))
  | none => none

/-- The order of point `p` stops being in flight on link `l`. A frame already going out is not cut short (R28, R143). -/
def State.discardOrder (s : State) (l : LinkId) (p : PointId) : State :=
  s.modLink l (fun k => { k with orders := k.orders.filter (fun o => o.point ≠ p) })

/-- A further entry waits on the order of point `p` (R133). -/
def State.joinOrder (s : State) (l : LinkId) (p : PointId) (ref : WaitRef) : State :=
  s.modLink l (fun k =>
    { k with orders := k.orders.map (fun o => if o.point = p then { o with waiting := o.waiting ++ [ref] } else o) })

/-- The order that a placement for point `p` with definition `d` makes (R133, R136). -/
def State.newOrder (s : State) (p : PointId) (d : PointDef) (ref : WaitRef) (backup : Bool) : TripOrder :=
  { tag := (s.links[d.link]).nextTag, point := p, address := d.address, kind := d.kind, placer := ref.scheme,
    backup := backup, deadline := s.clock + BitVec.ofNat 32 d.timeout, position := .queued, waiting := [ref] }

/-- Places an order for point `p` (R26, R27, R136): the link's next tag is taken and advances, the order joins the tail
of the queue (not in bench mode, R151), the point becomes ORDERED, its late list is emptied (R146), and the requests of
R25 are made. -/
def State.placeOrder (s : State) (p : PointId) (d : PointDef) (o : TripOrder) : State :=
  let s := s.modLink d.link (fun k =>
    { k with nextTag := k.nextTag + 1, orders := if s.bench then k.orders else k.orders ++ [o] })
  let s := s.modPoint p (fun x => { x with orderState := .ordered, lastTag := some o.tag, lastOutcome := .none })
  State.requestForPoint { s with lateLists := modV s.lateLists p (fun _ => []) } p

/-! ## Entry results (R134, R147) -/

/-- Changes the entry result a reference names, where the scheme's trigger record still belongs to that execution. -/
def State.modEntry (s : State) (ref : WaitRef) (f : EntryResult → EntryResult) : State :=
  s.modScheme ref.scheme (fun sc =>
    { sc with record := sc.record.map (fun r =>
        if r.execution = ref.execution then { r with entries := r.entries.modify ref.position f } else r) })

/-- An entry takes its outcome, final at this event (R147). -/
def State.finishEntry (s : State) (ref : WaitRef) (o : EntryOutcome) : State :=
  s.modEntry ref (fun e => { e with outcome := some o, outcomeTime := some s.clock })

/-- An entry result at the taking: every field absent (R134). -/
def EntryResult.empty : EntryResult :=
  { answer := none, order := none, backupPoint := none, backupAnswer := none, backupTag := none, backupValue := none,
    outcome := none, outcomeTime := none, late := false }

/-! ## Completion (R148, R149) -/

/-- The sum over BACKUP_CONFIRMED entries of their backup values, each backup point counted once and none that is in
`seen` (R148). -/
def backupSum : List PointId → List EntryResult → Nat
  | _, [] => 0
  | seen, e :: es =>
    match e.outcome, e.backupPoint with
    | some .backupConfirmed, some b =>
      if seen.contains b then backupSum seen es else (e.backupValue.getD 0) + backupSum (b :: seen) es
    | _, _ => backupSum seen es

/-- The entry delivered its own credited value (R148). -/
def EntryResult.ownDelivered (e : EntryResult) : Bool :=
  decide (e.outcome = some .confirmed) || decide (e.outcome = some .mergedConfirmed)

/-- The delivered amount of an execution (R148). -/
def TriggerRecord.deliveredAmount (r : TriggerRecord) : Nat :=
  let own := ((r.snapshot.selected.zip r.entries).filter (fun x => x.2.ownDelivered)).map Prod.fst
  min 65000 ((own.map Prod.snd).sum + backupSum (own.map Prod.fst) r.entries)

/-- The scheme is FIRING and every entry of its execution is final (R149). -/
def Scheme.executionDone (sc : Scheme) : Bool :=
  match sc.record with
  | some r =>
    decide (sc.state = .firing) && r.completion.isNone && r.entries.all (fun e => e.outcome.isSome)
  | none => false

/-- Completes the execution of scheme `k`, steps 1 to 3 of R149: the record is closed, EXEC_COMPLETE is appended, and
the scheme becomes LOCKOUT (R75, R128) or PRIMED (R76, R120). -/
def State.completeExecution (s : State) (k : SchemeId) : State :=
  match s.schemes[k].record with
  | none => s
  | some r =>
    let s := s.modScheme k (fun sc =>
      { sc with record := some { r with completion := some s.clock, delivered := some r.deliveredAmount } })
    let s := s.append .execComplete (scheme := some k) (detail := some (r.deliveredAmount : Int))
    if (s.schemes[k].defn.map SchemeDef.autoRearm).getD false then
      s.modScheme k (fun sc => { sc with state := .primed, rearming := true, pendingPass := true })
    else
      ((s.modScheme k (fun sc => { sc with state := .lockout, consents := Vector.replicate 4 none })).voidPass
        k).dropLatch k

/-- Completes the execution of scheme `k` where its last waiting entry has become final (R149). -/
def State.completeIfDone (s : State) (k : SchemeId) : State :=
  if s.schemes[k].executionDone then s.completeExecution k else s

/-- The schemes of a list of references, each where it stands last: the order in which executions whose entries became
final one after another complete (R141, R144). -/
def lastOf : List SchemeId → List SchemeId
  | [] => []
  | k :: ks => if ks.contains k then lastOf ks else k :: lastOf ks

/-- Completes the executions these references leave without a waiting entry, in order (step 6 of R141, step 7 of
R144). -/
def State.completeAll (s : State) (refs : List WaitRef) : State :=
  (lastOf (refs.map WaitRef.scheme)).foldl State.completeIfDone s

/-! ## Confirmation (R28, R141) -/

inductive ConfirmCause where
  | echo
  | statusSlot
  | bench
  deriving DecidableEq, Repr

/-- What the cause adds to the tag in ORDER_CONFIRMED's detail (R150). -/
def ConfirmCause.mark : ConfirmCause → Int
  | .echo => 0
  | .statusSlot => 256
  | .bench => 512

/-- The outcome a confirmed order gives its `i`-th waiting entry (step 5 of R141). -/
def TripOrder.confirmedOutcome (o : TripOrder) (i : Nat) (role : Role) : EntryOutcome :=
  match role with
  | .backup => .backupConfirmed
  | .primary => if i = 0 ∧ o.backup = false then .confirmed else .mergedConfirmed

/-- Confirms order `o` of link `l` (R141). -/
def State.confirmOrder (s : State) (l : LinkId) (o : TripOrder) (cause : ConfirmCause) : State :=
  let s := s.modPoint o.point (fun x => { x with orderState := .tripped, lastOutcome := .confirmed })
  let s := s.discardOrder l o.point
  let s := s.append .orderConfirmed (scheme := some o.placer) (point := some o.point)
    (detail := some ((o.tag.toNat : Int) + cause.mark))
  let s := (s.requestForPoint o.point).completeBlock o.point
  let s := o.waiting.zipIdx.foldl (fun s r => s.finishEntry r.1 (o.confirmedOutcome r.2 r.1.role)) s
  s.completeAll o.waiting

/-! ## Failure and backups (R29, R142 to R146) -/

/-- The backup value of point `b` (R145): its value slot's value where that is present and positive, otherwise 0. -/
def State.backupValue (s : State) (d : PointDef) : Nat :=
  match s.meas[d.valueSlot].value with
  | some v => v.toNat
  | none => 0

/-- The backup request for point `b` on behalf of the entry `ref`, whose order for point `failed` has failed (R27,
R145). -/
def State.requestBackup (s : State) (failed b : PointId) (ref : WaitRef) : State :=
  let ref' : WaitRef := { ref with role := .backup }
  match s.points[b] with
  | some x =>
    match x.orderState, x.availability with
    | .idle, .inService =>
      let o := s.newOrder b x.defn ref' true
      let v := s.backupValue x.defn
      let s := s.placeOrder b x.defn o
      let s := s.modEntry ref (fun e =>
        { e with backupPoint := some b, backupAnswer := some .placed, backupTag := some o.tag, backupValue := some v })
      let s := s.append .backupPlaced (scheme := some ref.scheme) (point := some b)
        (detail := some ((o.tag.toNat : Int) + 256 * (failed.val : Int)))
      if s.bench then s.confirmOrder x.defn.link o .bench else s
    | .ordered, _ =>
      let v := s.backupValue x.defn
      match s.orderOf b with
      | some (l, o) =>
        (s.joinOrder l b ref').modEntry ref (fun e =>
          { e with backupPoint := some b, backupAnswer := some .follows, backupTag := some o.tag,
                   backupValue := some v })
      | none => s
    | _, _ =>
      (s.modEntry ref (fun e => { e with backupPoint := some b, backupAnswer := some .unavailable })).finishEntry ref
        .backupUnavailable
  | none =>
    (s.modEntry ref (fun e => { e with backupPoint := some b, backupAnswer := some .unavailable })).finishEntry ref
      .backupUnavailable

/-- What a failed order gives its `i`-th waiting entry (step 5 of R144); `backup` is the point's backup as its
definition stands. -/
def State.failEntry (o : TripOrder) (backup : Option PointId) (s : State) (r : WaitRef × Nat) : State :=
  match r.1.role with
  | .backup => s.finishEntry r.1 .backupFailed
  | .primary =>
    if r.2 = 0 ∧ o.backup = false then
      match backup with
      | none => s.finishEntry r.1 .failed
      | some b => s.requestBackup o.point b r.1
    else s.finishEntry r.1 .mergedFailed

/-- Fails order `o` of link `l` (R144), by its deadline or by a REFUSED echo. -/
def State.failOrder (s : State) (l : LinkId) (o : TripOrder) (expired : Bool) : State :=
  let s := s.modPoint o.point (fun x =>
    { x with orderState := .idle, availability := .faulted, lastOutcome := .failed, blockPending := false })
  let s := s.discardOrder l o.point
  let s := s.append .orderFailed (scheme := some o.placer) (point := some o.point)
    (detail := some ((o.tag.toNat : Int) + (if expired then 256 else 0)))
  let s := s.requestForPoint o.point
  let s := o.waiting.zipIdx.foldl (State.failEntry o ((s.points[o.point].map (fun x => x.defn.backup)).getD none)) s
  State.completeAll { s with lateLists := modV s.lateLists o.point (fun _ => o.waiting) } o.waiting

/-! ## Late echoes (R30, R146) -/

/-- The echo is late for point `p` (R30). -/
def State.isLateFor (s : State) (l : LinkId) (tag address : Byte) (p : PointId) : Bool :=
  match s.points[p] with
  | some x =>
    decide (x.defn.link = l) && decide (x.defn.address = address) && decide (x.lastOutcome = .failed) &&
      decide (x.lastTag = some tag)
  | none => false

/-- Takes a late echo for point `p` (R30) and sets the late marks of its late list (R146). -/
def State.takeLateEcho (s : State) (p : PointId) (tag : Byte) : State :=
  let refs := s.lateLists[p]
  let wasIdle := decide (s.points[p].map Point.orderState = some .idle)
  let s := s.modPoint p (fun x =>
    { x with orderState := if x.orderState = .idle then .tripped else x.orderState, lastOutcome := .confirmed })
  let s := s.append .orderLate (scheme := refs.head?.map WaitRef.scheme) (point := some p)
    (detail := some (tag.toNat : Int))
  let s := if wasIdle then s.requestForPoint p else s
  let s := refs.foldl (fun s r => s.modEntry r (fun e => { e with late := true })) s
  { s with lateLists := modV s.lateLists p (fun _ => []) }

/-! ## Firing a snapshot (R26, R135) -/

/-- The firing request for one selected entry of scheme `k`'s snapshot and its answer (R26, R135). -/
def State.fireEntry (k : SchemeId) (execution : BitVec 32) (s : State) (entry : (PointId × Nat) × Nat) : State :=
  let p := entry.1.1
  let ref : WaitRef := { scheme := k, execution := execution, position := entry.2, role := .primary }
  match s.points[p] with
  | some x =>
    match x.orderState, x.availability with
    | .idle, .inService =>
      let o := s.newOrder p x.defn ref false
      let s := s.placeOrder p x.defn o
      let s := s.modEntry ref (fun e => { e with answer := some .placed, order := some (x.defn.link, o.tag) })
      let s := s.append .orderPlaced (scheme := some k) (point := some p)
        (detail := some ((o.tag.toNat : Int) + (if s.bench then 512 else 0)))
      if s.bench then s.confirmOrder x.defn.link o .bench else s
    | .ordered, _ =>
      match s.orderOf p with
      | some (l, o) =>
        (s.joinOrder l p ref).modEntry ref (fun e => { e with answer := some .merged, order := some (l, o.tag) })
      | none => s
    | .tripped, _ => (s.modEntry ref (fun e => { e with answer := some .alreadyOpen })).finishEntry ref .alreadyOpen
    | .idle, _ => (s.modEntry ref (fun e => { e with answer := some .skipped })).finishEntry ref .skipped
  | none => (s.modEntry ref (fun e => { e with answer := some .skipped })).finishEntry ref .skipped

end Sys2Proof.Machine
end

