-- ==== Sys2Proof/Machine/Triggers.lean ====
section
/-! DEFINITION. Triggers and trigger records (manual chapter 7): coincidence, the answer a trigger gets in each scheme
state, and the taking of a trigger, direct or replayed. -/

namespace Sys2Proof.Machine

/-! ## Coincidence (R116, R117) -/

/-- The counted sources of a definition for a rising event on `d` at time `t`, in triggers-section order (R117). -/
def State.countedSources (s : State) (sources : List DetId) (window : Nat) (d : DetId) (t : Time) :
    List (DetId × Time) :=
  sources.filterMap (fun e =>
    if e = d then some (d, t)
    else
      match s.det[e].lastRise with
      | some r => if s.recentRise[e] = true ∧ (t - r).toNat < window then some (e, r) else none
      | none => none)

/-- The trigger that a rising event on `d` now is of scheme `k`, where its coincidence is met (R117). -/
def State.triggerFor (s : State) (d : DetId) (k : SchemeId) : Option Trigger :=
  match s.schemes[k].defn with
  | some x =>
    if s.schemes[k].state ≠ .disabled ∧ d ∈ x.sources then
      let counted := s.countedSources x.sources x.window d s.clock
      if x.k ≤ counted.length then some { time := s.clock, slot := d, counted := counted } else none
    else none
  | none => none

/-- The schemes a rising event on `d` triggers, with their triggers. -/
def State.triggered (s : State) (d : DetId) : List (SchemeId × Trigger) :=
  (List.finRange 32).filterMap (fun k => (s.triggerFor d k).map (fun t => (k, t)))

/-! ## Taking (R121, R129) -/

/-- The trigger record that a taking makes (R121, R122, R134). -/
def Scheme.newRecord (sc : Scheme) (snap : ArmingRecord) (t : Trigger) (now : Time) (replayed : Bool)
    (execution : BitVec 32) : TriggerRecord :=
  { trigger := t, takeTime := now, replayed := replayed, defGen := (sc.defn.map SchemeDef.defGen).getD 0,
    armGen := sc.armGen, snapshot := snap, entries := List.replicate snap.selected.length .empty,
    execution := execution, completion := none, delivered := none }

/-- Takes a trigger of scheme `k`, which is ARMED (R121; replayed: R129), and begins its execution (R135). -/
def State.takeTrigger (s : State) (k : SchemeId) (t : Trigger) (replayed : Bool) : State :=
  match s.schemes[k].live with
  | none => s
  | some snap =>
    let n := s.execCount
    let rec0 := s.schemes[k].newRecord snap t s.clock replayed n
    let s := { s with execCount := n + 1 }
    let s := s.modScheme k (fun sc => { sc with record := some rec0 })
    let s := s.append .triggerTaken (scheme := some k)
      (detail := some ((t.slot.val : Int) + (if replayed then 64 else 0)))
    let s := s.modScheme k (fun sc => { sc with state := .firing })
    let s := snap.selected.zipIdx.foldl (State.fireEntry k n) s
    s.completeIfDone k

/-- Latches a trigger, or loses it where the latch is set (R127). -/
def State.latchTrigger (s : State) (k : SchemeId) (t : Trigger) : State :=
  match s.schemes[k].latch with
  | none =>
    (s.modScheme k (fun sc => { sc with latch := some t })).append .retriggerLatched (scheme := some k)
      (detail := some (t.slot.val : Int))
  | some _ => s.append .retriggerLost (scheme := some k) (detail := some (t.slot.val : Int))

/-- Answers a trigger of scheme `k` by its state (R119). -/
def State.answerTrigger (s : State) (k : SchemeId) (t : Trigger) : State :=
  match s.schemes[k].state with
  | .armed => s.takeTrigger k t false
  | .firing => s.latchTrigger k t
  | .primed =>
    if s.schemes[k].rearming then s.latchTrigger k t
    else s.append .triggerUnarmed (scheme := some k) (detail := some (t.slot.val : Int))
  | .standby => s.append .triggerUnarmed (scheme := some k) (detail := some (t.slot.val : Int))
  | .lockout => s.append .triggerLocked (scheme := some k) (detail := some (t.slot.val : Int))
  | .disabled => s

/-- Replays the latched trigger of an ARMED scheme (R129). -/
def State.replayLatch (s : State) (k : SchemeId) : State :=
  match s.schemes[k].latch with
  | some t =>
    if s.schemes[k].state = .armed then
      (s.modScheme k (fun sc => { sc with latch := none, rearming := false })).takeTrigger k t true
    else s
  | none => s

end Sys2Proof.Machine
end

