-- ==== Sys2Proof/Machine/Detections.lean ====
section
/-! DEFINITION. The detection table (R12 to R15) and what it hands on: status-slot events to the action point table
(R31) and rising events to the trigger monitor (R118). -/

namespace Sys2Proof.Machine

/-- The defined points whose status slot is `d`. -/
def State.statusPoints (s : State) (d : DetId) : List PointId :=
  (List.finRange 128).filter (fun p => match s.points[p] with | some x => x.defn.statusSlot = some d | none => false)

/-- A rising event on the status slot of point `p` (R31). -/
def State.statusRise (p : PointId) (s : State) : State :=
  match s.points[p] with
  | some x =>
    match x.orderState with
    | .idle => (s.modPoint p (fun x => { x with orderState := .tripped })).requestForPoint p
    | .ordered =>
      match s.orderOf p with
      | some (l, o) => s.confirmOrder l o .statusSlot
      | none => s
    | .tripped => s
  | none => s

/-- A clearing event on the status slot of point `p` (R31). -/
def State.statusClear (p : PointId) (s : State) : State :=
  match s.points[p] with
  | some x =>
    match x.orderState with
    | .tripped => (s.modPoint p (fun x => { x with orderState := .idle })).requestForPoint p
    | .idle | .ordered => s
  | none => s

/-- The action point table takes a rising event on `d`: each point by itself (R31), in no stated order. -/
def State.pointsTakeRise (s : State) (d : DetId) : State :=
  s.forEachInSomeOrder (s.statusPoints d) State.statusRise

/-- The trigger monitor takes a rising event on `d` whole: each scheme it triggers is answered, in no stated order
(R118, R119). -/
def State.monitorTakesRise (s : State) (d : DetId) : State :=
  s.forEachInSomeOrder (s.triggered d) (fun x s => s.answerTrigger x.1 x.2)

/-- Hands a rising event on `d` to the trigger monitor and the action point table, in no stated order (R15; log entry
4). Where one of them has nothing to do there is no order to choose. -/
def State.handOnRise (s : State) (d : DetId) : State :=
  match s.statusPoints d, s.triggered d with
  | [], _ => s.monitorTakesRise d
  | _ :: _, [] => s.pointsTakeRise d
  | _ :: _, _ :: _ =>
    if Config.monitorFirst s.openCount then ((s.opened 1).monitorTakesRise d).pointsTakeRise d
    else ((s.opened 1).pointsTakeRise d).monitorTakesRise d

/-- An assertion of slot `d` (R13): a cleared slot rises, its recent-rise flag is set (R116), and the event is handed
on. -/
def State.assertSlot (s : State) (d : DetId) : State :=
  if s.det[d].asserted then s
  else
    let s := s.modDet d (fun x => { x with asserted := true, lastRise := some s.clock })
    State.handOnRise { s with recentRise := s.recentRise.set d true } d

/-- A clear of slot `d` (R13): an asserted slot clears, and the clearing event is handed to the action point table. -/
def State.clearSlot (s : State) (d : DetId) : State :=
  if s.det[d].asserted then
    let s := s.modDet d (fun x => { x with asserted := false })
    (s.statusPoints d).foldl (fun s p => s.statusClear p) s
  else s

end Sys2Proof.Machine
end

