-- ==== Sys2Proof/Machine/Arming.lean ====
section
/-! DEFINITION. The arming arithmetic (manual chapter 5) and the selection walk (R99 to R101). All of it is exact integer
arithmetic; each division is written with the rounding its rule states. -/

namespace Sys2Proof.Machine

/-! ## The index (R85 to R88) -/

/-- The term input (R85): the value of a fresh slot, the held value of a stale one. -/
def TermCopy.input (t : TermCopy) : Int := if t.stale then t.held else t.value.getD t.held

/-- The index sum S, in units of 1/256 (R86). -/
def indexSum (terms : List TermCopy) : Int := (terms.map (fun t => t.weight * t.input)).sum

/-- Division by 256 to the nearest integer, ties away from zero (R87). -/
def roundedIndex (sum : Int) : Int := if 0 ≤ sum then (sum + 128) / 256 else -((-sum + 128) / 256)

/-- The range of a measurement (R88). -/
def clampIndex (x : Int) : Int := if 32767 < x then 32767 else if x < -32767 then -32767 else x

/-! ## The curve (R89 to R92) -/

/-- The segment step (R91): N / D rounded toward positive infinity. -/
def segmentStep (n d : Int) : Int := if 0 ≤ n then (n + d - 1) / d else -(-n / d)

/-- The curve from breakpoint `(x, y)` on, for a Q not below x (R90, R91). -/
def curveFrom (q : Int) : Int × Nat → List (Int × Nat) → Nat
  | (_, y), [] => y
  | (x, y), (x', y') :: rest =>
    if q < x' then ((y : Int) + segmentStep ((q - x) * ((y' : Int) - (y : Int))) (x' - x)).toNat
    else curveFrom q (x', y') rest

/-- The base amount the curve gives index Q (R90). -/
def curveAt (curve : List (Int × Nat)) (q : Int) : Nat :=
  match curve with
  | [] => 0
  | (x, y) :: rest => if q ≤ x then y else curveFrom q (x, y) rest

/-- The largest y among the breakpoints (R89). -/
def largestY (curve : List (Int × Nat)) : Nat := (curve.map Prod.snd).foldl max 0

/-! ## Margin, cap and flags (R88, R93 to R95) -/

/-- The required amount (R93). -/
def requiredAmount (a0 margin : Nat) : Nat := if a0 = 0 then 0 else a0 + margin

/-- The flags of a computed index (R88). -/
def indexFlags (terms : List TermCopy) : ArmFlags :=
  { indexClamped := decide (clampIndex (roundedIndex (indexSum terms)) ≠ roundedIndex (indexSum terms)),
    staleHeld := terms.any TermCopy.stale, suspectInput := terms.any (fun t => t.quality = .suspect),
    fullArming := false }

/-- The only flag of a pass that does not compute its index (R89). -/
def fullArmingFlags : ArmFlags :=
  { indexClamped := false, staleHeld := false, suspectInput := false, fullArming := true }

/-- The arming figures of a pass (R83). -/
def PassInputs.figures (x : PassInputs) : Figures :=
  if x.policy = .armFull ∧ x.terms.any TermCopy.stale = true then
    let a := requiredAmount (largestY x.curve) x.margin
    { q := none, flags := fullArmingFlags, a0 := largestY x.curve, a := a, cap := a + x.overshoot }
  else
    let q := clampIndex (roundedIndex (indexSum x.terms))
    let a := requiredAmount (curveAt x.curve q) x.margin
    { q := some q, flags := indexFlags x.terms, a0 := curveAt x.curve q, a := a, cap := a + x.overshoot }

/-! ## The selection walk (R99 to R101) -/

/-- The walk before its first candidate (R99). -/
def PassInputs.startWalk (x : PassInputs) : Walk :=
  { total := 0, selected := [], skipped := [], remaining := x.candidates }

/-- Tests 2 to 6 of R100 for candidate `c`, judged as the point stands now. -/
def State.judgeCandidate (s : State) (cap : Nat) (w : Walk) (c : CandidateCopy) : Walk :=
  match s.unavailable c.point with
  | some r => { w with skipped := w.skipped ++ [(c.point, r)] }
  | none =>
    match c.value with
    | none => { w with skipped := w.skipped ++ [(c.point, .stale)] }
    | some v =>
      if v ≤ 0 then { w with skipped := w.skipped ++ [(c.point, .noOutput)] }
      else if cap < w.total + v.toNat then { w with skipped := w.skipped ++ [(c.point, .overshoot)] }
      else { w with selected := w.selected ++ [(c.point, v.toNat)], total := w.total + v.toNat }

/-- The walk goes on over at most `n` of the candidates `cs` (R100); it stops for good once T ≥ A. -/
def State.walkOn (s : State) (f : Figures) : List CandidateCopy → Nat → Walk → Walk
  | [], _, w => { w with remaining := [] }
  | c :: cs, 0, w => if f.a ≤ w.total then { w with remaining := [] } else { w with remaining := c :: cs }
  | c :: cs, n + 1, w =>
    if f.a ≤ w.total then { w with remaining := [] } else s.walkOn f cs n (s.judgeCandidate f.cap w c)

/-- The adequacy and shortfall of a total T against A (R101). -/
def judgeAdequacy (a total : Nat) : Adequacy × Option Nat :=
  if a = 0 then (.nil, none) else if a ≤ total then (.full, none) else (.short, some (a - total))

end Sys2Proof.Machine
end

