-- ==== Sys2Proof/Machine/Engine.lean ====
section
/-! DEFINITION. The arming engine (manual 6.3 and 6.4): taking a pending-pass flag, a pass in flight, its completion, and
the installation of its result. -/

namespace Sys2Proof.Machine

/-! ## Beginning a pass (R82, R105) -/

/-- The inputs a pass of a scheme with definition `d` copies now (R82). -/
def State.copyInputs (s : State) (d : SchemeDef) : PassInputs :=
  { terms := d.terms.map (fun t =>
      let m := s.meas[t.1]
      { weight := t.2, value := m.value, held := m.held, quality := m.quality, stale := m.stale })
    policy := d.policy, curve := d.curve, margin := d.margin, overshoot := d.overshoot
    candidates := d.candidates.map (fun p =>
      match s.points[p] with
      | some x => { point := p, value := s.meas[x.defn.valueSlot].value, stale := s.meas[x.defn.valueSlot].stale }
      | none => { point := p, value := none, stale := true }) }

/-- The pass of scheme `k` that begins now (R105, R106). -/
def State.newPass (s : State) (k : SchemeId) (d : SchemeDef) : Pass :=
  { scheme := k, begun := s.clock, void := false, inputs := s.copyInputs d,
    walk := (s.copyInputs d).startWalk }

/-- The engine comes to scheme `k` in number order (R105): where it is free and the flag is set it takes the flag, and
begins a pass where the scheme's state runs passes. -/
def State.takeFlag (s : State) (k : SchemeId) : State :=
  if s.engine = none ∧ s.schemes[k].pendingPass = true then
    let t := s.modScheme k (fun sc => { sc with pendingPass := false })
    match s.schemes[k].defn with
    | some d => if s.schemes[k].state.runsPasses then { t with engine := some (s.newPass k d) } else t
    | none => t
  else s

/-- The free engine takes the lowest-numbered set flags until one begins a pass or none is left (R105); none while the
image is loaded after cold reset (R114). -/
def State.takeFlags (s : State) : State :=
  if s.starting then s else (List.finRange 32).foldl State.takeFlag s

/-- The walk of the pass in flight goes on by a free amount before the next event (R100, R106; log entry 5). -/
def State.advanceWalk (s : State) : State :=
  match s.engine with
  | some x =>
    { s with
      engine := some { x with walk := s.walkOn x.inputs.figures x.walk.remaining (Config.walkProgress s.openCount) x.walk }
      openCount := s.openCount + 1 }
  | none => s

/-! ## Completing a pass (R106, R108 to R111) -/

/-- The walk of a pass, finished now: the candidates it had not reached are judged as they stand (R100). -/
def State.finishedWalk (s : State) (x : Pass) : Walk :=
  s.walkOn x.inputs.figures x.walk.remaining x.walk.remaining.length x.walk

/-- The installation check of the selected entries, in walk order: those kept, and those removed with their reasons
(R109). -/
def State.checkSelected (s : State) : List (PointId × Nat) → List (PointId × Nat) × List (PointId × SkipReason)
  | [] => ([], [])
  | e :: es =>
    let r := s.checkSelected es
    match s.unavailable e.1 with
    | none => (e :: r.1, r.2)
    | some why => (r.1, (e.1, why) :: r.2)

/-- The record a pass whose walk has ended as `w` installs now (R101, R103, R109). -/
def State.checkedRecord (s : State) (f : Figures) (w : Walk) : ArmingRecord :=
  let c := s.checkSelected w.selected
  let total := (c.1.map Prod.snd).sum
  { time := s.clock, figures := f, selected := c.1, skipped := w.skipped ++ c.2, total := total,
    adequacy := (judgeAdequacy f.a total).1, shortfall := (judgeAdequacy f.a total).2 }

/-- An arming generation advances, and saturates at 0xFFFFFF (R72). -/
def nextArmGen (g : Gen) : Gen := if g = genMax then genMax else g + 1

/-- The scheme table is told of an installation of scheme `k` (R71): a PRIMED scheme becomes ARMED, and a latched trigger
is replayed (R129). -/
def State.tellInstalled (s : State) (k : SchemeId) : State :=
  match s.schemes[k].state with
  | .primed =>
    let g := nextArmGen s.schemes[k].armGen
    let s := s.modScheme k (fun sc => { sc with state := .armed, armGen := g, rearming := false })
    (s.append .schemeArmed (scheme := some k) (detail := some (g.toNat : Int))).replayLatch k
  | .armed | .firing | .disabled | .standby | .lockout => s

/-- The new record is SHORT where the one it replaces was not (step 2 of R110). -/
def becomesShort (old : Option ArmingRecord) (new : ArmingRecord) : Bool :=
  decide (new.adequacy = .short) && !(match old with | some r => decide (r.adequacy = .short) | none => false)

/-- The points the replaced record held and the new one does not, in increasing number (R111). -/
def releasedPoints (old : Option ArmingRecord) (new : ArmingRecord) : List PointId :=
  match old with
  | some r => (List.finRange 128).filter (fun p => r.holds p && !new.holds p)
  | none => []

/-- Installs a checked record for scheme `k`, steps 1 to 4 of R110. -/
def State.install (s : State) (k : SchemeId) (new : ArmingRecord) : State :=
  let old := s.schemes[k].live
  let s := s.modScheme k (fun sc => { sc with live := some new })
  let s := if becomesShort old new then
      s.append .armingShort (scheme := some k) (detail := new.shortfall.map (fun n : Nat => (n : Int)))
    else s
  let s := s.tellInstalled k
  (releasedPoints old new).foldl State.completeBlock s

/-- The pass in flight completes (R106): discarded where its void mark is set (R108), otherwise checked and installed.
The engine is free either way. -/
def State.completePass (s : State) : State :=
  match s.engine with
  | some x =>
    if x.void then { s with engine := none }
    else
      State.install { s with engine := none } x.scheme (s.checkedRecord x.inputs.figures (s.finishedWalk x))
  | none => s

end Sys2Proof.Machine
end

