-- ==== Sys2Proof/Machine/Image.lean ====
section
/-! DEFINITION. The configuration image (manual 11.1): its checks (R172), its module entries (R173), how a load sets the
tables (R2, R12, R22, R55, R56), and the image a save writes (R58, R176). -/

namespace Sys2Proof.Machine

def hiByte (w : Word16) : Byte := w.extractLsb' 8 8
def loByte (w : Word16) : Byte := w.extractLsb' 0 8
def joinBytes (hi lo : Byte) : Word16 := hi ++ lo

/-! ## Reading an image (R172) -/

/-- The words from address `a` on. -/
def readWords (m : Memory) (a n : Nat) : List Word16 := (List.range n).map (fun i => Memory.read m (a + i))

/-- The body of the module a pointer names: absent, or its words; none where the pointer fails condition 2 of R172. -/
def readModule (m : Memory) (length : Nat) (pointer : Word16) : Option (Option (List Word16)) :=
  if pointer = 0x0000 ∨ pointer = 0xFFFF then some none
  else if pointer.toNat < 16 ∨ length ≤ pointer.toNat then none
  else if length < pointer.toNat + 1 + (Memory.read m pointer.toNat).toNat then none
  else some (some (readWords m (pointer.toNat + 1) (Memory.read m pointer.toNat).toNat))

/-- The 16-bit sum of a list of words. -/
def sumWords (ws : List Word16) : Word16 := ws.foldl (· + ·) 0

/-- A valid image: its length in words, and the bodies of its eight modules in pointer order. -/
structure Image where
  length : Nat
  modules : List (Option (List Word16))
  deriving DecidableEq, Repr

/-- The image a memory holds, or the cause of its rejection: the first condition of R172 that fails. -/
def readImage (m : Memory) : Except Nat Image :=
  let control := Memory.read m 0
  let length := (control.extractLsb' 0 14).toNat
  if control.extractLsb' 14 2 ≠ 0b10#2 ∨ length < 16 then .error 1
  else
    match ((List.range 8).map (fun i => readModule m length (Memory.read m (i + 1)))).mapM id with
    | none => .error 2
    | some bodies =>
      if sumWords (readWords m 0 16 ++ (bodies.map (fun b => b.getD [])).flatten) = Config.imageSum then
        .ok { length := length, modules := bodies }
      else .error 3

/-- The body of the `n`-th module, empty where it is absent. -/
def Image.body (x : Image) (n : Nat) : List Word16 := ((x.modules.getD n none).getD [])

/-- What reading the external store gives, and what it holds afterwards (log entry 8). -/
def State.storeRead (s : State) (answer : StoreAnswer) : Memory × Memory :=
  match answer with
  | .stored => (s.store, s.store)
  | .silent => ([], s.store)
  | .rewritten words => (Memory.ofWords words, Memory.ofWords words)

/-! ## Entries (R173) -/

def pairsOf : List Word16 → List (Word16 × Word16)
  | a :: b :: rest => (a, b) :: pairsOf rest
  | _ => []

/-- A body cut into entries whose length in words `size` reads from their leading words. An entry that would run past
the end is passed over, and so are the words after it (R173). Structural on `fuel`, at least the body's length. -/
def cutEntries (size : List Word16 → Nat) : Nat → List Word16 → List (List Word16)
  | 0, _ => []
  | fuel + 1, body =>
    if body = [] ∨ body.length < size body ∨ size body = 0 then []
    else body.take (size body) :: cutEntries size fuel (body.drop (size body))

def entriesOf (size : List Word16 → Nat) (body : List Word16) : List (List Word16) :=
  cutEntries size body.length body

/-- The count in the low byte of an entry's word `i`. -/
def countAt (i : Nat) (e : List Word16) : Nat := (loByte (e.getD i 0)).toNat

/-! ### Station map -/

/-- One station map pair, applied to the parameters set so far. -/
def applyStationPair (v : Vector LinkParams 8) (e : Word16 × Word16) : Vector LinkParams 8 :=
  match finOf 8 (hiByte e.1).toNat with
  | none => v
  | some l =>
    if loByte e.1 = 1 then
      if e.2 = 0 then modV v l (fun q => { q with enabled := false })
      else if e.2 = 1 then modV v l (fun q => { q with enabled := true })
      else v
    else if loByte e.1 = 2 then
      if e.2.toNat < 256 then modV v l (fun q => { q with station := loByte e.2 }) else v
    else if loByte e.1 = 3 then
      if e.2 = 0 then modV v l (fun q => { q with mode := .full })
      else if e.2 = 1 then modV v l (fun q => { q with mode := .listenOnly })
      else v
    else v

/-- The link parameters a station map body gives (R173). -/
def stationMap (body : List Word16) : Vector LinkParams 8 :=
  (pairsOf body).foldl applyStationPair (Vector.replicate 8 .default)

/-! ### Measurement map and detection map -/

/-- A map entry's link code: taken where it is 0 to 7 or 0xFF (R173). -/
def linkCode (b : Byte) : Option (Option LinkId) := optFinOf 8 b

/-- The measurement table a map body gives: every slot at its cold-reset contents (R1, R2, R173). -/
def measTable (body : List Word16) : Vector MeasSlot 256 :=
  tabulate (fun m =>
    match (pairsOf body).find? (fun e => (hiByte e.1).toNat = m.val ∧ (linkCode (loByte e.1)).isSome = true) with
    | some e =>
      MeasSlot.fresh ((linkCode (loByte e.1)).getD none)
        (if 10 ≤ e.2.toNat ∧ e.2.toNat ≤ 10000 then e.2.toNat else Config.defaultLimit)
    | none => .unmapped)

/-- The detection table a map body gives: every slot cleared (R12, R173). -/
def detTable (body : List Word16) : Vector DetSlot 64 :=
  tabulate (fun d =>
    if 48 ≤ d.val then .cleared (.fixed d)
    else
      match body.find? (fun e => (hiByte e).toNat = d.val ∧ (linkCode (loByte e)).isSome = true) with
      | some e =>
        match (linkCode (loByte e)).getD none with
        | some l => .cleared (.link l)
        | none => .cleared .unmapped
      | none => .cleared .unmapped)

/-! ### Point table -/

/-- A point as a load or a write first defines it, but for its availability (R21). -/
def Point.new (d : PointDef) (availability : Availability) : Point :=
  { defn := d, availability := availability, blockPending := false, orderState := .idle, lastTag := none,
    lastOutcome := .none }

/-- The confirm timeout an image word gives (R22). -/
def imageTimeout (w : Word16) : Nat := if 2 ≤ w.toNat ∧ w.toNat ≤ 250 then w.toNat else Config.defaultTimeout

/-- The point table with one more entry of point `p` judged (R22). -/
def loadPointEntry (links : Vector Link 8) (p : PointId) (v : Vector (Option Point) 128) (e : List Word16) :
    Vector (Option Point) 128 :=
  match v[p], e with
  | none, [w0, w1, w2, w3, w4] =>
    match pointDefOf p (loByte w0) (hiByte w1) (loByte w1) (hiByte w2) (loByte w2) (hiByte w3) (loByte w3)
        (imageTimeout w4) with
    | some d => if pointFits links v p d then v.set p (some (.new d .inService)) else v
    | none => v
  | _, _ => v

/-- The point table a body gives: entries in increasing point number, equal numbers in module order (R22). -/
def pointTable (links : Vector Link 8) (body : List Word16) : Vector (Option Point) 128 :=
  (List.finRange 128).foldl (fun v p =>
    ((entriesOf (fun _ => 5) body).filter (fun e => (hiByte (e.getD 0 0)).toNat = p.val)).foldl (loadPointEntry links p) v)
    (Vector.replicate 128 none)

/-! ### Scheme modules -/

/-- The words of a list of term words: slot and signed weight. -/
def termWordsOf (ws : List Word16) : List (Nat × Int) := (pairsOf ws).map (fun e => (e.1.toNat, e.2.toInt))

/-- The definition a scheme headers entry gives, where it is taken (R55): the other sections empty. -/
def headerEntry (e : List Word16) : Option SchemeDef :=
  let w (i : Nat) : Word16 := e.getD i 0
  let label := [w 2, w 3, w 4, w 5].flatMap (fun x => [hiByte x, loByte x])
  let flags := loByte (w 1)
  match headerFields label (loByte (w 0)) (hiByte (w 1)) (flags &&& 0xF3),
      protectionOf ((flags >>> 2) &&& 0x03) with
  | some h, some prot =>
    if hiByte (w 6) = 0 then
      let d := { SchemeDef.new h with protection := prot, defGen := loByte (w 6) ++ w 7 }
      match termsOf (termWordsOf (e.drop 9)), policyOf (hiByte (w 8)) with
      | some ts, some pol => if ts.length ≤ 8 then some { d with terms := ts, policy := pol } else some d
      | _, _ => some d
    else none
  | _, _ => none

/-- The sections of one scheme as the load has set them so far; `curve`, `candidates` and `triggers` say whether an
entry of that module has been taken (R55). -/
structure SchemeLoad where
  defn : Option SchemeDef
  curveSet : Bool
  candidatesSet : Bool
  triggersSet : Bool
  deriving DecidableEq, Repr

def SchemeLoad.header (x : SchemeLoad) (e : List Word16) : SchemeLoad :=
  match x.defn with
  | some _ => x
  | none => { x with defn := headerEntry e }

def SchemeLoad.curve (x : SchemeLoad) (e : List Word16) : SchemeLoad :=
  match x.defn with
  | none => x
  | some d =>
    let curve := (pairsOf (e.drop 3)).map (fun c => (c.1.toInt, c.2.toNat))
    let margin := (e.getD 1 0).toNat
    let overshoot := (e.getD 2 0).toNat
    if x.curveSet = false ∧ (curve.length = 0 ∨ 2 ≤ curve.length ∧ curve.length ≤ 8) ∧
        curveValid curve margin overshoot = true then
      { x with defn := some { d with curve := curve, margin := margin, overshoot := overshoot }, curveSet := true }
    else x

def SchemeLoad.candidates (x : SchemeLoad) (e : List Word16) : SchemeLoad :=
  match x.defn, candidatesOf ((e.drop 1).map BitVec.toNat) with
  | some d, some ps =>
    if x.candidatesSet then x else { x with defn := some { d with candidates := ps }, candidatesSet := true }
  | _, _ => x

def SchemeLoad.triggers (x : SchemeLoad) (e : List Word16) : SchemeLoad :=
  match x.defn, sourcesOf ((e.drop 3).map BitVec.toNat) with
  | some d, some ds =>
    let k := (e.getD 1 0).toNat
    let w := (e.getD 2 0).toNat
    if x.triggersSet = false ∧ 1 ≤ k ∧ k ≤ max 1 ds.length ∧ 1 ≤ w ∧ w ≤ 1000 then
      { x with defn := some { d with sources := ds, k := k, window := w }, triggersSet := true }
    else x
  | _, _ => x

/-- The definition the four scheme modules give scheme `k` (R55). -/
def loadScheme (headers curves candidates triggers : List (List Word16)) (k : SchemeId) : Option SchemeDef :=
  let mine (es : List (List Word16)) := es.filter (fun e => (hiByte (e.getD 0 0)).toNat = k.val)
  let x : SchemeLoad := { defn := none, curveSet := false, candidatesSet := false, triggersSet := false }
  let x := (mine headers).foldl SchemeLoad.header x
  let x := (mine curves).foldl SchemeLoad.curve x
  let x := (mine candidates).foldl SchemeLoad.candidates x
  ((mine triggers).foldl SchemeLoad.triggers x).defn

/-- A scheme entry right after a load (R41, R55, R56, R77): `g` is its number's arming generation. -/
def Scheme.loaded (g : Gen) (d : Option SchemeDef) : Scheme :=
  match d with
  | none => .undefined g
  | some x =>
    { Scheme.undefined g with
      defn := some x, state := if x.complete && x.enabledAtStart then .standby else .disabled }

/-! ## Setting the tables (R172) -/

/-- The tables as a load sets them: from the image, or as for missing modules where there is none (R172). No order is
in flight after it; frames in transmission are cut off and the HELD flags cleared (R152), the late lists emptied (R146)
and the recent-rise flags cleared (R116). -/
def State.loadTables (s : State) (image : Option Image) : State :=
  let body (n : Nat) : List Word16 := (image.map (fun x => x.body n)).getD []
  let params := stationMap (body 0)
  let links := tabulate (fun l =>
    { s.links[l] with params := params[l], held := false, orders := [], transmitting := none,
                      receiving := if params[l].enabled then s.links[l].receiving else [] })
  let headers := entriesOf (fun e => 9 + 2 * countAt 8 e) (body 4)
  let curves := entriesOf (fun e => 3 + 2 * countAt 0 e) (body 5)
  let candidates := entriesOf (fun e => 1 + countAt 0 e) (body 6)
  let triggers := entriesOf (fun e => 3 + countAt 0 e) (body 7)
  { s with
    links := links
    meas := measTable (body 1)
    det := detTable (body 2)
    recentRise := Vector.replicate 64 false
    points := pointTable links (body 3)
    lateLists := Vector.replicate 128 []
    schemes := tabulate (fun k => Scheme.loaded s.schemes[k].armGen (loadScheme headers curves candidates triggers k)) }

/-- The record of a load (R174, R175). -/
def State.appendLoad (s : State) (result : Except Nat Image) (party : Option PartyId) : State :=
  match result with
  | .ok x => s.append .storeLoaded (party := party) (detail := some (x.length : Int))
  | .error cause => s.append .storeInvalid (party := party) (detail := some (cause : Int))

/-- The image of a load's result, where it is valid. -/
def validImage (result : Except Nat Image) : Option Image :=
  match result with
  | .ok x => some x
  | .error _ => none

/-! ## The image a save writes (R58, R176) -/

def boolWord (b : Bool) : Word16 := if b then 1 else 0

/-- The station map: three pairs for each of the eight links (R176; log entry 21). -/
def stationWords (links : Vector Link 8) : List Word16 :=
  (List.finRange 8).flatMap (fun l =>
    let q := links[l].params
    let at_ (id : Byte) := joinBytes (BitVec.ofNat 8 l.val) id
    [at_ 1, boolWord q.enabled, at_ 2, q.station.setWidth 16, at_ 3, boolWord (decide (q.mode = .listenOnly))])

/-- The measurement map: only mapped slots. -/
def measWords (meas : Vector MeasSlot 256) : List Word16 :=
  (List.finRange 256).flatMap (fun m =>
    match meas[m].link with
    | some l => [joinBytes (BitVec.ofNat 8 m.val) (BitVec.ofNat 8 l.val), BitVec.ofNat 16 meas[m].limit]
    | none => [])

/-- The detection map: only mapped slots 0 to 47. -/
def detWords (det : Vector DetSlot 64) : List Word16 :=
  (List.finRange 64).flatMap (fun d =>
    match det[d].source with
    | .link l => if d.val < 48 then [joinBytes (BitVec.ofNat 8 d.val) (BitVec.ofNat 8 l.val)] else []
    | .fastDetect _ | .unmapped => [])

/-- The point table: only defined points. -/
def pointWords (points : Vector (Option Point) 128) : List Word16 :=
  (List.finRange 128).flatMap (fun p =>
    match points[p] with
    | some x =>
      let d := x.defn
      [joinBytes (BitVec.ofNat 8 p.val) (BitVec.ofNat 8 d.owner.val),
       joinBytes (Wire.kindCode d.kind) (BitVec.ofNat 8 d.link.val),
       joinBytes d.address (BitVec.ofNat 8 d.valueSlot.val),
       joinBytes (Wire.opt8 (d.statusSlot.map Fin.val)) (Wire.opt8 (d.backup.map Fin.val)),
       BitVec.ofNat 16 d.timeout]
    | none => [])

/-- The bytes of a label two to a word. -/
def labelWords : List Byte → List Word16
  | a :: b :: rest => joinBytes a b :: labelWords rest
  | _ => []

/-- The scheme headers entry of scheme `k` (R173). -/
def headerWords (k : SchemeId) (d : SchemeDef) : List Word16 :=
  [joinBytes (BitVec.ofNat 8 k.val) (BitVec.ofNat 8 d.owner.val),
   joinBytes (d.authority.setWidth 8)
     (BitVec.ofNat 8 (d.autoRearm.toNat + 2 * d.enabledAtStart.toNat) ||| (Wire.protectionCode d.protection <<< 2))] ++
  labelWords d.label ++
  [joinBytes 0 (d.defGen.extractLsb' 16 8), d.defGen.extractLsb' 0 16,
   joinBytes (Wire.policyCode d.policy) (BitVec.ofNat 8 d.terms.length)] ++
  d.terms.flatMap (fun t => [BitVec.ofNat 16 t.1.val, BitVec.ofInt 16 t.2])

def curveWords (k : SchemeId) (d : SchemeDef) : List Word16 :=
  [joinBytes (BitVec.ofNat 8 k.val) (BitVec.ofNat 8 d.curve.length), BitVec.ofNat 16 d.margin,
   BitVec.ofNat 16 d.overshoot] ++ d.curve.flatMap (fun c => [BitVec.ofInt 16 c.1, BitVec.ofNat 16 c.2])

def candidateWords (k : SchemeId) (d : SchemeDef) : List Word16 :=
  joinBytes (BitVec.ofNat 8 k.val) (BitVec.ofNat 8 d.candidates.length) ::
    d.candidates.map (fun p => BitVec.ofNat 16 p.val)

def triggerWords (k : SchemeId) (d : SchemeDef) : List Word16 :=
  [joinBytes (BitVec.ofNat 8 k.val) (BitVec.ofNat 8 d.sources.length), BitVec.ofNat 16 d.k,
   BitVec.ofNat 16 d.window] ++ d.sources.map (fun x => BitVec.ofNat 16 x.val)

/-- The entries of a scheme module: only defined schemes (R58). -/
def schemeWords (schemes : Vector Scheme 32) (f : SchemeId → SchemeDef → List Word16) : List Word16 :=
  (List.finRange 32).flatMap (fun k => match schemes[k].defn with | some d => f k d | none => [])

/-- The eight module bodies of the tables as they stand, in pointer order (R176). -/
def State.moduleBodies (s : State) : List (List Word16) :=
  [stationWords s.links, measWords s.meas, detWords s.det, pointWords s.points, schemeWords s.schemes headerWords,
   schemeWords s.schemes curveWords, schemeWords s.schemes candidateWords, schemeWords s.schemes triggerWords]

/-- The addresses of the length words of modules packed from address `a` on. -/
def moduleAddresses : Nat → List (List Word16) → List Nat
  | _, [] => []
  | a, b :: bs => a :: moduleAddresses (a + 1 + b.length) bs

/-- The words of modules packed one after another, each behind its length word. -/
def packedModules (bodies : List (List Word16)) : List Word16 :=
  bodies.flatMap (fun b => BitVec.ofNat 16 b.length :: b)

/-- The image length of these module bodies, in words. -/
def imageLength (bodies : List (List Word16)) : Nat := Config.moduleBase + (packedModules bodies).length

/-- The finished control word (step 5 of R176). -/
def sealedControl (length : Nat) : Word16 := (0b10#2 ++ BitVec.ofNat 14 length : BitVec 16)

/-- The check word that makes the sum of R172 right. -/
def checkWord (bodies : List (List Word16)) : Word16 :=
  Config.imageSum - sealedControl (imageLength bodies) -
    sumWords ((moduleAddresses Config.moduleBase bodies).map (BitVec.ofNat 16)) - sumWords bodies.flatten

/-- The writes of a save after its first, in the order of R176: the modules, words 1 to 14, the check word, and the
sealed control word. -/
def saveWrites (bodies : List (List Word16)) : List (Nat × Word16) :=
  (packedModules bodies).zipIdx.map (fun (w : Word16 × Nat) => (Config.moduleBase + w.2, w.1)) ++
  ((moduleAddresses Config.moduleBase bodies).map (BitVec.ofNat 16) ++ List.replicate 6 0).zipIdx.map
    (fun (w : Word16 × Nat) => (1 + w.2, w.1)) ++
  [(15, checkWord bodies), (0, sealedControl (imageLength bodies))]

end Sys2Proof.Machine
end

