-- ==== Sys2Proof/Machine/Resets.lean ====
section
/-! DEFINITION. The two resets and the loads as events (manual 11.2 to 11.4, R17, R18, R38, R79, R113, R131, R152), what
the part does of itself at the end of every event (`State.settle`), and the frame of an event. -/

namespace Sys2Proof.Machine

/-! ## The staging read (R177) -/

/-- Begins the staging read of a held warm reset request where the store state is IDLE (R177). -/
def State.beginStaging (s : State) : State :=
  if s.warm = .held ∧ s.storeOp = .idle then { s with storeOp := .staging } else s

/-! ## Warm reset (R177 and the rules it gathers) -/

/-- The links as a warm reset leaves them: the staged parameters, where there are any; no frame going out or under way;
HELD clear (R3, R139, R152). Next tags are kept. -/
def State.warmLinks (s : State) (map : Option (Vector LinkParams 8)) : State :=
  { s with links := tabulate (fun l =>
      { s.links[l] with
        params := match map with
          | some m => m[l]
          | none => s.links[l].params
        held := false, transmitting := none, receiving := [] }) }

/-- The station link of a defined point takes no orders now (R38). -/
def State.offLink (s : State) (p : PointId) : Bool :=
  match s.points[p] with
  | some x => !(s.links[x.defn.link]).params.isFull
  | none => false

/-- The defined points on a link that takes no orders: the first step of R38 makes them FAULTED. -/
def State.offLinkPoints (s : State) : List PointId := (List.finRange 128).filter s.offLink

/-- How many of them the first step of R38 makes FAULTED, that is, were not FAULTED already (R177). -/
def State.newlyFaulted (s : State) : Nat :=
  s.offLinkPoints.countP (fun p => !decide (s.points[p].map Point.availability = some .faulted))

/-- A scheme entry through a warm reset (R79, R113, R120): passes and records are given up, ARMED becomes PRIMED, and a
scheme that is PRIMED after the reset has its pending-pass flag set. The latch is dropped before. -/
def Scheme.warm (sc : Scheme) : Scheme :=
  let after : SchemeState := if sc.state = .armed then .primed else sc.state
  { sc with state := after, live := none, pendingPass := decide (after = .primed), rearming := false }

/-- Both input tables through a warm reset (R17, R18, R116). -/
def State.warmTables (s : State) : State :=
  { s with meas := mapV (fun m => MeasSlot.fresh m.link m.limit) s.meas
           det := mapV (fun d => DetSlot.cleared d.source) s.det
           recentRise := Vector.replicate 64 false }

/-- The first step of R38 at one point, with the requests of R25 where it changes the point. -/
def State.faultPoint (p : PointId) (s : State) : State :=
  match s.points[p] with
  | some x =>
    if x.availability = .faulted ∧ x.blockPending = false then s
    else (s.modPoint p (fun x => { x with availability := .faulted, blockPending := false })).requestForPoint p
  | none => s

/-- Takes the warm reset whose staged station map is `map` (absent: the image was rejected, and no link's parameters
change). The WARM_RESET record comes first, then the RETRIGGER_DROPPED records, then the POINT_BLOCKED records (R177,
R38, R79, R113). -/
def State.takeWarmReset (s : State) (map : Option (Vector LinkParams 8)) : State :=
  let s := { s.warmLinks map with warm := .none, engine := none }
  let off := if map.isSome then s.offLinkPoints else []
  let s := s.append .warmReset (detail := some (if map.isSome then (s.newlyFaulted : Int) else -1))
  let s := s.forEachInSomeOrder ((List.finRange 32).filter (fun k => s.schemes[k].latch.isSome))
    (fun k s => s.dropLatch k)
  let s := State.warmTables { s with schemes := mapV Scheme.warm s.schemes }
  let s := off.foldl (fun s p => s.faultPoint p) s
  s.forEachInSomeOrder ((List.finRange 128).filter (fun p =>
      match s.points[p] with
      | some x => x.blockPending
      | none => false))
    (fun p s => s.completeBlock p)

/-! ## What the part does of itself at the end of an event -/

/-- The three conditions of R177 for taking a warm reset hold. -/
def State.warmDue (s : State) : Bool :=
  (match s.warm with
   | .staged _ => true
   | .none | .held => false) && !s.anyFiring && s.storeIdle

/-- Takes the warm reset where it is due (R80, R177). -/
def State.warmIfDue (s : State) : State :=
  match s.warm with
  | .staged map => if s.warmDue then s.takeWarmReset map else s
  | .none | .held => s

/-- A transmission begins on the link where the conditions of R138 hold: the order at the head of the queue goes out. -/
def Link.startFrame (bench : Bool) (k : Link) : Link :=
  if k.params.isFull = true ∧ bench = false ∧ k.held = false ∧ k.transmitting = none then
    match k.orders.find? (fun o => o.position = .queued) with
    | some head =>
      { k with
        orders := k.orders.map (fun o => if o.point = head.point then { o with position := .inTransmission } else o)
        transmitting := some (Wire.orderFrame k.params.station head) }
    | none => k
  else k

/-- Every link that can begin a transmission does (R138). -/
def State.startFrames (s : State) : State :=
  { s with links := mapV (Link.startFrame s.bench) s.links }

/-- The end of an event (log entry 9): a due warm reset is taken (R177), the free engine takes flags (R105), the walk of
a pass in flight goes on (R100), and idle links begin to transmit (R138). -/
def State.settle (s : State) : State :=
  (s.warmIfDue.takeFlags.advanceWalk).startFrames

/-- One event `f`: whole and indivisible. While RESET# is asserted the part takes nothing (R174). -/
def State.event (s : State) (f : State → State) : Host.Outcome State Fault Refusal :=
  if s.inReset then .next s else .next (f s).settle

/-! ## Cold reset (R174) -/

/-- RESET# is asserted (R174): READY and ATTN are deasserted, and every operation in flight ends without completion. A
save has then written some of its words, but not the sealed control word (R176; log entry 6). -/
def State.assertReset (s : State) : State :=
  { s with
    inReset := true
    storeOp := .idle
    store := match s.storeOp with
      | .save _ ws _ => Memory.writeAll s.store (ws.take (Config.saveProgress s.openCount % ws.length))
      | .idle | .coldLoad | .load _ | .staging => s.store
    openCount := s.openCount + 1
    warm := .none
    engine := none
    links := mapV (fun k => { k with orders := [], transmitting := none, receiving := [] }) s.links
    readers := mapV (fun r => { r with attn := false }) s.readers
    parties := mapV (fun q => { q with ready := false }) s.parties }

/-- Cold reset ends (R174), where RESET# was asserted. -/
def State.endColdReset (s : State) (bench : Bool) : State :=
  if s.inReset then State.cold bench s.store (mapV PartyLink.restarted s.parties) s.pending s.openCount else s

/-- The load after cold reset completes (R174). -/
def State.endColdLoad (s : State) (answer : StoreAnswer) : State :=
  if s.storeOp = .coldLoad then
    let result := readImage (s.storeRead answer).1
    let s := State.loadTables { s with store := (s.storeRead answer).2, storeOp := .idle } (validImage result)
    (s.appendLoad result none).beginStaging
  else s

/-! ## Store operations (R175, R176) -/

/-- A STORE_LOAD completes (R175). -/
def State.endLoad (s : State) (answer : StoreAnswer) : State :=
  match s.storeOp with
  | .load p =>
    let result := readImage (s.storeRead answer).1
    let s := State.loadTables { s with store := (s.storeRead answer).2, storeOp := .idle } (validImage result)
    (s.appendLoad result (some p)).beginStaging
  | .idle | .coldLoad | .staging | .save _ _ _ => s

/-- A STORE_SAVE completes: its last words are written and STORE_SAVED is appended (R176). -/
def State.endSave (s : State) : State :=
  match s.storeOp with
  | .save p ws n =>
    let s := { s with store := Memory.writeAll s.store ws, storeOp := .idle }
    (s.append .storeSaved (party := some p) (detail := some (n : Int))).beginStaging
  | .idle | .coldLoad | .load _ | .staging => s

/-- WARM# is asserted (R177): the request is held, and the staging read begins where the store state is IDLE. -/
def State.requestWarm (s : State) : State :=
  match s.warm with
  | .none => State.beginStaging { s with warm := .held }
  | .held | .staged _ => s

/-- The staging read ends (R177): the station map is staged where the image is valid. -/
def State.endStaging (s : State) (answer : StoreAnswer) : State :=
  if s.storeOp = .staging then
    { s with
      store := (s.storeRead answer).2
      storeOp := .idle
      warm := .staged ((validImage (readImage (s.storeRead answer).1)).map (fun x => stationMap (x.body 0))) }
  else s

end Sys2Proof.Machine
end

