-- ==== Sys2Proof/Machine/Stations.lean ====
section
/-! DEFINITION. The station frames and edges as the blocks take them (manual 1.2 to 1.4, R139, R140), the expiries, and
the part's own time (`State.tick`). -/

namespace Sys2Proof.Machine

/-! ## Measurement items (R6, R7, R10) -/

/-- The item is valid (R1): quality GOOD or SUSPECT and a value other than −32768. -/
def validItem (quality : Byte) (value : Word16) : Bool :=
  (decide (quality = 1) || decide (quality = 2)) && decide (value ≠ 0x8000#16)

/-- A measurement item for slot `m`, taken now (R6, R7), with its MEAS_STALE record (R10) and requests (R9). -/
def State.takeItem (s : State) (m : MeasId) (quality : Byte) (value : Word16) : State :=
  if validItem quality value then
    (s.modMeas m (fun x =>
      { x with value := some value.toInt, held := value.toInt, quality := if quality = 1 then .good else .suspect,
               lastUpdate := some s.clock, stale := false })).requestForSlot m
  else
    let fresh := !s.meas[m].stale
    let s := s.modMeas m (fun x => { x with quality := .invalid, stale := true, value := none })
    let s := if fresh then s.append .measStale (detail := some ((m.val : Int) + 256)) else s
    s.requestForSlot m

/-- One item of an accepted DATA frame of link `l`, routed by R5. -/
def State.takeDataItem (l : LinkId) (s : State) (item : DataItem) : State :=
  match item with
  | .measurement slot quality value =>
    let m : MeasId := ⟨slot.toNat, slot.isLt⟩
    if s.meas[m].link = some l then s.takeItem m quality value else s
  | .detection slot asserted =>
    match finOf 64 slot.toNat with
    | some d =>
      if s.det[d].source = .link l then (if asserted then s.assertSlot d else s.clearSlot d) else s
    | none => s

/-! ## Frames (R3 to R5, R139, R140) -/

/-- The frame is accepted (R4), as far as its contents and station number decide: a DATA frame has at most 40 items. -/
def LinkParams.accepts (q : LinkParams) (station : Byte) (body : FrameBody) : Bool :=
  q.enabled && decide (q.station = station) &&
    (match body with
     | .data items => decide (items.length ≤ 40)
     | .echo _ _ _ | .hold | .release => true)

/-- An ECHO on link `l` (R140): it confirms or fails the SENT order it matches; otherwise an EXECUTED echo may be late
(R30). -/
def State.takeEcho (s : State) (l : LinkId) (tag address : Byte) (result : EchoResult) : State :=
  match (s.links[l]).orders.find? (fun o => o.position = .sent ∧ o.tag = tag ∧ o.address = address) with
  | some o =>
    match result with
    | .executed => s.confirmOrder l o .echo
    | .refused => s.failOrder l o false
  | none =>
    match result with
    | .executed =>
      match (List.finRange 128).find? (s.isLateFor l tag address) with
      | some p => s.takeLateEcho p tag
      | none => s
    | .refused => s

/-- A HOLD on a link (R139): the flag is set, and a frame going out is abandoned, its order back at the head of the
queue. -/
def Link.hold (k : Link) : Link :=
  if k.held then k
  else
    { k with held := true, transmitting := none
             orders := k.orders.map (fun o =>
               if o.position = .inTransmission then { o with position := .queued } else o) }

/-- What an accepted frame of link `l` does. While a STORE_LOAD is in flight DATA items are not applied (R19). -/
def State.deliver (s : State) (l : LinkId) (body : FrameBody) : State :=
  match body with
  | .data items => if s.loading then s else items.foldl (State.takeDataItem l) s
  | .echo tag address result => s.takeEcho l tag address result
  | .hold => s.modLink l Link.hold
  | .release => s.modLink l (fun k => { k with held := false })

/-- The last byte of a frame of a defined layout and a right link check arrives on link `l`: the receiver is outside a
frame, and the frame is accepted or discarded (R4). Every link discards while the image is loaded after cold reset
(R3). -/
def State.takeFrame (s : State) (l : LinkId) (station : Byte) (body : FrameBody) : State :=
  let s := s.modLink l (fun k => { k with receiving := [] })
  if s.starting = false ∧ (s.links[l]).params.accepts station body = true then s.deliver l body else s

/-- One byte arrives on link `l` (R170). A disabled link discards it, as every link does while the image is loaded after
cold reset (R3). A frame that its last byte completes is accepted or discarded by R4. -/
def State.takeByte (l : LinkId) (s : State) (b : Byte) : State :=
  if s.starting = true ∨ (s.links[l]).params.enabled = false then s
  else
    let r := Wire.receiveByte (s.links[l]).receiving b
    let s := s.modLink l (fun k => { k with receiving := r.1 })
    match r.2.bind Wire.parseStation with
    | some (station, body) => (s.takeFrame l station body).settle
    | none => s

/-! ## Expiries (R8, R116, R143) -/

/-- The staleness expiry of slot `m` is due now (R8). -/
def State.measDue (s : State) (m : MeasId) : Bool :=
  !s.meas[m].stale &&
    (match s.meas[m].lastUpdate with
     | some t => decide ((s.clock - t).toNat = s.meas[m].limit)
     | none => false)

/-- Takes the staleness expiry of slot `m`, where it is due (R8, R9, R10). -/
def State.expireMeas (s : State) (m : MeasId) : State :=
  if s.measDue m then
    ((s.modMeas m (fun x => { x with stale := true, value := none })).append .measStale
      (detail := some (m.val : Int))).requestForSlot m
  else s

/-- The rise expiry of slot `d` is due now (R116). -/
def State.riseDue (s : State) (d : DetId) : Bool :=
  s.recentRise[d] &&
    (match s.det[d].lastRise with
     | some t => decide (s.clock - t = Config.riseLife)
     | none => false)

/-- Takes the rise expiry of slot `d`, where it is due (R116). -/
def State.expireRise (s : State) (d : DetId) : State :=
  if s.riseDue d then { s with recentRise := s.recentRise.set d false } else s

/-- The order in flight for point `p` whose deadline is now, with its link (R143). -/
def State.deadlineDue (s : State) (p : PointId) : Option (LinkId × TripOrder) :=
  match s.orderOf p with
  | some (l, o) => if o.deadline = s.clock then some (l, o) else none
  | none => none

/-- Takes the deadline expiry of the order of point `p`, where it is due (R143, R144). -/
def State.expireDeadline (s : State) (p : PointId) : State :=
  match s.deadlineDue p with
  | some (l, o) => s.failOrder l o true
  | none => s

/-- The pass in flight has taken the longest it may (R106). -/
def State.passDue (s : State) : Bool :=
  match s.engine with
  | some x => decide (s.clock - x.begun = Config.passBound)
  | none => false

/-! ## Transmission (R138) -/

/-- The frame going out on a link is complete (R138): its order, where still in flight, is SENT. -/
def Link.frameComplete (k : Link) : Link :=
  match k.transmitting with
  | some _ =>
    { k with transmitting := none
             orders := k.orders.map (fun o =>
               if o.position = .inTransmission then { o with position := .sent } else o) }
  | none => k

/-! ## Time (log entry 10) -/

/-- What falls due at a reading of the corridor clock. -/
inductive Due where
  | meas (m : MeasId)
  | rise (d : DetId)
  | deadline (p : PointId)
  | pass
  deriving DecidableEq, Repr

/-- Everything that is due at the present reading. -/
def State.due (s : State) : List Due :=
  ((List.finRange 256).filter (fun m => s.measDue m)).map Due.meas ++
  ((List.finRange 64).filter (fun d => s.riseDue d)).map Due.rise ++
  ((List.finRange 128).filter (fun p => (s.deadlineDue p).isSome)).map Due.deadline ++
  (if s.passDue then [Due.pass] else [])

/-- Takes one thing that is due. -/
def State.takeDue (s : State) (x : Due) : State :=
  match x with
  | .meas m => s.expireMeas m
  | .rise d => s.expireRise d
  | .deadline p => s.expireDeadline p
  | .pass => s.completePass

/-- What the part does while no command waits: nothing while RESET# is asserted; otherwise it takes one of the things
that are due at this reading, in no stated order; and where none is due the corridor clock goes on by 1 ms. -/
def State.tick (s : State) : State :=
  if s.inReset then s
  else
    match s.arrange s.due with
    | x :: _ => ((s.opened s.due.length).takeDue x).settle
    | [] => { s with clock := s.clock + 1 }

end Sys2Proof.Machine
end

