-- ==== Sys2Proof/Machine/Requests.lean ====
section
/-! DEFINITION. What the owning blocks do with a request of each kind (manual chapters 2 to 4, 6, 7, 9, 11): the checks
of its rule in their order, its effect, and its response. Each handler answers the state after it and the response. -/

namespace Sys2Proof.Machine

/-- A DONE response with this body (R167). -/
def done (body : List Byte) : Response := { status := .done, body := body }

/-- A refusal: an empty body (R167). -/
def refuse (status : Status) : Response := { status := status, body := [] }

/-! ## Requests on a scheme's state (R64 to R70) -/

/-- The scheme a request names, where it is defined (checks 1 and 2 of R48, R54 and R64). -/
def State.namedScheme (s : State) (number : Byte) : Option (SchemeId × SchemeDef) :=
  match finOf 32 number.toNat with
  | some k => s.schemes[k].defn.map (fun d => (k, d))
  | none => none

/-- The party is in the authority set. -/
def SchemeDef.hasAuthority (d : SchemeDef) (p : PartyId) : Bool := d.authority.getLsbD p.val

/-- The parties whose consent is recorded. -/
def Scheme.consenting (sc : Scheme) : List PartyId := (List.finRange 4).filter (fun p => sc.consents[p].isSome)

/-- The authority parties whose consent record is absent (R67). -/
def Scheme.missing (sc : Scheme) (d : SchemeDef) : List PartyId :=
  (List.finRange 4).filter (fun p => d.hasAuthority p && sc.consents[p].isNone)

/-- Empties the live arming record of scheme `k` and completes the deferred blocks this releases (R66, R69, R34), in no
stated order. -/
def State.releaseRecord (s : State) (old : Option ArmingRecord) : State :=
  s.forEachInSomeOrder
    (match old with
     | some r => (List.finRange 128).filter (fun p => r.holds p)
     | none => [])
    (fun p s => s.completeBlock p)

/-- ENABLE (R65). -/
def State.enable (s : State) (p : PartyId) (number : Byte) : State × Response :=
  match s.namedScheme number with
  | none => (s, refuse .badArgument)
  | some (k, d) =>
    if d.owner ≠ p then (s, refuse .notAuthorized)
    else if s.loading then (s, refuse .storeBusy)
    else if s.schemes[k].state ≠ .disabled then (s, refuse .wrongState)
    else if d.complete = false then (s, refuse .badDefinition)
    else
      ((s.modScheme k (fun sc => { sc with state := .standby })).append .schemeEnabled (scheme := some k)
        (party := some p) (detail := some (d.defGen.toNat : Int)),
       done (Wire.stateCode .standby :: Wire.be24 d.defGen))

/-- DISABLE (R66). -/
def State.disable (s : State) (p : PartyId) (number : Byte) : State × Response :=
  match s.namedScheme number with
  | none => (s, refuse .badArgument)
  | some (k, d) =>
    if d.owner ≠ p then (s, refuse .notAuthorized)
    else
      match s.schemes[k].state with
      | .firing => (s, refuse .wrongState)
      | .disabled => (s, done [Wire.stateCode .disabled, 0])
      | .standby | .primed | .armed | .lockout =>
        let n := s.schemes[k].consenting.length
        let old := s.schemes[k].live
        let s := s.modScheme k (fun sc =>
          { sc with state := .disabled, consents := Vector.replicate 4 none, live := none, rearming := false })
        let s := (s.voidPass k).append .schemeDisabled (scheme := some k) (party := some p) (detail := some (n : Int))
        ((s.dropLatch k).releaseRecord old, done [Wire.stateCode .disabled, Wire.u8 n])

/-- CONSENT (R67, R68). -/
def State.consent (s : State) (p : PartyId) (number : Byte) (g : Gen) : State × Response :=
  match s.namedScheme number with
  | none => (s, refuse .badArgument)
  | some (k, d) =>
    if d.hasAuthority p = false then (s, refuse .notAuthorized)
    else if s.schemes[k].state ≠ .standby then (s, refuse .wrongState)
    else if g ≠ d.defGen then (s, refuse .staleGeneration)
    else if s.schemes[k].consents[p].isSome then
      (s, done [Wire.stateCode .standby, Wire.u8 (s.schemes[k].missing d).length])
    else
      let s := s.modScheme k (fun sc => { sc with consents := sc.consents.set p (some g) })
      let s := s.append .consent (scheme := some k) (party := some p) (detail := some (g.toNat : Int))
      if s.schemes[k].missing d = [] then
        (s.modScheme k (fun sc => { sc with state := .primed, pendingPass := true }),
         done [Wire.stateCode .primed, 0])
      else (s, done [Wire.stateCode .standby, Wire.u8 (s.schemes[k].missing d).length])

/-- WITHDRAW (R69). -/
def State.withdraw (s : State) (p : PartyId) (number : Byte) : State × Response :=
  match s.namedScheme number with
  | none => (s, refuse .badArgument)
  | some (k, d) =>
    if d.hasAuthority p = false then (s, refuse .notAuthorized)
    else
      match s.schemes[k].state, s.schemes[k].consents[p] with
      | .standby, some g | .primed, some g | .armed, some g =>
        let old := s.schemes[k].live
        let s := s.modScheme k (fun sc =>
          { sc with state := .standby, consents := sc.consents.set p none, live := none, rearming := false })
        let s := (s.voidPass k).append .withdraw (scheme := some k) (party := some p) (detail := some (g.toNat : Int))
        ((s.dropLatch k).releaseRecord old, done [Wire.stateCode .standby])
      | _, _ => (s, refuse .wrongState)

/-- RESET_LOCKOUT (R70). -/
def State.resetLockout (s : State) (p : PartyId) (number : Byte) : State × Response :=
  match s.namedScheme number with
  | none => (s, refuse .badArgument)
  | some (k, d) =>
    if d.hasAuthority p = false then (s, refuse .notAuthorized)
    else if s.schemes[k].state ≠ .lockout then (s, refuse .wrongState)
    else
      ((s.modScheme k (fun sc => { sc with state := .standby })).append .lockoutReset (scheme := some k)
        (party := some p), done [Wire.stateCode .standby])

/-! ## Definition writes and protection (R48, R49, R54) -/

/-- WRITE_SCHEME_SECTION (R48, R49). -/
def State.writeSection (s : State) (sec : Section) (p : PartyId) (number : Byte) (c : List Byte) : State × Response :=
  match finOf 32 number.toNat with
  | none => (s, refuse .badArgument)
  | some k =>
    if sectionFormOk sec c = false then (s, refuse .badArgument)
    else
      match s.schemes[k].defn with
      | none =>
        if sec ≠ .header then (s, refuse .badArgument)
        else if (c.getD 8 0).toNat ≠ p.val then (s, refuse .notAuthorized)
        else if s.saving || s.loading then (s, refuse .storeBusy)
        else
          match parseHeader c with
          | some h =>
            (s.modScheme k (fun sc => { Scheme.undefined sc.armGen with defn := some (.new h) }), done (Wire.be24 1))
          | none => (s, refuse .badArgument)
      | some d =>
        if d.owner ≠ p then (s, refuse .notAuthorized)
        else if s.saving || s.loading then (s, refuse .storeBusy)
        else if s.schemes[k].state ≠ .disabled then (s, refuse .wrongState)
        else if d.protection ≠ .opened then (s, refuse .isProtected)
        else
          match writtenSection sec c d with
          | none => (s, refuse .badArgument)
          | some d' =>
            if d.defGen = genMax then (s, refuse .generationLimit)
            else
              (s.modScheme k (fun sc => { sc with defn := some { d' with defGen := d.defGen + 1 } }),
               done (Wire.be24 (d.defGen + 1)))

/-- PROTECT (R54). -/
def State.protect (s : State) (p : PartyId) (number target : Byte) : State × Response :=
  match protectionOf target, s.namedScheme number with
  | some t, some (k, d) =>
    if d.owner ≠ p then (s, refuse .notAuthorized)
    else if s.saving || s.loading then (s, refuse .storeBusy)
    else if d.protection = .fixed then (s, refuse .isProtected)
    else (s.modScheme k (fun sc => { sc with defn := some { d with protection := t } }), done [Wire.protectionCode t])
  | _, _ => (s, refuse .badArgument)

/-! ## Point requests (R32 to R37) -/

/-- The point a request names, where it is defined (checks 1 and 2 of R32). -/
def State.namedPoint (s : State) (number : Byte) : Option (PointId × Point) :=
  match finOf 128 number.toNat with
  | some p => s.points[p].map (fun x => (p, x))
  | none => none

/-- A record with point `p` taken out of its selected entries, its adequacy judged again: FULL if T is at least A, and
otherwise SHORT (R33). -/
def ArmingRecord.without (r : ArmingRecord) (p : PointId) : ArmingRecord :=
  let credited := ((r.selected.filter (fun e => e.1 = p)).map Prod.snd).sum
  let total := r.total - credited
  { r with selected := r.selected.filter (fun e => e.1 ≠ p), total := total,
           adequacy := if r.figures.a ≤ total then .full else .short,
           shortfall := if r.figures.a ≤ total then none else some (r.figures.a - total) }

/-- The immediate block of point `p` (R33): the point becomes BLOCKED, and every live arming record that holds it gives
it up. -/
def State.blockNow (s : State) (party : PartyId) (p : PointId) : State × Response :=
  let n := s.holders p
  let s := s.modPoint p (fun x => { x with availability := .blocked, blockPending := false })
  let s : State := { s with schemes := mapV (fun (sc : Scheme) =>
    if sc.holdsPoint p then { sc with live := sc.live.map (fun r => r.without p) } else sc) s.schemes }
  ((s.append .pointBlocked (point := some p) (party := some party) (detail := some (n : Int))).requestForPoint p,
   done [Wire.u8 n])

/-- BLOCK_POINT in mode IMMEDIATE (R33). -/
def State.blockImmediate (s : State) (party : PartyId) (number : Byte) : State × Response :=
  match s.namedPoint number with
  | none => (s, refuse .badArgument)
  | some (p, x) =>
    if x.defn.owner ≠ party then (s, refuse .notAuthorized)
    else if x.orderState = .ordered then (s, refuse .pointBusy)
    else if x.availability = .blocked then (s, done [0])
    else s.blockNow party p

/-- BLOCK_POINT in mode DEFERRED (R34). -/
def State.blockDeferred (s : State) (party : PartyId) (number : Byte) : State × Response :=
  match s.namedPoint number with
  | none => (s, refuse .badArgument)
  | some (p, x) =>
    if x.defn.owner ≠ party then (s, refuse .notAuthorized)
    else if x.orderState = .ordered then (s, refuse .pointBusy)
    else
      match x.availability with
      | .blocked => (s, done [0])
      | .faulted => s.blockNow party p
      | .inService =>
        let n := s.holders p
        if x.blockPending then (s, done [Wire.u8 n])
        else if n = 0 then
          (((s.modPoint p (fun x => { x with availability := .blocked })).append .pointBlocked (point := some p)
            (party := some party) (detail := some 0)).requestForPoint p, done [0])
        else
          (((s.modPoint p (fun x => { x with blockPending := true })).append .pointBlocked (point := some p)
            (party := some party) (detail := some (-(n : Int)))).requestForPoint p, done [Wire.u8 n])

/-- The point's station link takes orders. -/
def State.linkFull (s : State) (x : Point) : Bool := (s.links[x.defn.link]).params.isFull

/-- UNBLOCK_POINT (R35). -/
def State.unblockPoint (s : State) (party : PartyId) (number : Byte) : State × Response :=
  match s.namedPoint number with
  | none => (s, refuse .badArgument)
  | some (p, x) =>
    if x.defn.owner ≠ party then (s, refuse .notAuthorized)
    else
      let finish (s : State) : State × Response :=
        ((s.append .pointUnblocked (point := some p) (party := some party)).requestForPoint p, done [])
      match x.availability with
      | .blocked =>
        if s.linkFull x then finish (s.modPoint p (fun x => { x with availability := .inService }))
        else (s, refuse .wrongState)
      | .inService =>
        if x.blockPending then finish (s.modPoint p (fun x => { x with blockPending := false }))
        else (s, refuse .wrongState)
      | .faulted => (s, refuse .wrongState)

/-- The status slot of a point is present and asserted. -/
def State.statusAsserted (s : State) (d : PointDef) : Bool :=
  match d.statusSlot with
  | some e => s.det[e].asserted
  | none => false

/-- RESTORE_POINT (R36). -/
def State.restorePoint (s : State) (party : PartyId) (number : Byte) : State × Response :=
  match s.namedPoint number with
  | none => (s, refuse .badArgument)
  | some (p, x) =>
    if x.defn.owner ≠ party then (s, refuse .notAuthorized)
    else if x.orderState = .ordered then (s, refuse .pointBusy)
    else if x.orderState = .tripped ∧ s.statusAsserted x.defn = true then (s, refuse .wrongState)
    else if x.availability = .faulted ∧ s.linkFull x = false then (s, refuse .wrongState)
    else if x.orderState = .idle ∧ x.availability ≠ .faulted then (s, refuse .wrongState)
    else
      let detail : Int :=
        (if x.orderState = .tripped then 1 else 0) + (if x.availability = .faulted then 2 else 0)
      (((s.modPoint p (fun x =>
          { x with orderState := .idle,
                   availability := if x.availability = .faulted then .inService else x.availability })).append
          .pointRestored (point := some p) (party := some party) (detail := some detail)).requestForPoint p, done [])

/-- The definition a WRITE_POINT carries for point `p`, where every field lies in its range (R37). -/
def writtenPoint (b : PointBody) (p : PointId) : Option PointDef :=
  if 2 ≤ b.timeout.toNat ∧ b.timeout.toNat ≤ 250 then
    pointDefOf p b.owner b.kind b.link b.address b.valueSlot b.statusSlot b.backup b.timeout.toNat
  else none

/-- The defined point with its definition replaced (R37), whose new status slot is `asserted` or not. -/
def Point.rewritten (x : Point) (d : PointDef) (asserted : Bool) : Point :=
  let moved := d.link ≠ x.defn.link ∨ d.address ≠ x.defn.address
  { x with defn := d,
           lastTag := if moved then none else x.lastTag,
           lastOutcome := if moved then .none else x.lastOutcome,
           orderState := if x.orderState = .idle ∧ asserted = true then .tripped else x.orderState }

/-- WRITE_POINT (R32, R37). -/
def State.writePoint (s : State) (party : PartyId) (b : PointBody) : State × Response :=
  match finOf 128 b.point.toNat, kindOf b.kind with
  | some p, some _ =>
    match s.points[p] with
    | none =>
      if b.owner.toNat ≠ party.val then (s, refuse .notAuthorized)
      else if s.saving then (s, refuse .storeBusy)
      else
        match writtenPoint b p with
        | some d =>
          if pointFits s.links s.points p d then
            ({ s with points := s.points.set p (some (.new d .blocked)) }, done [])
          else (s, refuse .badArgument)
        | none => (s, refuse .badArgument)
    | some x =>
      if x.defn.owner ≠ party then (s, refuse .notAuthorized)
      else if s.saving then (s, refuse .storeBusy)
      else if x.availability ≠ .blocked ∨ x.orderState = .ordered then (s, refuse .wrongState)
      else
        match writtenPoint b p with
        | some d =>
          if d.owner = x.defn.owner ∧ pointFits s.links s.points p d = true then
            let late := if d.link ≠ x.defn.link ∨ d.address ≠ x.defn.address then [] else s.lateLists[p]
            let trips := decide (x.orderState = .idle) && s.statusAsserted d
            let s : State :=
              { s.modPoint p (fun x => x.rewritten d (s.statusAsserted d)) with
                lateLists := modV s.lateLists p (fun _ => late) }
            (if trips then s.requestForPoint p else s, done [])
          else (s, refuse .badArgument)
        | none => (s, refuse .badArgument)
  | _, _ => (s, refuse .badArgument)

/-! ## Reads (R11, R16, R39, R59, R115, R125, R157, R158, R169) -/

/-- QUERY_STATUS (R169). -/
def State.queryStatus (s : State) : State × Response :=
  (s, done (Wire.be16 Config.partCode ++ [Config.revision] ++ Wire.be32 s.clock ++
    [Wire.flag s.bench, Wire.storeCode s.storeOp] ++ s.schemes.toList.map Wire.schemeCode))

/-- The body of READ_SCHEME for a defined entry, in the order of R59. -/
def schemeBody (sc : Scheme) (d : SchemeDef) : List Byte :=
  Wire.headerBytes d ++ Wire.termsBytes d ++ Wire.curveBytes d ++ Wire.candidatesBytes d ++ Wire.triggersBytes d ++
    [Wire.protectionCode d.protection] ++ Wire.be24 d.defGen ++ Wire.be24 sc.armGen ++
    [Wire.stateCode sc.state, Wire.flag d.complete, d.authority.setWidth 8] ++
    ((List.finRange 4).filter (fun p => d.hasAuthority p)).flatMap (fun p => Wire.optGen sc.consents[p]) ++
    [Wire.flag sc.pendingPass, Wire.flag sc.latch.isSome]

/-- READ_SCHEME (R41, R59; log entry 19 for the layout of an undefined entry). -/
def State.readScheme (s : State) (number : Byte) : State × Response :=
  match finOf 32 number.toNat with
  | none => (s, refuse .badArgument)
  | some k =>
    match s.schemes[k].defn with
    | none => (s, done (0xFE :: Wire.be24 s.schemes[k].armGen))
    | some d => (s, done (schemeBody s.schemes[k] d))

/-- The body of READ_POINT for a defined point (R39). -/
def State.pointBody (s : State) (p : PointId) (x : Point) : List Byte :=
  let d := x.defn
  let order := s.orderOf p
  [1, Wire.u8 d.owner.val, Wire.kindCode d.kind, Wire.u8 d.link.val, d.address, Wire.u8 d.valueSlot.val,
   Wire.opt8 (d.statusSlot.map Fin.val), Wire.u8 d.timeout, Wire.opt8 (d.backup.map Fin.val),
   Wire.availabilityCode x.availability, Wire.flag x.blockPending, Wire.orderStateCode x.orderState] ++
  Wire.optTag x.lastTag ++ [Wire.lastOutcomeCode x.lastOutcome, Wire.u8 (s.holders p)] ++
  Wire.optTag (order.map (fun o => o.2.tag)) ++ Wire.opt32 (order.map (fun o => o.2.deadline))

/-- READ_POINT (R39). -/
def State.readPoint (s : State) (number : Byte) : State × Response :=
  match finOf 128 number.toNat with
  | none => (s, refuse .badArgument)
  | some p =>
    match s.points[p] with
    | none => (s, done [0])
    | some x => (s, done (s.pointBody p x))

/-- READ_MEASUREMENTS (R11, R166). -/
def State.readMeasurements (s : State) (first last : Byte) : State × Response :=
  if last.toNat < first.toNat ∨ first.toNat + 31 < last.toNat then (s, refuse .badArgument)
  else
    (s, done (((s.meas.toList.drop first.toNat).take (last.toNat - first.toNat + 1)).flatMap Wire.measBytes))

/-- READ_DETECTIONS (R16, R166). -/
def State.readDetections (s : State) (first last : Byte) : State × Response :=
  if last.toNat < first.toNat ∨ 63 < last.toNat then (s, refuse .badArgument)
  else
    (s, done (((s.det.toList.drop first.toNat).take (last.toNat - first.toNat + 1)).flatMap Wire.detBytes))

/-- The pass in flight is a pass of scheme `k`. -/
def State.passOf (s : State) (k : SchemeId) : Option Pass :=
  match s.engine with
  | some x => if x.scheme = k then some x else none
  | none => none

/-- READ_ARMING (R115). -/
def State.readArming (s : State) (number : Byte) : State × Response :=
  match s.namedScheme number with
  | none => (s, refuse .badArgument)
  | some (k, _) =>
    let sc := s.schemes[k]
    let x := s.passOf k
    (s, done ([Wire.stateCode sc.state, Wire.flag sc.pendingPass, Wire.flag x.isSome,
        Wire.flag ((x.map Pass.void).getD false), Wire.flag sc.live.isNone] ++
      (match sc.live with
       | some r => Wire.recordBytes r
       | none => [])))

/-- READ_TRIGGER (R125). -/
def State.readTrigger (s : State) (number : Byte) : State × Response :=
  match s.namedScheme number with
  | none => (s, refuse .badArgument)
  | some (k, _) =>
    let sc := s.schemes[k]
    (s, done ([Wire.stateCode sc.state, Wire.flag sc.record.isNone] ++
      (match sc.record with
       | some r => Wire.triggerBytes r
       | none => []) ++
      (match sc.latch with
       | some t => 1 :: Wire.latchBytes t
       | none => [0]) ++
      [Wire.flag sc.rearming]))

/-- The DONE body of READ_EVENTS (R169). -/
def eventsBody (gap : Bool) (gapCount : Option (BitVec 32)) (remaining : Nat) (records : List EventRecord) : List Byte :=
  Wire.flag gap :: Wire.opt32 gapCount ++ Wire.u16 remaining ++ Wire.counted Wire.eventBytes records

/-- The requested count is 1 to 8 (R157). -/
def countOk (count : Byte) : Bool := decide (1 ≤ count.toNat) && decide (count.toNat ≤ 8)

/-- READ_EVENTS from the requesting party's cursor (R157, R159). -/
def State.readEvents (s : State) (p : PartyId) (count : Byte) : State × Response :=
  if countOk count = false then (s, refuse .badArgument)
  else
    let r := s.readers[p]
    let n := min count.toNat (s.lag p)
    let records := (s.ring.drop (s.ring.length - s.lag p)).take n
    let r' : Reader := { cursor := r.cursor + BitVec.ofNat 32 n, lost := 0, attn := decide (s.lag p - n ≠ 0) }
    ({ s with readers := s.readers.set p r' },
     done (eventsBody (decide (r.lost ≠ 0)) (some r.lost) (s.lag p - n) records))

/-- READ_EVENTS with a start sequence (R158). Whether a read whose start lies in the ring carries a gap count is the
model's choice: it does not (log entry 34). -/
def State.readEventsStart (s : State) (count : Byte) (start : Seq) : State × Response :=
  if countOk count = false then (s, refuse .badArgument)
  else
    let back := (s.nextSeq - start).toNat
    if back ≤ s.ring.length then
      let records := (s.ring.drop (s.ring.length - back)).take count.toNat
      (s, done (eventsBody false none (back - records.length) records))
    else
      let records := s.ring.take count.toNat
      (s, done (eventsBody true none (s.ring.length - records.length) records))

/-! ## Store requests (R175, R176) -/

/-- STORE_LOAD (R175). -/
def State.startLoad (s : State) (p : PartyId) : State × Response :=
  if s.storeIdle = false then (s, refuse .storeBusy)
  else if s.schemes.toList.all (fun sc => sc.defn.isNone || decide (sc.state = .disabled)) = false then
    (s, refuse .wrongState)
  else ({ s with storeOp := .load p }, done [])

/-- STORE_SAVE (R176): the image is that of the tables at this moment, and word 0 is written with signature 00b. -/
def State.startSave (s : State) (p : PartyId) : State × Response :=
  if s.storeIdle = false then (s, refuse .storeBusy)
  else
    ({ s with
       store := Memory.write s.store 0 (0b00#2 ++ Config.openControlBits s.openCount : BitVec 16)
       openCount := s.openCount + 1
       storeOp := .save p (saveWrites s.moduleBodies) (imageLength s.moduleBodies) }, done [])

/-! ## The party link exchange (R161, R163 to R165) -/

/-- A response is formed: it waits, and READY is asserted (R163, R164). -/
def PartyLink.form (q : PartyLink) (r : Response) : PartyLink :=
  { q with exchange := .responseWaiting, waiting := some r, ready := true }

def State.respond (s : State) (p : PartyId) (r : Response) : State := s.modParty p (fun q => q.form r)

/-- A request period while a response waits is an overrun (R165). -/
def State.markOverrun (s : State) (p : PartyId) : State := s.modParty p (fun q => { q with overrun := true })

/-- The block that owns a request (R166). -/
def State.serve (p : PartyId) (r : Request) (s : State) : State × Response :=
  match r with
  | .queryStatus => s.queryStatus
  | .readScheme k => s.readScheme k
  | .readPoint x => s.readPoint x
  | .readMeasurements a b => s.readMeasurements a b
  | .readDetections a b => s.readDetections a b
  | .readArming k => s.readArming k
  | .readTrigger k => s.readTrigger k
  | .readEvents n => s.readEvents p n
  | .readEventsStart n q => s.readEventsStart n q
  | .writeSection sec k c => s.writeSection sec p k c
  | .writePoint b => s.writePoint p b
  | .enable k => s.enable p k
  | .disable k => s.disable p k
  | .consent k g => s.consent p k g
  | .withdraw k => s.withdraw p k
  | .resetLockout k => s.resetLockout p k
  | .protect k t => s.protect p k t
  | .blockImmediate x => s.blockImmediate p x
  | .blockDeferred x => s.blockDeferred p x
  | .unblockPoint x => s.unblockPoint p x
  | .restorePoint x => s.restorePoint p x
  | .storeLoad => s.startLoad p
  | .storeSave => s.startSave p

/-- The bytes received after the start marker of a request period are taken as a frame and judged by R163. -/
def State.takeRequest (s : State) (p : PartyId) (bytes : List Byte) : State :=
  match judgeFrame bytes with
  | .frameError => s.respond p (refuse .frameError)
  | .parsed r =>
    if s.starting then s.respond p (refuse .starting)
    else
      match r with
      | .unknown => s.respond p (refuse .unknownRequest)
      | .malformed => s.respond p (refuse .badArgument)
      | .request r => (State.serve p r s).1.respond p (State.serve p r s).2

/-! ## Select periods (R161, R163 to R165; log entry 22) -/

/-- What the select line of party `p` is doing from now on. -/
def State.setSelect (s : State) (p : PartyId) (x : Select) : State := s.modParty p (fun q => { q with select := x })

/-- What the part has received of a request frame after its start marker: the frame is taken in the moment it is complete,
and the rest of the period is ignored; until then the link is RECEIVING (R161, R163). -/
def State.receive (s : State) (p : PartyId) (bytes : List Byte) : State :=
  if frameComplete bytes then (s.takeRequest p bytes).setSelect p .ignored
  else s.modParty p (fun q => { q with exchange := .receiving, select := .receiving bytes })

/-- What a link drives in the first `n` bytes of a read period: the waiting response's frame and 0xFF after it, or 0xFF
alone (R161, R164). -/
def PartyLink.driven (q : PartyLink) (n : Nat) : List Byte :=
  match q.exchange, q.waiting with
  | .responseWaiting, some r =>
    let frame := Wire.responseFrame q.overrun r
    frame.take n ++ List.replicate (n - frame.length) 0xFF
  | _, _ => List.replicate n 0xFF

/-- The first `n` bytes of a read period have been clocked. -/
def State.drive (s : State) (p : PartyId) (n : Nat) : State :=
  s.modParty p (fun q => { q with select := .reading n, shiftedOut := q.driven n })

/-- The gateway of party `p` clocks these bytes in one after another, with the select line active. The first byte of a
select period tells a request period from a read period; a request period is an overrun where a response waits (R161,
R165). -/
def State.clockIn (s : State) (p : PartyId) (bytes : List Byte) : State :=
  match bytes with
  | [] => s
  | first :: rest =>
    match (s.parties[p]).select with
    | .inactive =>
      if first = Wire.requestMarker then
        match (s.parties[p]).exchange with
        | .responseWaiting => (s.markOverrun p).setSelect p .ignored
        | .idle | .receiving => s.receive p rest
      else s.drive p bytes.length
    | .receiving got => s.receive p (got ++ bytes)
    | .reading n => s.drive p (n + bytes.length)
    | .ignored => s

/-- A read period of `n` bytes has ended on this link: a response shifted out to its last check byte is read, and any other
stays waiting (R164). -/
def PartyLink.endRead (q : PartyLink) (n : Nat) : PartyLink :=
  match q.exchange, q.waiting with
  | .responseWaiting, some r =>
    if (Wire.responseFrame q.overrun r).length ≤ n then
      { q with exchange := .idle, waiting := none, overrun := false, ready := false, select := .inactive }
    else { q with select := .inactive }
  | _, _ => { q with select := .inactive }

/-- The select line of a link goes inactive, where it is active: a frame that is incomplete or overlong is taken, which
fails check 1 of R163, and a read period ends (R164). -/
def PartyLink.endPeriod (q : PartyLink) : PartyLink :=
  match q.select with
  | .inactive => q
  | .receiving _ => { q.form (refuse .frameError) with select := .inactive }
  | .reading n => q.endRead n
  | .ignored => { q with select := .inactive }

def State.endPeriod (s : State) (p : PartyId) : State := s.modParty p PartyLink.endPeriod

/-- The gateway clocks these bytes in, and the select line then goes inactive where the transfer says so. -/
def State.selectPeriod (s : State) (p : PartyId) (x : Transfer) : State :=
  if x.ends then (s.clockIn p x.bytes).endPeriod p else s.clockIn p x.bytes

/-- While RESET# is asserted the part takes no byte and drives none (R174), and the select line goes on: a period begun now is
in progress when cold reset ends (R161; log entry 23). -/
def Select.inReset (q : Select) (x : Transfer) : Select :=
  if x.ends then .inactive
  else
    match q, x.bytes with
    | .inactive, _ :: _ => .ignored
    | .inactive, [] => .inactive
    | .receiving _, _ | .reading _, _ | .ignored, _ => q

/-- A select period, or a part of one, as an event of party `p`. -/
def State.selectEvent (s : State) (p : PartyId) (x : Transfer) : Host.Outcome State Fault Refusal :=
  if s.inReset then .next (s.setSelect p ((s.parties[p]).select.inReset x)) else s.event (fun s => s.selectPeriod p x)

/-- A whole request period of party `p` whose frame passes checks 1, 2 and 4 of R163, after the end of a period still under
way: an overrun where a response waits, STARTING while the image is loaded after cold reset, and otherwise handed to its
block and answered. -/
def State.request (s : State) (p : PartyId) (handler : State → State × Response) : State :=
  let s := s.endPeriod p
  match (s.parties[p]).exchange with
  | .responseWaiting => s.markOverrun p
  | .idle | .receiving =>
    if s.starting then s.respond p (refuse .starting)
    else (handler s).1.respond p (handler s).2

/-- A whole request period whose frame is discarded as an overrun where a response waits (R165). -/
def State.overrunPeriod (s : State) (p : PartyId) : State :=
  let s := s.endPeriod p
  if (s.parties[p]).exchange = .responseWaiting then s.markOverrun p else s

end Sys2Proof.Machine
end

