-- ==== Sys2Proof/Machine/EventCommands.lean ====
section
/-! DEFINITION. The meanings of the part's own events: expiries, passes, transmission, completions (R8, R34, R105, R106,
R116, R129, R138, R143, R149). An event commanded where its rule's condition does not hold is no event: nothing changes
(log entry 11). -/

namespace Sys2Proof.Machine

/-- STALENESS_EXPIRY (R8). -/
def execStalenessExpiry (m : MeasId) (s : State) : Host.Outcome State Fault Refusal :=
  s.event (fun s => s.expireMeas m)

/-- RISE_EXPIRY (R116). -/
def execRiseExpiry (d : DetId) (s : State) : Host.Outcome State Fault Refusal :=
  s.event (fun s => s.expireRise d)

/-- DEADLINE_EXPIRY (R143) of the order in flight for point `p`. -/
def execDeadlineExpiry (p : PointId) (s : State) : Host.Outcome State Fault Refusal :=
  s.event (fun s => s.expireDeadline p)

/-- PASS_BEGIN (R105, R82). -/
def execPassBegin (s : State) : Host.Outcome State Fault Refusal :=
  s.event State.takeFlags

/-- PASS_COMPLETION (R106, R108 to R111). -/
def execPassCompletion (s : State) : Host.Outcome State Fault Refusal :=
  s.event State.completePass

/-- TRANSMISSION_START (R138). -/
def execTransmissionStart (l : LinkId) (s : State) : Host.Outcome State Fault Refusal :=
  s.event (fun s => s.modLink l (Link.startFrame s.bench))

/-- ORDER_FRAME_COMPLETE (R138). -/
def execOrderFrameComplete (l : LinkId) (s : State) : Host.Outcome State Fault Refusal :=
  s.event (fun s => s.modLink l Link.frameComplete)

/-- EXECUTION_COMPLETE (R149): where the scheme is FIRING and its last waiting entry has become final. -/
def execExecutionComplete (k : SchemeId) (s : State) : Host.Outcome State Fault Refusal :=
  s.event (fun s => s.completeIfDone k)

/-- DEFERRED_BLOCK_COMPLETE (R34). -/
def execDeferredBlockComplete (p : PointId) (s : State) : Host.Outcome State Fault Refusal :=
  s.event (fun s => s.completeBlock p)

/-- RETRIGGER_REPLAY (R129). -/
def execRetriggerReplay (k : SchemeId) (s : State) : Host.Outcome State Fault Refusal :=
  s.event (fun s => s.replayLatch k)

end Sys2Proof.Machine
end

