-- ==== Sys2Proof/Machine/PartyCommands.lean ====
section
/-! DEFINITION. The meanings of the party requests and the party link periods (R161 to R169). -/

namespace Sys2Proof.Machine

/-- QUERY_STATUS (R169). -/
def execQueryStatus (p : PartyId) (s : State) : Host.Outcome State Fault Refusal :=
  s.event (fun s => s.request p (fun s => s.queryStatus))

/-- READ_SCHEME (R59). -/
def execReadScheme (p : PartyId) (k : Byte) (s : State) : Host.Outcome State Fault Refusal :=
  s.event (fun s => s.request p (fun s => s.readScheme k))

/-- READ_POINT (R39). -/
def execReadPoint (p : PartyId) (x : Byte) (s : State) : Host.Outcome State Fault Refusal :=
  s.event (fun s => s.request p (fun s => s.readPoint x))

/-- READ_MEASUREMENTS (R11). -/
def execReadMeasurements (p : PartyId) (first last : Byte) (s : State) : Host.Outcome State Fault Refusal :=
  s.event (fun s => s.request p (fun s => s.readMeasurements first last))

/-- READ_DETECTIONS (R16). -/
def execReadDetections (p : PartyId) (first last : Byte) (s : State) : Host.Outcome State Fault Refusal :=
  s.event (fun s => s.request p (fun s => s.readDetections first last))

/-- READ_ARMING (R115). -/
def execReadArming (p : PartyId) (k : Byte) (s : State) : Host.Outcome State Fault Refusal :=
  s.event (fun s => s.request p (fun s => s.readArming k))

/-- READ_TRIGGER (R125). -/
def execReadTrigger (p : PartyId) (k : Byte) (s : State) : Host.Outcome State Fault Refusal :=
  s.event (fun s => s.request p (fun s => s.readTrigger k))

/-- READ_EVENTS from the party's cursor (R157). -/
def execReadEvents (p : PartyId) (count : Byte) (s : State) : Host.Outcome State Fault Refusal :=
  s.event (fun s => s.request p (fun s => s.readEvents p count))

/-- READ_EVENTS with a start sequence (R158). -/
def execReadEventsStart (p : PartyId) (count : Byte) (start : Seq) (s : State) : Host.Outcome State Fault Refusal :=
  s.event (fun s => s.request p (fun s => s.readEventsStart count start))

/-- WRITE_SCHEME_SECTION of the header section (R42, R48, R49). -/
def execWriteHeaderSection (p : PartyId) (k : Byte) (contents : List Byte) (s : State) : Host.Outcome State Fault Refusal :=
  s.event (fun s => s.request p (fun s => s.writeSection .header p k contents))

/-- WRITE_SCHEME_SECTION of the terms section (R43, R48, R49). -/
def execWriteTermsSection (p : PartyId) (k : Byte) (contents : List Byte) (s : State) : Host.Outcome State Fault Refusal :=
  s.event (fun s => s.request p (fun s => s.writeSection .terms p k contents))

/-- WRITE_SCHEME_SECTION of the curve section (R44, R48, R49). -/
def execWriteCurveSection (p : PartyId) (k : Byte) (contents : List Byte) (s : State) : Host.Outcome State Fault Refusal :=
  s.event (fun s => s.request p (fun s => s.writeSection .curve p k contents))

/-- WRITE_SCHEME_SECTION of the candidates section (R45, R48, R49). -/
def execWriteCandidatesSection (p : PartyId) (k : Byte) (contents : List Byte) (s : State) : Host.Outcome State Fault Refusal :=
  s.event (fun s => s.request p (fun s => s.writeSection .candidates p k contents))

/-- WRITE_SCHEME_SECTION of the triggers section (R46, R48, R49). -/
def execWriteTriggersSection (p : PartyId) (k : Byte) (contents : List Byte) (s : State) : Host.Outcome State Fault Refusal :=
  s.event (fun s => s.request p (fun s => s.writeSection .triggers p k contents))

/-- WRITE_POINT (R37). -/
def execWritePoint (p : PartyId) (body : PointBody) (s : State) : Host.Outcome State Fault Refusal :=
  s.event (fun s => s.request p (fun s => s.writePoint p body))

/-- ENABLE (R64, R65). -/
def execEnable (p : PartyId) (k : Byte) (s : State) : Host.Outcome State Fault Refusal :=
  s.event (fun s => s.request p (fun s => s.enable p k))

/-- DISABLE (R64, R66). -/
def execDisable (p : PartyId) (k : Byte) (s : State) : Host.Outcome State Fault Refusal :=
  s.event (fun s => s.request p (fun s => s.disable p k))

/-- CONSENT (R64, R67, R68). -/
def execConsent (p : PartyId) (k : Byte) (g : Gen) (s : State) : Host.Outcome State Fault Refusal :=
  s.event (fun s => s.request p (fun s => s.consent p k g))

/-- WITHDRAW (R64, R69). -/
def execWithdraw (p : PartyId) (k : Byte) (s : State) : Host.Outcome State Fault Refusal :=
  s.event (fun s => s.request p (fun s => s.withdraw p k))

/-- RESET_LOCKOUT (R64, R70). -/
def execResetLockout (p : PartyId) (k : Byte) (s : State) : Host.Outcome State Fault Refusal :=
  s.event (fun s => s.request p (fun s => s.resetLockout p k))

/-- PROTECT (R54). -/
def execProtect (p : PartyId) (k target : Byte) (s : State) : Host.Outcome State Fault Refusal :=
  s.event (fun s => s.request p (fun s => s.protect p k target))

/-- BLOCK_POINT in mode IMMEDIATE (R33). -/
def execBlockPointImmediate (p : PartyId) (x : Byte) (s : State) : Host.Outcome State Fault Refusal :=
  s.event (fun s => s.request p (fun s => s.blockImmediate p x))

/-- BLOCK_POINT in mode DEFERRED (R34). -/
def execBlockPointDeferred (p : PartyId) (x : Byte) (s : State) : Host.Outcome State Fault Refusal :=
  s.event (fun s => s.request p (fun s => s.blockDeferred p x))

/-- UNBLOCK_POINT (R35). -/
def execUnblockPoint (p : PartyId) (x : Byte) (s : State) : Host.Outcome State Fault Refusal :=
  s.event (fun s => s.request p (fun s => s.unblockPoint p x))

/-- RESTORE_POINT (R36). -/
def execRestorePoint (p : PartyId) (x : Byte) (s : State) : Host.Outcome State Fault Refusal :=
  s.event (fun s => s.request p (fun s => s.restorePoint p x))

/-- STORE_LOAD (R175). -/
def execStoreLoad (p : PartyId) (s : State) : Host.Outcome State Fault Refusal :=
  s.event (fun s => s.request p (fun s => s.startLoad p))

/-- STORE_SAVE (R176). -/
def execStoreSave (p : PartyId) (s : State) : Host.Outcome State Fault Refusal :=
  s.event (fun s => s.request p (fun s => s.startSave p))

/-- REQUEST_REJECTED (R161, R163): the bytes of a request period, from its start marker, or of a part of one. A frame that
passes checks 1 to 4 is no rejected one: its request is carried out as R163 says (log entry 12). -/
def execRequestRejected (p : PartyId) (x : Transfer) (s : State) : Host.Outcome State Fault Refusal :=
  s.selectEvent p x

/-- RESPONSE_READ (R161, R164): the bytes the gateway clocks in during a read period, or a part of one. -/
def execResponseRead (p : PartyId) (x : Transfer) (s : State) : Host.Outcome State Fault Refusal :=
  s.selectEvent p x

/-- OVERRUN (R165), where a response waits. -/
def execOverrun (p : PartyId) (s : State) : Host.Outcome State Fault Refusal :=
  s.event (fun s => s.overrunPeriod p)

end Sys2Proof.Machine
end

