-- ==== Sys2Proof/Machine/ResetCommands.lean ====
section
/-! DEFINITION. The meanings of the reset and store commands (R174 to R177). -/

namespace Sys2Proof.Machine

/-- RESET_ASSERTED (R174). -/
def execResetAsserted (s : State) : Host.Outcome State Fault Refusal :=
  if s.inReset then .next s else .next s.assertReset

/-- COLD_RESET_END (R174), with BENCH sampled as `bench`. Without RESET# asserted there is nothing to end. -/
def execColdResetEnd (bench : Bool) (s : State) : Host.Outcome State Fault Refusal :=
  .next (s.endColdReset bench)

/-- COLD_LOAD_COMPLETE (R172, R174, R77). -/
def execColdLoadComplete (answer : StoreAnswer) (s : State) : Host.Outcome State Fault Refusal :=
  s.event (fun s => s.endColdLoad answer)

/-- WARM_RESET_REQUEST (R177). -/
def execWarmResetRequest (s : State) : Host.Outcome State Fault Refusal :=
  s.event State.requestWarm

/-- STAGING_READ_BEGIN (R177): where a request is held, its read has not begun, and the store state is IDLE. -/
def execStagingReadBegin (s : State) : Host.Outcome State Fault Refusal :=
  s.event State.beginStaging

/-- STAGING_READ_END (R177). -/
def execStagingReadEnd (answer : StoreAnswer) (s : State) : Host.Outcome State Fault Refusal :=
  s.event (fun s => s.endStaging answer)

/-- WARM_RESET_TAKEN (R177), where its three conditions hold. -/
def execWarmResetTaken (s : State) : Host.Outcome State Fault Refusal :=
  s.event State.warmIfDue

/-- STORE_LOAD_COMPLETE (R175, R78). -/
def execStoreLoadComplete (answer : StoreAnswer) (s : State) : Host.Outcome State Fault Refusal :=
  s.event (fun s => s.endLoad answer)

/-- STORE_SAVE_COMPLETE (R176). -/
def execStoreSaveComplete (s : State) : Host.Outcome State Fault Refusal :=
  s.event State.endSave

end Sys2Proof.Machine
end

