-- ==== Sys2Proof/Machine/StationCommands.lean ====
section
/-! DEFINITION. The meanings of the station frames and the fast detect edges (R3 to R5, R14, R139, R140, R170). -/

namespace Sys2Proof.Machine

/-- DATA (R4, R5). -/
def execData (l : LinkId) (station : Byte) (items : List DataItem) (s : State) : Host.Outcome State Fault Refusal :=
  s.event (fun s => s.takeFrame l station (.data items))

/-- ECHO (R4, R140). -/
def execEcho (l : LinkId) (station tag address : Byte) (result : EchoResult) (s : State) : Host.Outcome State Fault Refusal :=
  s.event (fun s => s.takeFrame l station (.echo tag address result))

/-- HOLD (R4, R139). -/
def execHold (l : LinkId) (station : Byte) (s : State) : Host.Outcome State Fault Refusal :=
  s.event (fun s => s.takeFrame l station .hold)

/-- RELEASE (R4, R139). -/
def execRelease (l : LinkId) (station : Byte) (s : State) : Host.Outcome State Fault Refusal :=
  s.event (fun s => s.takeFrame l station .release)

/-- STATION_FRAME_DISCARDED (R3, R4, R170): these bytes arrive at the link's receiver. A frame they complete that fails a
condition of R4, or any byte on a disabled link, has no effect on any table, queue or flag (log entry 13). -/
def execStationFrameDiscarded (l : LinkId) (bytes : List Byte) (s : State) : Host.Outcome State Fault Refusal :=
  s.event (fun s => bytes.foldl (State.takeByte l) s)

/-- The detection slot that fast detect input FDn feeds (R12). -/
def fdSlot (n : FdId) : DetId := ⟨48 + n.val, by omega⟩

/-- FD_RISING_EDGE (R14). -/
def execFdRisingEdge (n : FdId) (s : State) : Host.Outcome State Fault Refusal :=
  s.event (fun s => if s.starting then s else s.assertSlot (fdSlot n))

/-- FD_FALLING_EDGE (R14). -/
def execFdFallingEdge (n : FdId) (s : State) : Host.Outcome State Fault Refusal :=
  s.event (fun s => if s.starting then s else s.clearSlot (fdSlot n))

end Sys2Proof.Machine
end

