-- ==== Sys2Proof/Machine/Dispatch.lean ====
section
/-! DEFINITION. The effect of one command: each arm calls that command's meaning. -/

namespace Sys2Proof.Machine

def exec (i : Instr) (s : State) : Host.Outcome State Fault Refusal :=
  match i with
  | .resetAsserted => Sys2Proof.Machine.execResetAsserted s
  | .coldResetEnd bench => Sys2Proof.Machine.execColdResetEnd bench s
  | .coldLoadComplete answer => Sys2Proof.Machine.execColdLoadComplete answer s
  | .warmResetRequest => Sys2Proof.Machine.execWarmResetRequest s
  | .stagingReadBegin => Sys2Proof.Machine.execStagingReadBegin s
  | .stagingReadEnd answer => Sys2Proof.Machine.execStagingReadEnd answer s
  | .warmResetTaken => Sys2Proof.Machine.execWarmResetTaken s
  | .data link station items => Sys2Proof.Machine.execData link station items s
  | .echo link station tag address result => Sys2Proof.Machine.execEcho link station tag address result s
  | .hold link station => Sys2Proof.Machine.execHold link station s
  | .release link station => Sys2Proof.Machine.execRelease link station s
  | .stationFrameDiscarded link bytes => Sys2Proof.Machine.execStationFrameDiscarded link bytes s
  | .fdRisingEdge input => Sys2Proof.Machine.execFdRisingEdge input s
  | .fdFallingEdge input => Sys2Proof.Machine.execFdFallingEdge input s
  | .stalenessExpiry slot => Sys2Proof.Machine.execStalenessExpiry slot s
  | .riseExpiry slot => Sys2Proof.Machine.execRiseExpiry slot s
  | .deadlineExpiry point => Sys2Proof.Machine.execDeadlineExpiry point s
  | .passBegin => Sys2Proof.Machine.execPassBegin s
  | .passCompletion => Sys2Proof.Machine.execPassCompletion s
  | .transmissionStart link => Sys2Proof.Machine.execTransmissionStart link s
  | .orderFrameComplete link => Sys2Proof.Machine.execOrderFrameComplete link s
  | .executionComplete scheme => Sys2Proof.Machine.execExecutionComplete scheme s
  | .deferredBlockComplete point => Sys2Proof.Machine.execDeferredBlockComplete point s
  | .retriggerReplay scheme => Sys2Proof.Machine.execRetriggerReplay scheme s
  | .storeLoadComplete answer => Sys2Proof.Machine.execStoreLoadComplete answer s
  | .storeSaveComplete => Sys2Proof.Machine.execStoreSaveComplete s
  | .queryStatus party => Sys2Proof.Machine.execQueryStatus party s
  | .readScheme party scheme => Sys2Proof.Machine.execReadScheme party scheme s
  | .readPoint party point => Sys2Proof.Machine.execReadPoint party point s
  | .readMeasurements party first last => Sys2Proof.Machine.execReadMeasurements party first last s
  | .readDetections party first last => Sys2Proof.Machine.execReadDetections party first last s
  | .readArming party scheme => Sys2Proof.Machine.execReadArming party scheme s
  | .readTrigger party scheme => Sys2Proof.Machine.execReadTrigger party scheme s
  | .readEvents party count => Sys2Proof.Machine.execReadEvents party count s
  | .readEventsStart party count start => Sys2Proof.Machine.execReadEventsStart party count start s
  | .writeHeaderSection party scheme contents => Sys2Proof.Machine.execWriteHeaderSection party scheme contents s
  | .writeTermsSection party scheme contents => Sys2Proof.Machine.execWriteTermsSection party scheme contents s
  | .writeCurveSection party scheme contents => Sys2Proof.Machine.execWriteCurveSection party scheme contents s
  | .writeCandidatesSection party scheme contents => Sys2Proof.Machine.execWriteCandidatesSection party scheme contents s
  | .writeTriggersSection party scheme contents => Sys2Proof.Machine.execWriteTriggersSection party scheme contents s
  | .writePoint party body => Sys2Proof.Machine.execWritePoint party body s
  | .enable party scheme => Sys2Proof.Machine.execEnable party scheme s
  | .disable party scheme => Sys2Proof.Machine.execDisable party scheme s
  | .consent party scheme generation => Sys2Proof.Machine.execConsent party scheme generation s
  | .withdraw party scheme => Sys2Proof.Machine.execWithdraw party scheme s
  | .resetLockout party scheme => Sys2Proof.Machine.execResetLockout party scheme s
  | .protect party scheme target => Sys2Proof.Machine.execProtect party scheme target s
  | .blockPointImmediate party point => Sys2Proof.Machine.execBlockPointImmediate party point s
  | .blockPointDeferred party point => Sys2Proof.Machine.execBlockPointDeferred party point s
  | .unblockPoint party point => Sys2Proof.Machine.execUnblockPoint party point s
  | .restorePoint party point => Sys2Proof.Machine.execRestorePoint party point s
  | .storeLoad party => Sys2Proof.Machine.execStoreLoad party s
  | .storeSave party => Sys2Proof.Machine.execStoreSave party s
  | .requestRejected party transfer => Sys2Proof.Machine.execRequestRejected party transfer s
  | .responseRead party transfer => Sys2Proof.Machine.execResponseRead party transfer s
  | .overrun party => Sys2Proof.Machine.execOverrun party s

end Sys2Proof.Machine
end

