-- ==== Sys2Proof/Machine/Encode.lean ====
section
/-! DEFINITION. The frames partners send, written from the layouts of R166, R170 and R171: the other direction of
`Wire.parseStation` and `judgeFrame`. The part's meanings do not use it. -/

namespace Sys2Proof.Machine.Wire

/-! ## Station frames (R170, R171) -/

/-- The bytes of one DATA item (R171). -/
def itemBytes : DataItem → List Byte
  | .measurement slot quality value => [0x00, slot, quality] ++ be16 value
  | .detection slot asserted => [0x01, slot, flag asserted]

/-- The result code of an ECHO (R171). -/
def resultCode : EchoResult → Byte
  | .executed => 0x01
  | .refused => 0x02

/-- The whole frame a station with number `station` sends to carry `body` (R170, R171). -/
def inboundFrame (station : Byte) : FrameBody → List Byte
  | .data items => stationFrame typeData station (u8 items.length :: items.flatMap itemBytes)
  | .echo tag address result => stationFrame typeEcho station [tag, address, resultCode result]
  | .hold => stationFrame typeHold station []
  | .release => stationFrame typeRelease station []

/-! ## Request frames (R166) -/

/-- The code of a section (R166). -/
def sectionCode : Section → Byte
  | .header => 0
  | .terms => 1
  | .curve => 2
  | .candidates => 3
  | .triggers => 4

/-- The kind code and the body of a request (R166). -/
def requestParts : Request → Byte × List Byte
  | .queryStatus => (0x01, [])
  | .readScheme k => (0x02, [k])
  | .readPoint x => (0x03, [x])
  | .readMeasurements a b => (0x04, [a, b])
  | .readDetections a b => (0x05, [a, b])
  | .readArming k => (0x06, [k])
  | .readTrigger k => (0x07, [k])
  | .readEvents n => (0x08, [n])
  | .readEventsStart n start => (0x08, n :: be32 start)
  | .writeSection sec k c => (0x10, k :: sectionCode sec :: c)
  | .writePoint b =>
    (0x11, [b.point, b.owner, b.kind, b.link, b.address, b.valueSlot, b.statusSlot, b.timeout, b.backup])
  | .enable k => (0x20, [k])
  | .disable k => (0x21, [k])
  | .consent k g => (0x22, k :: be24 g)
  | .withdraw k => (0x23, [k])
  | .resetLockout k => (0x24, [k])
  | .protect k t => (0x25, [k, t])
  | .blockImmediate x => (0x30, [x, 0])
  | .blockDeferred x => (0x30, [x, 1])
  | .unblockPoint x => (0x31, [x])
  | .restorePoint x => (0x32, [x])
  | .storeLoad => (0x40, [])
  | .storeSave => (0x41, [])

/-- The request's body fits into a request frame: at most 250 bytes (manual 10.4). -/
def requestFits (r : Request) : Bool := decide ((requestParts r).2.length ≤ 250)

/-- The bytes of a request frame after its start marker, with its link check (R162, R163). -/
def requestBytes (r : Request) : List Byte :=
  let checked := (requestParts r).1 :: u8 (requestParts r).2.length :: (requestParts r).2
  checked ++ be16 (crc checked)

end Sys2Proof.Machine.Wire
end

