-- ==== Sys2Proof/Safety.lean ====
section
/-! DEFINITION. The laws of the part: what the manual says holds at every moment, one predicate for each block's state,
and the conditions under which a command is taken. Claims about runs are stated in these terms. -/

namespace Sys2Proof.Machine

/-! ## When a command is taken -/

/-- The part takes events: RESET# is not asserted (R174). -/
abbrev State.Awake (s : State) : Prop := s.inReset = false

/-- A request of party `p` reaches its block: the part takes events, the image is not being loaded after cold reset
(R163), and on the party's link no response waits and no select period is under way (R161). -/
abbrev State.Takes (s : State) (p : PartyId) : Prop :=
  s.inReset = false ∧ s.storeOp ≠ .coldLoad ∧ (s.parties[p]).exchange ≠ .responseWaiting ∧
    (s.parties[p]).select = .inactive

/-- Station link `l` is enabled and its station number is `station`; the image is not being loaded after cold reset: an
ECHO, HOLD or RELEASE frame with a right link check is accepted (R3, R4). -/
abbrev State.Accepts (s : State) (l : LinkId) (station : Byte) : Prop :=
  s.inReset = false ∧ s.storeOp ≠ .coldLoad ∧ (s.links[l]).params.enabled = true ∧ (s.links[l]).params.station = station

/-! ## How an event ends -/

/-- An event that leaves the tables as `t` answers a next state: `t` with what the part does of itself at the end of the
event (log entry 9). -/
def State.ended (t : State) : Host.Outcome State Fault Refusal := .next t.settle

/-- A request of party `p` that leaves the tables as `t` and is answered with this status and body. -/
def State.answered (t : State) (p : PartyId) (status : Status) (body : List Byte) : Host.Outcome State Fault Refusal :=
  State.ended (t.respond p { status := status, body := body })

/-- The link receiver of link `l` outside a frame, as it stands when a whole frame has arrived (R170). -/
def State.outsideFrame (s : State) (l : LinkId) : State :=
  { s with links := s.links.set l { s.links[l] with receiving := [] } }

/-- The request a command carries, with the party that sends it (R166). The period commands carry none. -/
def requestOf : Instr → Option (PartyId × Request)
  | .queryStatus p => some (p, .queryStatus)
  | .readScheme p k => some (p, .readScheme k)
  | .readPoint p x => some (p, .readPoint x)
  | .readMeasurements p a b => some (p, .readMeasurements a b)
  | .readDetections p a b => some (p, .readDetections a b)
  | .readArming p k => some (p, .readArming k)
  | .readTrigger p k => some (p, .readTrigger k)
  | .readEvents p n => some (p, .readEvents n)
  | .readEventsStart p n q => some (p, .readEventsStart n q)
  | .writeHeaderSection p k c => some (p, .writeSection .header k c)
  | .writeTermsSection p k c => some (p, .writeSection .terms k c)
  | .writeCurveSection p k c => some (p, .writeSection .curve k c)
  | .writeCandidatesSection p k c => some (p, .writeSection .candidates k c)
  | .writeTriggersSection p k c => some (p, .writeSection .triggers k c)
  | .writePoint p b => some (p, .writePoint b)
  | .enable p k => some (p, .enable k)
  | .disable p k => some (p, .disable k)
  | .consent p k g => some (p, .consent k g)
  | .withdraw p k => some (p, .withdraw k)
  | .resetLockout p k => some (p, .resetLockout k)
  | .protect p k t => some (p, .protect k t)
  | .blockPointImmediate p x => some (p, .blockImmediate x)
  | .blockPointDeferred p x => some (p, .blockDeferred x)
  | .unblockPoint p x => some (p, .unblockPoint x)
  | .restorePoint p x => some (p, .restorePoint x)
  | .storeLoad p => some (p, .storeLoad)
  | .storeSave p => some (p, .storeSave)
  | .resetAsserted | .coldResetEnd _ | .coldLoadComplete _ | .warmResetRequest | .stagingReadBegin => none
  | .stagingReadEnd _ | .warmResetTaken | .data _ _ _ | .echo _ _ _ _ _ | .hold _ _ | .release _ _ => none
  | .stationFrameDiscarded _ _ | .fdRisingEdge _ | .fdFallingEdge _ | .stalenessExpiry _ | .riseExpiry _ => none
  | .deadlineExpiry _ | .passBegin | .passCompletion | .transmissionStart _ | .orderFrameComplete _ => none
  | .executionComplete _ | .deferredBlockComplete _ | .retriggerReplay _ | .storeLoadComplete _ => none
  | .storeSaveComplete | .requestRejected _ _ | .responseRead _ _ | .overrun _ => none

/-- The definition-write command of a section. -/
def writeCommand (sec : Section) (p : PartyId) (k : Byte) (c : List Byte) : Instr :=
  match sec with
  | .header => .writeHeaderSection p k c
  | .terms => .writeTermsSection p k c
  | .curve => .writeCurveSection p k c
  | .candidates => .writeCandidatesSection p k c
  | .triggers => .writeTriggersSection p k c

/-! ## The input tables -/

/-- A measurement slot as R1 and R2 give it: the value is present exactly while the stale flag is clear, and is then the
held value; both lie in −32767 to 32767; the limit lies in 10 to 10,000; an unmapped slot has its cold-reset contents. -/
def MeasSlot.Lawful (m : MeasSlot) : Prop :=
  m.value.isSome = !m.stale ∧ (∀ v, m.value = some v → v = m.held) ∧ -32767 ≤ m.held ∧ m.held ≤ 32767 ∧
    10 ≤ m.limit ∧ m.limit ≤ 10000 ∧ (m.link = none → m = .fresh none m.limit)

/-- The measurement law (R1, R2). -/
def State.MeasurementLaw (s : State) : Prop := ∀ m : MeasId, s.meas[m].Lawful

/-- The detection law (R12, R116): slots 48 to 63 are fed by their fast detect inputs, slots 0 to 47 by a link or by
nothing; an unmapped slot stays cleared and has never risen; a set recent-rise flag belongs to a slot that has risen. -/
def State.DetectionLaw (s : State) : Prop :=
  ∀ d : DetId,
    (48 ≤ d.val → s.det[d].source = .fixed d) ∧
    (d.val < 48 → s.det[d].source = .unmapped ∨ ∃ l, s.det[d].source = .link l) ∧
    (s.det[d].source = .unmapped → s.det[d].asserted = false ∧ s.det[d].lastRise = none) ∧
    (s.recentRise[d] = true → s.det[d].lastRise.isSome = true)

/-! ## The action point table -/

/-- The point definitions of a table, in point order. -/
def definedPoints (points : Vector (Option Point) 128) : List PointDef :=
  (List.finRange 128).filterMap (fun p => points[p].map Point.defn)

/-- The point law (R22): a station link and output address identify at most one defined point, at most 32 defined points
name any one link, a confirm timeout lies in 2 to 250, and no point is its own backup. -/
def State.PointLaw (s : State) : Prop :=
  (∀ p q : PointId, ∀ x y : Point, s.points[p] = some x → s.points[q] = some y → x.defn.link = y.defn.link →
    x.defn.address = y.defn.address → p = q) ∧
  (∀ l : LinkId, (definedPoints s.points).countP (fun d => d.link = l) ≤ 32) ∧
  (∀ p : PointId, ∀ x : Point, s.points[p] = some x →
    2 ≤ x.defn.timeout ∧ x.defn.timeout ≤ 250 ∧ x.defn.backup ≠ some p)

/-- The order law (R24, R133, R151), outside cold reset: a point is ORDERED exactly while one order for it is in flight,
on its own link; that order has its output address, and its tag is the point's last order tag; in bench mode none is in
flight. -/
def State.OrderLaw (s : State) : Prop :=
  s.inReset = false →
    (∀ p : PointId, ∀ x : Point, s.points[p] = some x → x.orderState = .ordered →
      ∃ o ∈ (s.links[x.defn.link]).orders, o.point = p) ∧
    (∀ l : LinkId, ∀ o ∈ (s.links[l]).orders, ∃ x, s.points[o.point] = some x ∧ x.orderState = .ordered ∧
      x.defn.link = l ∧ x.defn.address = o.address ∧ x.lastTag = some o.tag) ∧
    (∀ l : LinkId, ((s.links[l]).orders.map TripOrder.point).Nodup) ∧
    (s.bench = true → ∀ l : LinkId, (s.links[l]).orders = [])

/-! ## Scheme definitions -/

/-- The ranges of R40 for a definition that stands in the table, with the content rules of R42 to R46. -/
structure SchemeDef.Lawful (d : SchemeDef) : Prop where
  label : d.label.length = 8 ∧ d.label.all printable = true
  authority : d.authority.getLsbD d.owner.val = true
  terms : d.terms.length ≤ 8 ∧ (d.terms.map Prod.fst).Nodup ∧ ∀ t ∈ d.terms, -1024 ≤ t.2 ∧ t.2 ≤ 1024
  curve : (d.curve = [] ∨ 2 ≤ d.curve.length) ∧ d.curve.length ≤ 8 ∧ curveValid d.curve d.margin d.overshoot = true
  candidates : d.candidates.length ≤ 16 ∧ d.candidates.Nodup
  sources : d.sources.length ≤ 6 ∧ d.sources.Nodup
  coincidence : 1 ≤ d.k ∧ d.k ≤ max 1 d.sources.length ∧ 1 ≤ d.window ∧ d.window ≤ 1000

/-- The definition law (R40). -/
def State.DefinitionLaw (s : State) : Prop := ∀ k : SchemeId, ∀ d, s.schemes[k].defn = some d → d.Lawful

/-! ## Scheme states, consents and the latch -/

/-- The consents a scheme may hold in its state (R61, R62): in PRIMED, ARMED and FIRING exactly those of its authority
set, at its definition generation; in STANDBY some of them; otherwise none. -/
def Scheme.consentOk (sc : Scheme) (d : SchemeDef) (p : PartyId) : Prop :=
  match sc.state with
  | .primed | .armed | .firing => sc.consents[p] = if d.hasAuthority p then some d.defGen else none
  | .standby => sc.consents[p] = none ∨ (d.hasAuthority p = true ∧ sc.consents[p] = some d.defGen)
  | .disabled | .lockout => sc.consents[p] = none

/-- A scheme entry as R41, R61 to R63, R103, R120 and R126 give it. -/
structure Scheme.Lawful (sc : Scheme) : Prop where
  /-- R41: an undefined entry's operating part is that of a DISABLED scheme, with every flag and record clear. -/
  undefined : sc.defn = none → sc = .undefined sc.armGen
  /-- R61, R62. -/
  consents : ∀ d, sc.defn = some d → ∀ p, sc.consentOk d p
  /-- R120: the re-arming mark is set only while the scheme is PRIMED. -/
  mark : sc.rearming = true → sc.state = .primed
  /-- R126: a set latch only in FIRING, or in PRIMED after an auto-rearm completion. -/
  latch : sc.latch.isSome = true → sc.state = .firing ∨ (sc.state = .primed ∧ sc.rearming = true)
  /-- R63: a DISABLED scheme's live arming record is empty. -/
  disabled : sc.state = .disabled → sc.live = none
  /-- R103: an ARMED scheme's live arming record is not empty. -/
  armed : sc.state = .armed → sc.live.isSome = true

/-- The scheme law: every entry is lawful; a pass whose void mark is clear is of a scheme in a state that runs passes
(R108); while a STORE_LOAD is in flight every scheme is DISABLED (R78); while the image is loaded after cold reset no
pass is in flight (R114). -/
def State.SchemeLaw (s : State) : Prop :=
  (∀ k : SchemeId, s.schemes[k].Lawful) ∧
  (∀ x, s.engine = some x → x.void = false → (s.schemes[x.scheme]).state.runsPasses = true) ∧
  (s.loading = true → ∀ k : SchemeId, s.schemes[k].state = .disabled) ∧
  (s.storeOp = .coldLoad → s.engine = none)

/-! ## Arming -/

/-- The inputs of a pass in the ranges of R44 and R45, which R84 says every pass finds. -/
structure PassInputs.Lawful (x : PassInputs) : Prop where
  curve : ∀ c ∈ x.curve, c.2 ≤ 30000
  rising : risingX x.curve = true
  margin : x.margin ≤ 5000
  overshoot : x.overshoot ≤ 30000
  candidates : x.candidates.length ≤ 16 ∧ (x.candidates.map CandidateCopy.point).Nodup

/-- The figures of a pass in the ranges of R88, R93 and R94. -/
structure Figures.Lawful (f : Figures) : Prop where
  index : ∀ q, f.q = some q → -32767 ≤ q ∧ q ≤ 32767
  base : f.a0 ≤ 30000
  required : f.a ≤ 35000
  cap : f.a ≤ f.cap ∧ f.cap ≤ 65000

/-- An arming record as R101 to R103 give it: no point twice, at most 16, T the sum of the credited values and at most
the cap, and the adequacy as T stands to A. -/
structure ArmingRecord.Lawful (r : ArmingRecord) : Prop where
  figures : r.figures.Lawful
  points : (r.selected.map Prod.fst).Nodup
  count : r.selected.length ≤ 16
  total : r.total = (r.selected.map Prod.snd).sum
  cap : r.total ≤ r.figures.cap
  adequacy : (r.adequacy, r.shortfall) = judgeAdequacy r.figures.a r.total
  nil : r.figures.a = 0 → r.selected = []

/-- A pass in flight that will end in a lawful record: its inputs in their ranges, and the walk so far (R99, R100). -/
structure Pass.Lawful (x : Pass) : Prop where
  inputs : x.inputs.Lawful
  points : (x.walk.selected.map Prod.fst ++ x.walk.remaining.map CandidateCopy.point).Nodup
  count : x.walk.selected.length + x.walk.remaining.length ≤ 16
  total : x.walk.total = (x.walk.selected.map Prod.snd).sum
  cap : x.walk.total ≤ x.inputs.figures.cap
  nil : x.inputs.figures.a = 0 → x.walk.selected = []

/-- The arming law (R102, R103): every live arming record, every snapshot and the pass in flight are lawful, and so is
every definition a further pass would copy. -/
def State.ArmingLaw (s : State) : Prop :=
  s.DefinitionLaw ∧
  (∀ k : SchemeId, ∀ r, s.schemes[k].live = some r → r.Lawful) ∧
  (∀ k : SchemeId, ∀ r, s.schemes[k].record = some r → r.snapshot.Lawful) ∧
  (∀ x, s.engine = some x → x.Lawful)

/-! ## The event record -/

/-- The event record law (R153, R156, R159): at most 256 records with consecutive sequence numbers up to the next one;
no cursor behind the oldest record; outside cold reset ATTN asserted exactly while the lag is above 0. -/
def State.RecordLaw (s : State) : Prop :=
  s.ring.length ≤ 256 ∧
  (∀ i (h : i < s.ring.length), s.ring[i].seq = s.oldestSeq + BitVec.ofNat 32 i) ∧
  (∀ p : PartyId, s.lag p ≤ s.ring.length) ∧
  (s.inReset = false → ∀ p : PartyId, s.readers[p].attn = decide (0 < s.lag p))

/-- What an event record says beside its sequence number and time (R154): kind, scheme, point, party and detail. -/
abbrev Report := EventKind × Option SchemeId × Option PointId × Option PartyId × Option Int

/-- Between `s` and `t`, at one reading of the clock, exactly these records are appended, in this order (R155). -/
def State.Logs (s t : State) (reports : List Report) : Prop :=
  let u := reports.foldl (fun s r => s.append r.1 r.2.1 r.2.2.1 r.2.2.2.1 r.2.2.2.2) s
  t.ring = u.ring ∧ t.nextSeq = u.nextSeq ∧ t.readers = u.readers ∧ t.clock = s.clock

/-! ## The external store -/

/-- The store law (log entry 2): the words of the external store are held in canonical form. -/
def State.StoreLaw (s : State) : Prop := Memory.wf s.store = true

end Sys2Proof.Machine
end

