-- ==== Sys2Proof/WellFormed.lean ====
section
/-! DEFINITION. Which commands are well formed: every operand in the range the manual gives it (R4, R166, R42 to R46, R37).
The part's answer to an ill-formed request is defined all the same (its status code), so no meaning asks for this. -/

namespace Sys2Proof

open Machine

/-- The external store's words an answer brings fit into the store (the configuration store chapter's opening). -/
def StoreAnswer.wellFormed : StoreAnswer → Bool
  | .stored | .silent => true
  | .rewritten words => decide (words.length ≤ Config.storeWords)

/-- A scheme number. -/
def schemeOk (n : Byte) : Bool := decide (n.toNat < 32)

/-- A point number. -/
def pointOk (n : Byte) : Bool := decide (n.toNat < 128)

/-- Section contents of the length their count implies that pass R42 to R46. For the header section the owner is taken as
unchanged (R48, check 7). -/
def sectionOk (sec : Section) (c : List Byte) : Bool :=
  sectionFormOk sec c &&
    match sec with
    | .header => (parseHeader c).isSome
    | .terms | .curve | .candidates | .triggers =>
      (writtenSection sec c (SchemeDef.new { label := [], owner := 0, authority := 1, autoRearm := false,
                                             enabledAtStart := false })).isSome

/-- A point body whose fields lie in the ranges of R37. -/
def PointBody.wellFormed (b : PointBody) : Bool :=
  pointOk b.point && decide (b.owner.toNat < 4) && (kindOf b.kind).isSome && decide (b.link.toNat < 8) &&
    (optFinOf 64 b.statusSlot).isSome && (optFinOf 128 b.backup).isSome && decide (b.backup ≠ b.point) &&
    decide (2 ≤ b.timeout.toNat) && decide (b.timeout.toNat ≤ 250)

/-- The bytes of a select period carry no request that a block takes (R161, R163). -/
def rejectedBytes (bytes : List Byte) : Bool :=
  match bytes with
  | marker :: rest =>
    if marker = Wire.requestMarker then
      match judgeFrame rest with
      | .frameError | .parsed .unknown | .parsed .malformed => true
      | .parsed (.request _) => false
    else true
  | [] => true

/-- Every operand of the command lies in its range. -/
def Instr.wellFormed : Instr → Bool
  | .resetAsserted | .coldResetEnd _ | .warmResetRequest | .stagingReadBegin | .warmResetTaken => true
  | .coldLoadComplete a | .stagingReadEnd a | .storeLoadComplete a => a.wellFormed
  | .data _ _ items => decide (items.length ≤ 40)
  | .echo _ _ _ _ _ | .hold _ _ | .release _ _ | .stationFrameDiscarded _ _ => true
  | .fdRisingEdge _ | .fdFallingEdge _ | .stalenessExpiry _ | .riseExpiry _ | .deadlineExpiry _ => true
  | .passBegin | .passCompletion | .transmissionStart _ | .orderFrameComplete _ | .executionComplete _ => true
  | .deferredBlockComplete _ | .retriggerReplay _ | .storeSaveComplete | .queryStatus _ => true
  | .readScheme _ k | .readArming _ k | .readTrigger _ k => schemeOk k
  | .readPoint _ x => pointOk x
  | .readMeasurements _ a b => decide (a.toNat ≤ b.toNat) && decide (b.toNat ≤ a.toNat + 31)
  | .readDetections _ a b => decide (a.toNat ≤ b.toNat) && decide (b.toNat ≤ 63)
  | .readEvents _ n | .readEventsStart _ n _ => decide (1 ≤ n.toNat) && decide (n.toNat ≤ 8)
  | .writeHeaderSection _ k c => schemeOk k && sectionOk .header c
  | .writeTermsSection _ k c => schemeOk k && sectionOk .terms c
  | .writeCurveSection _ k c => schemeOk k && sectionOk .curve c
  | .writeCandidatesSection _ k c => schemeOk k && sectionOk .candidates c
  | .writeTriggersSection _ k c => schemeOk k && sectionOk .triggers c
  | .writePoint _ b => b.wellFormed
  | .enable _ k | .disable _ k | .consent _ k _ | .withdraw _ k | .resetLockout _ k => schemeOk k
  | .protect _ k t => schemeOk k && (protectionOf t).isSome
  | .blockPointImmediate _ x | .blockPointDeferred _ x | .unblockPoint _ x | .restorePoint _ x => pointOk x
  | .storeLoad _ | .storeSave _ => true
  | .requestRejected _ x => rejectedBytes x.bytes
  | .responseRead _ _ | .overrun _ => true

end Sys2Proof
end

