-- ==== Sys2Proof/Certificates/Slice0/Obligations.lean ====
section
/-! DEFINITION. The statements for the provers. Each docstring names the rules of spec/ it formalises or, where a clause is
the model's own choice, the log entry. `State.ended` and `State.answered` are the end of an event and of a request
(Safety.lean); what the end of an event may do is `Obligations.EndOfEventFrame`. -/

open Sys2Proof Sys2Proof.Machine

/-! ## The machine as a whole -/

/-- A step takes the command at the front of the queue and is that command's meaning on the state with the queue's rest. -/
def Obligations.StepTakesFrontCommand : Prop :=
  ∀ (c : Instr) (rest : List Instr) (s : State),
    step { s with pending := c :: rest } = exec c { s with pending := rest }

/-- Log entry 10: on an empty queue the part's own time goes on. Nothing happens while RESET# is asserted; a thing that is
due is taken; where nothing is due the corridor clock advances by 1 ms. -/
def Obligations.IdleStepIsTime : Prop :=
  ∀ s : State, s.pending = [] →
    (s.inReset = true → step s = .next s) ∧
    (s.inReset = false → s.due = [] → step s = .next { s with clock := s.clock + 1 }) ∧
    (s.inReset = false → ∀ x, s.due = [x] →
      step s = .next (State.takeDue { s with openCount := s.openCount + 1 } x).settle)

/-- R174: RESET# asserted. Every operation in flight ends without completion, READY and ATTN are deasserted; what the
manual sets only when cold reset ends stands until then (log entry 24); that every link receiver stands outside a frame is
the model's deduction of log entry 23. While RESET# is asserted the part takes no frame, edge or request; only the end of
cold reset changes anything, but that the select line of a party link goes on (R161, log entry 23). -/
def Obligations.ResetAssertedEndsOperations : Prop :=
  (∀ s : State, s.inReset = false → ∃ t, exec .resetAsserted s = .next t ∧
    t.inReset = true ∧ t.storeOp = .idle ∧ t.warm = .none ∧ t.engine = none ∧
    (∀ p : PartyId, t.parties[p] = { s.parties[p] with ready := false } ∧
      t.readers[p] = { s.readers[p] with attn := false }) ∧
    (∀ l : LinkId, t.links[l] = { s.links[l] with orders := [], transmitting := none, receiving := [] }) ∧
    ((∀ p ws n, s.storeOp ≠ .save p ws n) → t.store = s.store) ∧
    t.pending = s.pending ∧ t.clock = s.clock ∧ t.bench = s.bench ∧ t.meas = s.meas ∧ t.det = s.det ∧
    t.recentRise = s.recentRise ∧ t.points = s.points ∧ t.lateLists = s.lateLists ∧ t.schemes = s.schemes ∧
    t.execCount = s.execCount ∧ t.ring = s.ring ∧ t.nextSeq = s.nextSeq) ∧
  (∀ (c : Instr) (s : State), s.inReset = true → (∀ b, c ≠ .coldResetEnd b) →
    (∀ p x, c ≠ .requestRejected p x ∧ c ≠ .responseRead p x) → exec c s = .next s) ∧
  (∀ (p : PartyId) (bytes : List Byte) (ends : Bool) (s : State), s.inReset = true →
    let t : State := { s with parties := s.parties.set p { s.parties[p] with
      select := if ends = true then .inactive
                else if (s.parties[p]).select = .inactive ∧ bytes ≠ [] then .ignored else (s.parties[p]).select } }
    exec (.requestRejected p ⟨bytes, ends⟩) s = .next t ∧ exec (.responseRead p ⟨bytes, ends⟩) s = .next t)

/-- R174 with R1, R12, R22, R41, R114, R116, R146, R152, R153, R156, R159, R161: what stands when cold reset ends. That
every link is disabled and every point undefined before the load completes is the deduction of log entry 31 (log entry 1
for the moment); that the queue of commands stands, and is the model's own, is log entry 29. A select period already in
progress is ignored until its select line goes inactive (R161). -/
def Obligations.ColdResetEndValues : Prop :=
  ∀ (bench : Bool) (s : State), s.inReset = true → ∃ t, exec (.coldResetEnd bench) s = .next t ∧
    t.inReset = false ∧ t.clock = 0 ∧ t.bench = bench ∧ t.warm = .none ∧ t.storeOp = .coldLoad ∧
    t.store = s.store ∧ t.pending = s.pending ∧
    (∀ m : MeasId, t.meas[m].value = none ∧ t.meas[m].held = 0 ∧ t.meas[m].quality = .none ∧
      t.meas[m].lastUpdate = none ∧ t.meas[m].stale = true) ∧
    (∀ d : DetId, t.det[d].asserted = false ∧ t.det[d].lastRise = none ∧ t.recentRise[d] = false) ∧
    (∀ n : FdId, t.det[fdSlot n].source = .fastDetect n) ∧
    (∀ p : PointId, t.points[p] = none ∧ t.lateLists[p] = []) ∧
    (∀ k : SchemeId, t.schemes[k] = .undefined 0) ∧ t.engine = none ∧
    (∀ l : LinkId, t.links[l].orders = [] ∧ t.links[l].transmitting = none ∧ t.links[l].held = false ∧
      t.links[l].nextTag = 0 ∧ t.links[l].params.enabled = false) ∧
    t.execCount = 0 ∧ t.ring = [] ∧ t.nextSeq = 0 ∧
    (∀ p : PartyId, t.readers[p].cursor = 0 ∧ t.readers[p].lost = 0 ∧ t.readers[p].attn = false ∧
      t.parties[p].exchange = .idle ∧ t.parties[p].waiting = none ∧ t.parties[p].overrun = false ∧
      t.parties[p].ready = false ∧
      ((s.parties[p]).select = .inactive → t.parties[p].select = .inactive) ∧
      ((s.parties[p]).select ≠ .inactive → t.parties[p].select = .ignored))

/-- The machine right after reset meets every law (log entry 1 for the moment it stands at). -/
def Obligations.ResetMeetsEveryLaw : Prop :=
  State.reset.MeasurementLaw ∧ State.reset.DetectionLaw ∧ State.reset.PointLaw ∧ State.reset.OrderLaw ∧
    State.reset.DefinitionLaw ∧ State.reset.SchemeLaw ∧ State.reset.ArmingLaw ∧ State.reset.RecordLaw ∧
    State.reset.StoreLaw

/-- Log entry 9 for the moment: what the part does of itself at the end of an event. R177: a warm reset whose three
conditions hold is taken (what it does: `Obligations.WarmResetValues`). Where none is due, beside the counter of the free
values: R105, R82: the free engine takes the flags up to the lowest-numbered scheme that runs passes and begins its pass;
R100: the walk of a pass in flight goes on over some of its candidates (how many is the free value of log entry 5); R138,
R139, R151: a link begins to transmit exactly where it is enabled, FULL and not held, outside bench mode, with no frame going
out and an order in its queue, and it sends the ORDER frame of the order at the head. Nothing else changes. -/
def Obligations.EndOfEventFrame : Prop :=
  ∀ s : State,
    (s.settle.pending = s.pending ∧ s.settle.inReset = s.inReset ∧ s.settle.clock = s.clock ∧
      s.settle.bench = s.bench ∧ s.settle.store = s.store ∧ s.settle.storeOp = s.storeOp ∧
      s.settle.parties = s.parties ∧ s.settle.execCount = s.execCount ∧ s.settle.lateLists = s.lateLists) ∧
    (s.warmDue = true ↔
      (∃ map, s.warm = .staged map) ∧ (∀ k : SchemeId, (s.schemes[k]).state ≠ .firing) ∧ s.storeOp = .idle) ∧
    (∀ map, s.warm = .staged map → s.warmDue = true →
      (s.takeWarmReset map).warmDue = false ∧ s.settle = (s.takeWarmReset map).settle) ∧
    (s.warmDue = false →
      (s.settle.warm = s.warm ∧ s.settle.meas = s.meas ∧ s.settle.det = s.det ∧
        s.settle.recentRise = s.recentRise ∧ s.settle.points = s.points ∧ s.settle.ring = s.ring ∧
        s.settle.nextSeq = s.nextSeq ∧ s.settle.readers = s.readers) ∧
      (∀ l : LinkId,
        let k := s.links[l]
        let idle := k.params.enabled = true ∧ k.params.mode = .full ∧ k.held = false ∧ s.bench = false ∧
          k.transmitting = none
        (∀ head, idle → k.orders.find? (fun o => o.position = .queued) = some head →
          s.settle.links[l] = { k with
            orders := k.orders.map (fun o => if o.point = head.point then { o with position := .inTransmission } else o)
            transmitting := some (Wire.orderFrame k.params.station head) }) ∧
        (¬ idle ∨ k.orders.find? (fun o => o.position = .queued) = none → s.settle.links[l] = k)) ∧
      (∀ x, s.engine = some x → s.settle.schemes = s.schemes ∧ ∃ n, s.settle.engine =
        some { x with walk := s.walkOn x.inputs.figures x.walk.remaining n x.walk }) ∧
      (s.engine = none → s.storeOp = .coldLoad → s.settle.schemes = s.schemes ∧ s.settle.engine = none) ∧
      (s.engine = none → s.storeOp ≠ .coldLoad →
        let begins := fun j : SchemeId =>
          (s.schemes[j]).pendingPass = true ∧ (s.schemes[j]).defn ≠ none ∧ (s.schemes[j]).state.runsPasses = true
        ((∀ j, ¬ begins j) → s.settle.engine = none ∧
          ∀ j : SchemeId, s.settle.schemes[j] = { s.schemes[j] with pendingPass := false }) ∧
        (∀ (k : SchemeId) (d : SchemeDef), begins k → (∀ j, j < k → ¬ begins j) → (s.schemes[k]).defn = some d →
          (∃ n, s.settle.engine = some {
            scheme := k, begun := s.clock, void := false, inputs := s.copyInputs d
            walk := s.walkOn (s.copyInputs d).figures (s.copyInputs d).candidates n (s.copyInputs d).startWalk }) ∧
          ∀ j : SchemeId, s.settle.schemes[j] =
            if j ≤ k then { s.schemes[j] with pendingPass := false } else s.schemes[j])))

/-! ## The store interface and the two resets -/

/-- R172, R174, R175, R176: a load's completion sets the tables from the valid image, or as for missing modules, and
appends STORE_LOADED with the image length or STORE_INVALID with the cause, with the requesting party of a STORE_LOAD. A
save's completion writes what is left of it and appends STORE_SAVED with the requesting party and the image length. R177:
each then begins the staging read of a held warm reset request. That the store is read whole at the end of the operation,
and answers with what the command carries (`s.storeRead`), is the model's deduction of log entry 8. -/
def Obligations.StoreOperationsComplete : Prop :=
  ∀ (a : StoreAnswer) (s : State), s.inReset = false →
    (s.storeOp = .coldLoad → exec (.coldLoadComplete a) s =
      match readImage (s.storeRead a).1 with
      | .ok x => State.ended (((State.loadTables { s with store := (s.storeRead a).2, storeOp := .idle } (some x)).append
          .storeLoaded none none none (some (x.length : Int))).beginStaging)
      | .error cause => State.ended (((State.loadTables { s with store := (s.storeRead a).2, storeOp := .idle } none).append
          .storeInvalid none none none (some (cause : Int))).beginStaging)) ∧
    (∀ p, s.storeOp = .load p → exec (.storeLoadComplete a) s =
      match readImage (s.storeRead a).1 with
      | .ok x => State.ended (((State.loadTables { s with store := (s.storeRead a).2, storeOp := .idle } (some x)).append
          .storeLoaded none none (some p) (some (x.length : Int))).beginStaging)
      | .error cause => State.ended (((State.loadTables { s with store := (s.storeRead a).2, storeOp := .idle } none).append
          .storeInvalid none none (some p) (some (cause : Int))).beginStaging)) ∧
    (∀ p ws n, s.storeOp = .save p ws n → exec .storeSaveComplete s =
      State.ended ((State.append { s with store := Memory.writeAll s.store ws, storeOp := .idle }
        .storeSaved none none (some p) (some (n : Int))).beginStaging))

/-- R172, last sentences, with R2, R12, R41, R55: a load of a rejected image leaves no scheme and no point defined, every
slot unmapped and every link disabled; each scheme number keeps its arming generation. -/
def Obligations.RejectedImageLeavesNothing : Prop :=
  ∀ s : State,
    (∀ m : MeasId, (s.loadTables none).meas[m] = .unmapped) ∧
    (∀ d : DetId, (s.loadTables none).det[d] = .cleared (.fixed d)) ∧
    (∀ p : PointId, (s.loadTables none).points[p] = none) ∧
    (∀ k : SchemeId, (s.loadTables none).schemes[k] = .undefined (s.schemes[k]).armGen) ∧
    (∀ l : LinkId, (s.loadTables none).links[l].params = .default)

/-- R177, R80: WARM# asserted, the staging read's two ends, and the taking, once no scheme is FIRING and the store state is
IDLE. A request made while another is held adds nothing. That the taking, commanded where it is not due, does nothing (last
clause) is the model's choice of log entry 11; that each read of the store is answered with the command is log entry 8. -/
def Obligations.WarmResetIsHeldStagedAndTaken : Prop :=
  ∀ (a : StoreAnswer) (s : State), s.inReset = false →
    (s.warm = .none → s.storeOp = .idle →
      exec .warmResetRequest s = State.ended { s with warm := .held, storeOp := .staging }) ∧
    (s.warm = .none → s.storeOp ≠ .idle → exec .warmResetRequest s = State.ended { s with warm := .held }) ∧
    (s.warm ≠ .none → exec .warmResetRequest s = State.ended s) ∧
    (s.warm = .held → s.storeOp = .idle → exec .stagingReadBegin s = State.ended { s with storeOp := .staging }) ∧
    (s.storeOp = .staging → exec (.stagingReadEnd a) s =
      State.ended { s with
        store := (s.storeRead a).2
        storeOp := .idle
        warm := .staged (match readImage (s.storeRead a).1 with
          | .ok x => some (stationMap (x.body 0))
          | .error _ => none) }) ∧
    (∀ map, s.warm = .staged map → s.storeOp = .idle → (∀ k : SchemeId, (s.schemes[k]).state ≠ .firing) →
      exec .warmResetTaken s = State.ended (s.takeWarmReset map)) ∧
    (∀ map, s.warm = .staged map → (s.storeOp ≠ .idle ∨ ∃ k : SchemeId, (s.schemes[k]).state = .firing) →
      exec .warmResetTaken s = State.ended s)

/-- R177 with R3, R17, R18, R38, R79, R113, R116, R120, R139, R152, R161: what a warm reset leaves, and the records it
appends, WARM_RESET first. The model's deductions: that the RETRIGGER_DROPPED records stand before the POINT_BLOCKED ones
(log entry 25), that WARM_RESET counts the points that were not FAULTED already and that a rejected image leaves out the
first step of R38 (log entry 18), and that every link receiver stands outside a frame (log entry 23). -/
def Obligations.WarmResetValues : Prop :=
  ∀ (s : State) (map : Option (Vector LinkParams 8)),
    let t := s.takeWarmReset map
    t.warm = .none ∧ t.clock = s.clock ∧ t.bench = s.bench ∧ t.storeOp = s.storeOp ∧ t.store = s.store ∧
    t.execCount = s.execCount ∧ t.lateLists = s.lateLists ∧ t.engine = none ∧ t.parties = s.parties ∧
    (∀ l : LinkId, t.links[l] = { s.links[l] with
      params := (match map with | some v => v[l] | none => (s.links[l]).params)
      held := false, transmitting := none, receiving := [] }) ∧
    (∀ m : MeasId, t.meas[m] = .fresh (s.meas[m]).link (s.meas[m]).limit) ∧
    (∀ d : DetId, t.det[d] = .cleared (s.det[d]).source ∧ t.recentRise[d] = false) ∧
    (∀ k : SchemeId,
      let after : SchemeState := if (s.schemes[k]).state = .armed then .primed else (s.schemes[k]).state
      t.schemes[k].defn = (s.schemes[k]).defn ∧ t.schemes[k].armGen = (s.schemes[k]).armGen ∧
      t.schemes[k].state = after ∧ t.schemes[k].consents = (s.schemes[k]).consents ∧ t.schemes[k].live = none ∧
      t.schemes[k].record = (s.schemes[k]).record ∧ t.schemes[k].latch = none ∧
      t.schemes[k].rearming = false ∧ (after = .primed → t.schemes[k].pendingPass = true)) ∧
    (∀ p : PointId, s.points[p] = none → t.points[p] = none) ∧
    (∀ (p : PointId) (x : Point), s.points[p] = some x →
      let after := t.links[x.defn.link].params
      let off := map.isSome = true ∧ ¬ (after.enabled = true ∧ after.mode = .full)
      (off → t.points[p] = some { x with availability := .faulted, blockPending := false }) ∧
      (¬ off → x.blockPending = true → x.orderState ≠ .ordered →
        t.points[p] = some { x with availability := .blocked, blockPending := false }) ∧
      (¬ off → x.blockPending = false ∨ x.orderState = .ordered → t.points[p] = some x)) ∧
    (let off := fun p : PointId => match s.points[p] with
        | some x => !(t.links[x.defn.link]).params.isFull
        | none => false
     let madeFaulted := (List.finRange 128).countP (fun p =>
        off p && decide (s.points[p].map Point.availability ≠ some .faulted))
     ∃ (ks : List SchemeId) (ps : List PointId),
      ks.Perm ((List.finRange 32).filter (fun k => (s.schemes[k]).latch.isSome)) ∧
      ps.Perm ((List.finRange 128).filter (fun p => match s.points[p] with
        | some x => x.blockPending && decide (x.orderState ≠ .ordered) && !(map.isSome && off p)
        | none => false)) ∧
      s.Logs t ((.warmReset, none, none, none, some (if map.isSome then (madeFaulted : Int) else -1)) ::
        (ks.map (fun k => (.retriggerDropped, some k, none, none,
            (s.schemes[k]).latch.map (fun g => (g.slot.val : Int)))) ++
          ps.map (fun p => (.pointBlocked, none, some p, none, some 0)))))

/-- R175, R176: STORE_LOAD and STORE_SAVE where they are taken, and where the store state refuses them. -/
def Obligations.StoreRequestsAreTaken : Prop :=
  ∀ (p : PartyId) (s : State), s.Takes p →
    (s.storeOp = .idle → (∀ k : SchemeId, (s.schemes[k]).defn = none ∨ (s.schemes[k]).state = .disabled) →
      exec (.storeLoad p) s = State.answered { s with storeOp := .load p } p .done []) ∧
    (s.storeOp = .idle → (∃ k : SchemeId, (s.schemes[k]).defn ≠ none ∧ (s.schemes[k]).state ≠ .disabled) →
      exec (.storeLoad p) s = s.answered p .wrongState []) ∧
    (s.storeOp = .idle → ∃ low : BitVec 14, exec (.storeSave p) s = State.answered { s with
      store := Memory.write s.store 0 (0b00#2 ++ low : BitVec 16)
      openCount := s.openCount + 1
      storeOp := .save p (saveWrites s.moduleBodies) (imageLength s.moduleBodies) } p .done []) ∧
    (s.storeOp ≠ .idle → exec (.storeLoad p) s = s.answered p .storeBusy [] ∧
      exec (.storeSave p) s = s.answered p .storeBusy [])

/-- R172, R173, R176, with R2, R12, R22, R55, R56, R77: the image a save writes is at most 3,512 words long; reading it
back finds a valid image with exactly the modules that were saved, all eight present (log entry 21); and loading it sets
each table to what was saved: the link parameters, the mapped slots with their limits, the sources, the points on enabled
FULL links, and the definitions. -/
def Obligations.SavedImageReadsBack : Prop :=
  ∀ (s : State) (m : Memory), s.DefinitionLaw → Memory.wf m = true →
    imageLength s.moduleBodies ≤ 3512 ∧
    readImage (Memory.writeAll m (saveWrites s.moduleBodies)) =
      .ok { length := imageLength s.moduleBodies, modules := s.moduleBodies.map some } ∧
    (s.MeasurementLaw → s.DetectionLaw → s.PointLaw → ∀ u : State,
      let t := u.loadTables (some { length := imageLength s.moduleBodies, modules := s.moduleBodies.map some })
      (∀ l : LinkId, t.links[l] = { u.links[l] with
        params := (s.links[l]).params, held := false, orders := [], transmitting := none
        receiving := if (s.links[l]).params.enabled then (u.links[l]).receiving else [] }) ∧
      (∀ i : MeasId, t.meas[i] = match (s.meas[i]).link with
        | some l => .fresh (some l) (s.meas[i]).limit
        | none => .unmapped) ∧
      (∀ d : DetId, t.det[d] = .cleared (s.det[d]).source ∧ t.recentRise[d] = false) ∧
      (∀ p : PointId, t.lateLists[p] = [] ∧ t.points[p] = match s.points[p] with
        | some x =>
          if (s.links[x.defn.link]).params.enabled = true ∧ (s.links[x.defn.link]).params.mode = .full then some {
            defn := x.defn, availability := .inService, blockPending := false, orderState := .idle, lastTag := none,
            lastOutcome := .none }
          else none
        | none => none) ∧
      (∀ k : SchemeId, t.schemes[k] = match (s.schemes[k]).defn with
        | some d => { Scheme.undefined (u.schemes[k]).armGen with
            defn := some d
            state := if d.complete = true ∧ d.enabledAtStart = true then .standby else .disabled }
        | none => .undefined (u.schemes[k]).armGen))

/-- R176: a save that a cold reset cuts off leaves signature 00b in word 0, so the next load rejects the image with
cause 1. -/
def Obligations.CutOffSaveIsRejected : Prop :=
  ∀ (p : PartyId) (bodies : List (List Word16)) (n : Nat) (s t : State), s.inReset = false →
    bodies.length = 8 → s.storeOp = .save p (saveWrites bodies) n → s.StoreLaw →
    (Memory.read s.store 0).extractLsb' 14 2 = 0b00#2 → exec .resetAsserted s = .next t →
    readImage t.store = .error 1

/-! ## The input tables -/

/-- R3, R4, R5, R19: a DATA frame on an enabled link with its station number and at most 40 items is taken item by item,
in order; while a STORE_LOAD is in flight its items are not applied; a frame that fails a condition has no effect. That a
whole-frame command leaves the link receiver outside a frame (`State.outsideFrame`) is the model's choice of log entry
13. -/
def Obligations.DataFrameIsTaken : Prop :=
  ∀ (l : LinkId) (station : Byte) (items : List DataItem) (s : State), s.inReset = false →
    (s.Accepts l station → items.length ≤ 40 → s.loading = false →
      exec (.data l station items) s = State.ended (items.foldl (State.takeDataItem l) (s.outsideFrame l))) ∧
    (s.Accepts l station → s.loading = true → exec (.data l station items) s = State.ended (s.outsideFrame l)) ∧
    (¬ s.Accepts l station ∨ 40 < items.length →
      exec (.data l station items) s = State.ended (s.outsideFrame l))

/-- R5, R6, R7, R10: a measurement item. It is ignored where the slot is not mapped to the link; a valid item makes the
slot fresh; an invalid one makes it stale, with a MEAS_STALE record where it was fresh. The requests of R9 follow. -/
def Obligations.MeasurementItemIsApplied : Prop :=
  ∀ (l : LinkId) (m : MeasId) (quality : Byte) (value : Word16) (s : State),
    let item := DataItem.measurement (BitVec.ofNat 8 m.val) quality value
    ((s.meas[m]).link ≠ some l → State.takeDataItem l s item = s) ∧
    ((s.meas[m]).link = some l → (quality = 1 ∨ quality = 2) → value ≠ 0x8000#16 →
      State.takeDataItem l s item =
        State.requestForSlot { s with meas := s.meas.set m { s.meas[m] with
          value := some value.toInt, held := value.toInt, quality := if quality = 1 then .good else .suspect,
          lastUpdate := some s.clock, stale := false } } m) ∧
    ((s.meas[m]).link = some l → ¬ ((quality = 1 ∨ quality = 2) ∧ value ≠ 0x8000#16) →
      (s.meas[m]).stale = false →
      State.takeDataItem l s item =
        State.requestForSlot (State.append { s with meas := s.meas.set m { s.meas[m] with
          quality := .invalid, stale := true, value := none } } .measStale none none none
          (some ((m.val : Int) + 256))) m) ∧
    ((s.meas[m]).link = some l → ¬ ((quality = 1 ∨ quality = 2) ∧ value ≠ 0x8000#16) →
      (s.meas[m]).stale = true →
      State.takeDataItem l s item =
        State.requestForSlot { s with meas := s.meas.set m { s.meas[m] with
          quality := .invalid, stale := true, value := none } } m)

/-- R9, R25, R104: a request sets the pending-pass flag of every scheme that depends on the slot, or lists the point, and
changes nothing else. -/
def Obligations.RequestsSetPendingFlags : Prop :=
  ∀ (s : State) (m : MeasId) (p : PointId),
    (∃ v, s.requestForSlot m = { s with schemes := v } ∧ ∀ k : SchemeId,
      v[k] = { s.schemes[k] with pendingPass := v[k].pendingPass } ∧
      (v[k].pendingPass = true ↔ (s.schemes[k]).pendingPass = true ∨ ∃ d, (s.schemes[k]).defn = some d ∧
        ((∃ w, (m, w) ∈ d.terms) ∨
          ∃ q ∈ d.candidates, ∃ x, s.points[q] = some x ∧ x.defn.valueSlot = m))) ∧
    (∃ v, s.requestForPoint p = { s with schemes := v } ∧ ∀ k : SchemeId,
      v[k] = { s.schemes[k] with pendingPass := v[k].pendingPass } ∧
      (v[k].pendingPass = true ↔ (s.schemes[k]).pendingPass = true ∨ ∃ d, (s.schemes[k]).defn = some d ∧
        p ∈ d.candidates))

/-- R5, R13, R14, R116: a detection item and an edge on FDn, which is an assertion or a clear of slot 48 + n. An item is
ignored unless the slot's source is the link, and no edge is taken while the image is loaded after cold reset. An
assertion of an asserted slot and a clear of a cleared one change nothing; the other two rise or clear the slot.
R15, R31: a rise is handed to the trigger monitor and to the points whose status slot it is, a clear to those points
alone; what each point does with it in each order state. That either hand-off, and any of the schemes and points it
reaches, may come first are log entries 3 and 4. -/
def Obligations.DetectionsRiseAndClear : Prop :=
  ∀ s : State,
    let rise := fun d : DetId => State.handOnRise { s with
      det := s.det.set d { s.det[d] with asserted := true, lastRise := some s.clock }
      recentRise := s.recentRise.set d true } d
    let clear := fun d : DetId =>
      let t : State := { s with det := s.det.set d { s.det[d] with asserted := false } }
      (t.statusPoints d).foldl (fun u p => u.statusClear p) t
    (∀ (l : LinkId) (slot : Byte) (asserted : Bool),
      (64 ≤ slot.toNat → State.takeDataItem l s (.detection slot asserted) = s) ∧
      (∀ d : DetId, slot.toNat = d.val →
        ((s.det[d]).source ≠ .link l → State.takeDataItem l s (.detection slot asserted) = s) ∧
        ((s.det[d]).source = .link l → (s.det[d]).asserted = asserted →
          State.takeDataItem l s (.detection slot asserted) = s) ∧
        ((s.det[d]).source = .link l → asserted = true → (s.det[d]).asserted = false →
          State.takeDataItem l s (.detection slot asserted) = rise d) ∧
        ((s.det[d]).source = .link l → asserted = false → (s.det[d]).asserted = true →
          State.takeDataItem l s (.detection slot asserted) = clear d))) ∧
    (∀ n : FdId, s.inReset = false →
      (s.storeOp = .coldLoad → exec (.fdRisingEdge n) s = s.ended ∧ exec (.fdFallingEdge n) s = s.ended) ∧
      (s.storeOp ≠ .coldLoad → (s.det[fdSlot n]).asserted = false →
        exec (.fdRisingEdge n) s = State.ended (rise (fdSlot n)) ∧ exec (.fdFallingEdge n) s = s.ended) ∧
      (s.storeOp ≠ .coldLoad → (s.det[fdSlot n]).asserted = true →
        exec (.fdRisingEdge n) s = s.ended ∧ exec (.fdFallingEdge n) s = State.ended (clear (fdSlot n)))) ∧
    (∀ d : DetId,
      (∀ p : PointId, p ∈ s.statusPoints d ↔ ∃ x, s.points[p] = some x ∧ x.defn.statusSlot = some d) ∧
      (∃ (ps : List PointId) (n : Nat), ps.Perm (s.statusPoints d) ∧
        s.pointsTakeRise d = ps.foldl (fun u p => u.statusRise p) { s with openCount := n }) ∧
      (∃ (ts : List (SchemeId × Trigger)) (n : Nat), ts.Perm (s.triggered d) ∧
        s.monitorTakesRise d = ts.foldl (fun u x => u.answerTrigger x.1 x.2) { s with openCount := n }) ∧
      (s.statusPoints d = [] → s.handOnRise d = s.monitorTakesRise d) ∧
      (s.statusPoints d ≠ [] → s.triggered d = [] → s.handOnRise d = s.pointsTakeRise d) ∧
      (s.statusPoints d ≠ [] → s.triggered d ≠ [] → ∃ n : Nat,
        let u : State := { s with openCount := n }
        s.handOnRise d = (u.monitorTakesRise d).pointsTakeRise d ∨
          s.handOnRise d = (u.pointsTakeRise d).monitorTakesRise d)) ∧
    (∀ (p : PointId) (x : Point), s.points[p] = some x →
      (x.orderState = .idle → s.statusRise p =
        State.requestForPoint { s with points := s.points.set p (some { x with orderState := .tripped }) } p) ∧
      (∀ l o, x.orderState = .ordered → s.orderOf p = some (l, o) →
        s.statusRise p = s.confirmOrder l o .statusSlot) ∧
      (x.orderState = .tripped → s.statusRise p = s) ∧
      (x.orderState = .tripped → s.statusClear p =
        State.requestForPoint { s with points := s.points.set p (some { x with orderState := .idle }) } p) ∧
      (x.orderState ≠ .tripped → s.statusClear p = s))

/-- R8, R9, R10, R116, R143, R144: the staleness expiry, the rise expiry and the deadline expiry, where they are due;
where they are not, nothing is taken (log entry 11). -/
def Obligations.ExpiriesAreTaken : Prop :=
  ∀ (m : MeasId) (d : DetId) (p : PointId) (s : State), s.inReset = false →
    (∀ t, (s.meas[m]).stale = false → (s.meas[m]).lastUpdate = some t →
      ((s.clock - t).toNat = (s.meas[m]).limit → exec (.stalenessExpiry m) s =
        State.ended (State.requestForSlot (State.append { s with meas := s.meas.set m { s.meas[m] with
          stale := true, value := none } } .measStale none none none (some (m.val : Int))) m)) ∧
      ((s.clock - t).toNat ≠ (s.meas[m]).limit → exec (.stalenessExpiry m) s = s.ended)) ∧
    ((s.meas[m]).stale = true ∨ (s.meas[m]).lastUpdate = none → exec (.stalenessExpiry m) s = s.ended) ∧
    (∀ t, s.recentRise[d] = true → (s.det[d]).lastRise = some t →
      (s.clock - t = 1000#32 → exec (.riseExpiry d) s = State.ended { s with recentRise := s.recentRise.set d false }) ∧
      (s.clock - t ≠ 1000#32 → exec (.riseExpiry d) s = s.ended)) ∧
    (s.recentRise[d] = false ∨ (s.det[d]).lastRise = none → exec (.riseExpiry d) s = s.ended) ∧
    (∀ l o, s.orderOf p = some (l, o) →
      (o.deadline = s.clock → exec (.deadlineExpiry p) s = State.ended (s.failOrder l o true)) ∧
      (o.deadline ≠ s.clock → exec (.deadlineExpiry p) s = s.ended)) ∧
    (s.orderOf p = none → exec (.deadlineExpiry p) s = s.ended)

/-! ## Arming -/

/-- R87: the index division is to the nearest integer, and a quotient exactly halfway between two integers goes away from
zero; the two formulas of the rule give it, symmetric in the sign, with the rule's seven examples; for the at most eight
terms of R43 the rounded quotient lies within ±1,048,544. -/
def Obligations.IndexDivisionRoundsToNearest : Prop :=
  (∀ sum : Int,
    2 * |256 * roundedIndex sum - sum| ≤ 256 ∧
    (2 * |256 * roundedIndex sum - sum| = 256 → |sum| < |256 * roundedIndex sum|) ∧
    (0 ≤ sum → roundedIndex sum = (sum + 128) / 256) ∧
    (sum < 0 → roundedIndex sum = -((-sum + 128) / 256)) ∧
    roundedIndex (-sum) = -roundedIndex sum) ∧
  (roundedIndex 127 = 0 ∧ roundedIndex 128 = 1 ∧ roundedIndex (-127) = 0 ∧ roundedIndex (-128) = -1 ∧
    roundedIndex (-1919) = -7 ∧ roundedIndex (-1920) = -8 ∧ roundedIndex (-1921) = -8) ∧
  (∀ terms : List TermCopy, terms.length ≤ 8 →
    (∀ t ∈ terms, -1024 ≤ t.weight ∧ t.weight ≤ 1024 ∧ -32767 ≤ t.input ∧ t.input ≤ 32767) →
    |roundedIndex (indexSum terms)| ≤ 1048544)

/-- R92: the curve's rounding keeps A0 within its segment's end values: the ranges of N / D, of the step and of A0 on a
rising, a falling and a flat segment, and A0 in 0 to 30,000 for every computed Q and under ARM_FULL. R90, R91: where Q
stands on the curve, and the step, the smallest integer not less than N / D. -/
def Obligations.SegmentKeepsWithinItsEnds : Prop :=
  (∀ (q x x' : Int) (y y' : Nat), x ≤ q → q < x' →
    let n := (q - x) * ((y' : Int) - y)
    let d := x' - x
    let step := segmentStep n d
    (d * (step - 1) < n ∧ n ≤ d * step) ∧
    (y < y' → 0 ≤ n ∧ n < ((y' : Int) - y) * d ∧ 0 ≤ step ∧ step ≤ (y' : Int) - y ∧
      (y : Int) ≤ y + step ∧ y + step ≤ (y' : Int) ∧ (x < q → 1 ≤ step)) ∧
    (y' < y → ((y' : Int) - y) * d < n ∧ n ≤ 0 ∧ (y' : Int) - y + 1 ≤ step ∧ step ≤ 0 ∧
      (y' : Int) + 1 ≤ y + step ∧ y + step ≤ (y : Int)) ∧
    (y = y' → step = 0 ∧ y + step = (y : Int))) ∧
  (∀ curve : List (Int × Nat), risingX curve = true →
    (∀ q x y, curve.head? = some (x, y) → q ≤ x → curveAt curve q = y) ∧
    (∀ q x y, curve.getLast? = some (x, y) → x ≤ q → curveAt curve q = y) ∧
    (∀ (q : Int) (k : Nat) (x x' : Int) (y y' : Nat), curve[k]? = some (x, y) → curve[k + 1]? = some (x', y') →
      x ≤ q → q < x' → (curveAt curve q : Int) = y + segmentStep ((q - x) * ((y' : Int) - y)) (x' - x)) ∧
    ((∀ c ∈ curve, c.2 ≤ 30000) →
      (∀ q : Int, curveAt curve q ≤ 30000) ∧
      (curve ≠ [] → largestY curve ≤ 30000 ∧ ∃ c ∈ curve, largestY curve = c.2)))

/-- R82 to R95: the figures of every pass whose inputs lie in the ranges of R44 lie in theirs, with A and the cap as R93
and R94 give them, Q, A0 and the flags as R85 to R90 and R95 give them on each of the three paths: the index sum S is the
sum of weight times input over all terms, and Q the rounded quotient limited to −32767 to +32767. -/
def Obligations.ArmingFiguresInRange : Prop :=
  (∀ t : TermCopy, (t.stale = true → t.input = t.held) ∧
    (∀ v, t.stale = false → t.value = some v → t.input = v)) ∧
  ∀ x : PassInputs, x.Lawful →
    x.figures.Lawful ∧ x.figures.a = (if x.figures.a0 = 0 then 0 else x.figures.a0 + x.margin) ∧
    x.figures.cap = x.figures.a + x.overshoot ∧
    (x.figures.q = none ↔ x.policy = .armFull ∧ ∃ t ∈ x.terms, t.stale = true) ∧
    (x.figures.flags.fullArming = true ↔ x.figures.q = none) ∧
    (∀ q, x.figures.q = some q →
      let unclamped := roundedIndex (x.terms.map (fun t => t.weight * t.input)).sum
      x.figures.a0 = curveAt x.curve q ∧
      (32767 < unclamped → q = 32767) ∧ (unclamped < -32767 → q = -32767) ∧
      (-32767 ≤ unclamped → unclamped ≤ 32767 → q = unclamped) ∧
      (x.figures.flags.indexClamped = true ↔ 32767 < |unclamped|) ∧
      (x.figures.flags.staleHeld = true ↔ ∃ t ∈ x.terms, t.stale = true) ∧
      (x.figures.flags.suspectInput = true ↔ ∃ t ∈ x.terms, t.quality = .suspect)) ∧
    (x.figures.q = none → x.figures.a0 = largestY x.curve ∧ x.figures.flags.indexClamped = false ∧
      x.figures.flags.staleHeld = false ∧ x.figures.flags.suspectInput = false)

/-- R23, R100, R101. A point's availability for arming, with the first reason that applies. The walk stops for good once T
is at least A; otherwise it judges the next candidate: one that is not available, or whose copied value is absent, not
positive, or carries the total above the cap, is skipped with its reason, and any other is selected. The adequacy and
shortfall of a total. -/
def Obligations.CandidateIsJudged : Prop :=
  (∀ (s : State) (cap : Nat) (w : Walk) (c : CandidateCopy),
    (∀ r, s.unavailable c.point = some r →
      s.judgeCandidate cap w c = { w with skipped := w.skipped ++ [(c.point, r)] }) ∧
    (s.unavailable c.point = none → c.value = none →
      s.judgeCandidate cap w c = { w with skipped := w.skipped ++ [(c.point, .stale)] }) ∧
    (∀ v : Int, s.unavailable c.point = none → c.value = some v →
      (v ≤ 0 → s.judgeCandidate cap w c = { w with skipped := w.skipped ++ [(c.point, .noOutput)] }) ∧
      (0 < v → (cap : Int) < w.total + v →
        s.judgeCandidate cap w c = { w with skipped := w.skipped ++ [(c.point, .overshoot)] }) ∧
      (0 < v → (w.total : Int) + v ≤ cap →
        s.judgeCandidate cap w c =
          { w with selected := w.selected ++ [(c.point, v.toNat)], total := w.total + v.toNat }))) ∧
  (∀ (s : State) (f : Figures) (w : Walk) (c : CandidateCopy) (cs : List CandidateCopy) (n : Nat),
    (f.a ≤ w.total → ∀ xs, s.walkOn f xs n w = { w with remaining := [] }) ∧
    (w.total < f.a → s.walkOn f [] n w = { w with remaining := [] } ∧
      s.walkOn f (c :: cs) 0 w = { w with remaining := c :: cs } ∧
      s.walkOn f (c :: cs) (n + 1) w = s.walkOn f cs n (s.judgeCandidate f.cap w c))) ∧
  (∀ (s : State) (p : PointId),
    (s.points[p] = none → s.unavailable p = some .blocked) ∧
    (∀ x, s.points[p] = some x →
      (x.availability = .blocked → s.unavailable p = some .blocked) ∧
      (x.availability = .faulted → s.unavailable p = some .faulted) ∧
      (x.availability = .inService →
        (x.blockPending = true → s.unavailable p = some .blockPending) ∧
        (x.blockPending = false →
          (x.orderState = .ordered → s.unavailable p = some .ordered) ∧
          (x.orderState = .tripped → s.unavailable p = some .tripped) ∧
          (x.orderState = .idle →
            ((s.meas[x.defn.valueSlot]).stale = true → s.unavailable p = some .stale) ∧
            ((s.meas[x.defn.valueSlot]).stale = false → s.unavailable p = none)))))) ∧
  (∀ a total : Nat,
    (a = 0 → judgeAdequacy a total = (.nil, none)) ∧
    (0 < a → a ≤ total → judgeAdequacy a total = (.full, none)) ∧
    (total < a → judgeAdequacy a total = (.short, some (a - total))))

/-- R105, R82: the free engine takes the flags of the schemes up to the lowest-numbered one whose flag is set and whose
state runs passes, and begins that scheme's pass. -/
def Obligations.PassBegins : Prop :=
  ∀ (k : SchemeId) (d : SchemeDef) (s : State), s.inReset = false → s.storeOp ≠ .coldLoad → s.engine = none →
    (s.schemes[k]).pendingPass = true → (s.schemes[k]).defn = some d → (s.schemes[k]).state.runsPasses = true →
    (∀ j : SchemeId, j < k → (s.schemes[j]).pendingPass = true →
      (s.schemes[j]).state.runsPasses = false ∨ (s.schemes[j]).defn = none) →
    ∃ v : Vector Scheme 32, exec .passBegin s = State.ended { s with
        schemes := v
        engine := some { scheme := k, begun := s.clock, void := false, inputs := s.copyInputs d,
                         walk := (s.copyInputs d).startWalk } } ∧
      ∀ j : SchemeId, v[j] = if j ≤ k then { s.schemes[j] with pendingPass := false } else s.schemes[j]

/-- R106, R108, R109, R110: the completion of a pass. A void pass is discarded; any other is checked and installed; the
engine is free either way. The installation check removes exactly the selected entries whose points are no longer
available, with their reasons, and judges the adequacy of what is left. How far the walk has come before the completion,
which finishes it (`s.finishedWalk`), is the free value of log entry 5. -/
def Obligations.PassCompletes : Prop :=
  (∀ (x : Pass) (s : State), s.inReset = false → s.engine = some x →
    (x.void = true → exec .passCompletion s = State.ended { s with engine := none }) ∧
    (x.void = false → exec .passCompletion s =
      State.ended (State.install { s with engine := none } x.scheme
        (s.checkedRecord x.inputs.figures (s.finishedWalk x))))) ∧
  (∀ (s : State) (f : Figures) (w : Walk),
    let r := s.checkedRecord f w
    r.time = s.clock ∧ r.figures = f ∧
    r.selected = w.selected.filter (fun e => (s.unavailable e.1).isNone) ∧
    r.skipped = w.skipped ++ w.selected.filterMap (fun e => (s.unavailable e.1).map (fun why => (e.1, why))) ∧
    r.total = (r.selected.map Prod.snd).sum ∧ (r.adequacy, r.shortfall) = judgeAdequacy f.a r.total)

/-- R71, R72, R110, R111, R129: an installation. The record is replaced whole; a PRIMED scheme becomes ARMED with its
arming generation advanced, and with a latched trigger it fires at once: the replay takes the latched trigger with the
record just installed, the generation just advanced and the replayed mark, as R121 takes a trigger
(`Obligations.TriggerIsTaken`). In every other state the state stands. Its records: ARMING_SHORT where the record is SHORT
and the one before was not, then SCHEME_ARMED, then TRIGGER_TAKEN of detail slot + 64 where it fires, and, where nothing
fires, one POINT_BLOCKED for each block-pending point the old record held and no live record holds now; those points are BLOCKED
and no other point changes. -/
def Obligations.InstallationArms : Prop :=
  ∀ (k : SchemeId) (new : ArmingRecord) (s : State),
    let t := s.install k new
    let g : Gen := if (s.schemes[k]).armGen = 0xFFFFFF#24 then 0xFFFFFF#24 else (s.schemes[k]).armGen + 1
    let short : List Report :=
      if new.adequacy = .short ∧ (s.schemes[k]).live.map ArmingRecord.adequacy ≠ some .short then
        [(.armingShort, some k, none, none, new.shortfall.map (fun n : Nat => (n : Int)))]
      else []
    let armed : List Report :=
      if (s.schemes[k]).state = .primed then [(.schemeArmed, some k, none, none, some (g.toNat : Int))] else []
    let taken : List Report := match (s.schemes[k]).latch with
      | some trg => if (s.schemes[k]).state = .primed then
          [(.triggerTaken, some k, none, none, some ((trg.slot.val : Int) + 64))]
        else []
      | none => []
    let released := fun p : PointId => (s.schemes[k]).holdsPoint p && !new.holds p &&
      (List.finRange 32).all (fun j => decide (j = k) || !(s.schemes[j]).holdsPoint p) &&
      (match s.points[p] with
       | some x => x.blockPending && decide (x.orderState ≠ .ordered)
       | none => false)
    t.schemes[k].live = some new ∧
    ((s.schemes[k]).state ≠ .primed →
      t.schemes[k].state = (s.schemes[k]).state ∧ t.schemes[k].armGen = (s.schemes[k]).armGen) ∧
    ((s.schemes[k]).state = .primed →
      t.schemes[k].armGen = g ∧
      ((s.schemes[k]).latch = none → t.schemes[k].state = .armed ∧ t.schemes[k].rearming = false) ∧
      (∀ trg, (s.schemes[k]).latch = some trg → ∃ r, t.schemes[k].record = some r ∧ r.trigger = trg ∧
        r.takeTime = s.clock ∧ r.replayed = true ∧ r.snapshot = new ∧ r.armGen = g ∧
        (∀ d, (s.schemes[k]).defn = some d → r.defGen = d.defGen) ∧ r.execution = s.execCount ∧
        r.entries.length = new.selected.length ∧ t.execCount = s.execCount + 1 ∧ t.schemes[k].latch = none ∧
        (r.completion = none → t.schemes[k].state = .firing ∧ t.schemes[k].rearming = false))) ∧
    (∃ more, s.Logs t (short ++ armed ++ taken ++ more)) ∧
    ((s.schemes[k]).state ≠ .primed ∨ (s.schemes[k]).latch = none →
      s.Logs t (short ++ armed ++
        ((List.finRange 128).filter released).map (fun p => (.pointBlocked, none, some p, none, some 0))) ∧
      ∀ p : PointId, t.points[p] = if released p then
        (s.points[p]).map (fun x => { x with availability := .blocked, blockPending := false }) else s.points[p])

/-! ## Triggers and executions -/

/-- R117: when a rising event is a trigger of a scheme, and what it carries: the scheme is defined and not DISABLED, lists
the slot, and at least k of its sources count, the slot itself and every other whose recent-rise flag is set and whose
last rise lies less than W before. R119, R127: what a trigger gets from a scheme in each state; an ARMED one takes it
(`Obligations.TriggerIsTaken`). -/
def Obligations.TriggerOutsideArmed : Prop :=
  ∀ (k : SchemeId) (trg : Trigger) (s : State),
    let slot : Int := trg.slot.val
    (∀ d : DetId, s.triggerFor d k = some trg ↔ ∃ x, (s.schemes[k]).defn = some x ∧
      (s.schemes[k]).state ≠ .disabled ∧ d ∈ x.sources ∧ trg.time = s.clock ∧ trg.slot = d ∧
      trg.counted = s.countedSources x.sources x.window d s.clock ∧ x.k ≤ trg.counted.length) ∧
    (∀ d : DetId, (k, trg) ∈ s.triggered d ↔ s.triggerFor d k = some trg) ∧
    (∀ (sources : List DetId) (window : Nat) (d : DetId),
      ((s.countedSources sources window d s.clock).map Prod.fst).Sublist sources ∧
      ∀ (e : DetId) (r : Time), (e, r) ∈ s.countedSources sources window d s.clock ↔
        e ∈ sources ∧ ((e = d ∧ r = s.clock) ∨
          (e ≠ d ∧ s.recentRise[e] = true ∧ (s.det[e]).lastRise = some r ∧ (s.clock - r).toNat < window))) ∧
    ((s.schemes[k]).state = .armed → s.answerTrigger k trg = s.takeTrigger k trg false) ∧
    ((s.schemes[k]).state = .disabled → s.answerTrigger k trg = s) ∧
    ((s.schemes[k]).state = .standby ∨ ((s.schemes[k]).state = .primed ∧ (s.schemes[k]).rearming = false) →
      s.answerTrigger k trg = s.append .triggerUnarmed (some k) none none (some slot)) ∧
    ((s.schemes[k]).state = .lockout →
      s.answerTrigger k trg = s.append .triggerLocked (some k) none none (some slot)) ∧
    ((s.schemes[k]).state = .firing ∨ ((s.schemes[k]).state = .primed ∧ (s.schemes[k]).rearming = true) →
      ((s.schemes[k]).latch = none →
        s.answerTrigger k trg = State.append { s with
          schemes := s.schemes.set k { s.schemes[k] with latch := some trg } }
          .retriggerLatched (some k) none none (some slot)) ∧
      ((s.schemes[k]).latch ≠ none →
        s.answerTrigger k trg = s.append .retriggerLost (some k) none none (some slot)))

/-- R121, R122, R129, R134, R135: the taking of a trigger, direct (of an ARMED scheme) or replayed. It freezes the live
arming record into the trigger record, with the definition and arming generations and the next execution number, every
entry result empty; TRIGGER_TAKEN is the first record, of detail the slot, plus 64 for a replay; the scheme is FIRING. Then
one firing request is made for each selected entry, in snapshot order, and the execution completes within the taking event
where no entry waits (R149). -/
def Obligations.TriggerIsTaken : Prop :=
  ∀ (k : SchemeId) (trg : Trigger) (snap : ArmingRecord) (s : State), (s.schemes[k]).live = some snap →
    ((s.schemes[k]).state = .armed → s.answerTrigger k trg = s.takeTrigger k trg false) ∧
    ∀ replayed : Bool,
      let t := s.takeTrigger k trg replayed
      let taken : EventKind × Option SchemeId × Option PointId × Option PartyId × Option Int :=
        (.triggerTaken, some k, none, none, some ((trg.slot.val : Int) + if replayed then 64 else 0))
      t.execCount = s.execCount + 1 ∧ t.schemes[k].live = some snap ∧
      (∃ more, s.Logs t (taken :: more)) ∧
      (∃ r, t.schemes[k].record = some r ∧
        r.trigger = trg ∧ r.takeTime = s.clock ∧ r.replayed = replayed ∧ r.snapshot = snap ∧
        (∀ d, (s.schemes[k]).defn = some d → r.defGen = d.defGen) ∧
        r.armGen = (s.schemes[k]).armGen ∧ r.execution = s.execCount ∧
        r.entries.length = snap.selected.length ∧
        (r.completion = none → t.schemes[k].state = .firing)) ∧
      ∃ (u : State) (gen : Gen),
        t = (snap.selected.zipIdx.foldl (State.fireEntry k s.execCount) u).completeIfDone k ∧
        u = { s with
          execCount := s.execCount + 1, ring := u.ring, nextSeq := u.nextSeq, readers := u.readers
          schemes := s.schemes.set k { s.schemes[k] with
            state := .firing
            record := some {
              trigger := trg, takeTime := s.clock, replayed := replayed, defGen := gen
              armGen := (s.schemes[k]).armGen, snapshot := snap
              entries := List.replicate snap.selected.length {
                answer := none, order := none, backupPoint := none, backupAnswer := none, backupTag := none,
                backupValue := none, outcome := none, outcomeTime := none, late := false }
              execution := s.execCount, completion := none, delivered := none } } } ∧
        (∀ d, (s.schemes[k]).defn = some d → gen = d.defGen) ∧ s.Logs u [taken]

/-- R26, R133, R134, R135, R136, R146, R151: a firing request and its answer. To an IDLE, IN_SERVICE point it is PLACED:
the link's next tag is taken, the order joins the tail of the queue with its deadline, the point is ORDERED, the entry has
its answer, link and tag, and ORDER_PLACED is the one record. In bench mode the order joins no queue, the record carries
the bench mark, and the order is confirmed at once. To an ORDERED point the request is MERGED into the order in flight, to
a TRIPPED one ALREADY_OPEN, and otherwise SKIPPED. `State.modEntry` changes the entry result that a reference names, where
the trigger record is of its execution, and nothing else. -/
def Obligations.FiringRequestsAreAnswered : Prop :=
  ∀ (k : SchemeId) (n : BitVec 32) (p : PointId) (credited position : Nat) (s : State),
    let ref : WaitRef := { scheme := k, execution := n, position := position, role := .primary }
    let t := s.fireEntry k n ((p, credited), position)
    (∀ x, s.points[p] = some x → x.orderState = .idle → x.availability = .inService →
      let l := x.defn.link
      let tag := (s.links[l]).nextTag
      let o : TripOrder := {
        tag := tag, point := p, address := x.defn.address, kind := x.defn.kind, placer := k, backup := false,
        deadline := s.clock + BitVec.ofNat 32 x.defn.timeout, position := .queued, waiting := [ref] }
      ∃ u : State,
        t = (if s.bench then u.confirmOrder l o .bench else u) ∧
        u.points = s.points.set p (some { x with
          orderState := .ordered, lastTag := some tag, lastOutcome := .none }) ∧
        u.links = s.links.set l { s.links[l] with
          nextTag := tag + 1, orders := if s.bench then (s.links[l]).orders else (s.links[l]).orders ++ [o] } ∧
        u.lateLists = s.lateLists.set p [] ∧
        (∀ j : SchemeId, u.schemes[j] = { s.schemes[j] with
          pendingPass := (s.schemes[j]).pendingPass || (s.schemes[j]).lists p
          record := (s.schemes[j]).record.map (fun r => if j = k ∧ r.execution = n then
            { r with entries := r.entries.modify position (fun e =>
                { e with answer := some .placed, order := some (l, tag) }) } else r) }) ∧
        s.Logs u [(.orderPlaced, some k, some p, none, some ((tag.toNat : Int) + if s.bench then 512 else 0))] ∧
        u.bench = s.bench ∧ u.meas = s.meas ∧ u.det = s.det ∧ u.execCount = s.execCount ∧ u.engine = s.engine) ∧
    (∀ x l o, s.points[p] = some x → x.orderState = .ordered → s.orderOf p = some (l, o) →
      t = State.modEntry { s with links := s.links.set l { s.links[l] with
          orders := (s.links[l]).orders.map (fun u =>
            if u.point = p then { u with waiting := u.waiting ++ [ref] } else u) } } ref
        (fun e => { e with answer := some .merged, order := some (l, o.tag) })) ∧
    (∀ x, s.points[p] = some x → x.orderState = .tripped →
      t = s.modEntry ref (fun e => { e with
        answer := some .alreadyOpen, outcome := some .alreadyOpen, outcomeTime := some s.clock })) ∧
    (s.points[p] = none ∨ (∃ x, s.points[p] = some x ∧ x.orderState = .idle ∧ x.availability ≠ .inService) →
      t = s.modEntry ref (fun e => { e with
        answer := some .skipped, outcome := some .skipped, outcomeTime := some s.clock })) ∧
    (∀ (w : WaitRef) (f : EntryResult → EntryResult), ∃ v : Vector Scheme 32,
      s.modEntry w f = { s with schemes := v } ∧
      ∀ j : SchemeId, v[j] = { s.schemes[j] with
        record := (s.schemes[j]).record.map (fun r => if j = w.scheme ∧ r.execution = w.execution then
          { r with entries := r.entries.modify w.position f } else r) })

/-- R140, R141, R142, R30, R146: an accepted ECHO. Matched, it confirms or fails its order; an unmatched EXECUTED echo is taken
late where a point calls for it; any other changes nothing. A late echo makes an IDLE point TRIPPED with the requests of
R25, its last outcome CONFIRMED, its availability as it was; appends ORDER_LATE alone; marks the entries of its late list
whose records still belong to the execution named, and changes nothing else of any entry; and empties the list. The model's:
that ORDER_LATE carries the scheme of the late list's first reference, and none where the list is empty (log entry 26), and
that the whole-frame command leaves the receiver outside a frame (log entry 13). R3, R4: an ECHO that is not accepted (a
disabled link, another station's number, the image being loaded after cold reset) changes nothing else. -/
def Obligations.EchoIsTaken : Prop :=
  ∀ (l : LinkId) (station tag address : Byte) (s : State),
    (s.Accepts l station →
      (∀ o, (s.links[l]).orders.find? (fun o => o.position = .sent ∧ o.tag = tag ∧ o.address = address) = some o →
        exec (.echo l station tag address .executed) s = State.ended ((s.outsideFrame l).confirmOrder l o .echo) ∧
        exec (.echo l station tag address .refused) s = State.ended ((s.outsideFrame l).failOrder l o false)) ∧
      ((s.links[l]).orders.find? (fun o => o.position = .sent ∧ o.tag = tag ∧ o.address = address) = none →
        exec (.echo l station tag address .refused) s = State.ended (s.outsideFrame l) ∧
        (∀ p, (List.finRange 128).find? (s.isLateFor l tag address) = some p →
          exec (.echo l station tag address .executed) s = State.ended ((s.outsideFrame l).takeLateEcho p tag)) ∧
        ((∀ p, s.isLateFor l tag address p = false) →
          exec (.echo l station tag address .executed) s = State.ended (s.outsideFrame l)))) ∧
    (∀ result, s.inReset = false → ¬ s.Accepts l station →
      exec (.echo l station tag address result) s = State.ended (s.outsideFrame l)) ∧
    (∀ p : PointId, s.isLateFor l tag address p = true ↔ ∃ x, s.points[p] = some x ∧ x.defn.link = l ∧
      x.defn.address = address ∧ x.lastOutcome = .failed ∧ x.lastTag = some tag) ∧
    (∀ (p : PointId) (x : Point), s.points[p] = some x →
      let u := s.takeLateEcho p tag
      u.points = s.points.set p (some { x with
        orderState := if x.orderState = .idle then .tripped else x.orderState, lastOutcome := .confirmed }) ∧
      s.Logs u [(.orderLate, s.lateLists[p].head?.map WaitRef.scheme, some p, none, some (tag.toNat : Int))] ∧
      u.lateLists = s.lateLists.set p [] ∧ u.links = s.links ∧ u.meas = s.meas ∧ u.det = s.det ∧
      u.execCount = s.execCount ∧ u.engine = s.engine ∧
      ∀ k : SchemeId, u.schemes[k] = { s.schemes[k] with
        pendingPass := (s.schemes[k]).pendingPass || (decide (x.orderState = .idle) && (s.schemes[k]).lists p)
        record := u.schemes[k].record } ∧
        (u.schemes[k].record.isSome = (s.schemes[k]).record.isSome) ∧
        ∀ r r', (s.schemes[k]).record = some r → u.schemes[k].record = some r' →
          r' = { r with entries := r'.entries } ∧ r'.entries.length = r.entries.length ∧
          ∀ (j : Nat) (e : EntryResult), r.entries[j]? = some e → r'.entries[j]? = some { e with
            late := e.late || s.lateLists[p].any (fun w =>
              decide (w.scheme = k) && decide (w.execution = r.execution) && decide (w.position = j)) })

/-- R28, R141, R147, R150, R151: a confirmed order leaves its link, and its point is TRIPPED with last outcome CONFIRMED;
no other order and no other point's order state changes. ORDER_CONFIRMED comes first, with the mark of its cause. R25, R34:
the schemes that list the point have their pass requested, and a deferred block that no live arming record holds up
completes, with POINT_BLOCKED of detail 0 next. Each waiting entry whose record still belongs to its execution takes its
outcome at this reading (`Nodup`: no entry waits twice on one order, R133), and no other entry changes. Last, the executions
that are done complete (what `State.completeIfDone` does: `Obligations.ExecutionCompletes`). That several of them complete in
the order of each scheme's last reference in the order's waiting list (`List.dedup` keeps each scheme where it stands last) is
the model's deduction of log entry 27: R141 says only "in the order in which its entries received their outcomes". -/
def Obligations.ConfirmationTripsThePoint : Prop :=
  ∀ (l : LinkId) (o : TripOrder) (cause : ConfirmCause) (x : Point) (s : State), s.points[o.point] = some x →
    let t := s.confirmOrder l o cause
    let due : Bool := x.blockPending && decide (s.holders o.point = 0)
    let tripped : Point := { x with
      orderState := .tripped, lastOutcome := .confirmed
      availability := if due then .blocked else x.availability, blockPending := if due then false else x.blockPending }
    let first : List Report := (.orderConfirmed, some o.placer, some o.point, none, some ((o.tag.toNat : Int) +
        (match cause with | .echo => 0 | .statusSlot => 256 | .bench => 512))) ::
      (if due then [(.pointBlocked, none, some o.point, none, some 0)] else [])
    t.points[o.point] = some tripped ∧
    (∀ q : PointId, q ≠ o.point → t.points[q] = s.points[q]) ∧
    t.links[l] = { s.links[l] with orders := (s.links[l]).orders.filter (fun u => u.point ≠ o.point) } ∧
    (∀ j : LinkId, j ≠ l → t.links[j] = s.links[j]) ∧
    t.meas = s.meas ∧ t.det = s.det ∧ t.clock = s.clock ∧ t.execCount = s.execCount ∧ t.lateLists = s.lateLists ∧
    (∃ more, s.Logs t (first ++ more)) ∧
    (∃ m : State, t = (o.waiting.map WaitRef.scheme).dedup.foldl State.completeIfDone m ∧
      m = { s with
        points := s.points.set o.point (some tripped)
        links := s.links.set l { s.links[l] with orders := (s.links[l]).orders.filter (fun u => u.point ≠ o.point) }
        schemes := m.schemes, ring := m.ring, nextSeq := m.nextSeq, readers := m.readers } ∧
      s.Logs m first ∧
      ∀ k : SchemeId, ∃ es : List EntryResult,
        m.schemes[k] = { s.schemes[k] with
          pendingPass := (s.schemes[k]).pendingPass || (s.schemes[k]).lists o.point
          record := (s.schemes[k]).record.map (fun r => { r with entries := es }) } ∧
        t.schemes[k].record.map TriggerRecord.entries = m.schemes[k].record.map TriggerRecord.entries) ∧
    ((o.waiting.map (fun w => (w.scheme, w.execution, w.position))).Nodup →
      ∀ (i : Nat) (w : WaitRef) (r : TriggerRecord) (e : EntryResult), o.waiting[i]? = some w →
        (s.schemes[w.scheme]).record = some r → r.execution = w.execution → r.entries[w.position]? = some e →
        ∃ r', t.schemes[w.scheme].record = some r' ∧ r'.entries[w.position]? = some { e with
          outcome := some (if w.role = .backup then .backupConfirmed
            else if i = 0 ∧ o.backup = false then .confirmed else .mergedConfirmed)
          outcomeTime := some s.clock }) ∧
    (∀ (k : SchemeId) (r : TriggerRecord), (s.schemes[k]).record = some r →
      ∃ r', t.schemes[k].record = some r' ∧ r'.execution = r.execution ∧
        ∀ j : Nat, (∀ w ∈ o.waiting, w.scheme = k → w.execution = r.execution → w.position ≠ j) →
          r'.entries[j]? = r.entries[j]?)

/-- R29, R144, R146, R147, R150: a failed order's point is FAULTED, IDLE and FAILED with no block pending, its order is in
flight no longer, and its late list names the entries that waited on it. ORDER_FAILED comes first, and the schemes that list
the point have their pass requested (R25). Then each waiting entry, in the order it joined, is given its due, the late list
is kept, and the executions that are done complete. That several of them complete in the order of each scheme's last reference
in the order's waiting list (`List.dedup`) is the model's deduction of log entry 27, as in
`Obligations.ConfirmationTripsThePoint`. An entry's due: BACKUP_FAILED, MERGED_FAILED, FAILED, or, for the entry that placed
the order of a point with a backup, what the backup request is answered: its placed order, the order it follows, or
BACKUP_UNAVAILABLE (`Nodup`: no entry waits twice on one order, R133). R27, R145: a backup request and its answer, and what it
does to the point, the link, the late list and the event record; not stated here are the pass requests of R25 that a PLACED
answer makes, and bench mode, in which no order fails and no backup is asked (R151). -/
def Obligations.FailureFaultsThePoint : Prop :=
  (∀ (l : LinkId) (o : TripOrder) (expired : Bool) (x : Point) (s : State), s.points[o.point] = some x →
    let t := s.failOrder l o expired
    t.points[o.point] = some { x with orderState := .idle, availability := .faulted, lastOutcome := .failed,
                                      blockPending := false } ∧
    (∀ u ∈ t.links[l].orders, u.point ≠ o.point) ∧ t.lateLists[o.point] = o.waiting ∧
    t.meas = s.meas ∧ t.det = s.det ∧ t.clock = s.clock ∧ t.execCount = s.execCount ∧
    (∃ more, s.Logs t ((.orderFailed, some o.placer, some o.point, none,
      some ((o.tag.toNat : Int) + if expired then 256 else 0)) :: more)) ∧
    (∃ u : State,
      (let m := o.waiting.zipIdx.foldl (State.failEntry o x.defn.backup) u
       t = (o.waiting.map WaitRef.scheme).dedup.foldl State.completeIfDone
        { m with lateLists := m.lateLists.set o.point o.waiting }) ∧
      u = { s with
        points := s.points.set o.point (some { x with
          orderState := .idle, availability := .faulted, lastOutcome := .failed, blockPending := false })
        links := s.links.set l { s.links[l] with orders := (s.links[l]).orders.filter (fun u => u.point ≠ o.point) }
        schemes := u.schemes, ring := u.ring, nextSeq := u.nextSeq, readers := u.readers } ∧
      s.Logs u [(.orderFailed, some o.placer, some o.point, none,
        some ((o.tag.toNat : Int) + if expired then 256 else 0))] ∧
      ∀ k : SchemeId, u.schemes[k] = { s.schemes[k] with
        pendingPass := (s.schemes[k]).pendingPass || (s.schemes[k]).lists o.point }) ∧
    ((o.waiting.map (fun w => (w.scheme, w.execution, w.position))).Nodup →
      ∀ (i : Nat) (w : WaitRef) (r : TriggerRecord) (e : EntryResult), o.waiting[i]? = some w →
        (s.schemes[w.scheme]).record = some r → r.execution = w.execution → r.entries[w.position]? = some e →
        let becomes := fun e' : EntryResult =>
          ∃ r', t.schemes[w.scheme].record = some r' ∧ r'.entries[w.position]? = some e'
        (w.role = .backup → becomes { e with outcome := some .backupFailed, outcomeTime := some s.clock }) ∧
        (w.role = .primary → i ≠ 0 ∨ o.backup = true →
          becomes { e with outcome := some .mergedFailed, outcomeTime := some s.clock }) ∧
        (w.role = .primary → i = 0 → o.backup = false → x.defn.backup = none →
          becomes { e with outcome := some .failed, outcomeTime := some s.clock }) ∧
        (∀ b, w.role = .primary → i = 0 → o.backup = false → x.defn.backup = some b → b ≠ o.point →
          s.bench = false →
          (s.points[b] = none ∨ (∃ y, s.points[b] = some y ∧
              (y.orderState = .tripped ∨ (y.orderState = .idle ∧ y.availability ≠ .inService))) →
            becomes { e with backupPoint := some b, backupAnswer := some .unavailable,
                             outcome := some .backupUnavailable, outcomeTime := some s.clock }) ∧
          (∀ y, s.points[b] = some y →
            let value := match (s.meas[y.defn.valueSlot]).value with | some v => v.toNat | none => 0
            (∀ j n, y.orderState = .ordered → s.orderOf b = some (j, n) →
              becomes { e with backupPoint := some b, backupAnswer := some .follows, backupTag := some n.tag,
                               backupValue := some value }) ∧
            (y.orderState = .idle → y.availability = .inService →
              becomes { e with backupPoint := some b, backupAnswer := some .placed,
                               backupTag := some (s.links[y.defn.link]).nextTag, backupValue := some value }))))) ∧
  (∀ (o : TripOrder) (backup : Option PointId) (w : WaitRef) (i : Nat) (s : State),
    let given := fun out : EntryOutcome =>
      s.modEntry w (fun e => { e with outcome := some out, outcomeTime := some s.clock })
    (w.role = .backup → State.failEntry o backup s (w, i) = given .backupFailed) ∧
    (w.role = .primary → i ≠ 0 ∨ o.backup = true → State.failEntry o backup s (w, i) = given .mergedFailed) ∧
    (w.role = .primary → i = 0 → o.backup = false → backup = none →
      State.failEntry o backup s (w, i) = given .failed) ∧
    (∀ b, w.role = .primary → i = 0 → o.backup = false → backup = some b →
      State.failEntry o backup s (w, i) = s.requestBackup o.point b w)) ∧
  (∀ (failed b : PointId) (w : WaitRef) (s : State),
    let ref : WaitRef := { w with role := .backup }
    let t := s.requestBackup failed b w
    (∀ y, s.points[b] = some y → y.orderState = .idle → y.availability = .inService → s.bench = false →
      let j := y.defn.link
      let tag := (s.links[j]).nextTag
      t.points = s.points.set b (some { y with
        orderState := .ordered, lastTag := some tag, lastOutcome := .none }) ∧
      t.links = s.links.set j { s.links[j] with
        nextTag := tag + 1
        orders := (s.links[j]).orders ++ [{
          tag := tag, point := b, address := y.defn.address, kind := y.defn.kind, placer := w.scheme, backup := true,
          deadline := s.clock + BitVec.ofNat 32 y.defn.timeout, position := .queued, waiting := [ref] }] } ∧
      t.lateLists = s.lateLists.set b [] ∧
      s.Logs t [(.backupPlaced, some w.scheme, some b, none,
        some ((tag.toNat : Int) + 256 * (failed.val : Int)))] ∧
      t.meas = s.meas ∧ t.det = s.det ∧ t.execCount = s.execCount ∧ t.engine = s.engine) ∧
    (∀ y j n, s.points[b] = some y → y.orderState = .ordered → s.orderOf b = some (j, n) →
      t = State.modEntry { s with links := s.links.set j { s.links[j] with
          orders := (s.links[j]).orders.map (fun u =>
            if u.point = b then { u with waiting := u.waiting ++ [ref] } else u) } } w
        (fun e => { e with
          backupPoint := some b, backupAnswer := some .follows, backupTag := some n.tag,
          backupValue := some (match (s.meas[y.defn.valueSlot]).value with | some v => v.toNat | none => 0) })) ∧
    (s.points[b] = none ∨ (∃ y, s.points[b] = some y ∧
        (y.orderState = .tripped ∨ (y.orderState = .idle ∧ y.availability ≠ .inService))) →
      t = s.modEntry w (fun e => { e with
        backupPoint := some b, backupAnswer := some .unavailable, outcome := some .backupUnavailable,
        outcomeTime := some s.clock })))

/-- R138, R139: a transmission begins with the order at the head of the queue of an idle FULL link that is not held,
outside bench mode; where one of these conditions fails no transmission begins, and where no frame is going out none is
completed (that such a command takes nothing is log entry 11). The completion of the frame going out makes its order SENT. HOLD
sets the link's HELD flag and abandons the frame going out, its order back in the queue; a HOLD on a held link changes
nothing; RELEASE clears the flag. R3, R4: a HOLD or RELEASE that is not accepted changes nothing but the receiver. That a
whole-frame command leaves the link receiver outside a frame is the model's choice of log entry 13. -/
def Obligations.OrderFramesAreSentAndHeld : Prop :=
  ∀ (l : LinkId) (station : Byte) (s : State), s.inReset = false →
    (∀ head, (s.links[l]).params.enabled = true → (s.links[l]).params.mode = .full → s.bench = false →
      (s.links[l]).held = false → (s.links[l]).transmitting = none →
      (s.links[l]).orders.find? (fun o => o.position = .queued) = some head →
      exec (.transmissionStart l) s = State.ended { s with
        links := s.links.set l { s.links[l] with
          orders := (s.links[l]).orders.map (fun o =>
            if o.point = head.point then { o with position := .inTransmission } else o)
          transmitting := some (Wire.orderFrame (s.links[l]).params.station head) } }) ∧
    ((s.links[l]).params.enabled = false ∨ (s.links[l]).params.mode ≠ .full ∨ s.bench = true ∨
      (s.links[l]).held = true ∨ (s.links[l]).transmitting ≠ none ∨
      (s.links[l]).orders.find? (fun o => o.position = .queued) = none → exec (.transmissionStart l) s = s.ended) ∧
    ((s.links[l]).transmitting = none → exec (.orderFrameComplete l) s = s.ended) ∧
    (¬ s.Accepts l station →
      exec (.hold l station) s = State.ended (s.outsideFrame l) ∧
      exec (.release l station) s = State.ended (s.outsideFrame l)) ∧
    (∀ f, (s.links[l]).transmitting = some f →
      exec (.orderFrameComplete l) s = State.ended { s with
        links := s.links.set l { s.links[l] with
          transmitting := none
          orders := (s.links[l]).orders.map (fun o =>
            if o.position = .inTransmission then { o with position := .sent } else o) } }) ∧
    (s.Accepts l station →
      ((s.links[l]).held = false → exec (.hold l station) s = State.ended { s with
        links := s.links.set l { s.links[l] with
          receiving := [], held := true, transmitting := none
          orders := (s.links[l]).orders.map (fun o =>
            if o.position = .inTransmission then { o with position := .queued } else o) } }) ∧
      ((s.links[l]).held = true → exec (.hold l station) s = State.ended (s.outsideFrame l)) ∧
      exec (.release l station) s = State.ended { s with
        links := s.links.set l { s.links[l] with receiving := [], held := false } })

/-- R149 with R75, R76, R120, R128: the completion of an execution whose entries are all final, in the event that made them
so (`State.completeIfDone`) or commanded; where it is not done, nothing is taken (commanded: log entry 11). What voiding the
pass and dropping the latch do: `Obligations.EnableAndDisableAreTaken`. R148: the delivered amount, the credits of the
entries confirmed by their own or a merged order, and the backup values of the entries confirmed by a backup, each backup
point counted once, at the first entry in snapshot order, and none that an own or merged order has tripped; at most
65000. -/
def Obligations.ExecutionCompletes : Prop :=
  (∀ (k : SchemeId) (r : TriggerRecord) (d : SchemeDef) (s : State),
    (s.schemes[k]).record = some r → (s.schemes[k]).state = .firing → (s.schemes[k]).defn = some d →
    r.completion = none → (∀ e ∈ r.entries, e.outcome ≠ none) →
    let closed : TriggerRecord := { r with completion := some s.clock, delivered := some r.deliveredAmount }
    let rearmed : State := { State.append s .execComplete (some k) none none (some (r.deliveredAmount : Int)) with
      schemes := s.schemes.set k { s.schemes[k] with
        record := some closed, state := .primed, rearming := true, pendingPass := true } }
    let lockedOut : State := (State.voidPass { State.append s .execComplete (some k) none none
        (some (r.deliveredAmount : Int)) with
      schemes := s.schemes.set k { s.schemes[k] with
        record := some closed, state := .lockout, consents := Vector.replicate 4 none } } k).dropLatch k
    (d.autoRearm = true → s.completeIfDone k = rearmed ∧
      (s.inReset = false → exec (.executionComplete k) s = State.ended rearmed)) ∧
    (d.autoRearm = false → s.completeIfDone k = lockedOut ∧
      (s.inReset = false → exec (.executionComplete k) s = State.ended lockedOut))) ∧
  (∀ (k : SchemeId) (s : State),
    (∀ r, (s.schemes[k]).record = some r → (s.schemes[k]).state = .firing → r.completion = none →
      ∃ e ∈ r.entries, e.outcome = none) →
    s.completeIfDone k = s ∧ (s.inReset = false → exec (.executionComplete k) s = s.ended)) ∧
  (∀ r : TriggerRecord,
    let own := ((r.snapshot.selected.zip r.entries).filter (fun x =>
      decide (x.2.outcome = some .confirmed ∨ x.2.outcome = some .mergedConfirmed))).map Prod.fst
    let confirmedBy := fun (b : PointId) (e : EntryResult) =>
      decide (e.outcome = some .backupConfirmed ∧ e.backupPoint = some b)
    ∃ backups : List (PointId × EntryResult),
      r.deliveredAmount = min 65000 ((own.map Prod.snd).sum +
        (backups.map (fun x => x.2.backupValue.getD 0)).sum) ∧
      (backups.map Prod.fst).Nodup ∧
      (∀ x ∈ backups, r.entries.find? (confirmedBy x.1) = some x.2) ∧
      ∀ b : PointId, b ∈ backups.map Prod.fst ↔
        (∃ e ∈ r.entries, confirmedBy b e = true) ∧ b ∉ own.map Prod.fst)

/-- R34: the deferred block of a point that no live arming record holds and that is not ORDERED completes; otherwise it
does not (log entry 11). -/
def Obligations.DeferredBlockCompletes : Prop :=
  ∀ (p : PointId) (x : Point) (s : State), s.inReset = false → s.points[p] = some x →
    (x.blockPending = true → s.holders p = 0 → x.orderState ≠ .ordered →
      exec (.deferredBlockComplete p) s = State.ended (State.requestForPoint (State.append { s with
        points := s.points.set p (some { x with availability := .blocked, blockPending := false }) }
        .pointBlocked none (some p) none (some 0)) p)) ∧
    (x.blockPending = false ∨ s.holders p ≠ 0 ∨ x.orderState = .ordered →
      exec (.deferredBlockComplete p) s = s.ended)

/-- R129: the latched trigger of an ARMED scheme is consumed and taken as a replay (what the taking does:
`Obligations.TriggerIsTaken`); without a latch, or outside ARMED, nothing is replayed (log entry 11). -/
def Obligations.LatchedTriggerIsReplayed : Prop :=
  ∀ (k : SchemeId) (s : State), s.inReset = false →
    (∀ trg, (s.schemes[k]).latch = some trg → (s.schemes[k]).state = .armed →
      exec (.retriggerReplay k) s = State.ended (State.takeTrigger { s with
        schemes := s.schemes.set k { s.schemes[k] with latch := none, rearming := false } } k trg true)) ∧
    ((s.schemes[k]).latch = none ∨ (s.schemes[k]).state ≠ .armed → exec (.retriggerReplay k) s = s.ended)

/-! ## The event record -/

/-- R155, R156, R159: one append. -/
def Obligations.RecordIsAppended : Prop :=
  ∀ (kind : EventKind) (sch : Option SchemeId) (pt : Option PointId) (pa : Option PartyId) (de : Option Int) (s : State),
    ∃ ring readers, s.append kind sch pt pa de =
        { s with ring := ring, nextSeq := s.nextSeq + 1, readers := readers } ∧
      ring = (if s.ring.length < 256 then s.ring else s.ring.tail) ++
        [{ seq := s.nextSeq, time := s.clock, kind := kind, scheme := sch, point := pt, party := pa, detail := de }] ∧
      ∀ p : PartyId,
        readers[p].attn = decide (readers[p].cursor ≠ s.nextSeq + 1) ∧
        (s.ring.length < 256 ∨ (s.readers[p]).cursor ≠ s.oldestSeq →
          readers[p].cursor = (s.readers[p]).cursor ∧ readers[p].lost = (s.readers[p]).lost) ∧
        (256 ≤ s.ring.length → (s.readers[p]).cursor = s.oldestSeq →
          readers[p].cursor = (s.readers[p]).cursor + 1 ∧
          readers[p].lost.toNat = min 0xFFFFFFFF ((s.readers[p]).lost.toNat + 1))

/-- R157: READ_EVENTS from the requesting party's cursor, and its refusal of a count outside 1 to 8. -/
def Obligations.EventsAreReadFromTheCursor : Prop :=
  ∀ (p : PartyId) (count : Byte) (s : State), s.Takes p →
    (1 ≤ count.toNat → count.toNat ≤ 8 →
      let n := min count.toNat (s.lag p)
      exec (.readEvents p count) s = State.answered { s with
        readers := s.readers.set p { cursor := (s.readers[p]).cursor + BitVec.ofNat 32 n, lost := 0,
                                     attn := decide (s.lag p - n ≠ 0) } } p .done
        (eventsBody (decide ((s.readers[p]).lost ≠ 0)) (some (s.readers[p]).lost) (s.lag p - n)
          ((s.ring.drop (s.ring.length - s.lag p)).take n))) ∧
    (count.toNat = 0 ∨ 8 < count.toNat → exec (.readEvents p count) s = s.answered p .badArgument [])

/-- R157 for a refused count, R158: READ_EVENTS with a start sequence, in the ring or not. That a read whose start lies in
the ring carries no gap count (`none` in its first clause) is the model's choice of log entry 34. -/
def Obligations.EventsAreReadFromAStart : Prop :=
  ∀ (p : PartyId) (count : Byte) (start : Seq) (s : State), s.Takes p →
    let back := (s.nextSeq - start).toNat
    (1 ≤ count.toNat → count.toNat ≤ 8 → back ≤ s.ring.length →
      let records := (s.ring.drop (s.ring.length - back)).take count.toNat
      exec (.readEventsStart p count start) s =
        s.answered p .done (eventsBody false none (back - records.length) records)) ∧
    (1 ≤ count.toNat → count.toNat ≤ 8 → s.ring.length < back →
      let records := s.ring.take count.toNat
      exec (.readEventsStart p count start) s =
        s.answered p .done (eventsBody true none (s.ring.length - records.length) records)) ∧
    (count.toNat = 0 ∨ 8 < count.toNat → exec (.readEventsStart p count start) s = s.answered p .badArgument [])

/-! ## Requests -/

/-- R11, R16, R39, R41, R59, R115, R125, R166, R168, R169: each read, in range, is answered DONE and changes nothing but
its own party link; a read out of range, or of an undefined scheme's arming or trigger, is answered BAD_ARGUMENT. The
layout of an undefined scheme's answer is the deduction of log entry 19; those of READ_SCHEME, READ_POINT, READ_ARMING and
READ_TRIGGER (a void indication clear without a pass, nothing after an empty record, presence bytes) are of log entry
20. -/
def Obligations.ReadsAreAnswered : Prop :=
  ∀ (p : PartyId) (s : State), s.Takes p →
    exec (.queryStatus p) s = s.answered p .done ([0x48#8, 0x30#8, 0x01#8] ++ Wire.be32 s.clock ++
      [Wire.flag s.bench, Wire.storeCode s.storeOp] ++ s.schemes.toList.map Wire.schemeCode) ∧
    (∀ a b : Byte, a.toNat ≤ b.toNat → b.toNat ≤ a.toNat + 31 → exec (.readMeasurements p a b) s = s.answered p .done
      (((s.meas.toList.drop a.toNat).take (b.toNat - a.toNat + 1)).flatMap Wire.measBytes)) ∧
    (∀ a b : Byte, a.toNat ≤ b.toNat → b.toNat ≤ 63 → exec (.readDetections p a b) s = s.answered p .done
      (((s.det.toList.drop a.toNat).take (b.toNat - a.toNat + 1)).flatMap Wire.detBytes)) ∧
    (∀ a b : Byte,
      (b.toNat < a.toNat ∨ a.toNat + 31 < b.toNat → exec (.readMeasurements p a b) s = s.answered p .badArgument []) ∧
      (b.toNat < a.toNat ∨ 63 < b.toNat → exec (.readDetections p a b) s = s.answered p .badArgument [])) ∧
    (∀ b : Byte, 128 ≤ b.toNat → exec (.readPoint p b) s = s.answered p .badArgument []) ∧
    (∀ b : Byte, 32 ≤ b.toNat → exec (.readScheme p b) s = s.answered p .badArgument [] ∧
      exec (.readArming p b) s = s.answered p .badArgument [] ∧
      exec (.readTrigger p b) s = s.answered p .badArgument []) ∧
    (∀ (b : Byte) (k : SchemeId), b.toNat = k.val → (s.schemes[k]).defn = none →
      exec (.readScheme p b) s = s.answered p .done (0xFE :: Wire.be24 (s.schemes[k]).armGen) ∧
      exec (.readArming p b) s = s.answered p .badArgument [] ∧
      exec (.readTrigger p b) s = s.answered p .badArgument []) ∧
    (∀ (b : Byte) (x : PointId), b.toNat = x.val →
      (s.points[x] = none → exec (.readPoint p b) s = s.answered p .done [0]) ∧
      (∀ y, s.points[x] = some y → exec (.readPoint p b) s = s.answered p .done (s.pointBody x y))) ∧
    (∀ (b : Byte) (k : SchemeId) (d : SchemeDef), b.toNat = k.val → (s.schemes[k]).defn = some d →
      exec (.readScheme p b) s = s.answered p .done (schemeBody s.schemes[k] d) ∧
      exec (.readArming p b) s = s.answered p .done
        ([Wire.stateCode (s.schemes[k]).state, Wire.flag (s.schemes[k]).pendingPass, Wire.flag (s.passOf k).isSome,
          Wire.flag (((s.passOf k).map Pass.void).getD false), Wire.flag (s.schemes[k]).live.isNone] ++
          (((s.schemes[k]).live.map Wire.recordBytes).getD [])) ∧
      exec (.readTrigger p b) s = s.answered p .done
        ([Wire.stateCode (s.schemes[k]).state, Wire.flag (s.schemes[k]).record.isNone] ++
          (((s.schemes[k]).record.map Wire.triggerBytes).getD []) ++
          (((s.schemes[k]).latch.map (fun t => 1 :: Wire.latchBytes t)).getD [0]) ++
          [Wire.flag (s.schemes[k]).rearming]))

/-- The five section writes (`writeHeaderSection`, `writeTermsSection`, `writeCurveSection`, `writeCandidatesSection` and
`writeTriggersSection`, by `writeCommand`). R42 to R46, R48, R49: a section write that passes every check replaces its section and advances the definition
generation; a header write defines an undefined entry at generation 1. A write that fails a check is refused with the
status of the first check it fails. That a policy code outside its table fails check 1 (`sectionFormOk`) is the deduction
of log entry 15. -/
def Obligations.SectionWriteIsTaken : Prop :=
  ∀ (sec : Section) (p : PartyId) (b : Byte) (c : List Byte) (s : State), s.Takes p →
    (32 ≤ b.toNat ∨ sectionFormOk sec c = false → exec (writeCommand sec p b c) s = s.answered p .badArgument []) ∧
    ∀ k : SchemeId, b.toNat = k.val → sectionFormOk sec c = true →
    (s.saving = false → s.loading = false →
      ∀ d d', (s.schemes[k]).defn = some d → d.owner = p → (s.schemes[k]).state = .disabled →
        d.protection = .opened → writtenSection sec c d = some d' → d.defGen ≠ 0xFFFFFF#24 →
        exec (writeCommand sec p b c) s = State.answered { s with
          schemes := s.schemes.set k { s.schemes[k] with defn := some { d' with defGen := d.defGen + 1 } } } p .done
          (Wire.be24 (d.defGen + 1))) ∧
    (s.saving = false → s.loading = false →
      ∀ h, sec = .header → (s.schemes[k]).defn = none → parseHeader c = some h → h.owner = p →
        exec (writeCommand sec p b c) s = State.answered { s with
          schemes := s.schemes.set k { Scheme.undefined (s.schemes[k]).armGen with defn := some (.new h) } } p .done
          (Wire.be24 1)) ∧
    (sec ≠ .header → (s.schemes[k]).defn = none → exec (writeCommand sec p b c) s = s.answered p .badArgument []) ∧
    (sec = .header → (s.schemes[k]).defn = none →
      let owner := (c.getD 8 0).toNat
      (owner ≠ p.val → exec (writeCommand sec p b c) s = s.answered p .notAuthorized []) ∧
      (owner = p.val → s.saving = true ∨ s.loading = true →
        exec (writeCommand sec p b c) s = s.answered p .storeBusy []) ∧
      (owner = p.val → s.saving = false → s.loading = false → parseHeader c = none →
        exec (writeCommand sec p b c) s = s.answered p .badArgument [])) ∧
    (∀ d, (s.schemes[k]).defn = some d →
      (d.owner ≠ p → exec (writeCommand sec p b c) s = s.answered p .notAuthorized []) ∧
      (d.owner = p → s.saving = true ∨ s.loading = true →
        exec (writeCommand sec p b c) s = s.answered p .storeBusy []) ∧
      (d.owner = p → s.saving = false → s.loading = false →
        ((s.schemes[k]).state ≠ .disabled → exec (writeCommand sec p b c) s = s.answered p .wrongState []) ∧
        ((s.schemes[k]).state = .disabled →
          (d.protection ≠ .opened → exec (writeCommand sec p b c) s = s.answered p .isProtected []) ∧
          (d.protection = .opened → writtenSection sec c d = none →
            exec (writeCommand sec p b c) s = s.answered p .badArgument []) ∧
          (∀ d', d.protection = .opened → writtenSection sec c d = some d' → d.defGen = 0xFFFFFF#24 →
            exec (writeCommand sec p b c) s = s.answered p .generationLimit []))))

/-- R42 to R46, R49: a written section changes that section's fields alone, a lawful definition stays lawful, and the
section's fields are the written contents: laid out by R166 and R168 they are the bytes that were written. -/
def Obligations.WrittenSectionIsValid : Prop :=
  ∀ (sec : Section) (c : List Byte) (d d' : SchemeDef), writtenSection sec c d = some d' →
    (d.Lawful → d'.Lawful) ∧ d'.owner = d.owner ∧ d'.protection = d.protection ∧ d'.defGen = d.defGen ∧
    (sec ≠ .header → d'.label = d.label ∧ d'.authority = d.authority ∧ d'.autoRearm = d.autoRearm ∧
      d'.enabledAtStart = d.enabledAtStart) ∧
    (sec = .terms → 1 ≤ d'.terms.length) ∧ (sec ≠ .terms → d'.terms = d.terms ∧ d'.policy = d.policy) ∧
    (sec = .curve → 2 ≤ d'.curve.length) ∧
    (sec ≠ .curve → d'.curve = d.curve ∧ d'.margin = d.margin ∧ d'.overshoot = d.overshoot) ∧
    (sec ≠ .candidates → d'.candidates = d.candidates) ∧
    (sec = .triggers → 1 ≤ d'.sources.length ∧ d'.k ≤ d'.sources.length) ∧
    (sec ≠ .triggers → d'.sources = d.sources ∧ d'.k = d.k ∧ d'.window = d.window) ∧
    (sectionFormOk sec c = true → c = match sec with
      | .header => Wire.headerBytes d'
      | .terms => Wire.termsBytes d'
      | .curve => Wire.curveBytes d'
      | .candidates => Wire.candidatesBytes d'
      | .triggers => Wire.triggersBytes d')

/-- R54: PROTECT: its refusals in the order of its checks, and its effect for the owner of a scheme that is not FIXED. -/
def Obligations.ProtectIsTaken : Prop :=
  ∀ (p : PartyId) (b target : Byte) (s : State), s.Takes p →
    (32 ≤ b.toNat ∨ protectionOf target = none → exec (.protect p b target) s = s.answered p .badArgument []) ∧
    ∀ k : SchemeId, b.toNat = k.val →
      ((s.schemes[k]).defn = none → exec (.protect p b target) s = s.answered p .badArgument []) ∧
      ∀ (x : Protection) (d : SchemeDef), protectionOf target = some x → (s.schemes[k]).defn = some d →
        (d.owner ≠ p → exec (.protect p b target) s = s.answered p .notAuthorized []) ∧
        (d.owner = p → s.saving = true ∨ s.loading = true →
          exec (.protect p b target) s = s.answered p .storeBusy []) ∧
        (d.owner = p → s.saving = false → s.loading = false →
          (d.protection ≠ .fixed → exec (.protect p b target) s = State.answered { s with
            schemes := s.schemes.set k { s.schemes[k] with defn := some { d with protection := x } } }
            p .done [target]) ∧
          (d.protection = .fixed → exec (.protect p b target) s = s.answered p .isProtected []))

/-- R64, R65, R66, R47: ENABLE of a complete DISABLED scheme by its owner, its refusals in any other state and of an
incomplete definition; and DISABLE by the owner in each state. R108: voiding marks the pass in flight where it is the
scheme's. R130: a set latch is dropped with RETRIGGER_DROPPED of detail its slot. R34: the emptied record releases its
points: each that is block-pending, held by no live arming record now and not ORDERED becomes BLOCKED, with its requests and
one POINT_BLOCKED of detail 0, in an order the manual leaves open (log entry 3). -/
def Obligations.EnableAndDisableAreTaken : Prop :=
  (∀ (k : SchemeId) (s : State),
    (s.engine = none → s.voidPass k = s) ∧
    (∀ x, s.engine = some x → x.scheme ≠ k → s.voidPass k = s) ∧
    (∀ x, s.engine = some x → x.scheme = k → s.voidPass k = { s with engine := some { x with void := true } }) ∧
    ((s.schemes[k]).latch = none → s.dropLatch k = s) ∧
    (∀ g, (s.schemes[k]).latch = some g → s.dropLatch k = State.append { s with
      schemes := s.schemes.set k { s.schemes[k] with latch := none } } .retriggerDropped (some k) none none
      (some (g.slot.val : Int))) ∧
    s.releaseRecord none = s ∧
    ∀ old : ArmingRecord,
      let t := s.releaseRecord (some old)
      let due := fun p : PointId => old.holds p && decide (s.holders p = 0) &&
        (match s.points[p] with
         | some x => x.blockPending && decide (x.orderState ≠ .ordered)
         | none => false)
      (t = { s with points := t.points, schemes := t.schemes, ring := t.ring, nextSeq := t.nextSeq
                    readers := t.readers, openCount := t.openCount }) ∧
      (∃ ps : List PointId, ps.Perm ((List.finRange 128).filter due) ∧
        s.Logs t (ps.map (fun p => (.pointBlocked, none, some p, none, some 0)))) ∧
      (∀ p : PointId, t.points[p] = if due p then
        (s.points[p]).map (fun x => { x with availability := .blocked, blockPending := false }) else s.points[p]) ∧
      ∀ j : SchemeId, t.schemes[j] = { s.schemes[j] with
        pendingPass := (s.schemes[j]).pendingPass ||
          ((List.finRange 128).filter due).any (fun p => (s.schemes[j]).lists p) }) ∧
  ∀ (p : PartyId) (b : Byte) (k : SchemeId) (d : SchemeDef) (s : State), s.Takes p → b.toNat = k.val →
    (s.schemes[k]).defn = some d → d.owner = p →
    (s.loading = false → (s.schemes[k]).state = .disabled →
      1 ≤ d.terms.length → 2 ≤ d.curve.length → 1 ≤ d.sources.length →
      exec (.enable p b) s = State.answered (State.append { s with
        schemes := s.schemes.set k { s.schemes[k] with state := .standby } } .schemeEnabled (some k) none (some p)
        (some (d.defGen.toNat : Int))) p .done (1 :: Wire.be24 d.defGen)) ∧
    (s.loading = false → (s.schemes[k]).state ≠ .disabled → exec (.enable p b) s = s.answered p .wrongState []) ∧
    (s.loading = false → (s.schemes[k]).state = .disabled →
      d.terms = [] ∨ d.curve.length < 2 ∨ d.sources = [] →
      exec (.enable p b) s = s.answered p .badDefinition []) ∧
    (s.loading = true → exec (.enable p b) s = s.answered p .storeBusy []) ∧
    ((s.schemes[k]).state ≠ .firing → (s.schemes[k]).state ≠ .disabled →
      let n := ((List.finRange 4).filter (fun q => (s.schemes[k]).consents[q].isSome)).length
      exec (.disable p b) s = State.answered
        ((((State.voidPass { s with
              schemes := s.schemes.set k { s.schemes[k] with
                state := .disabled, consents := Vector.replicate 4 none, live := none, rearming := false } } k).append
            .schemeDisabled (some k) none (some p) (some (n : Int))).dropLatch k).releaseRecord (s.schemes[k]).live)
        p .done [0, BitVec.ofNat 8 n]) ∧
    ((s.schemes[k]).state = .disabled → exec (.disable p b) s = s.answered p .done [0, 0]) ∧
    ((s.schemes[k]).state = .firing → exec (.disable p b) s = s.answered p .wrongState [])

/-- R67, R68: CONSENT of an authority party: outside STANDBY it is refused whatever it quotes; in STANDBY, quoting another
definition generation it is refused, a second consent changes nothing, the one that completes the authority set makes the
scheme PRIMED and requests a pass, and an earlier one is recorded. -/
def Obligations.ConsentIsTaken : Prop :=
  ∀ (p : PartyId) (b : Byte) (k : SchemeId) (d : SchemeDef) (s : State), s.Takes p → b.toNat = k.val →
    (s.schemes[k]).defn = some d → d.authority.getLsbD p.val = true →
    let others := (List.finRange 4).filter (fun q =>
      decide (q ≠ p) && d.authority.getLsbD q.val && (s.schemes[k]).consents[q].isNone)
    let given := (s.schemes[k]).consents.set p (some d.defGen)
    ((s.schemes[k]).state ≠ .standby → ∀ g, exec (.consent p b g) s = s.answered p .wrongState []) ∧
    ((s.schemes[k]).state = .standby →
      (∀ g, g ≠ d.defGen → exec (.consent p b g) s = s.answered p .staleGeneration []) ∧
      ((s.schemes[k]).consents[p] ≠ none →
        exec (.consent p b d.defGen) s = s.answered p .done [1, BitVec.ofNat 8 others.length]) ∧
      ((s.schemes[k]).consents[p] = none → others ≠ [] →
        exec (.consent p b d.defGen) s = State.answered (State.append { s with
          schemes := s.schemes.set k { s.schemes[k] with consents := given } } .consent (some k) none (some p)
          (some (d.defGen.toNat : Int))) p .done [1, BitVec.ofNat 8 others.length]) ∧
      ((s.schemes[k]).consents[p] = none → others = [] →
        exec (.consent p b d.defGen) s = State.answered (State.append { s with
          schemes := s.schemes.set k { s.schemes[k] with
            consents := given, state := .primed, pendingPass := true } } .consent (some k) none (some p)
          (some (d.defGen.toNat : Int))) p .done [2, 0]))

/-- R69, R70: WITHDRAW of a recorded consent in STANDBY, PRIMED or ARMED and its refusals, and RESET_LOCKOUT of an
authority party. What voiding the pass, dropping the latch and releasing the record do:
`Obligations.EnableAndDisableAreTaken`. -/
def Obligations.WithdrawAndResetLockoutAreTaken : Prop :=
  ∀ (p : PartyId) (b : Byte) (k : SchemeId) (d : SchemeDef) (s : State), s.Takes p → b.toNat = k.val →
    (s.schemes[k]).defn = some d → d.authority.getLsbD p.val = true →
    (∀ g, (s.schemes[k]).consents[p] = some g →
      (s.schemes[k]).state = .standby ∨ (s.schemes[k]).state = .primed ∨ (s.schemes[k]).state = .armed →
      exec (.withdraw p b) s = State.answered
        ((((State.voidPass { s with
              schemes := s.schemes.set k { s.schemes[k] with
                state := .standby, consents := (s.schemes[k]).consents.set p none, live := none,
                rearming := false } } k).append
            .withdraw (some k) none (some p) (some (g.toNat : Int))).dropLatch k).releaseRecord (s.schemes[k]).live)
        p .done [1]) ∧
    ((s.schemes[k]).consents[p] = none ∨ (s.schemes[k]).state = .firing ∨ (s.schemes[k]).state = .lockout ∨
      (s.schemes[k]).state = .disabled → exec (.withdraw p b) s = s.answered p .wrongState []) ∧
    ((s.schemes[k]).state = .lockout → exec (.resetLockout p b) s = State.answered (State.append { s with
      schemes := s.schemes.set k { s.schemes[k] with state := .standby } } .lockoutReset (some k) none (some p) none)
      p .done [1]) ∧
    ((s.schemes[k]).state ≠ .lockout → exec (.resetLockout p b) s = s.answered p .wrongState [])

/-- R64, R66, R67, R69, R70, R32, R37, R48, R54: a party without the authority a request asks for is answered
NOT_AUTHORIZED, with no other effect. (A section write of a defined entry: `Obligations.SectionWriteIsTaken`.) -/
def Obligations.UnauthorizedRequestsAreRefused : Prop :=
  ∀ (p : PartyId) (b : Byte) (s : State), s.Takes p →
    (∀ (k : SchemeId) (d : SchemeDef), b.toNat = k.val → (s.schemes[k]).defn = some d →
      (d.owner ≠ p → exec (.enable p b) s = s.answered p .notAuthorized [] ∧
        exec (.disable p b) s = s.answered p .notAuthorized [] ∧
        ∀ target x, protectionOf target = some x → exec (.protect p b target) s = s.answered p .notAuthorized []) ∧
      (d.authority.getLsbD p.val = false → exec (.withdraw p b) s = s.answered p .notAuthorized [] ∧
        exec (.resetLockout p b) s = s.answered p .notAuthorized [] ∧
        ∀ g, exec (.consent p b g) s = s.answered p .notAuthorized [])) ∧
    (∀ (k : SchemeId) (c : List Byte), b.toNat = k.val → (s.schemes[k]).defn = none → c.length = 11 →
      (c.getD 8 0).toNat ≠ p.val → exec (.writeHeaderSection p b c) s = s.answered p .notAuthorized []) ∧
    (∀ (q : PointId) (x : Point), b.toNat = q.val → s.points[q] = some x → x.defn.owner ≠ p →
      exec (.blockPointImmediate p b) s = s.answered p .notAuthorized [] ∧
      exec (.blockPointDeferred p b) s = s.answered p .notAuthorized [] ∧
      exec (.unblockPoint p b) s = s.answered p .notAuthorized [] ∧
      exec (.restorePoint p b) s = s.answered p .notAuthorized []) ∧
    (∀ (q : PointId) (body : PointBody), body.point.toNat = q.val → kindOf body.kind ≠ none →
      (∀ x, s.points[q] = some x → x.defn.owner ≠ p →
        exec (.writePoint p body) s = s.answered p .notAuthorized []) ∧
      (s.points[q] = none → body.owner.toNat ≠ p.val →
        exec (.writePoint p body) s = s.answered p .notAuthorized []))

/-- R32, R37: WRITE_POINT of an undefined point, and of a defined BLOCKED point that is not ORDERED, and its refusals in the
order of its checks; what a definition must meet to fit the links and the other points (R22). That a confirm timeout outside
2 to 250 fits no definition (`writtenPoint`), so that the write is BAD_ARGUMENT, is the model's deduction of log entry
17. -/
def Obligations.WritePointIsTaken : Prop :=
  ∀ (p : PartyId) (body : PointBody) (s : State), s.Takes p →
    (128 ≤ body.point.toNat ∨ kindOf body.kind = none →
      exec (.writePoint p body) s = s.answered p .badArgument []) ∧
    ∀ q : PointId, body.point.toNat = q.val →
      (∀ d : PointDef, pointFits s.links s.points q d = true ↔
        (s.links[d.link]).params.enabled = true ∧ (s.links[d.link]).params.mode = .full ∧
        (∀ (r : PointId) (y : Point), r ≠ q → s.points[r] = some y →
          ¬ (y.defn.link = d.link ∧ y.defn.address = d.address)) ∧
        (List.finRange 128).countP (fun r => decide (r ≠ q) &&
          decide (s.points[r].map (fun y => y.defn.link) = some d.link)) < 32) ∧
      (kindOf body.kind ≠ none →
        let mine := (s.points[q] = none ∧ body.owner.toNat = p.val) ∨ ∃ x, s.points[q] = some x ∧ x.defn.owner = p
        (¬ mine → exec (.writePoint p body) s = s.answered p .notAuthorized []) ∧
        (mine → s.saving = true → exec (.writePoint p body) s = s.answered p .storeBusy []) ∧
        (∀ x, s.points[q] = some x → x.defn.owner = p → s.saving = false →
          x.availability ≠ .blocked ∨ x.orderState = .ordered →
          exec (.writePoint p body) s = s.answered p .wrongState []) ∧
        (mine → s.saving = false → (∀ x, s.points[q] = some x → x.availability = .blocked ∧ x.orderState ≠ .ordered) →
          (∀ d, writtenPoint body q = some d → pointFits s.links s.points q d = true → d.owner ≠ p) →
          exec (.writePoint p body) s = s.answered p .badArgument [])) ∧
      (∀ d : PointDef, s.saving = false → writtenPoint body q = some d → d.owner = p →
        pointFits s.links s.points q d = true →
        (s.points[q] = none → exec (.writePoint p body) s = State.answered { s with
          points := s.points.set q (some {
            defn := d, availability := .blocked, blockPending := false, orderState := .idle, lastTag := none,
            lastOutcome := .none }) } p .done []) ∧
        (∀ x, s.points[q] = some x → x.defn.owner = p → x.availability = .blocked → x.orderState ≠ .ordered →
          let moved := d.link ≠ x.defn.link ∨ d.address ≠ x.defn.address
          let trips := x.orderState = .idle ∧ s.statusAsserted d = true
          let t : State := { s with
            points := s.points.set q (some { x with
              defn := d, lastTag := if moved then none else x.lastTag,
              lastOutcome := if moved then .none else x.lastOutcome,
              orderState := if trips then .tripped else x.orderState })
            lateLists := s.lateLists.set q (if moved then [] else s.lateLists[q]) }
          exec (.writePoint p body) s = State.answered (if trips then t.requestForPoint q else t) p .done []))

/-- R33, R34: BLOCK_POINT in its two modes: of an ORDERED and of a BLOCKED point; the immediate block; and in mode DEFERRED
of an IN_SERVICE point already block-pending, held by no live arming record, and held by some, and of a FAULTED point. An
arming record without the point: the entry is out and the others keep their walk order, T is reduced by its credit, the
adequacy is judged again, FULL or SHORT, and everything else is kept. -/
def Obligations.BlocksAreTaken : Prop :=
  (∀ (r : ArmingRecord) (q : PointId) (credit : Nat) (before after : List (PointId × Nat)),
    r.selected = before ++ (q, credit) :: after → q ∉ before.map Prod.fst → q ∉ after.map Prod.fst →
    let left := r.total - credit
    (r.figures.a ≤ left → r.without q =
      { r with selected := before ++ after, total := left, adequacy := .full, shortfall := none }) ∧
    (left < r.figures.a → r.without q =
      { r with selected := before ++ after, total := left, adequacy := .short, shortfall := some (r.figures.a - left) })) ∧
  ∀ (p : PartyId) (b : Byte) (q : PointId) (x : Point) (s : State), s.Takes p → b.toNat = q.val →
    s.points[q] = some x → x.defn.owner = p →
    (x.orderState = .ordered → exec (.blockPointImmediate p b) s = s.answered p .pointBusy [] ∧
      exec (.blockPointDeferred p b) s = s.answered p .pointBusy []) ∧
    (x.orderState ≠ .ordered → x.availability = .blocked →
      exec (.blockPointImmediate p b) s = s.answered p .done [0] ∧
      exec (.blockPointDeferred p b) s = s.answered p .done [0]) ∧
    (x.orderState ≠ .ordered → x.availability ≠ .blocked → ∃ v : Vector Scheme 32,
      (∀ c : Instr, c = .blockPointImmediate p b ∨ (c = .blockPointDeferred p b ∧ x.availability = .faulted) →
        exec c s = State.answered (State.requestForPoint (State.append { s with
          points := s.points.set q (some { x with availability := .blocked, blockPending := false })
          schemes := v } .pointBlocked none (some q) (some p) (some (s.holders q : Int))) q) p .done
          [BitVec.ofNat 8 (s.holders q)]) ∧
      ∀ k : SchemeId,
        ((s.schemes[k]).holdsPoint q = false → v[k] = s.schemes[k]) ∧
        (∀ r, (s.schemes[k]).live = some r → r.holds q = true →
          v[k] = { s.schemes[k] with live := some (r.without q) })) ∧
    (x.orderState ≠ .ordered → x.availability = .inService → x.blockPending = true →
      exec (.blockPointDeferred p b) s = s.answered p .done [BitVec.ofNat 8 (s.holders q)]) ∧
    (x.orderState ≠ .ordered → x.availability = .inService → x.blockPending = false → s.holders q = 0 →
      exec (.blockPointDeferred p b) s = State.answered (State.requestForPoint (State.append { s with
        points := s.points.set q (some { x with availability := .blocked }) }
        .pointBlocked none (some q) (some p) (some 0)) q) p .done [0]) ∧
    (x.orderState ≠ .ordered → x.availability = .inService → x.blockPending = false → s.holders q ≠ 0 →
      exec (.blockPointDeferred p b) s = State.answered (State.requestForPoint (State.append { s with
        points := s.points.set q (some { x with blockPending := true }) }
        .pointBlocked none (some q) (some p) (some (-(s.holders q : Int)))) q) p .done
        [BitVec.ofNat 8 (s.holders q)])

/-- R35, R36: UNBLOCK_POINT in its five cases and RESTORE_POINT in its five cases, each by the point's owner. -/
def Obligations.UnblockAndRestoreAreTaken : Prop :=
  ∀ (p : PartyId) (b : Byte) (q : PointId) (x : Point) (s : State), s.Takes p → b.toNat = q.val →
    s.points[q] = some x → x.defn.owner = p →
    let full := (s.links[x.defn.link]).params.enabled = true ∧ (s.links[x.defn.link]).params.mode = .full
    let closed := ∃ e, x.defn.statusSlot = some e ∧ (s.det[e]).asserted = true
    (x.availability = .blocked → full →
      exec (.unblockPoint p b) s = State.answered (State.requestForPoint (State.append { s with
        points := s.points.set q (some { x with availability := .inService }) }
        .pointUnblocked none (some q) (some p) none) q) p .done []) ∧
    (x.availability = .blocked → ¬ full → exec (.unblockPoint p b) s = s.answered p .wrongState []) ∧
    (x.availability = .inService → x.blockPending = true →
      exec (.unblockPoint p b) s = State.answered (State.requestForPoint (State.append { s with
        points := s.points.set q (some { x with blockPending := false }) }
        .pointUnblocked none (some q) (some p) none) q) p .done []) ∧
    (x.availability = .inService → x.blockPending = false →
      exec (.unblockPoint p b) s = s.answered p .wrongState []) ∧
    (x.availability = .faulted → exec (.unblockPoint p b) s = s.answered p .wrongState []) ∧
    (x.orderState = .ordered → exec (.restorePoint p b) s = s.answered p .pointBusy []) ∧
    (x.orderState = .tripped → closed → exec (.restorePoint p b) s = s.answered p .wrongState []) ∧
    (x.orderState ≠ .ordered → x.availability = .faulted → ¬ full →
      exec (.restorePoint p b) s = s.answered p .wrongState []) ∧
    (x.orderState = .idle → x.availability ≠ .faulted → exec (.restorePoint p b) s = s.answered p .wrongState []) ∧
    (x.orderState ≠ .ordered → (x.orderState = .tripped → ¬ closed) → (x.availability = .faulted → full) →
      (x.orderState = .tripped ∨ x.availability = .faulted) →
      exec (.restorePoint p b) s = State.answered (State.requestForPoint (State.append { s with
        points := s.points.set q (some { x with
          orderState := .idle
          availability := if x.availability = .faulted then .inService else x.availability }) }
        .pointRestored none (some q) (some p)
        (some ((if x.orderState = .tripped then 1 else 0) + (if x.availability = .faulted then 2 else 0)))) q)
        p .done [])

/-! ## The party link exchange -/

/-- R161, R163, R164, R165: every request of a party, as a whole request period. Before the image is loaded it is answered
STARTING; while a response waits it is an overrun and reaches no block; otherwise its block answers it. Forming a response
makes it wait and asserts READY, and touches no other party link. A period still under way on the link ends first (the
model's choice of log entry 22; what that does: `Obligations.PartyPeriodsAreTaken`). -/
def Obligations.RequestsReachTheirBlock : Prop :=
  (∀ (c : Instr) (p : PartyId) (r : Request) (s : State), requestOf c = some (p, r) → s.inReset = false →
    ((s.parties[p]).select = .inactive → (s.parties[p]).exchange = .responseWaiting →
      exec c s = State.ended { s with parties := s.parties.set p { s.parties[p] with overrun := true } }) ∧
    ((s.parties[p]).select = .inactive → (s.parties[p]).exchange ≠ .responseWaiting → s.storeOp = .coldLoad →
      exec c s = s.answered p .starting []) ∧
    (s.Takes p → exec c s = State.answered (State.serve p r s).1 p (State.serve p r s).2.status
      (State.serve p r s).2.body) ∧
    ((s.parties[p]).select ≠ .inactive →
      exec c s = exec c (s.endPeriod p) ∧ ((s.endPeriod p).parties[p]).select = .inactive)) ∧
  (∀ (t : State) (p : PartyId) (status : Status) (body : List Byte), ∃ u, t.answered p status body = .next u ∧
    u.parties = t.parties.set p { t.parties[p] with
      exchange := .responseWaiting, waiting := some { status := status, body := body }, ready := true })

/-- R162, R163, R166, manual 10.4: the request frame of every request, with its start marker and its link check, is read back
as that request, and its bytes do what the request's command does. And only such bytes: a frame passes checks 1 and 2 exactly
where its length byte is at most 250 and is followed by that many body bytes and the two bytes of their link check; a kind
code is unknown exactly where R166 lists none such; a body is a request exactly where it is laid out as R166 lays it out. That
REQUEST_REJECTED carries out a good request is the model's choice of log entry 12; that the frame's end is taken from its
length byte is log entry 14. -/
def Obligations.RequestFramesReadBack : Prop :=
  (∀ (c : Instr) (p : PartyId) (r : Request) (s : State), requestOf c = some (p, r) → Wire.requestFits r = true →
    judgeFrame (Wire.requestBytes r) = .parsed (.request r) ∧ frameComplete (Wire.requestBytes r) = true ∧
    ((s.parties[p]).select = .inactive → exec (.requestRejected p ⟨0xD1#8 :: Wire.requestBytes r, true⟩) s = exec c s)) ∧
  (∀ bytes : List Byte,
    (frameComplete bytes = true ↔ ∃ (kind len : Byte) (body : List Byte) (c1 c2 : Byte) (rest : List Byte),
      len.toNat ≤ 250 ∧ body.length = len.toNat ∧ bytes = kind :: len :: (body ++ c1 :: c2 :: rest)) ∧
    (∀ x, judgeFrame bytes = .parsed x ↔ ∃ (kind len : Byte) (body rest : List Byte),
      len.toNat ≤ 250 ∧ body.length = len.toNat ∧
      bytes = kind :: len :: (body ++ Wire.be16 (Wire.crc (kind :: len :: body)) ++ rest) ∧
      x = parseRequest kind body)) ∧
  (∀ (kind : Byte) (body : List Byte),
    (parseRequest kind body = .unknown ↔ kind ∉ ([0x01, 0x02, 0x03, 0x04, 0x05, 0x06, 0x07, 0x08, 0x10, 0x11, 0x20, 0x21,
      0x22, 0x23, 0x24, 0x25, 0x30, 0x31, 0x32, 0x40, 0x41] : List Byte)) ∧
    (∀ r, parseRequest kind body = .request r ↔ Wire.requestParts r = (kind, body)))

/-- R161, R163, R164, R165: the select periods of a party link, whole or in parts (log entries 12 and 22 for the commands'
form). The first byte tells a request period (0xD1) from a read period. A request frame is taken in the moment it is complete
and judged by the checks of R163 in their order, and the rest of its period is ignored; until then the link is RECEIVING; a
period that ends before leaves FRAME_ERROR. While a response waits a request period is an overrun. A read period drives the
waiting response and 0xFF after it, or 0xFF alone; at its end a response read to its last check byte is discarded with READY
and the overrun flag, and any other stays. OVERRUN sets its flag alone, where a response waits (log entry 11). -/
def Obligations.PartyPeriodsAreTaken : Prop :=
  ∀ (p : PartyId) (s : State),
    let q := s.parties[p]
    let put := fun (t : State) (x : PartyLink) => ({ t with parties := t.parties.set p x } : State)
    (s.inReset = false → ∀ bytes ends,
      let t := if ends = true then (s.clockIn p bytes).endPeriod p else s.clockIn p bytes
      exec (.requestRejected p ⟨bytes, ends⟩) s = t.ended ∧ exec (.responseRead p ⟨bytes, ends⟩) s = t.ended) ∧
    (s.inReset = false → q.select = .inactive →
      (q.exchange = .responseWaiting → exec (.overrun p) s = State.ended (put s { q with overrun := true })) ∧
      (q.exchange ≠ .responseWaiting → exec (.overrun p) s = s.ended)) ∧
    (s.inReset = false → q.select ≠ .inactive → exec (.overrun p) s = exec (.overrun p) (s.endPeriod p)) ∧
    (∀ (bytes got : List Byte), q.select = .inactive → bytes = 0xD1#8 :: got → q.exchange = .responseWaiting →
      s.clockIn p bytes = put s { q with overrun := true, select := .ignored }) ∧
    (∀ (bytes got : List Byte),
      (q.select = .inactive ∧ q.exchange ≠ .responseWaiting ∧ bytes = 0xD1#8 :: got) ∨
        (∃ before, q.select = .receiving before ∧ bytes ≠ [] ∧ got = before ++ bytes) →
      (frameComplete got = false →
        s.clockIn p bytes = put s { q with exchange := .receiving, select := .receiving got }) ∧
      (frameComplete got = true →
        let t := s.takeRequest p got
        s.clockIn p bytes = put t { t.parties[p] with select := .ignored })) ∧
    (∀ (bytes : List Byte) (n : Nat),
      (q.select = .inactive ∧ bytes.head? ≠ some 0xD1#8 ∧ bytes ≠ [] ∧ n = bytes.length) ∨
        (∃ before, q.select = .reading before ∧ bytes ≠ [] ∧ n = before + bytes.length) →
      (∀ r, q.exchange = .responseWaiting → q.waiting = some r →
        let frame := Wire.responseFrame q.overrun r
        s.clockIn p bytes = put s { q with
          select := .reading n, shiftedOut := frame.take n ++ List.replicate (n - frame.length) 0xFF }) ∧
      (q.exchange ≠ .responseWaiting →
        s.clockIn p bytes = put s { q with select := .reading n, shiftedOut := List.replicate n 0xFF })) ∧
    (∀ bytes, q.select = .ignored ∨ bytes = [] → s.clockIn p bytes = s) ∧
    (∀ got, (judgeFrame got = .frameError →
        s.takeRequest p got = s.respond p { status := .frameError, body := [] }) ∧
      (∀ x, judgeFrame got = .parsed x →
        (s.storeOp = .coldLoad → s.takeRequest p got = s.respond p { status := .starting, body := [] }) ∧
        (s.storeOp ≠ .coldLoad →
          (x = .unknown → s.takeRequest p got = s.respond p { status := .unknownRequest, body := [] }) ∧
          (x = .malformed → s.takeRequest p got = s.respond p { status := .badArgument, body := [] }) ∧
          (∀ r, x = .request r →
            s.takeRequest p got = (State.serve p r s).1.respond p (State.serve p r s).2)))) ∧
    (∀ r, s.respond p r = put s { q with exchange := .responseWaiting, waiting := some r, ready := true }) ∧
    (q.select = .inactive → s.endPeriod p = s) ∧
    (q.select = .ignored → s.endPeriod p = put s { q with select := .inactive }) ∧
    (∀ got, q.select = .receiving got → s.endPeriod p = put s { q with
      exchange := .responseWaiting, waiting := some { status := .frameError, body := [] }, ready := true
      select := .inactive }) ∧
    (∀ n, q.select = .reading n →
      (∀ r, q.exchange = .responseWaiting → q.waiting = some r → (Wire.responseFrame q.overrun r).length ≤ n →
        s.endPeriod p = put s {
          select := .inactive, exchange := .idle, waiting := none, overrun := false, ready := false
          shiftedOut := q.shiftedOut }) ∧
      (∀ r, q.waiting = some r → n < (Wire.responseFrame q.overrun r).length →
        s.endPeriod p = put s { q with select := .inactive }) ∧
      (q.exchange ≠ .responseWaiting → s.endPeriod p = put s { q with select := .inactive }))

/-! ## Station frames byte by byte -/

/-- R4, R162, R170, R171: the bytes of every well-formed inbound frame, received one by one on an enabled link outside a
frame, do what the frame does; they are read back as exactly the frame that was sent. And only such bytes are read as a frame:
whatever is accepted as carrying some contents is, marker, type, length, contents and link check, the frame that carries them.
The byte-wise form of the command is the model's choice of log entry 13; the order of a measurement value's two bytes is the
deduction of log entry 35. -/
def Obligations.StationFramesReadBack : Prop :=
  (∀ (l : LinkId) (station : Byte) (body : FrameBody) (s : State), s.starting = false →
    (s.links[l]).params.enabled = true → (s.links[l]).receiving = [] →
    (∀ items, body = .data items → items.length ≤ 40) →
    Wire.parseStation (Wire.inboundFrame station body) = some (station, body) ∧
    (Wire.inboundFrame station body).foldl (State.takeByte l) s = (s.takeFrame l station body).settle) ∧
  (∀ (frame : List Byte) (station : Byte) (body : FrameBody),
    Wire.parseStation frame = some (station, body) → frame = Wire.inboundFrame station body)

/-- R3, R4, R170: bytes on a disabled link, a frame whose length byte is above 240, and a whole frame that fails its link
check or its layout have no effect. The byte-wise form of the command is the model's choice of log entry 13. -/
def Obligations.DiscardedFramesHaveNoEffect : Prop :=
  ∀ (l : LinkId) (s : State), s.inReset = false →
    (∀ bytes, (s.links[l]).params.enabled = false ∨ s.storeOp = .coldLoad →
      exec (.stationFrameDiscarded l bytes) s = s.ended) ∧
    (∀ type station len : Byte, s.storeOp ≠ .coldLoad → (s.links[l]).params.enabled = true →
      (s.links[l]).receiving = [] → 240 < len.toNat →
      exec (.stationFrameDiscarded l [0x96#8, type, station, len]) s = s.ended) ∧
    (∀ (type station len : Byte) (rest : List Byte), s.storeOp ≠ .coldLoad → (s.links[l]).params.enabled = true →
      (s.links[l]).receiving = [] → len.toNat ≤ 240 → rest.length = len.toNat + 2 →
      Wire.parseStation (0x96#8 :: type :: station :: len :: rest) = none →
      exec (.stationFrameDiscarded l (0x96#8 :: type :: station :: len :: rest)) s = s.ended)

/-! ## The invariants -/

/-- Every step keeps the measurement law (R1, R2), and the detection law (R12, R116), from every state that meets it. -/
def Obligations.EveryStepKeepsTheInputLaws : Prop :=
  ∀ s t : State, step s = .next t →
    (s.MeasurementLaw → t.MeasurementLaw) ∧ (s.DetectionLaw → t.DetectionLaw)

/-- Every step keeps the point law (R22) and the order law (R24, R133, R151), from every state that meets it. R22, R136:
together they bound every link's queue by 32 orders. -/
def Obligations.EveryStepKeepsThePointLaw : Prop :=
  (∀ s t : State, step s = .next t → (s.PointLaw → t.PointLaw) ∧ (s.OrderLaw → t.OrderLaw)) ∧
  (∀ s : State, s.PointLaw → s.OrderLaw → s.inReset = false → ∀ l : LinkId, (s.links[l]).orders.length ≤ 32)

/-- Every step keeps the scheme law (R41, R61 to R63, R78, R103, R108, R114, R120, R126), from every state that meets
it. -/
def Obligations.EveryStepKeepsTheSchemeLaw : Prop :=
  ∀ s t : State, s.SchemeLaw → step s = .next t → t.SchemeLaw

/-- Every step keeps the arming law (R40, R88, R93, R94, R101 to R103) with the definition law it rests on, from every
state that meets it. -/
def Obligations.EveryStepKeepsTheArmingLaw : Prop :=
  ∀ s t : State, s.ArmingLaw → step s = .next t → t.ArmingLaw

/-- Every step keeps the event record law (R153, R156, R159), from every state that meets it. -/
def Obligations.EveryStepKeepsTheRecordLaw : Prop :=
  ∀ s t : State, s.RecordLaw → step s = .next t → t.RecordLaw

/-- Every step keeps the store's canonical form (log entry 2), from every state that meets it. -/
def Obligations.EveryStepKeepsTheStoreLaw : Prop :=
  ∀ s t : State, s.StoreLaw → step s = .next t → t.StoreLaw
end

