-- ==== Sys2Proof/Laws/State.lean ====
section
/-! SUPPORT. The small lemmas of the state: an entry of a changed table, and one lemma for every field and every update,
so that no later proof unfolds a record update. -/

namespace Sys2Proof.Machine

/-! ## Tables -/

@[simp] theorem getElem_mapV {α β : Type} {n : Nat} (f : α → β) (v : Vector α n) (i : Nat) (h : i < n) :
    (mapV f v)[i] = f v[i] := by
  simp [mapV, Vector.getElem_mk]

@[simp] theorem getElem_tabulate {α : Type} {n : Nat} (f : Fin n → α) (i : Nat) (h : i < n) :
    (tabulate f)[i] = f ⟨i, h⟩ := by
  simp [tabulate, Vector.getElem_mk]

@[simp] theorem getElem_modV {α : Type} {n : Nat} (v : Vector α n) (i : Fin n) (f : α → α) (j : Nat) (h : j < n) :
    (modV v i f)[j] = if i.val = j then f v[j] else v[j] := by
  simp only [modV, Vector.getElem_set, Fin.getElem_fin]
  split
  · next e => subst e; rfl
  · rfl

/-- Changing an entry to itself changes nothing. -/
theorem modV_self {α : Type} {n : Nat} (v : Vector α n) (i : Fin n) (f : α → α) (h : f v[i] = v[i]) :
    modV v i f = v := by
  ext j hj
  simp only [getElem_modV]
  split
  · next e => subst e; exact h
  · rfl

/-- Changing one element is writing it. -/
theorem modV_eq_set {α : Type} {n : Nat} (v : Vector α n) (i : Fin n) (f : α → α) : modV v i f = v.set i (f v[i]) := by
  ext j hj
  rw [getElem_modV, Vector.getElem_set]
  split
  · next h => subst h; simp
  · rfl

/-- Two changes of one entry are one. -/
theorem modV_modV {α : Type} {n : Nat} (v : Vector α n) (i : Fin n) (f g : α → α) :
    modV (modV v i f) i g = modV v i (fun x => g (f x)) := by
  ext j hj
  simp only [getElem_modV]
  split <;> rfl

/-! ## One lemma per field per update -/

namespace State

variable (s : State)

/-! ### modScheme -/

@[simp] theorem modScheme_pending (k : SchemeId) (f : Scheme → Scheme) :
    (s.modScheme k f).pending = s.pending := rfl
@[simp] theorem modScheme_inReset (k : SchemeId) (f : Scheme → Scheme) :
    (s.modScheme k f).inReset = s.inReset := rfl
@[simp] theorem modScheme_clock (k : SchemeId) (f : Scheme → Scheme) :
    (s.modScheme k f).clock = s.clock := rfl
@[simp] theorem modScheme_bench (k : SchemeId) (f : Scheme → Scheme) :
    (s.modScheme k f).bench = s.bench := rfl
@[simp] theorem modScheme_store (k : SchemeId) (f : Scheme → Scheme) :
    (s.modScheme k f).store = s.store := rfl
@[simp] theorem modScheme_storeOp (k : SchemeId) (f : Scheme → Scheme) :
    (s.modScheme k f).storeOp = s.storeOp := rfl
@[simp] theorem modScheme_warm (k : SchemeId) (f : Scheme → Scheme) :
    (s.modScheme k f).warm = s.warm := rfl
@[simp] theorem modScheme_meas (k : SchemeId) (f : Scheme → Scheme) :
    (s.modScheme k f).meas = s.meas := rfl
@[simp] theorem modScheme_det (k : SchemeId) (f : Scheme → Scheme) :
    (s.modScheme k f).det = s.det := rfl
@[simp] theorem modScheme_recentRise (k : SchemeId) (f : Scheme → Scheme) :
    (s.modScheme k f).recentRise = s.recentRise := rfl
@[simp] theorem modScheme_points (k : SchemeId) (f : Scheme → Scheme) :
    (s.modScheme k f).points = s.points := rfl
@[simp] theorem modScheme_lateLists (k : SchemeId) (f : Scheme → Scheme) :
    (s.modScheme k f).lateLists = s.lateLists := rfl
@[simp] theorem modScheme_schemes (k : SchemeId) (f : Scheme → Scheme) :
    (s.modScheme k f).schemes = modV s.schemes k f := rfl
@[simp] theorem modScheme_engine (k : SchemeId) (f : Scheme → Scheme) :
    (s.modScheme k f).engine = s.engine := rfl
@[simp] theorem modScheme_links (k : SchemeId) (f : Scheme → Scheme) :
    (s.modScheme k f).links = s.links := rfl
@[simp] theorem modScheme_execCount (k : SchemeId) (f : Scheme → Scheme) :
    (s.modScheme k f).execCount = s.execCount := rfl
@[simp] theorem modScheme_ring (k : SchemeId) (f : Scheme → Scheme) :
    (s.modScheme k f).ring = s.ring := rfl
@[simp] theorem modScheme_nextSeq (k : SchemeId) (f : Scheme → Scheme) :
    (s.modScheme k f).nextSeq = s.nextSeq := rfl
@[simp] theorem modScheme_readers (k : SchemeId) (f : Scheme → Scheme) :
    (s.modScheme k f).readers = s.readers := rfl
@[simp] theorem modScheme_parties (k : SchemeId) (f : Scheme → Scheme) :
    (s.modScheme k f).parties = s.parties := rfl
@[simp] theorem modScheme_openCount (k : SchemeId) (f : Scheme → Scheme) :
    (s.modScheme k f).openCount = s.openCount := rfl

/-! ### modPoint -/

@[simp] theorem modPoint_pending (p : PointId) (f : Point → Point) :
    (s.modPoint p f).pending = s.pending := rfl
@[simp] theorem modPoint_inReset (p : PointId) (f : Point → Point) :
    (s.modPoint p f).inReset = s.inReset := rfl
@[simp] theorem modPoint_clock (p : PointId) (f : Point → Point) :
    (s.modPoint p f).clock = s.clock := rfl
@[simp] theorem modPoint_bench (p : PointId) (f : Point → Point) :
    (s.modPoint p f).bench = s.bench := rfl
@[simp] theorem modPoint_store (p : PointId) (f : Point → Point) :
    (s.modPoint p f).store = s.store := rfl
@[simp] theorem modPoint_storeOp (p : PointId) (f : Point → Point) :
    (s.modPoint p f).storeOp = s.storeOp := rfl
@[simp] theorem modPoint_warm (p : PointId) (f : Point → Point) :
    (s.modPoint p f).warm = s.warm := rfl
@[simp] theorem modPoint_meas (p : PointId) (f : Point → Point) :
    (s.modPoint p f).meas = s.meas := rfl
@[simp] theorem modPoint_det (p : PointId) (f : Point → Point) :
    (s.modPoint p f).det = s.det := rfl
@[simp] theorem modPoint_recentRise (p : PointId) (f : Point → Point) :
    (s.modPoint p f).recentRise = s.recentRise := rfl
@[simp] theorem modPoint_points (p : PointId) (f : Point → Point) :
    (s.modPoint p f).points = modV s.points p (fun x => x.map f) := rfl
@[simp] theorem modPoint_lateLists (p : PointId) (f : Point → Point) :
    (s.modPoint p f).lateLists = s.lateLists := rfl
@[simp] theorem modPoint_schemes (p : PointId) (f : Point → Point) :
    (s.modPoint p f).schemes = s.schemes := rfl
@[simp] theorem modPoint_engine (p : PointId) (f : Point → Point) :
    (s.modPoint p f).engine = s.engine := rfl
@[simp] theorem modPoint_links (p : PointId) (f : Point → Point) :
    (s.modPoint p f).links = s.links := rfl
@[simp] theorem modPoint_execCount (p : PointId) (f : Point → Point) :
    (s.modPoint p f).execCount = s.execCount := rfl
@[simp] theorem modPoint_ring (p : PointId) (f : Point → Point) :
    (s.modPoint p f).ring = s.ring := rfl
@[simp] theorem modPoint_nextSeq (p : PointId) (f : Point → Point) :
    (s.modPoint p f).nextSeq = s.nextSeq := rfl
@[simp] theorem modPoint_readers (p : PointId) (f : Point → Point) :
    (s.modPoint p f).readers = s.readers := rfl
@[simp] theorem modPoint_parties (p : PointId) (f : Point → Point) :
    (s.modPoint p f).parties = s.parties := rfl
@[simp] theorem modPoint_openCount (p : PointId) (f : Point → Point) :
    (s.modPoint p f).openCount = s.openCount := rfl

/-! ### modLink -/

@[simp] theorem modLink_pending (l : LinkId) (f : Link → Link) :
    (s.modLink l f).pending = s.pending := rfl
@[simp] theorem modLink_inReset (l : LinkId) (f : Link → Link) :
    (s.modLink l f).inReset = s.inReset := rfl
@[simp] theorem modLink_clock (l : LinkId) (f : Link → Link) :
    (s.modLink l f).clock = s.clock := rfl
@[simp] theorem modLink_bench (l : LinkId) (f : Link → Link) :
    (s.modLink l f).bench = s.bench := rfl
@[simp] theorem modLink_store (l : LinkId) (f : Link → Link) :
    (s.modLink l f).store = s.store := rfl
@[simp] theorem modLink_storeOp (l : LinkId) (f : Link → Link) :
    (s.modLink l f).storeOp = s.storeOp := rfl
@[simp] theorem modLink_warm (l : LinkId) (f : Link → Link) :
    (s.modLink l f).warm = s.warm := rfl
@[simp] theorem modLink_meas (l : LinkId) (f : Link → Link) :
    (s.modLink l f).meas = s.meas := rfl
@[simp] theorem modLink_det (l : LinkId) (f : Link → Link) :
    (s.modLink l f).det = s.det := rfl
@[simp] theorem modLink_recentRise (l : LinkId) (f : Link → Link) :
    (s.modLink l f).recentRise = s.recentRise := rfl
@[simp] theorem modLink_points (l : LinkId) (f : Link → Link) :
    (s.modLink l f).points = s.points := rfl
@[simp] theorem modLink_lateLists (l : LinkId) (f : Link → Link) :
    (s.modLink l f).lateLists = s.lateLists := rfl
@[simp] theorem modLink_schemes (l : LinkId) (f : Link → Link) :
    (s.modLink l f).schemes = s.schemes := rfl
@[simp] theorem modLink_engine (l : LinkId) (f : Link → Link) :
    (s.modLink l f).engine = s.engine := rfl
@[simp] theorem modLink_links (l : LinkId) (f : Link → Link) :
    (s.modLink l f).links = modV s.links l f := rfl
@[simp] theorem modLink_execCount (l : LinkId) (f : Link → Link) :
    (s.modLink l f).execCount = s.execCount := rfl
@[simp] theorem modLink_ring (l : LinkId) (f : Link → Link) :
    (s.modLink l f).ring = s.ring := rfl
@[simp] theorem modLink_nextSeq (l : LinkId) (f : Link → Link) :
    (s.modLink l f).nextSeq = s.nextSeq := rfl
@[simp] theorem modLink_readers (l : LinkId) (f : Link → Link) :
    (s.modLink l f).readers = s.readers := rfl
@[simp] theorem modLink_parties (l : LinkId) (f : Link → Link) :
    (s.modLink l f).parties = s.parties := rfl
@[simp] theorem modLink_openCount (l : LinkId) (f : Link → Link) :
    (s.modLink l f).openCount = s.openCount := rfl

/-! ### modMeas -/

@[simp] theorem modMeas_pending (m : MeasId) (f : MeasSlot → MeasSlot) :
    (s.modMeas m f).pending = s.pending := rfl
@[simp] theorem modMeas_inReset (m : MeasId) (f : MeasSlot → MeasSlot) :
    (s.modMeas m f).inReset = s.inReset := rfl
@[simp] theorem modMeas_clock (m : MeasId) (f : MeasSlot → MeasSlot) :
    (s.modMeas m f).clock = s.clock := rfl
@[simp] theorem modMeas_bench (m : MeasId) (f : MeasSlot → MeasSlot) :
    (s.modMeas m f).bench = s.bench := rfl
@[simp] theorem modMeas_store (m : MeasId) (f : MeasSlot → MeasSlot) :
    (s.modMeas m f).store = s.store := rfl
@[simp] theorem modMeas_storeOp (m : MeasId) (f : MeasSlot → MeasSlot) :
    (s.modMeas m f).storeOp = s.storeOp := rfl
@[simp] theorem modMeas_warm (m : MeasId) (f : MeasSlot → MeasSlot) :
    (s.modMeas m f).warm = s.warm := rfl
@[simp] theorem modMeas_meas (m : MeasId) (f : MeasSlot → MeasSlot) :
    (s.modMeas m f).meas = modV s.meas m f := rfl
@[simp] theorem modMeas_det (m : MeasId) (f : MeasSlot → MeasSlot) :
    (s.modMeas m f).det = s.det := rfl
@[simp] theorem modMeas_recentRise (m : MeasId) (f : MeasSlot → MeasSlot) :
    (s.modMeas m f).recentRise = s.recentRise := rfl
@[simp] theorem modMeas_points (m : MeasId) (f : MeasSlot → MeasSlot) :
    (s.modMeas m f).points = s.points := rfl
@[simp] theorem modMeas_lateLists (m : MeasId) (f : MeasSlot → MeasSlot) :
    (s.modMeas m f).lateLists = s.lateLists := rfl
@[simp] theorem modMeas_schemes (m : MeasId) (f : MeasSlot → MeasSlot) :
    (s.modMeas m f).schemes = s.schemes := rfl
@[simp] theorem modMeas_engine (m : MeasId) (f : MeasSlot → MeasSlot) :
    (s.modMeas m f).engine = s.engine := rfl
@[simp] theorem modMeas_links (m : MeasId) (f : MeasSlot → MeasSlot) :
    (s.modMeas m f).links = s.links := rfl
@[simp] theorem modMeas_execCount (m : MeasId) (f : MeasSlot → MeasSlot) :
    (s.modMeas m f).execCount = s.execCount := rfl
@[simp] theorem modMeas_ring (m : MeasId) (f : MeasSlot → MeasSlot) :
    (s.modMeas m f).ring = s.ring := rfl
@[simp] theorem modMeas_nextSeq (m : MeasId) (f : MeasSlot → MeasSlot) :
    (s.modMeas m f).nextSeq = s.nextSeq := rfl
@[simp] theorem modMeas_readers (m : MeasId) (f : MeasSlot → MeasSlot) :
    (s.modMeas m f).readers = s.readers := rfl
@[simp] theorem modMeas_parties (m : MeasId) (f : MeasSlot → MeasSlot) :
    (s.modMeas m f).parties = s.parties := rfl
@[simp] theorem modMeas_openCount (m : MeasId) (f : MeasSlot → MeasSlot) :
    (s.modMeas m f).openCount = s.openCount := rfl

/-! ### modDet -/

@[simp] theorem modDet_pending (d : DetId) (f : DetSlot → DetSlot) :
    (s.modDet d f).pending = s.pending := rfl
@[simp] theorem modDet_inReset (d : DetId) (f : DetSlot → DetSlot) :
    (s.modDet d f).inReset = s.inReset := rfl
@[simp] theorem modDet_clock (d : DetId) (f : DetSlot → DetSlot) :
    (s.modDet d f).clock = s.clock := rfl
@[simp] theorem modDet_bench (d : DetId) (f : DetSlot → DetSlot) :
    (s.modDet d f).bench = s.bench := rfl
@[simp] theorem modDet_store (d : DetId) (f : DetSlot → DetSlot) :
    (s.modDet d f).store = s.store := rfl
@[simp] theorem modDet_storeOp (d : DetId) (f : DetSlot → DetSlot) :
    (s.modDet d f).storeOp = s.storeOp := rfl
@[simp] theorem modDet_warm (d : DetId) (f : DetSlot → DetSlot) :
    (s.modDet d f).warm = s.warm := rfl
@[simp] theorem modDet_meas (d : DetId) (f : DetSlot → DetSlot) :
    (s.modDet d f).meas = s.meas := rfl
@[simp] theorem modDet_det (d : DetId) (f : DetSlot → DetSlot) :
    (s.modDet d f).det = modV s.det d f := rfl
@[simp] theorem modDet_recentRise (d : DetId) (f : DetSlot → DetSlot) :
    (s.modDet d f).recentRise = s.recentRise := rfl
@[simp] theorem modDet_points (d : DetId) (f : DetSlot → DetSlot) :
    (s.modDet d f).points = s.points := rfl
@[simp] theorem modDet_lateLists (d : DetId) (f : DetSlot → DetSlot) :
    (s.modDet d f).lateLists = s.lateLists := rfl
@[simp] theorem modDet_schemes (d : DetId) (f : DetSlot → DetSlot) :
    (s.modDet d f).schemes = s.schemes := rfl
@[simp] theorem modDet_engine (d : DetId) (f : DetSlot → DetSlot) :
    (s.modDet d f).engine = s.engine := rfl
@[simp] theorem modDet_links (d : DetId) (f : DetSlot → DetSlot) :
    (s.modDet d f).links = s.links := rfl
@[simp] theorem modDet_execCount (d : DetId) (f : DetSlot → DetSlot) :
    (s.modDet d f).execCount = s.execCount := rfl
@[simp] theorem modDet_ring (d : DetId) (f : DetSlot → DetSlot) :
    (s.modDet d f).ring = s.ring := rfl
@[simp] theorem modDet_nextSeq (d : DetId) (f : DetSlot → DetSlot) :
    (s.modDet d f).nextSeq = s.nextSeq := rfl
@[simp] theorem modDet_readers (d : DetId) (f : DetSlot → DetSlot) :
    (s.modDet d f).readers = s.readers := rfl
@[simp] theorem modDet_parties (d : DetId) (f : DetSlot → DetSlot) :
    (s.modDet d f).parties = s.parties := rfl
@[simp] theorem modDet_openCount (d : DetId) (f : DetSlot → DetSlot) :
    (s.modDet d f).openCount = s.openCount := rfl

/-! ### modParty -/

@[simp] theorem modParty_pending (p : PartyId) (f : PartyLink → PartyLink) :
    (s.modParty p f).pending = s.pending := rfl
@[simp] theorem modParty_inReset (p : PartyId) (f : PartyLink → PartyLink) :
    (s.modParty p f).inReset = s.inReset := rfl
@[simp] theorem modParty_clock (p : PartyId) (f : PartyLink → PartyLink) :
    (s.modParty p f).clock = s.clock := rfl
@[simp] theorem modParty_bench (p : PartyId) (f : PartyLink → PartyLink) :
    (s.modParty p f).bench = s.bench := rfl
@[simp] theorem modParty_store (p : PartyId) (f : PartyLink → PartyLink) :
    (s.modParty p f).store = s.store := rfl
@[simp] theorem modParty_storeOp (p : PartyId) (f : PartyLink → PartyLink) :
    (s.modParty p f).storeOp = s.storeOp := rfl
@[simp] theorem modParty_warm (p : PartyId) (f : PartyLink → PartyLink) :
    (s.modParty p f).warm = s.warm := rfl
@[simp] theorem modParty_meas (p : PartyId) (f : PartyLink → PartyLink) :
    (s.modParty p f).meas = s.meas := rfl
@[simp] theorem modParty_det (p : PartyId) (f : PartyLink → PartyLink) :
    (s.modParty p f).det = s.det := rfl
@[simp] theorem modParty_recentRise (p : PartyId) (f : PartyLink → PartyLink) :
    (s.modParty p f).recentRise = s.recentRise := rfl
@[simp] theorem modParty_points (p : PartyId) (f : PartyLink → PartyLink) :
    (s.modParty p f).points = s.points := rfl
@[simp] theorem modParty_lateLists (p : PartyId) (f : PartyLink → PartyLink) :
    (s.modParty p f).lateLists = s.lateLists := rfl
@[simp] theorem modParty_schemes (p : PartyId) (f : PartyLink → PartyLink) :
    (s.modParty p f).schemes = s.schemes := rfl
@[simp] theorem modParty_engine (p : PartyId) (f : PartyLink → PartyLink) :
    (s.modParty p f).engine = s.engine := rfl
@[simp] theorem modParty_links (p : PartyId) (f : PartyLink → PartyLink) :
    (s.modParty p f).links = s.links := rfl
@[simp] theorem modParty_execCount (p : PartyId) (f : PartyLink → PartyLink) :
    (s.modParty p f).execCount = s.execCount := rfl
@[simp] theorem modParty_ring (p : PartyId) (f : PartyLink → PartyLink) :
    (s.modParty p f).ring = s.ring := rfl
@[simp] theorem modParty_nextSeq (p : PartyId) (f : PartyLink → PartyLink) :
    (s.modParty p f).nextSeq = s.nextSeq := rfl
@[simp] theorem modParty_readers (p : PartyId) (f : PartyLink → PartyLink) :
    (s.modParty p f).readers = s.readers := rfl
@[simp] theorem modParty_parties (p : PartyId) (f : PartyLink → PartyLink) :
    (s.modParty p f).parties = modV s.parties p f := rfl
@[simp] theorem modParty_openCount (p : PartyId) (f : PartyLink → PartyLink) :
    (s.modParty p f).openCount = s.openCount := rfl

/-! ### opened -/

@[simp] theorem opened_pending (n : Nat) :
    (s.opened n).pending = s.pending := rfl
@[simp] theorem opened_inReset (n : Nat) :
    (s.opened n).inReset = s.inReset := rfl
@[simp] theorem opened_clock (n : Nat) :
    (s.opened n).clock = s.clock := rfl
@[simp] theorem opened_bench (n : Nat) :
    (s.opened n).bench = s.bench := rfl
@[simp] theorem opened_store (n : Nat) :
    (s.opened n).store = s.store := rfl
@[simp] theorem opened_storeOp (n : Nat) :
    (s.opened n).storeOp = s.storeOp := rfl
@[simp] theorem opened_warm (n : Nat) :
    (s.opened n).warm = s.warm := rfl
@[simp] theorem opened_meas (n : Nat) :
    (s.opened n).meas = s.meas := rfl
@[simp] theorem opened_det (n : Nat) :
    (s.opened n).det = s.det := rfl
@[simp] theorem opened_recentRise (n : Nat) :
    (s.opened n).recentRise = s.recentRise := rfl
@[simp] theorem opened_points (n : Nat) :
    (s.opened n).points = s.points := rfl
@[simp] theorem opened_lateLists (n : Nat) :
    (s.opened n).lateLists = s.lateLists := rfl
@[simp] theorem opened_schemes (n : Nat) :
    (s.opened n).schemes = s.schemes := rfl
@[simp] theorem opened_engine (n : Nat) :
    (s.opened n).engine = s.engine := rfl
@[simp] theorem opened_links (n : Nat) :
    (s.opened n).links = s.links := rfl
@[simp] theorem opened_execCount (n : Nat) :
    (s.opened n).execCount = s.execCount := rfl
@[simp] theorem opened_ring (n : Nat) :
    (s.opened n).ring = s.ring := rfl
@[simp] theorem opened_nextSeq (n : Nat) :
    (s.opened n).nextSeq = s.nextSeq := rfl
@[simp] theorem opened_readers (n : Nat) :
    (s.opened n).readers = s.readers := rfl
@[simp] theorem opened_parties (n : Nat) :
    (s.opened n).parties = s.parties := rfl
@[simp] theorem opened_openCount (n : Nat) :
    (s.opened n).openCount = s.openCount + n := rfl

/-! ### requestPasses -/

@[simp] theorem requestPasses_pending (f : Scheme → Bool) :
    (s.requestPasses f).pending = s.pending := rfl
@[simp] theorem requestPasses_inReset (f : Scheme → Bool) :
    (s.requestPasses f).inReset = s.inReset := rfl
@[simp] theorem requestPasses_clock (f : Scheme → Bool) :
    (s.requestPasses f).clock = s.clock := rfl
@[simp] theorem requestPasses_bench (f : Scheme → Bool) :
    (s.requestPasses f).bench = s.bench := rfl
@[simp] theorem requestPasses_store (f : Scheme → Bool) :
    (s.requestPasses f).store = s.store := rfl
@[simp] theorem requestPasses_storeOp (f : Scheme → Bool) :
    (s.requestPasses f).storeOp = s.storeOp := rfl
@[simp] theorem requestPasses_warm (f : Scheme → Bool) :
    (s.requestPasses f).warm = s.warm := rfl
@[simp] theorem requestPasses_meas (f : Scheme → Bool) :
    (s.requestPasses f).meas = s.meas := rfl
@[simp] theorem requestPasses_det (f : Scheme → Bool) :
    (s.requestPasses f).det = s.det := rfl
@[simp] theorem requestPasses_recentRise (f : Scheme → Bool) :
    (s.requestPasses f).recentRise = s.recentRise := rfl
@[simp] theorem requestPasses_points (f : Scheme → Bool) :
    (s.requestPasses f).points = s.points := rfl
@[simp] theorem requestPasses_lateLists (f : Scheme → Bool) :
    (s.requestPasses f).lateLists = s.lateLists := rfl
@[simp] theorem requestPasses_schemes (f : Scheme → Bool) :
    (s.requestPasses f).schemes = mapV (fun sc => if f sc then { sc with pendingPass := true } else sc) s.schemes := rfl
@[simp] theorem requestPasses_engine (f : Scheme → Bool) :
    (s.requestPasses f).engine = s.engine := rfl
@[simp] theorem requestPasses_links (f : Scheme → Bool) :
    (s.requestPasses f).links = s.links := rfl
@[simp] theorem requestPasses_execCount (f : Scheme → Bool) :
    (s.requestPasses f).execCount = s.execCount := rfl
@[simp] theorem requestPasses_ring (f : Scheme → Bool) :
    (s.requestPasses f).ring = s.ring := rfl
@[simp] theorem requestPasses_nextSeq (f : Scheme → Bool) :
    (s.requestPasses f).nextSeq = s.nextSeq := rfl
@[simp] theorem requestPasses_readers (f : Scheme → Bool) :
    (s.requestPasses f).readers = s.readers := rfl
@[simp] theorem requestPasses_parties (f : Scheme → Bool) :
    (s.requestPasses f).parties = s.parties := rfl
@[simp] theorem requestPasses_openCount (f : Scheme → Bool) :
    (s.requestPasses f).openCount = s.openCount := rfl

/-! ### requestForPoint -/

@[simp] theorem requestForPoint_pending (p : PointId) :
    (s.requestForPoint p).pending = s.pending := rfl
@[simp] theorem requestForPoint_inReset (p : PointId) :
    (s.requestForPoint p).inReset = s.inReset := rfl
@[simp] theorem requestForPoint_clock (p : PointId) :
    (s.requestForPoint p).clock = s.clock := rfl
@[simp] theorem requestForPoint_bench (p : PointId) :
    (s.requestForPoint p).bench = s.bench := rfl
@[simp] theorem requestForPoint_store (p : PointId) :
    (s.requestForPoint p).store = s.store := rfl
@[simp] theorem requestForPoint_storeOp (p : PointId) :
    (s.requestForPoint p).storeOp = s.storeOp := rfl
@[simp] theorem requestForPoint_warm (p : PointId) :
    (s.requestForPoint p).warm = s.warm := rfl
@[simp] theorem requestForPoint_meas (p : PointId) :
    (s.requestForPoint p).meas = s.meas := rfl
@[simp] theorem requestForPoint_det (p : PointId) :
    (s.requestForPoint p).det = s.det := rfl
@[simp] theorem requestForPoint_recentRise (p : PointId) :
    (s.requestForPoint p).recentRise = s.recentRise := rfl
@[simp] theorem requestForPoint_points (p : PointId) :
    (s.requestForPoint p).points = s.points := rfl
@[simp] theorem requestForPoint_lateLists (p : PointId) :
    (s.requestForPoint p).lateLists = s.lateLists := rfl
@[simp] theorem requestForPoint_schemes (p : PointId) :
    (s.requestForPoint p).schemes = mapV (fun sc => if sc.lists p then { sc with pendingPass := true } else sc) s.schemes := rfl
@[simp] theorem requestForPoint_engine (p : PointId) :
    (s.requestForPoint p).engine = s.engine := rfl
@[simp] theorem requestForPoint_links (p : PointId) :
    (s.requestForPoint p).links = s.links := rfl
@[simp] theorem requestForPoint_execCount (p : PointId) :
    (s.requestForPoint p).execCount = s.execCount := rfl
@[simp] theorem requestForPoint_ring (p : PointId) :
    (s.requestForPoint p).ring = s.ring := rfl
@[simp] theorem requestForPoint_nextSeq (p : PointId) :
    (s.requestForPoint p).nextSeq = s.nextSeq := rfl
@[simp] theorem requestForPoint_readers (p : PointId) :
    (s.requestForPoint p).readers = s.readers := rfl
@[simp] theorem requestForPoint_parties (p : PointId) :
    (s.requestForPoint p).parties = s.parties := rfl
@[simp] theorem requestForPoint_openCount (p : PointId) :
    (s.requestForPoint p).openCount = s.openCount := rfl

/-! ### requestForSlot -/

@[simp] theorem requestForSlot_pending (m : MeasId) :
    (s.requestForSlot m).pending = s.pending := rfl
@[simp] theorem requestForSlot_inReset (m : MeasId) :
    (s.requestForSlot m).inReset = s.inReset := rfl
@[simp] theorem requestForSlot_clock (m : MeasId) :
    (s.requestForSlot m).clock = s.clock := rfl
@[simp] theorem requestForSlot_bench (m : MeasId) :
    (s.requestForSlot m).bench = s.bench := rfl
@[simp] theorem requestForSlot_store (m : MeasId) :
    (s.requestForSlot m).store = s.store := rfl
@[simp] theorem requestForSlot_storeOp (m : MeasId) :
    (s.requestForSlot m).storeOp = s.storeOp := rfl
@[simp] theorem requestForSlot_warm (m : MeasId) :
    (s.requestForSlot m).warm = s.warm := rfl
@[simp] theorem requestForSlot_meas (m : MeasId) :
    (s.requestForSlot m).meas = s.meas := rfl
@[simp] theorem requestForSlot_det (m : MeasId) :
    (s.requestForSlot m).det = s.det := rfl
@[simp] theorem requestForSlot_recentRise (m : MeasId) :
    (s.requestForSlot m).recentRise = s.recentRise := rfl
@[simp] theorem requestForSlot_points (m : MeasId) :
    (s.requestForSlot m).points = s.points := rfl
@[simp] theorem requestForSlot_lateLists (m : MeasId) :
    (s.requestForSlot m).lateLists = s.lateLists := rfl
@[simp] theorem requestForSlot_schemes (m : MeasId) :
    (s.requestForSlot m).schemes = mapV (fun sc => if sc.dependsOn s.points m then { sc with pendingPass := true } else sc) s.schemes := rfl
@[simp] theorem requestForSlot_engine (m : MeasId) :
    (s.requestForSlot m).engine = s.engine := rfl
@[simp] theorem requestForSlot_links (m : MeasId) :
    (s.requestForSlot m).links = s.links := rfl
@[simp] theorem requestForSlot_execCount (m : MeasId) :
    (s.requestForSlot m).execCount = s.execCount := rfl
@[simp] theorem requestForSlot_ring (m : MeasId) :
    (s.requestForSlot m).ring = s.ring := rfl
@[simp] theorem requestForSlot_nextSeq (m : MeasId) :
    (s.requestForSlot m).nextSeq = s.nextSeq := rfl
@[simp] theorem requestForSlot_readers (m : MeasId) :
    (s.requestForSlot m).readers = s.readers := rfl
@[simp] theorem requestForSlot_parties (m : MeasId) :
    (s.requestForSlot m).parties = s.parties := rfl
@[simp] theorem requestForSlot_openCount (m : MeasId) :
    (s.requestForSlot m).openCount = s.openCount := rfl

/-! ### voidPass -/

@[simp] theorem voidPass_pending (k : SchemeId) :
    (s.voidPass k).pending = s.pending := rfl
@[simp] theorem voidPass_inReset (k : SchemeId) :
    (s.voidPass k).inReset = s.inReset := rfl
@[simp] theorem voidPass_clock (k : SchemeId) :
    (s.voidPass k).clock = s.clock := rfl
@[simp] theorem voidPass_bench (k : SchemeId) :
    (s.voidPass k).bench = s.bench := rfl
@[simp] theorem voidPass_store (k : SchemeId) :
    (s.voidPass k).store = s.store := rfl
@[simp] theorem voidPass_storeOp (k : SchemeId) :
    (s.voidPass k).storeOp = s.storeOp := rfl
@[simp] theorem voidPass_warm (k : SchemeId) :
    (s.voidPass k).warm = s.warm := rfl
@[simp] theorem voidPass_meas (k : SchemeId) :
    (s.voidPass k).meas = s.meas := rfl
@[simp] theorem voidPass_det (k : SchemeId) :
    (s.voidPass k).det = s.det := rfl
@[simp] theorem voidPass_recentRise (k : SchemeId) :
    (s.voidPass k).recentRise = s.recentRise := rfl
@[simp] theorem voidPass_points (k : SchemeId) :
    (s.voidPass k).points = s.points := rfl
@[simp] theorem voidPass_lateLists (k : SchemeId) :
    (s.voidPass k).lateLists = s.lateLists := rfl
@[simp] theorem voidPass_schemes (k : SchemeId) :
    (s.voidPass k).schemes = s.schemes := rfl
@[simp] theorem voidPass_engine (k : SchemeId) :
    (s.voidPass k).engine = s.engine.map (fun x => if x.scheme = k then { x with void := true } else x) := rfl
@[simp] theorem voidPass_links (k : SchemeId) :
    (s.voidPass k).links = s.links := rfl
@[simp] theorem voidPass_execCount (k : SchemeId) :
    (s.voidPass k).execCount = s.execCount := rfl
@[simp] theorem voidPass_ring (k : SchemeId) :
    (s.voidPass k).ring = s.ring := rfl
@[simp] theorem voidPass_nextSeq (k : SchemeId) :
    (s.voidPass k).nextSeq = s.nextSeq := rfl
@[simp] theorem voidPass_readers (k : SchemeId) :
    (s.voidPass k).readers = s.readers := rfl
@[simp] theorem voidPass_parties (k : SchemeId) :
    (s.voidPass k).parties = s.parties := rfl
@[simp] theorem voidPass_openCount (k : SchemeId) :
    (s.voidPass k).openCount = s.openCount := rfl

/-! ### respond -/

@[simp] theorem respond_pending (p : PartyId) (r : Response) :
    (s.respond p r).pending = s.pending := rfl
@[simp] theorem respond_inReset (p : PartyId) (r : Response) :
    (s.respond p r).inReset = s.inReset := rfl
@[simp] theorem respond_clock (p : PartyId) (r : Response) :
    (s.respond p r).clock = s.clock := rfl
@[simp] theorem respond_bench (p : PartyId) (r : Response) :
    (s.respond p r).bench = s.bench := rfl
@[simp] theorem respond_store (p : PartyId) (r : Response) :
    (s.respond p r).store = s.store := rfl
@[simp] theorem respond_storeOp (p : PartyId) (r : Response) :
    (s.respond p r).storeOp = s.storeOp := rfl
@[simp] theorem respond_warm (p : PartyId) (r : Response) :
    (s.respond p r).warm = s.warm := rfl
@[simp] theorem respond_meas (p : PartyId) (r : Response) :
    (s.respond p r).meas = s.meas := rfl
@[simp] theorem respond_det (p : PartyId) (r : Response) :
    (s.respond p r).det = s.det := rfl
@[simp] theorem respond_recentRise (p : PartyId) (r : Response) :
    (s.respond p r).recentRise = s.recentRise := rfl
@[simp] theorem respond_points (p : PartyId) (r : Response) :
    (s.respond p r).points = s.points := rfl
@[simp] theorem respond_lateLists (p : PartyId) (r : Response) :
    (s.respond p r).lateLists = s.lateLists := rfl
@[simp] theorem respond_schemes (p : PartyId) (r : Response) :
    (s.respond p r).schemes = s.schemes := rfl
@[simp] theorem respond_engine (p : PartyId) (r : Response) :
    (s.respond p r).engine = s.engine := rfl
@[simp] theorem respond_links (p : PartyId) (r : Response) :
    (s.respond p r).links = s.links := rfl
@[simp] theorem respond_execCount (p : PartyId) (r : Response) :
    (s.respond p r).execCount = s.execCount := rfl
@[simp] theorem respond_ring (p : PartyId) (r : Response) :
    (s.respond p r).ring = s.ring := rfl
@[simp] theorem respond_nextSeq (p : PartyId) (r : Response) :
    (s.respond p r).nextSeq = s.nextSeq := rfl
@[simp] theorem respond_readers (p : PartyId) (r : Response) :
    (s.respond p r).readers = s.readers := rfl
@[simp] theorem respond_parties (p : PartyId) (r : Response) :
    (s.respond p r).parties = modV s.parties p (fun q => { q with exchange := .responseWaiting, waiting := some r, ready := true }) := rfl
@[simp] theorem respond_openCount (p : PartyId) (r : Response) :
    (s.respond p r).openCount = s.openCount := rfl

/-! ### markOverrun -/

@[simp] theorem markOverrun_pending (p : PartyId) :
    (s.markOverrun p).pending = s.pending := rfl
@[simp] theorem markOverrun_inReset (p : PartyId) :
    (s.markOverrun p).inReset = s.inReset := rfl
@[simp] theorem markOverrun_clock (p : PartyId) :
    (s.markOverrun p).clock = s.clock := rfl
@[simp] theorem markOverrun_bench (p : PartyId) :
    (s.markOverrun p).bench = s.bench := rfl
@[simp] theorem markOverrun_store (p : PartyId) :
    (s.markOverrun p).store = s.store := rfl
@[simp] theorem markOverrun_storeOp (p : PartyId) :
    (s.markOverrun p).storeOp = s.storeOp := rfl
@[simp] theorem markOverrun_warm (p : PartyId) :
    (s.markOverrun p).warm = s.warm := rfl
@[simp] theorem markOverrun_meas (p : PartyId) :
    (s.markOverrun p).meas = s.meas := rfl
@[simp] theorem markOverrun_det (p : PartyId) :
    (s.markOverrun p).det = s.det := rfl
@[simp] theorem markOverrun_recentRise (p : PartyId) :
    (s.markOverrun p).recentRise = s.recentRise := rfl
@[simp] theorem markOverrun_points (p : PartyId) :
    (s.markOverrun p).points = s.points := rfl
@[simp] theorem markOverrun_lateLists (p : PartyId) :
    (s.markOverrun p).lateLists = s.lateLists := rfl
@[simp] theorem markOverrun_schemes (p : PartyId) :
    (s.markOverrun p).schemes = s.schemes := rfl
@[simp] theorem markOverrun_engine (p : PartyId) :
    (s.markOverrun p).engine = s.engine := rfl
@[simp] theorem markOverrun_links (p : PartyId) :
    (s.markOverrun p).links = s.links := rfl
@[simp] theorem markOverrun_execCount (p : PartyId) :
    (s.markOverrun p).execCount = s.execCount := rfl
@[simp] theorem markOverrun_ring (p : PartyId) :
    (s.markOverrun p).ring = s.ring := rfl
@[simp] theorem markOverrun_nextSeq (p : PartyId) :
    (s.markOverrun p).nextSeq = s.nextSeq := rfl
@[simp] theorem markOverrun_readers (p : PartyId) :
    (s.markOverrun p).readers = s.readers := rfl
@[simp] theorem markOverrun_parties (p : PartyId) :
    (s.markOverrun p).parties = modV s.parties p (fun q => { q with overrun := true }) := rfl
@[simp] theorem markOverrun_openCount (p : PartyId) :
    (s.markOverrun p).openCount = s.openCount := rfl

/-! ### setSelect -/

@[simp] theorem setSelect_pending (p : PartyId) (x : Select) :
    (s.setSelect p x).pending = s.pending := rfl
@[simp] theorem setSelect_inReset (p : PartyId) (x : Select) :
    (s.setSelect p x).inReset = s.inReset := rfl
@[simp] theorem setSelect_clock (p : PartyId) (x : Select) :
    (s.setSelect p x).clock = s.clock := rfl
@[simp] theorem setSelect_bench (p : PartyId) (x : Select) :
    (s.setSelect p x).bench = s.bench := rfl
@[simp] theorem setSelect_store (p : PartyId) (x : Select) :
    (s.setSelect p x).store = s.store := rfl
@[simp] theorem setSelect_storeOp (p : PartyId) (x : Select) :
    (s.setSelect p x).storeOp = s.storeOp := rfl
@[simp] theorem setSelect_warm (p : PartyId) (x : Select) :
    (s.setSelect p x).warm = s.warm := rfl
@[simp] theorem setSelect_meas (p : PartyId) (x : Select) :
    (s.setSelect p x).meas = s.meas := rfl
@[simp] theorem setSelect_det (p : PartyId) (x : Select) :
    (s.setSelect p x).det = s.det := rfl
@[simp] theorem setSelect_recentRise (p : PartyId) (x : Select) :
    (s.setSelect p x).recentRise = s.recentRise := rfl
@[simp] theorem setSelect_points (p : PartyId) (x : Select) :
    (s.setSelect p x).points = s.points := rfl
@[simp] theorem setSelect_lateLists (p : PartyId) (x : Select) :
    (s.setSelect p x).lateLists = s.lateLists := rfl
@[simp] theorem setSelect_schemes (p : PartyId) (x : Select) :
    (s.setSelect p x).schemes = s.schemes := rfl
@[simp] theorem setSelect_engine (p : PartyId) (x : Select) :
    (s.setSelect p x).engine = s.engine := rfl
@[simp] theorem setSelect_links (p : PartyId) (x : Select) :
    (s.setSelect p x).links = s.links := rfl
@[simp] theorem setSelect_execCount (p : PartyId) (x : Select) :
    (s.setSelect p x).execCount = s.execCount := rfl
@[simp] theorem setSelect_ring (p : PartyId) (x : Select) :
    (s.setSelect p x).ring = s.ring := rfl
@[simp] theorem setSelect_nextSeq (p : PartyId) (x : Select) :
    (s.setSelect p x).nextSeq = s.nextSeq := rfl
@[simp] theorem setSelect_readers (p : PartyId) (x : Select) :
    (s.setSelect p x).readers = s.readers := rfl
@[simp] theorem setSelect_openCount (p : PartyId) (x : Select) :
    (s.setSelect p x).openCount = s.openCount := rfl
@[simp] theorem setSelect_parties (p : PartyId) (x : Select) :
    (s.setSelect p x).parties = modV s.parties p (fun q => { q with select := x }) := rfl

/-! ### drive -/

@[simp] theorem drive_pending (p : PartyId) (n : Nat) :
    (s.drive p n).pending = s.pending := rfl
@[simp] theorem drive_inReset (p : PartyId) (n : Nat) :
    (s.drive p n).inReset = s.inReset := rfl
@[simp] theorem drive_clock (p : PartyId) (n : Nat) :
    (s.drive p n).clock = s.clock := rfl
@[simp] theorem drive_bench (p : PartyId) (n : Nat) :
    (s.drive p n).bench = s.bench := rfl
@[simp] theorem drive_store (p : PartyId) (n : Nat) :
    (s.drive p n).store = s.store := rfl
@[simp] theorem drive_storeOp (p : PartyId) (n : Nat) :
    (s.drive p n).storeOp = s.storeOp := rfl
@[simp] theorem drive_warm (p : PartyId) (n : Nat) :
    (s.drive p n).warm = s.warm := rfl
@[simp] theorem drive_meas (p : PartyId) (n : Nat) :
    (s.drive p n).meas = s.meas := rfl
@[simp] theorem drive_det (p : PartyId) (n : Nat) :
    (s.drive p n).det = s.det := rfl
@[simp] theorem drive_recentRise (p : PartyId) (n : Nat) :
    (s.drive p n).recentRise = s.recentRise := rfl
@[simp] theorem drive_points (p : PartyId) (n : Nat) :
    (s.drive p n).points = s.points := rfl
@[simp] theorem drive_lateLists (p : PartyId) (n : Nat) :
    (s.drive p n).lateLists = s.lateLists := rfl
@[simp] theorem drive_schemes (p : PartyId) (n : Nat) :
    (s.drive p n).schemes = s.schemes := rfl
@[simp] theorem drive_engine (p : PartyId) (n : Nat) :
    (s.drive p n).engine = s.engine := rfl
@[simp] theorem drive_links (p : PartyId) (n : Nat) :
    (s.drive p n).links = s.links := rfl
@[simp] theorem drive_execCount (p : PartyId) (n : Nat) :
    (s.drive p n).execCount = s.execCount := rfl
@[simp] theorem drive_ring (p : PartyId) (n : Nat) :
    (s.drive p n).ring = s.ring := rfl
@[simp] theorem drive_nextSeq (p : PartyId) (n : Nat) :
    (s.drive p n).nextSeq = s.nextSeq := rfl
@[simp] theorem drive_readers (p : PartyId) (n : Nat) :
    (s.drive p n).readers = s.readers := rfl
@[simp] theorem drive_openCount (p : PartyId) (n : Nat) :
    (s.drive p n).openCount = s.openCount := rfl
@[simp] theorem drive_parties (p : PartyId) (n : Nat) :
    (s.drive p n).parties = modV s.parties p (fun q => { q with select := .reading n, shiftedOut := q.driven n }) := rfl

/-! ### endPeriod -/

@[simp] theorem endPeriod_pending (p : PartyId) :
    (s.endPeriod p).pending = s.pending := rfl
@[simp] theorem endPeriod_inReset (p : PartyId) :
    (s.endPeriod p).inReset = s.inReset := rfl
@[simp] theorem endPeriod_clock (p : PartyId) :
    (s.endPeriod p).clock = s.clock := rfl
@[simp] theorem endPeriod_bench (p : PartyId) :
    (s.endPeriod p).bench = s.bench := rfl
@[simp] theorem endPeriod_store (p : PartyId) :
    (s.endPeriod p).store = s.store := rfl
@[simp] theorem endPeriod_storeOp (p : PartyId) :
    (s.endPeriod p).storeOp = s.storeOp := rfl
@[simp] theorem endPeriod_warm (p : PartyId) :
    (s.endPeriod p).warm = s.warm := rfl
@[simp] theorem endPeriod_meas (p : PartyId) :
    (s.endPeriod p).meas = s.meas := rfl
@[simp] theorem endPeriod_det (p : PartyId) :
    (s.endPeriod p).det = s.det := rfl
@[simp] theorem endPeriod_recentRise (p : PartyId) :
    (s.endPeriod p).recentRise = s.recentRise := rfl
@[simp] theorem endPeriod_points (p : PartyId) :
    (s.endPeriod p).points = s.points := rfl
@[simp] theorem endPeriod_lateLists (p : PartyId) :
    (s.endPeriod p).lateLists = s.lateLists := rfl
@[simp] theorem endPeriod_schemes (p : PartyId) :
    (s.endPeriod p).schemes = s.schemes := rfl
@[simp] theorem endPeriod_engine (p : PartyId) :
    (s.endPeriod p).engine = s.engine := rfl
@[simp] theorem endPeriod_links (p : PartyId) :
    (s.endPeriod p).links = s.links := rfl
@[simp] theorem endPeriod_execCount (p : PartyId) :
    (s.endPeriod p).execCount = s.execCount := rfl
@[simp] theorem endPeriod_ring (p : PartyId) :
    (s.endPeriod p).ring = s.ring := rfl
@[simp] theorem endPeriod_nextSeq (p : PartyId) :
    (s.endPeriod p).nextSeq = s.nextSeq := rfl
@[simp] theorem endPeriod_readers (p : PartyId) :
    (s.endPeriod p).readers = s.readers := rfl
@[simp] theorem endPeriod_openCount (p : PartyId) :
    (s.endPeriod p).openCount = s.openCount := rfl
@[simp] theorem endPeriod_parties (p : PartyId) :
    (s.endPeriod p).parties = modV s.parties p PartyLink.endPeriod := rfl

/-- No period is under way on a link after one has ended. -/
@[simp] theorem partyEndPeriod_select (q : PartyLink) : q.endPeriod.select = .inactive := by
  simp only [PartyLink.endPeriod, PartyLink.endRead]
  repeat' split
  all_goals first
    | rfl
    | assumption

/-- On a link whose select line is inactive no period ends. -/
theorem endPeriod_inactive (s : State) (p : PartyId) (h : (s.parties[p]).select = .inactive) : s.endPeriod p = s := by
  unfold State.endPeriod State.modParty
  rw [modV_self]
  simp only [PartyLink.endPeriod, h]

@[simp] theorem endPeriod_endPeriod (s : State) (p : PartyId) : (s.endPeriod p).endPeriod p = s.endPeriod p :=
  endPeriod_inactive _ _ (by simp)

/-! ### append -/

@[simp] theorem append_pending (kind : EventKind) (sch : Option SchemeId) (pt : Option PointId) (pa : Option PartyId) (de : Option Int) :
    (s.append kind sch pt pa de).pending = s.pending := rfl
@[simp] theorem append_inReset (kind : EventKind) (sch : Option SchemeId) (pt : Option PointId) (pa : Option PartyId) (de : Option Int) :
    (s.append kind sch pt pa de).inReset = s.inReset := rfl
@[simp] theorem append_clock (kind : EventKind) (sch : Option SchemeId) (pt : Option PointId) (pa : Option PartyId) (de : Option Int) :
    (s.append kind sch pt pa de).clock = s.clock := rfl
@[simp] theorem append_bench (kind : EventKind) (sch : Option SchemeId) (pt : Option PointId) (pa : Option PartyId) (de : Option Int) :
    (s.append kind sch pt pa de).bench = s.bench := rfl
@[simp] theorem append_store (kind : EventKind) (sch : Option SchemeId) (pt : Option PointId) (pa : Option PartyId) (de : Option Int) :
    (s.append kind sch pt pa de).store = s.store := rfl
@[simp] theorem append_storeOp (kind : EventKind) (sch : Option SchemeId) (pt : Option PointId) (pa : Option PartyId) (de : Option Int) :
    (s.append kind sch pt pa de).storeOp = s.storeOp := rfl
@[simp] theorem append_warm (kind : EventKind) (sch : Option SchemeId) (pt : Option PointId) (pa : Option PartyId) (de : Option Int) :
    (s.append kind sch pt pa de).warm = s.warm := rfl
@[simp] theorem append_meas (kind : EventKind) (sch : Option SchemeId) (pt : Option PointId) (pa : Option PartyId) (de : Option Int) :
    (s.append kind sch pt pa de).meas = s.meas := rfl
@[simp] theorem append_det (kind : EventKind) (sch : Option SchemeId) (pt : Option PointId) (pa : Option PartyId) (de : Option Int) :
    (s.append kind sch pt pa de).det = s.det := rfl
@[simp] theorem append_recentRise (kind : EventKind) (sch : Option SchemeId) (pt : Option PointId) (pa : Option PartyId) (de : Option Int) :
    (s.append kind sch pt pa de).recentRise = s.recentRise := rfl
@[simp] theorem append_points (kind : EventKind) (sch : Option SchemeId) (pt : Option PointId) (pa : Option PartyId) (de : Option Int) :
    (s.append kind sch pt pa de).points = s.points := rfl
@[simp] theorem append_lateLists (kind : EventKind) (sch : Option SchemeId) (pt : Option PointId) (pa : Option PartyId) (de : Option Int) :
    (s.append kind sch pt pa de).lateLists = s.lateLists := rfl
@[simp] theorem append_schemes (kind : EventKind) (sch : Option SchemeId) (pt : Option PointId) (pa : Option PartyId) (de : Option Int) :
    (s.append kind sch pt pa de).schemes = s.schemes := rfl
@[simp] theorem append_engine (kind : EventKind) (sch : Option SchemeId) (pt : Option PointId) (pa : Option PartyId) (de : Option Int) :
    (s.append kind sch pt pa de).engine = s.engine := rfl
@[simp] theorem append_links (kind : EventKind) (sch : Option SchemeId) (pt : Option PointId) (pa : Option PartyId) (de : Option Int) :
    (s.append kind sch pt pa de).links = s.links := rfl
@[simp] theorem append_execCount (kind : EventKind) (sch : Option SchemeId) (pt : Option PointId) (pa : Option PartyId) (de : Option Int) :
    (s.append kind sch pt pa de).execCount = s.execCount := rfl
@[simp] theorem append_nextSeq (kind : EventKind) (sch : Option SchemeId) (pt : Option PointId) (pa : Option PartyId) (de : Option Int) :
    (s.append kind sch pt pa de).nextSeq = s.nextSeq + 1 := rfl
@[simp] theorem append_parties (kind : EventKind) (sch : Option SchemeId) (pt : Option PointId) (pa : Option PartyId) (de : Option Int) :
    (s.append kind sch pt pa de).parties = s.parties := rfl
@[simp] theorem append_openCount (kind : EventKind) (sch : Option SchemeId) (pt : Option PointId) (pa : Option PartyId) (de : Option Int) :
    (s.append kind sch pt pa de).openCount = s.openCount := rfl

/-! ### dropLatch: beside the latch it touches the event record alone -/

@[simp] theorem dropLatch_pending (k : SchemeId) : (s.dropLatch k).pending = s.pending := by
  unfold dropLatch; split <;> rfl
@[simp] theorem dropLatch_inReset (k : SchemeId) : (s.dropLatch k).inReset = s.inReset := by
  unfold dropLatch; split <;> rfl
@[simp] theorem dropLatch_clock (k : SchemeId) : (s.dropLatch k).clock = s.clock := by
  unfold dropLatch; split <;> rfl
@[simp] theorem dropLatch_bench (k : SchemeId) : (s.dropLatch k).bench = s.bench := by
  unfold dropLatch; split <;> rfl
@[simp] theorem dropLatch_store (k : SchemeId) : (s.dropLatch k).store = s.store := by
  unfold dropLatch; split <;> rfl
@[simp] theorem dropLatch_storeOp (k : SchemeId) : (s.dropLatch k).storeOp = s.storeOp := by
  unfold dropLatch; split <;> rfl
@[simp] theorem dropLatch_warm (k : SchemeId) : (s.dropLatch k).warm = s.warm := by
  unfold dropLatch; split <;> rfl
@[simp] theorem dropLatch_meas (k : SchemeId) : (s.dropLatch k).meas = s.meas := by
  unfold dropLatch; split <;> rfl
@[simp] theorem dropLatch_det (k : SchemeId) : (s.dropLatch k).det = s.det := by
  unfold dropLatch; split <;> rfl
@[simp] theorem dropLatch_recentRise (k : SchemeId) : (s.dropLatch k).recentRise = s.recentRise := by
  unfold dropLatch; split <;> rfl
@[simp] theorem dropLatch_points (k : SchemeId) : (s.dropLatch k).points = s.points := by
  unfold dropLatch; split <;> rfl
@[simp] theorem dropLatch_lateLists (k : SchemeId) : (s.dropLatch k).lateLists = s.lateLists := by
  unfold dropLatch; split <;> rfl
@[simp] theorem dropLatch_engine (k : SchemeId) : (s.dropLatch k).engine = s.engine := by
  unfold dropLatch; split <;> rfl
@[simp] theorem dropLatch_links (k : SchemeId) : (s.dropLatch k).links = s.links := by
  unfold dropLatch; split <;> rfl
@[simp] theorem dropLatch_execCount (k : SchemeId) : (s.dropLatch k).execCount = s.execCount := by
  unfold dropLatch; split <;> rfl
@[simp] theorem dropLatch_parties (k : SchemeId) : (s.dropLatch k).parties = s.parties := by
  unfold dropLatch; split <;> rfl
@[simp] theorem dropLatch_openCount (k : SchemeId) : (s.dropLatch k).openCount = s.openCount := by
  unfold dropLatch; split <;> rfl

/-- Dropping the latch of scheme `k` clears it, and changes no other entry. -/
@[simp] theorem dropLatch_schemes (k : SchemeId) :
    (s.dropLatch k).schemes = modV s.schemes k (fun sc => { sc with latch := none }) := by
  unfold dropLatch
  split
  · rfl
  · next h => rw [modV_self]; rw [← h]

end State

end Sys2Proof.Machine
end

