-- ==== Sys2Proof/Laws/Arming.lean ====
section
/-! SUPPORT. The ranges of the arming arithmetic (R87 to R94) and what the selection walk,
    the installation check and a block leave of a record (R99 to R103, R109, R33). -/

namespace Sys2Proof.Machine

/-- R92: A0 on a segment is at most the greater of its two ends. -/
theorem segmentStep_le {q x x' : Int} {y y' : Nat} (h1 : x ≤ q) (h2 : q < x') :
    ((y : Int) + segmentStep ((q - x) * ((y' : Int) - (y : Int))) (x' - x)).toNat ≤ max y y' := by
  have hd : 0 < x' - x := by omega
  unfold segmentStep
  split
  · next hn =>
    by_cases e : (y : Int) ≤ y'
    · have : ((q - x) * ((y' : Int) - y) + (x' - x) - 1) / (x' - x) ≤ (y' : Int) - y := by
        apply Int.le_of_lt_add_one
        apply Int.ediv_lt_of_lt_mul hd
        have : (q - x) * ((y' : Int) - y) ≤ (x' - x) * ((y' : Int) - y) := by
          apply mul_le_mul_of_nonneg_right <;> omega
        nlinarith
      omega
    · have : (q - x) * ((y' : Int) - y) ≤ 0 := by
        apply mul_nonpos_of_nonneg_of_nonpos <;> omega
      have h0 : (q - x) * ((y' : Int) - y) = 0 := by omega
      rw [h0]
      have : (0 + (x' - x) - 1) / (x' - x) = 0 := by
        apply Int.ediv_eq_zero_of_lt <;> omega
      rw [this]
      omega
  · next hn =>
    have : 0 ≤ -((q - x) * ((y' : Int) - y)) / (x' - x) := Int.ediv_nonneg (by omega) (by omega)
    omega

/-- A0 on a curve of R44, from a breakpoint on. -/
theorem curveFrom_le {q : Int} : ∀ {cs : List (Int × Nat)} {c : Int × Nat}, c.1 ≤ q → c.2 ≤ 30000 → (∀ e ∈ cs,
    e.2 ≤ 30000) →
    curveFrom q c cs ≤ 30000 := by
  intro cs
  induction cs with
  | nil => intro c _ h _; obtain ⟨x, y⟩ := c; simpa [curveFrom] using h
  | cons e cs ih =>
    intro c h1 h2 h3
    obtain ⟨x, y⟩ := c
    obtain ⟨x', y'⟩ := e
    rw [curveFrom]
    have h4 : y' ≤ 30000 := h3 (x', y') (by simp)
    dsimp only at h1 h2
    split
    · have := segmentStep_le (y := y) (y' := y') h1 (by assumption)
      omega
    · exact ih (by dsimp only; omega) h4 (fun e he => h3 e (by simp [he]))

/-- A0 on a curve of R44. -/
theorem curveAt_le {q : Int} {cs : List (Int × Nat)} (h : ∀ e ∈ cs, e.2 ≤ 30000) : curveAt cs q ≤ 30000 := by
  unfold curveAt
  split
  · omega
  · next x y rest =>
    split
    · exact h (x, y) (by simp)
    · exact curveFrom_le (by dsimp only; omega) (h (x, y) (by simp)) (fun e he => h e (by simp [he]))

/-- A0 under ARM_FULL on a curve of R44. -/
theorem largestY_le {cs : List (Int × Nat)} (h : ∀ e ∈ cs, e.2 ≤ 30000) : largestY cs ≤ 30000 := by
  unfold largestY
  have : ∀ (l : List Nat) (a : Nat), a ≤ 30000 → (∀ e ∈ l, e ≤ 30000) → l.foldl max a ≤ 30000 := by
    intro l
    induction l with
    | nil => intro a h _; exact h
    | cons b l ih => intro a ha hl; exact ih _ (by have := hl b (by simp); omega) (fun e he => hl e (by simp [he]))
  apply this _ _ (by omega)
  intro e he
  rw [List.mem_map] at he
  obtain ⟨c, hc, rfl⟩ := he
  exact h c hc

/-- The figures of lawful inputs are in their ranges. -/
theorem PassInputs.figures_lawful {x : PassInputs} (h : x.Lawful) : x.figures.Lawful := by
  have h1 := largestY_le h.curve
  have h2 : ∀ q, curveAt x.curve q ≤ 30000 := fun q => curveAt_le h.curve
  have hm := h.margin
  have ho := h.overshoot
  unfold PassInputs.figures requiredAmount
  dsimp only
  split
  · refine ⟨nofun, h1, ?_, ?_⟩ <;> dsimp only <;> split <;> omega
  · refine ⟨?_, h2 _, ?_, ?_⟩
    · intro q hq
      cases hq
      unfold clampIndex
      split
      · omega
      · split <;> omega
    all_goals
      have := h2 (clampIndex (roundedIndex (indexSum x.terms)))
      dsimp only
      split <;> omega

/-- A walk that has come to the candidates `cs`. -/
structure WalkLawful (f : Figures) (w : Walk) (cs : List CandidateCopy) : Prop where
  points : (w.selected.map Prod.fst ++ cs.map CandidateCopy.point).Nodup
  count : w.selected.length + cs.length ≤ 16
  total : w.total = (w.selected.map Prod.snd).sum
  cap : w.total ≤ f.cap
  nil : f.a = 0 → w.selected = []

/-- A walk that stops is lawful. -/
theorem WalkLawful_stop {f w cs} (h : WalkLawful f w cs) : WalkLawful f { w with remaining := [] } [] :=
  ⟨by simpa using (List.nodup_append.mp h.points).1, by have := h.count; simp; omega, h.total, h.cap, h.nil⟩

/-- Judging one candidate keeps it so. -/
theorem WalkLawful_judgeCandidate {s : State} {f w c cs} (h : WalkLawful f w (c :: cs)) (ha : ¬ f.a ≤ w.total) :
    WalkLawful f (s.judgeCandidate f.cap w c) cs := by
  have hskip : ∀ l, WalkLawful f { w with skipped := l } cs := by
    intro l
    refine ⟨?_, ?_, h.total, h.cap, h.nil⟩
    · have := h.points
      simp only [List.map_cons] at this
      exact this.sublist (List.Sublist.append_left (List.sublist_cons_self _ _) _)
    · have := h.count; simp at this ⊢; omega
  unfold State.judgeCandidate
  split
  · exact hskip _
  · split
    · exact hskip _
    · split
      · exact hskip _
      · split
        · exact hskip _
        · next hc =>
          refine ⟨?_, ?_, ?_, by dsimp only; omega, ?_⟩
          · have := h.points
            simpa using this
          · have := h.count; simp at this ⊢; omega
          · have := h.total
            simp; omega
          · intro h0; omega

/-- Going on with the walk keeps it so. -/
theorem WalkLawful_walkOn {s : State} {f : Figures} : ∀ {cs : List CandidateCopy} {n : Nat} {w : Walk},
    WalkLawful f w cs →
    WalkLawful f (s.walkOn f cs n w) (s.walkOn f cs n w).remaining := by
  intro cs
  induction cs with
  | nil => intro n w h; rw [State.walkOn]; exact WalkLawful_stop h
  | cons c cs ih =>
    intro n w h
    cases n with
    | zero =>
      rw [State.walkOn]
      split
      · exact WalkLawful_stop h
      · exact ⟨h.points, h.count, h.total, h.cap, h.nil⟩
    | succ n =>
      rw [State.walkOn]
      split
      · exact WalkLawful_stop h
      · next ha => exact ih (WalkLawful_judgeCandidate h ha)

/-- The walk of a lawful pass. -/
theorem Pass.walk_lawful {x : Pass} (h : x.Lawful) : WalkLawful x.inputs.figures x.walk x.walk.remaining :=
  ⟨h.points, h.count, h.total, h.cap, h.nil⟩

/-- The installation check only removes entries. -/
theorem checkSelected_sublist (s : State) : ∀ es : List (PointId × Nat), ((s.checkSelected es).1).Sublist es := by
  intro es
  induction es with
  | nil => exact List.Sublist.refl _
  | cons e es ih =>
    rw [State.checkSelected]
    split
    · exact ih.cons_cons _
    · exact ih.cons _

/-- A checked record is lawful. -/
theorem checkedRecord_lawful {s : State} {f : Figures} {w : Walk} {cs} (hf : f.Lawful) (h : WalkLawful f w cs) :
    (s.checkedRecord f w).Lawful := by
  have hs := checkSelected_sublist s w.selected
  unfold State.checkedRecord
  have hsum := List.Sublist.sum_le_sum (hs.map Prod.snd) (by simp)
  refine ⟨hf, ?_, ?_, rfl, ?_, rfl, ?_⟩
  · exact (List.nodup_append.mp h.points).1.sublist (hs.map Prod.fst)
  · have := hs.length_le
    have := h.count
    show (s.checkSelected w.selected).1.length ≤ 16
    omega
  · have := h.cap
    have := h.total
    show ((s.checkSelected w.selected).1.map Prod.snd).sum ≤ f.cap
    omega
  · intro h0
    have := h.nil h0
    show (s.checkSelected w.selected).1 = []
    rw [this]; rfl

/-- The credited values of a point and of the others. -/
theorem sum_filter_point (p : PointId) : ∀ l : List (PointId × Nat),
    (l.map Prod.snd).sum = ((l.filter (fun e => e.1 ≠ p)).map Prod.snd).sum + ((l.filter (fun e =>
        e.1 = p)).map Prod.snd).sum := by
  intro l
  induction l with
  | nil => rfl
  | cons e l ih =>
    by_cases h : e.1 = p <;> simp [h] at ih ⊢ <;> omega

/-- A record edited by an immediate block is lawful. -/
theorem ArmingRecord.without_lawful {r : ArmingRecord} {p : PointId} (h : r.Lawful) (hh : r.holds p = true) :
    (r.without p).Lawful := by
  have ha : r.figures.a ≠ 0 := by
    intro h0
    have := h.nil h0
    simp [ArmingRecord.holds, this] at hh
  unfold ArmingRecord.without
  have hsum := sum_filter_point p r.selected
  have ht := h.total
  refine ⟨h.figures, ?_, ?_, ?_, ?_, ?_, fun h0 => absurd h0 ha⟩
  · exact h.points.sublist (List.filter_sublist.map Prod.fst)
  · have := h.count
    have := (List.filter_sublist (p := fun (e : PointId × Nat) => decide (e.1 ≠ p)) (l := r.selected)).length_le
    exact Nat.le_trans this h.count
  · dsimp only
    omega
  · have := h.cap
    dsimp only; omega
  · dsimp only
    unfold judgeAdequacy
    rw [if_neg ha]
    split <;> rfl

/-- A pass that begins is lawful. -/
theorem State.newPass_lawful {s : State} {k : SchemeId} {d : SchemeDef} (h : d.Lawful) : (s.newPass k d).Lawful := by
  have hp : (s.copyInputs d).candidates.map CandidateCopy.point = d.candidates := by
    unfold State.copyInputs
    rw [List.map_map]
    conv_rhs => rw [← List.map_id d.candidates]
    apply List.map_congr_left
    intro p _
    simp only [Function.comp_apply]
    split <;> rfl
  have hc := h.curve.2.2
  unfold curveValid at hc
  simp only [Bool.and_eq_true, List.all_eq_true, decide_eq_true_eq] at hc
  have hl : (s.copyInputs d).candidates.length ≤ 16 := by
    have := congrArg List.length hp
    have h2 := h.candidates.1
    simp at this; omega
  have hi : (s.copyInputs d).Lawful := by
    refine ⟨fun c hc2 => (hc.1.1.1 c hc2).2.2, hc.1.1.2, hc.1.2, hc.2, hl, ?_⟩
    · rw [hp]; exact h.candidates.2
  refine ⟨hi, ?_, ?_, rfl, Nat.zero_le _, fun _ => rfl⟩
  · simp only [State.newPass, PassInputs.startWalk, List.map_nil, List.nil_append, hp]; exact h.candidates.2
  · simp only [State.newPass, PassInputs.startWalk, List.length_nil, Nat.zero_add]; exact hl


/-- A scheme entry with lawful records. -/
def RecordsLawful (sc : Scheme) : Prop := (∀ r, sc.live = some r → r.Lawful) ∧ (∀ r, sc.record = some r →
    r.snapshot.Lawful)

/-- The arming law from its parts. -/
theorem ArmingLaw_of {t : State} (hd : t.DefinitionLaw) (h : ∀ k : SchemeId, RecordsLawful t.schemes[k]) (he : ∀ x,
    t.engine = some x → x.Lawful) :
    t.ArmingLaw := ⟨hd, fun k => (h k).1, fun k => (h k).2, he⟩

/-- A change of one entry. -/
theorem RecordsLawful_modScheme {s : State} {k : SchemeId} {f : Scheme → Scheme} (hs : ∀ k : SchemeId,
    RecordsLawful s.schemes[k]) (hf : RecordsLawful s.schemes[k] → RecordsLawful (f s.schemes[k])) :
    ∀ i : SchemeId, RecordsLawful (s.modScheme k f).schemes[i] := by
  intro i
  have : (s.modScheme k f).schemes[i] = if k = i then f s.schemes[i] else s.schemes[i] := by
    simp only [State.modScheme, Fin.getElem_fin, getElem_modV, Fin.ext_iff]
  rw [this]
  split
  · next e => subst e; exact hf (hs k)
  · exact hs i

/-- Voiding keeps the pass lawful. -/
theorem Pass.lawful_voidPass {s : State} {k} (he : ∀ x, s.engine = some x → x.Lawful) : ∀ x,
    (s.voidPass k).engine = some x → x.Lawful := by
  intro x hx
  unfold State.voidPass at hx
  cases h : s.engine with
  | none => rw [h] at hx; cases hx
  | some y =>
    rw [h] at hx
    simp only [Option.map_some, Option.some.injEq] at hx
    have := he y h
    split at hx
    · subst hx; exact ⟨this.inputs, this.points, this.count, this.total, this.cap, this.nil⟩
    · subst hx; exact this

end Sys2Proof.Machine
end

