-- ==== Sys2Proof/Laws/Definitions.lean ====
section
/-! SUPPORT. What the checks of R42 to R46 leave of a definition, whether it is written (R49) or loaded (R55). -/

namespace Sys2Proof.Machine

/-- An object number is the number it is read from. -/
theorem finOf_eq {n x : Nat} {y : Fin n} (h : finOf n x = some y) : y.val = x := by
  unfold finOf at h; split at h
  · cases h; rfl
  · cases h

/-- A list of object numbers is the list it is read from. -/
theorem mapM_finOf {n : Nat} : ∀ {xs : List Nat} {ys : List (Fin n)}, xs.mapM (finOf n) = some ys →
    ys.map Fin.val = xs := by
  intro xs
  induction xs with
  | nil => intro ys h; simp at h; subst h; rfl
  | cons x xs ih =>
    intro ys h
    simp only [List.mapM_cons, Option.bind_eq_bind, Option.bind_eq_some_iff, Option.pure_def, Option.some.injEq] at h
    obtain ⟨a, ha, b, hb, rfl⟩ := h
    simp [ih hb, finOf_eq ha]

/-- A candidate list that R45 takes. -/
theorem candidatesOf_ok {xs : List Nat} {ps} (h : candidatesOf xs = some ps) : ps.length ≤ 16 ∧ ps.Nodup := by
  unfold candidatesOf at h; split at h
  · next hx =>
    have := mapM_finOf h
    have h2 : xs.Nodup := hx.2
    constructor
    · have := congrArg List.length this; simp at this; omega
    · rw [← this] at h2; exact h2.of_map
  · cases h

/-- A source list that R46 takes. -/
theorem sourcesOf_ok {xs : List Nat} {ps} (h : sourcesOf xs = some ps) : ps.length ≤ 6 ∧ ps.Nodup := by
  unfold sourcesOf at h; split at h
  · next hx =>
    have := mapM_finOf h
    have h2 : xs.Nodup := hx.2
    constructor
    · have := congrArg List.length this; simp at this; omega
    · rw [← this] at h2; exact h2.of_map
  · cases h

/-- A list of terms is the list it is read from. -/
theorem mapM_terms : ∀ {xs : List (Nat × Int)} {ys : List (MeasId × Int)},
    xs.mapM (fun t => (finOf 256 t.1).map (fun m => (m, t.2))) = some ys → ys.map (fun t => (t.1.val, t.2)) = xs := by
  intro xs
  induction xs with
  | nil => intro ys h; simp at h; subst h; rfl
  | cons x xs ih =>
    intro ys h
    simp only [List.mapM_cons, Option.bind_eq_bind, Option.bind_eq_some_iff, Option.pure_def, Option.some.injEq,
        Option.map_eq_some_iff] at h
    obtain ⟨a, ⟨m, ha, rfl⟩, b, hb, rfl⟩ := h
    simp [ih hb, finOf_eq ha]

/-- A terms list that R43 takes, but for its count. -/
theorem termsOf_ok {xs} {ts} (h : termsOf xs = some ts) : (ts.map Prod.fst).Nodup ∧ ∀ t ∈ ts, -1024 ≤ t.2 ∧
    t.2 ≤ 1024 := by
  unfold termsOf at h; split at h
  · next hx =>
    have h1 := mapM_terms h
    obtain ⟨h2, h3⟩ := hx
    constructor
    · rw [← h1] at h2
      rw [List.map_map] at h2
      have : (Prod.fst ∘ fun (t : MeasId × Int) => (t.1.val, t.2)) = Fin.val ∘ Prod.fst := rfl
      rw [this, ← List.map_map] at h2
      exact h2.of_map
    · intro t ht
      rw [← h1] at h3
      rw [List.all_eq_true] at h3
      simpa using h3 _ (List.mem_map_of_mem ht)
  · cases h

/-- Header fields that R42 takes. -/
theorem headerFields_ok {l o a f h} (hh : headerFields l o a f = some h) :
    (h.label.length = 8 ∧ h.label.all printable = true) ∧ h.authority.getLsbD h.owner.val = true := by
  unfold headerFields at hh
  split at hh
  · next o ho =>
    split at hh
    · next hx =>
      cases hh
      refine ⟨⟨hx.1, hx.2.1⟩, ?_⟩
      simp [hx.2.2.2.1]
    · cases hh
  · cases hh

/-- A header section that R42 takes. -/
theorem parseHeader_ok {c h} (hh : parseHeader c = some h) :
    (h.label.length = 8 ∧ h.label.all printable = true) ∧ h.authority.getLsbD h.owner.val = true := by
  unfold parseHeader at hh
  split at hh
  · exact headerFields_ok hh
  · cases hh

/-- The definition a header write gives is lawful. -/
theorem SchemeDef.new_lawful {h : HeaderFields} (hh : (h.label.length = 8 ∧ h.label.all printable = true) ∧
    h.authority.getLsbD h.owner.val = true) : (SchemeDef.new h).Lawful := by
  refine ⟨hh.1, hh.2, ?_, ?_, ?_, ?_, ?_⟩ <;> simp [SchemeDef.new, curveValid, risingX]

/-- A written section leaves a lawful definition lawful. -/
theorem writtenSection_lawful {sec c d d'} (hd : SchemeDef.Lawful d) (h : writtenSection sec c d = some d') :
    d'.Lawful := by
  unfold writtenSection at h
  split at h
  · split at h
    · next x hx =>
      split at h
      · cases h
        have := parseHeader_ok hx
        exact ⟨this.1, this.2, hd.terms, hd.curve, hd.candidates, hd.sources, hd.coincidence⟩
      · cases h
    · cases h
  · dsimp only at h
    split at h
    · next hp ht =>
      split at h
      · next hl =>
        cases h
        have := termsOf_ok ht
        exact ⟨hd.label, hd.authority, ⟨hl.2, this⟩, hd.curve, hd.candidates, hd.sources, hd.coincidence⟩
      · cases h
    · cases h
  · dsimp only at h
    split at h
    · next hp =>
      cases h
      exact ⟨hd.label, hd.authority, hd.terms, ⟨.inr hp.1, hp.2.1, hp.2.2⟩, hd.candidates, hd.sources, hd.coincidence⟩
    · cases h
  · split at h
    · next hp =>
      cases h
      exact ⟨hd.label, hd.authority, hd.terms, hd.curve, candidatesOf_ok hp, hd.sources, hd.coincidence⟩
    · cases h
  · dsimp only at h
    split at h
    · next hp =>
      split at h
      · next hl =>
        cases h
        exact ⟨hd.label, hd.authority, hd.terms, hd.curve, hd.candidates, sourcesOf_ok hp, ⟨hl.2.1,
            Nat.le_trans hl.2.2.1 (Nat.le_max_right _ _), hl.2.2.2⟩⟩
      · cases h
    · cases h

/-- A definition from the header module is lawful. -/
theorem headerEntry_lawful {e d} (h : headerEntry e = some d) : d.Lawful := by
  unfold headerEntry at h
  dsimp only at h
  split at h
  · next hd prot hh hp =>
    have h0 := SchemeDef.new_lawful (headerFields_ok hh)
    split at h
    · split at h
      · next ts pol ht hpol =>
        have h1 := termsOf_ok ht
        split at h
        · next hl =>
          cases h
          exact ⟨h0.label, h0.authority, ⟨hl, h1⟩, h0.curve, h0.candidates, h0.sources, h0.coincidence⟩
        · cases h
          exact ⟨h0.label, h0.authority, h0.terms, h0.curve, h0.candidates, h0.sources, h0.coincidence⟩
      · cases h
        exact ⟨h0.label, h0.authority, h0.terms, h0.curve, h0.candidates, h0.sources, h0.coincidence⟩
    · cases h
  · cases h

/-- A load that has a lawful definition, or none. -/
def SchemeLoad.Ok (x : SchemeLoad) : Prop := ∀ d, x.defn = some d → d.Lawful

/-- Entries taken one by one keep it. -/
theorem SchemeLoad.foldl_ok {α} {f : SchemeLoad → α → SchemeLoad} (hf : ∀ x e, SchemeLoad.Ok x →
    SchemeLoad.Ok (f x e)) (es : List α) :
    ∀ x, SchemeLoad.Ok x → SchemeLoad.Ok (es.foldl f x) := by
  induction es with
  | nil => exact fun _ h => h
  | cons e es ih => exact fun x h => ih _ (hf x e h)

/-- A loaded definition is lawful. -/
theorem loadScheme_lawful {a b c d k x} (h : loadScheme a b c d k = some x) : x.Lawful := by
  unfold loadScheme at h
  dsimp only at h
  refine (?_ : SchemeLoad.Ok _) _ h
  refine SchemeLoad.foldl_ok ?_ _ _ (SchemeLoad.foldl_ok ?_ _ _ (SchemeLoad.foldl_ok ?_ _ _ (SchemeLoad.foldl_ok ?_ _ _ ?_)))
  · intro x e hx
    unfold SchemeLoad.triggers
    split
    · next d ds hd hs =>
      have h0 := hx _ hd
      dsimp only
      split
      · next hl =>
        intro d' h; cases h
        exact ⟨h0.label, h0.authority, h0.terms, h0.curve, h0.candidates, sourcesOf_ok hs, hl.2⟩
      · exact hx
    · exact hx
  · intro x e hx
    unfold SchemeLoad.candidates
    split
    · next d ds hd hs =>
      have h0 := hx _ hd
      split
      · exact hx
      · intro d' h; cases h
        exact ⟨h0.label, h0.authority, h0.terms, h0.curve, candidatesOf_ok hs, h0.sources, h0.coincidence⟩
    · exact hx
  · intro x e hx
    unfold SchemeLoad.curve
    split
    · exact hx
    · next d hd =>
      have h0 := hx _ hd
      dsimp only
      split
      · next hl =>
        intro d' h; cases h
        exact ⟨h0.label, h0.authority, h0.terms, ⟨hl.2.1.imp List.length_eq_zero_iff.mp (·.1), hl.2.1.elim (· ▸ by decide) (·.2), hl.2.2⟩, h0.candidates,
            h0.sources, h0.coincidence⟩
      · exact hx
  · intro x e hx
    unfold SchemeLoad.header
    split
    · exact hx
    · intro d h; exact headerEntry_lawful h
  · nofun

end Sys2Proof.Machine
end

