-- ==== Sys2Proof/Laws/Execution.lean ====
section
/-! SUPPORT. One lemma per field for each of the operations on orders and entry results. -/

namespace Sys2Proof.Machine

namespace State

variable (s : State)

/-! ### discardOrder -/

@[simp] theorem discardOrder_pending (l : LinkId) (p : PointId) :
    (s.discardOrder l p).pending = s.pending := rfl
@[simp] theorem discardOrder_inReset (l : LinkId) (p : PointId) :
    (s.discardOrder l p).inReset = s.inReset := rfl
@[simp] theorem discardOrder_clock (l : LinkId) (p : PointId) :
    (s.discardOrder l p).clock = s.clock := rfl
@[simp] theorem discardOrder_bench (l : LinkId) (p : PointId) :
    (s.discardOrder l p).bench = s.bench := rfl
@[simp] theorem discardOrder_store (l : LinkId) (p : PointId) :
    (s.discardOrder l p).store = s.store := rfl
@[simp] theorem discardOrder_storeOp (l : LinkId) (p : PointId) :
    (s.discardOrder l p).storeOp = s.storeOp := rfl
@[simp] theorem discardOrder_warm (l : LinkId) (p : PointId) :
    (s.discardOrder l p).warm = s.warm := rfl
@[simp] theorem discardOrder_meas (l : LinkId) (p : PointId) :
    (s.discardOrder l p).meas = s.meas := rfl
@[simp] theorem discardOrder_det (l : LinkId) (p : PointId) :
    (s.discardOrder l p).det = s.det := rfl
@[simp] theorem discardOrder_recentRise (l : LinkId) (p : PointId) :
    (s.discardOrder l p).recentRise = s.recentRise := rfl
@[simp] theorem discardOrder_points (l : LinkId) (p : PointId) :
    (s.discardOrder l p).points = s.points := rfl
@[simp] theorem discardOrder_lateLists (l : LinkId) (p : PointId) :
    (s.discardOrder l p).lateLists = s.lateLists := rfl
@[simp] theorem discardOrder_schemes (l : LinkId) (p : PointId) :
    (s.discardOrder l p).schemes = s.schemes := rfl
@[simp] theorem discardOrder_engine (l : LinkId) (p : PointId) :
    (s.discardOrder l p).engine = s.engine := rfl
@[simp] theorem discardOrder_links (l : LinkId) (p : PointId) :
    (s.discardOrder l p).links = modV s.links l (fun k => { k with orders := k.orders.filter (fun o => o.point ≠ p) }) := rfl
@[simp] theorem discardOrder_execCount (l : LinkId) (p : PointId) :
    (s.discardOrder l p).execCount = s.execCount := rfl
@[simp] theorem discardOrder_ring (l : LinkId) (p : PointId) :
    (s.discardOrder l p).ring = s.ring := rfl
@[simp] theorem discardOrder_nextSeq (l : LinkId) (p : PointId) :
    (s.discardOrder l p).nextSeq = s.nextSeq := rfl
@[simp] theorem discardOrder_readers (l : LinkId) (p : PointId) :
    (s.discardOrder l p).readers = s.readers := rfl
@[simp] theorem discardOrder_parties (l : LinkId) (p : PointId) :
    (s.discardOrder l p).parties = s.parties := rfl
@[simp] theorem discardOrder_openCount (l : LinkId) (p : PointId) :
    (s.discardOrder l p).openCount = s.openCount := rfl

/-! ### joinOrder -/

@[simp] theorem joinOrder_pending (l : LinkId) (p : PointId) (ref : WaitRef) :
    (s.joinOrder l p ref).pending = s.pending := rfl
@[simp] theorem joinOrder_inReset (l : LinkId) (p : PointId) (ref : WaitRef) :
    (s.joinOrder l p ref).inReset = s.inReset := rfl
@[simp] theorem joinOrder_clock (l : LinkId) (p : PointId) (ref : WaitRef) :
    (s.joinOrder l p ref).clock = s.clock := rfl
@[simp] theorem joinOrder_bench (l : LinkId) (p : PointId) (ref : WaitRef) :
    (s.joinOrder l p ref).bench = s.bench := rfl
@[simp] theorem joinOrder_store (l : LinkId) (p : PointId) (ref : WaitRef) :
    (s.joinOrder l p ref).store = s.store := rfl
@[simp] theorem joinOrder_storeOp (l : LinkId) (p : PointId) (ref : WaitRef) :
    (s.joinOrder l p ref).storeOp = s.storeOp := rfl
@[simp] theorem joinOrder_warm (l : LinkId) (p : PointId) (ref : WaitRef) :
    (s.joinOrder l p ref).warm = s.warm := rfl
@[simp] theorem joinOrder_meas (l : LinkId) (p : PointId) (ref : WaitRef) :
    (s.joinOrder l p ref).meas = s.meas := rfl
@[simp] theorem joinOrder_det (l : LinkId) (p : PointId) (ref : WaitRef) :
    (s.joinOrder l p ref).det = s.det := rfl
@[simp] theorem joinOrder_recentRise (l : LinkId) (p : PointId) (ref : WaitRef) :
    (s.joinOrder l p ref).recentRise = s.recentRise := rfl
@[simp] theorem joinOrder_points (l : LinkId) (p : PointId) (ref : WaitRef) :
    (s.joinOrder l p ref).points = s.points := rfl
@[simp] theorem joinOrder_lateLists (l : LinkId) (p : PointId) (ref : WaitRef) :
    (s.joinOrder l p ref).lateLists = s.lateLists := rfl
@[simp] theorem joinOrder_schemes (l : LinkId) (p : PointId) (ref : WaitRef) :
    (s.joinOrder l p ref).schemes = s.schemes := rfl
@[simp] theorem joinOrder_engine (l : LinkId) (p : PointId) (ref : WaitRef) :
    (s.joinOrder l p ref).engine = s.engine := rfl
@[simp] theorem joinOrder_links (l : LinkId) (p : PointId) (ref : WaitRef) :
    (s.joinOrder l p ref).links = modV s.links l (fun k =>
      { k with orders := k.orders.map (fun o => if o.point = p then { o with waiting := o.waiting ++ [ref] } else o) }) := rfl
@[simp] theorem joinOrder_execCount (l : LinkId) (p : PointId) (ref : WaitRef) :
    (s.joinOrder l p ref).execCount = s.execCount := rfl
@[simp] theorem joinOrder_ring (l : LinkId) (p : PointId) (ref : WaitRef) :
    (s.joinOrder l p ref).ring = s.ring := rfl
@[simp] theorem joinOrder_nextSeq (l : LinkId) (p : PointId) (ref : WaitRef) :
    (s.joinOrder l p ref).nextSeq = s.nextSeq := rfl
@[simp] theorem joinOrder_readers (l : LinkId) (p : PointId) (ref : WaitRef) :
    (s.joinOrder l p ref).readers = s.readers := rfl
@[simp] theorem joinOrder_parties (l : LinkId) (p : PointId) (ref : WaitRef) :
    (s.joinOrder l p ref).parties = s.parties := rfl
@[simp] theorem joinOrder_openCount (l : LinkId) (p : PointId) (ref : WaitRef) :
    (s.joinOrder l p ref).openCount = s.openCount := rfl

/-! ### placeOrder -/

@[simp] theorem placeOrder_pending (p : PointId) (d : PointDef) (o : TripOrder) :
    (s.placeOrder p d o).pending = s.pending := rfl
@[simp] theorem placeOrder_inReset (p : PointId) (d : PointDef) (o : TripOrder) :
    (s.placeOrder p d o).inReset = s.inReset := rfl
@[simp] theorem placeOrder_clock (p : PointId) (d : PointDef) (o : TripOrder) :
    (s.placeOrder p d o).clock = s.clock := rfl
@[simp] theorem placeOrder_bench (p : PointId) (d : PointDef) (o : TripOrder) :
    (s.placeOrder p d o).bench = s.bench := rfl
@[simp] theorem placeOrder_store (p : PointId) (d : PointDef) (o : TripOrder) :
    (s.placeOrder p d o).store = s.store := rfl
@[simp] theorem placeOrder_storeOp (p : PointId) (d : PointDef) (o : TripOrder) :
    (s.placeOrder p d o).storeOp = s.storeOp := rfl
@[simp] theorem placeOrder_warm (p : PointId) (d : PointDef) (o : TripOrder) :
    (s.placeOrder p d o).warm = s.warm := rfl
@[simp] theorem placeOrder_meas (p : PointId) (d : PointDef) (o : TripOrder) :
    (s.placeOrder p d o).meas = s.meas := rfl
@[simp] theorem placeOrder_det (p : PointId) (d : PointDef) (o : TripOrder) :
    (s.placeOrder p d o).det = s.det := rfl
@[simp] theorem placeOrder_recentRise (p : PointId) (d : PointDef) (o : TripOrder) :
    (s.placeOrder p d o).recentRise = s.recentRise := rfl
@[simp] theorem placeOrder_points (p : PointId) (d : PointDef) (o : TripOrder) :
    (s.placeOrder p d o).points = modV s.points p (fun y => y.map (fun x =>
      { x with orderState := .ordered, lastTag := some o.tag, lastOutcome := .none })) := rfl
@[simp] theorem placeOrder_lateLists (p : PointId) (d : PointDef) (o : TripOrder) :
    (s.placeOrder p d o).lateLists = modV s.lateLists p (fun _ => []) := rfl
@[simp] theorem placeOrder_schemes (p : PointId) (d : PointDef) (o : TripOrder) :
    (s.placeOrder p d o).schemes = (s.requestForPoint p).schemes := rfl
@[simp] theorem placeOrder_engine (p : PointId) (d : PointDef) (o : TripOrder) :
    (s.placeOrder p d o).engine = s.engine := rfl
@[simp] theorem placeOrder_links (p : PointId) (d : PointDef) (o : TripOrder) :
    (s.placeOrder p d o).links = modV s.links d.link (fun k =>
      { k with nextTag := k.nextTag + 1, orders := if s.bench then k.orders else k.orders ++ [o] }) := rfl
@[simp] theorem placeOrder_execCount (p : PointId) (d : PointDef) (o : TripOrder) :
    (s.placeOrder p d o).execCount = s.execCount := rfl
@[simp] theorem placeOrder_ring (p : PointId) (d : PointDef) (o : TripOrder) :
    (s.placeOrder p d o).ring = s.ring := rfl
@[simp] theorem placeOrder_nextSeq (p : PointId) (d : PointDef) (o : TripOrder) :
    (s.placeOrder p d o).nextSeq = s.nextSeq := rfl
@[simp] theorem placeOrder_readers (p : PointId) (d : PointDef) (o : TripOrder) :
    (s.placeOrder p d o).readers = s.readers := rfl
@[simp] theorem placeOrder_parties (p : PointId) (d : PointDef) (o : TripOrder) :
    (s.placeOrder p d o).parties = s.parties := rfl
@[simp] theorem placeOrder_openCount (p : PointId) (d : PointDef) (o : TripOrder) :
    (s.placeOrder p d o).openCount = s.openCount := rfl

/-! ### modEntry -/

@[simp] theorem modEntry_pending (ref : WaitRef) (f : EntryResult → EntryResult) :
    (s.modEntry ref f).pending = s.pending := rfl
@[simp] theorem modEntry_inReset (ref : WaitRef) (f : EntryResult → EntryResult) :
    (s.modEntry ref f).inReset = s.inReset := rfl
@[simp] theorem modEntry_clock (ref : WaitRef) (f : EntryResult → EntryResult) :
    (s.modEntry ref f).clock = s.clock := rfl
@[simp] theorem modEntry_bench (ref : WaitRef) (f : EntryResult → EntryResult) :
    (s.modEntry ref f).bench = s.bench := rfl
@[simp] theorem modEntry_store (ref : WaitRef) (f : EntryResult → EntryResult) :
    (s.modEntry ref f).store = s.store := rfl
@[simp] theorem modEntry_storeOp (ref : WaitRef) (f : EntryResult → EntryResult) :
    (s.modEntry ref f).storeOp = s.storeOp := rfl
@[simp] theorem modEntry_warm (ref : WaitRef) (f : EntryResult → EntryResult) :
    (s.modEntry ref f).warm = s.warm := rfl
@[simp] theorem modEntry_meas (ref : WaitRef) (f : EntryResult → EntryResult) :
    (s.modEntry ref f).meas = s.meas := rfl
@[simp] theorem modEntry_det (ref : WaitRef) (f : EntryResult → EntryResult) :
    (s.modEntry ref f).det = s.det := rfl
@[simp] theorem modEntry_recentRise (ref : WaitRef) (f : EntryResult → EntryResult) :
    (s.modEntry ref f).recentRise = s.recentRise := rfl
@[simp] theorem modEntry_points (ref : WaitRef) (f : EntryResult → EntryResult) :
    (s.modEntry ref f).points = s.points := rfl
@[simp] theorem modEntry_lateLists (ref : WaitRef) (f : EntryResult → EntryResult) :
    (s.modEntry ref f).lateLists = s.lateLists := rfl
@[simp] theorem modEntry_schemes (ref : WaitRef) (f : EntryResult → EntryResult) :
    (s.modEntry ref f).schemes = modV s.schemes ref.scheme (fun sc =>
      { sc with record := sc.record.map (fun r =>
          if r.execution = ref.execution then { r with entries := r.entries.modify ref.position f } else r) }) := rfl
@[simp] theorem modEntry_engine (ref : WaitRef) (f : EntryResult → EntryResult) :
    (s.modEntry ref f).engine = s.engine := rfl
@[simp] theorem modEntry_links (ref : WaitRef) (f : EntryResult → EntryResult) :
    (s.modEntry ref f).links = s.links := rfl
@[simp] theorem modEntry_execCount (ref : WaitRef) (f : EntryResult → EntryResult) :
    (s.modEntry ref f).execCount = s.execCount := rfl
@[simp] theorem modEntry_ring (ref : WaitRef) (f : EntryResult → EntryResult) :
    (s.modEntry ref f).ring = s.ring := rfl
@[simp] theorem modEntry_nextSeq (ref : WaitRef) (f : EntryResult → EntryResult) :
    (s.modEntry ref f).nextSeq = s.nextSeq := rfl
@[simp] theorem modEntry_readers (ref : WaitRef) (f : EntryResult → EntryResult) :
    (s.modEntry ref f).readers = s.readers := rfl
@[simp] theorem modEntry_parties (ref : WaitRef) (f : EntryResult → EntryResult) :
    (s.modEntry ref f).parties = s.parties := rfl
@[simp] theorem modEntry_openCount (ref : WaitRef) (f : EntryResult → EntryResult) :
    (s.modEntry ref f).openCount = s.openCount := rfl

/-! ### finishEntry -/

@[simp] theorem finishEntry_pending (ref : WaitRef) (o : EntryOutcome) :
    (s.finishEntry ref o).pending = s.pending := rfl
@[simp] theorem finishEntry_inReset (ref : WaitRef) (o : EntryOutcome) :
    (s.finishEntry ref o).inReset = s.inReset := rfl
@[simp] theorem finishEntry_clock (ref : WaitRef) (o : EntryOutcome) :
    (s.finishEntry ref o).clock = s.clock := rfl
@[simp] theorem finishEntry_bench (ref : WaitRef) (o : EntryOutcome) :
    (s.finishEntry ref o).bench = s.bench := rfl
@[simp] theorem finishEntry_store (ref : WaitRef) (o : EntryOutcome) :
    (s.finishEntry ref o).store = s.store := rfl
@[simp] theorem finishEntry_storeOp (ref : WaitRef) (o : EntryOutcome) :
    (s.finishEntry ref o).storeOp = s.storeOp := rfl
@[simp] theorem finishEntry_warm (ref : WaitRef) (o : EntryOutcome) :
    (s.finishEntry ref o).warm = s.warm := rfl
@[simp] theorem finishEntry_meas (ref : WaitRef) (o : EntryOutcome) :
    (s.finishEntry ref o).meas = s.meas := rfl
@[simp] theorem finishEntry_det (ref : WaitRef) (o : EntryOutcome) :
    (s.finishEntry ref o).det = s.det := rfl
@[simp] theorem finishEntry_recentRise (ref : WaitRef) (o : EntryOutcome) :
    (s.finishEntry ref o).recentRise = s.recentRise := rfl
@[simp] theorem finishEntry_points (ref : WaitRef) (o : EntryOutcome) :
    (s.finishEntry ref o).points = s.points := rfl
@[simp] theorem finishEntry_lateLists (ref : WaitRef) (o : EntryOutcome) :
    (s.finishEntry ref o).lateLists = s.lateLists := rfl
@[simp] theorem finishEntry_schemes (ref : WaitRef) (o : EntryOutcome) :
    (s.finishEntry ref o).schemes = (s.modEntry ref (fun e => { e with outcome := some o, outcomeTime := some s.clock })).schemes := rfl
@[simp] theorem finishEntry_engine (ref : WaitRef) (o : EntryOutcome) :
    (s.finishEntry ref o).engine = s.engine := rfl
@[simp] theorem finishEntry_links (ref : WaitRef) (o : EntryOutcome) :
    (s.finishEntry ref o).links = s.links := rfl
@[simp] theorem finishEntry_execCount (ref : WaitRef) (o : EntryOutcome) :
    (s.finishEntry ref o).execCount = s.execCount := rfl
@[simp] theorem finishEntry_ring (ref : WaitRef) (o : EntryOutcome) :
    (s.finishEntry ref o).ring = s.ring := rfl
@[simp] theorem finishEntry_nextSeq (ref : WaitRef) (o : EntryOutcome) :
    (s.finishEntry ref o).nextSeq = s.nextSeq := rfl
@[simp] theorem finishEntry_readers (ref : WaitRef) (o : EntryOutcome) :
    (s.finishEntry ref o).readers = s.readers := rfl
@[simp] theorem finishEntry_parties (ref : WaitRef) (o : EntryOutcome) :
    (s.finishEntry ref o).parties = s.parties := rfl
@[simp] theorem finishEntry_openCount (ref : WaitRef) (o : EntryOutcome) :
    (s.finishEntry ref o).openCount = s.openCount := rfl

/-! ### Two changes of one entry result are one -/

theorem modEntry_modEntry (w : WaitRef) (f g : EntryResult → EntryResult) :
    (s.modEntry w f).modEntry w g = s.modEntry w (fun e => g (f e)) := by
  unfold State.modEntry State.modScheme
  congr 1
  rw [modV_modV]
  congr 1
  funext sc
  cases sc.record with
  | none => rfl
  | some r =>
    simp only [Option.map_some]
    congr 2
    by_cases h : r.execution = w.execution
    · simp only [h, if_true]
      congr 1
      apply List.ext_getElem?
      intro i
      simp only [List.getElem?_modify]
      cases r.entries[i]? with
      | none => rfl
      | some e =>
        simp only [Option.map_eq_map, Option.map_some]
        split <;> rfl
    · simp only [h, if_false]

/-- An entry is changed and then final at this reading (R135, R145, R147). -/
theorem modEntry_finishEntry (w : WaitRef) (f : EntryResult → EntryResult) (o : EntryOutcome) :
    (s.modEntry w f).finishEntry w o =
      s.modEntry w (fun e => { f e with outcome := some o, outcomeTime := some s.clock }) :=
  s.modEntry_modEntry w f _

/-! ### What a firing request and a backup request do that are PLACED -/

/-- A firing request that is PLACED (R26, R135, R151). -/
theorem fireEntry_placed {s : State} {k : SchemeId} {n : BitVec 32} {p : PointId} {c i : Nat} {x : Point}
    (hx : s.points[p] = some x) (hi : x.orderState = .idle) (ha : x.availability = .inService) {ref : WaitRef}
    (hr : ref = { scheme := k, execution := n, position := i, role := .primary }) {o : TripOrder}
    (ho : o = s.newOrder p x.defn ref false) : s.fireEntry k n ((p, c), i) =
      (let u := ((s.placeOrder p x.defn o).modEntry ref (fun e =>
          { e with answer := some .placed, order := some (x.defn.link, o.tag) })).append .orderPlaced (some k) (some p) none
          (some ((o.tag.toNat : Int) + if s.bench then 512 else 0))
       if s.bench then u.confirmOrder x.defn.link o .bench else u) := by
  unfold State.fireEntry
  simp only [hx, hi, ha, ← hr, ← ho, placeOrder_bench, modEntry_bench, append_bench]

/-- A backup request that is PLACED (R27, R145, R151). -/
theorem requestBackup_placed {s : State} {failed b : PointId} {w : WaitRef} {x : Point} (hx : s.points[b] = some x)
    (hi : x.orderState = .idle) (ha : x.availability = .inService) {o : TripOrder}
    (ho : o = s.newOrder b x.defn { w with role := .backup } true) : s.requestBackup failed b w =
      (let u := ((s.placeOrder b x.defn o).modEntry w (fun e =>
          { e with backupPoint := some b, backupAnswer := some .placed, backupTag := some o.tag,
                   backupValue := some (s.backupValue x.defn) })).append .backupPlaced (some w.scheme) (some b) none
          (some ((o.tag.toNat : Int) + 256 * (failed.val : Int)))
       if s.bench then u.confirmOrder x.defn.link o .bench else u) := by
  unfold State.requestBackup
  simp only [hx, hi, ha, ← ho, placeOrder_bench, modEntry_bench, append_bench]

end State

/-! ### The order in which executions complete -/

/-- Each scheme where it stands last, which is what `List.dedup` keeps. -/
theorem lastOf_eq_dedup (ks : List SchemeId) : lastOf ks = ks.dedup := by
  induction ks with
  | nil => rfl
  | cons k ks ih =>
    unfold lastOf
    by_cases h : k ∈ ks
    · simp [h, ih, List.dedup_cons_of_mem h]
    · simp [h, ih, List.dedup_cons_of_notMem h]

theorem State.completeAll_eq_dedup (s : State) (refs : List WaitRef) :
    s.completeAll refs = (refs.map WaitRef.scheme).dedup.foldl State.completeIfDone s := by
  rw [State.completeAll, lastOf_eq_dedup]

end Sys2Proof.Machine
end

