-- ==== Sys2Proof/Laws/Entries.lean ====
section
/-! SUPPORT. What the operations on orders do to the entry results (R134, R147): `State.entry` reads one, and every
operation either leaves all of them or changes the one it names. -/

namespace Sys2Proof.Machine

/-- The execution number and the entry results of a scheme's trigger record. -/
def Scheme.results (sc : Scheme) : Option (BitVec 32 × List EntryResult) := sc.record.map (fun r => (r.execution, r.entries))

/-- The entry result a reference names, where the trigger record still belongs to that execution. -/
def State.entry (s : State) (w : WaitRef) : Option EntryResult :=
  (s.schemes[w.scheme]).results.bind (fun r => if r.1 = w.execution then r.2[w.position]? else none)

/-- What a reference names. -/
def WaitRef.key (w : WaitRef) : SchemeId × BitVec 32 × Nat := (w.scheme, w.execution, w.position)

/-- Every entry result is the same in both states. -/
def SameResults (s t : State) : Prop := ∀ k : SchemeId, (t.schemes[k]).results = (s.schemes[k]).results

namespace SameResults

variable {s t u : State}

theorem refl (s : State) : SameResults s s := fun _ => rfl

theorem trans (h : SameResults s t) (h' : SameResults t u) : SameResults s u := fun k => (h' k).trans (h k)

theorem of_schemes (h : t.schemes = s.schemes) : SameResults s t := fun k => by rw [h]

theorem entry (h : SameResults s t) (w : WaitRef) : t.entry w = s.entry w := by unfold State.entry; rw [h]

/-- A scheme changes outside its entry results. -/
theorem modScheme {k : SchemeId} {f : Scheme → Scheme} (hf : (f t.schemes[k]).results = (t.schemes[k]).results)
    (h : SameResults s t) : SameResults s (t.modScheme k f) := by
  refine h.trans fun j => ?_
  by_cases e : k = j
  · subst e
    simpa using hf
  · have : ¬ k.val = j.val := fun h => e (Fin.ext h)
    simp [this]

theorem request {f : Scheme → Bool} (h : SameResults s t) : SameResults s (t.requestPasses f) := by
  refine h.trans fun j => ?_
  simp only [State.requestPasses, Fin.getElem_fin, getElem_mapV]
  split <;> rfl

theorem requestForPoint {p : PointId} (h : SameResults s t) : SameResults s (t.requestForPoint p) := h.request

theorem append {kind : EventKind} {sch : Option SchemeId} {pt : Option PointId} {pa : Option PartyId} {de : Option Int}
    (h : SameResults s t) : SameResults s (t.append kind sch pt pa de) := h.trans (.of_schemes rfl)

theorem foldl {α : Type} {f : State → α → State} (hf : ∀ s x, SameResults s (f s x)) (xs : List α)
    (h : SameResults s t) : SameResults s (xs.foldl f t) := by
  induction xs generalizing t with
  | nil => exact h
  | cons x xs ih => exact ih (h.trans (hf t x))

theorem completeBlock {p : PointId} (h : SameResults s t) : SameResults s (t.completeBlock p) := by
  unfold State.completeBlock
  split
  · split
    · exact requestForPoint (append (h.trans (.of_schemes rfl)))
    · exact h
  · exact h

theorem dropLatch {k : SchemeId} (h : SameResults s t) : SameResults s (t.dropLatch k) := by
  unfold State.dropLatch
  split
  · exact append (h.modScheme rfl)
  · exact h

theorem completeExecution {k : SchemeId} (h : SameResults s t) : SameResults s (t.completeExecution k) := by
  unfold State.completeExecution
  split
  · exact h
  · next r hr =>
    have h1 : SameResults s ((t.modScheme k (fun sc =>
        { sc with record := some { r with completion := some t.clock, delivered := some r.deliveredAmount } })).append
          .execComplete (some k) none none (some (r.deliveredAmount : Int))) :=
      append (h.modScheme (by simp only [Scheme.results, hr]; rfl))
    dsimp only
    split
    · exact h1.modScheme rfl
    · exact dropLatch ((h1.modScheme rfl).trans (.of_schemes (State.voidPass_schemes _ _)))

theorem completeIfDone {k : SchemeId} (h : SameResults s t) : SameResults s (t.completeIfDone k) := by
  unfold State.completeIfDone
  split
  · exact h.completeExecution
  · exact h

theorem completeAll {refs : List WaitRef} (h : SameResults s t) : SameResults s (t.completeAll refs) :=
  h.foldl (fun s _ => completeIfDone (.refl s)) _

end SameResults

/-- A change of one entry result. -/
theorem State.modEntry_results (s : State) (w : WaitRef) (f : EntryResult → EntryResult) (k : SchemeId) :
    ((s.modEntry w f).schemes[k]).results = if k = w.scheme then (s.schemes[k]).results.map (fun r =>
      (r.1, if r.1 = w.execution then r.2.modify w.position f else r.2)) else (s.schemes[k]).results := by
  simp only [State.modEntry_schemes, Fin.getElem_fin, getElem_modV, Fin.ext_iff, eq_comm (a := k.val)]
  split
  · simp only [Scheme.results, Option.map_map]
    congr 1
    funext r
    simp only [Function.comp_apply]
    split <;> rfl
  · rfl

theorem State.modEntry_entry (s : State) (w : WaitRef) (f : EntryResult → EntryResult) (w' : WaitRef) :
    (s.modEntry w f).entry w' = if w.key = w'.key then (s.entry w').map f else s.entry w' := by
  unfold State.entry
  rw [s.modEntry_results]
  simp only [WaitRef.key, Prod.mk.injEq, eq_comm (b := w'.scheme)]
  by_cases e : w'.scheme = w.scheme
  · simp only [e, if_true, true_and]
    cases (s.schemes[w.scheme]).results with
    | none => simp
    | some r =>
      simp only [Option.map_some, Option.bind_some]
      by_cases h : r.1 = w'.execution
      · simp only [h, if_true]
        by_cases h' : w'.execution = w.execution
        · simp only [h', if_true, true_and, List.getElem?_modify]
          by_cases h2 : w.position = w'.position <;> simp [h2]
        · have : ¬ w.execution = w'.execution := fun e => h' e.symm
          simp [h', this]
      · simp [h]
  · simp [e]

/-- A change of an entry keeps the execution number of every trigger record. -/
theorem State.modEntry_execution (s : State) (w : WaitRef) (f : EntryResult → EntryResult) (k : SchemeId) :
    ((s.modEntry w f).schemes[k]).results.map Prod.fst = (s.schemes[k]).results.map Prod.fst := by
  rw [s.modEntry_results]
  split
  · simp [Function.comp_def]
  · rfl

/-- A list of references finishes no entry that none of them names. -/
theorem State.finishEntries_other (f : WaitRef × Nat → EntryOutcome) :
    ∀ (ws : List (WaitRef × Nat)) (s : State),
      let t := ws.foldl (fun s r => s.finishEntry r.1 (f r)) s
      t.clock = s.clock ∧
      (∀ k : SchemeId, (t.schemes[k]).results.map Prod.fst = (s.schemes[k]).results.map Prod.fst) ∧
      ∀ w : WaitRef, (∀ r ∈ ws, r.1.key ≠ w.key) → t.entry w = s.entry w := by
  intro ws
  induction ws with
  | nil => intro s; simp
  | cons r ws ih =>
    intro s
    obtain ⟨h1, h2, h3⟩ := ih (s.finishEntry r.1 (f r))
    refine ⟨h1, fun k => (h2 k).trans (s.modEntry_execution ..), fun w hw => ?_⟩
    rw [List.foldl_cons, h3 w (fun u hu => hw u (List.mem_cons_of_mem _ hu))]
    unfold State.finishEntry
    rw [s.modEntry_entry, if_neg (hw r List.mem_cons_self)]

/-- The entries that a list of references finishes, no two of which name the same entry: each takes its outcome. -/
theorem State.finishEntries_entry (f : WaitRef × Nat → EntryOutcome) :
    ∀ (ws : List (WaitRef × Nat)) (s : State), (ws.map (fun r => r.1.key)).Nodup → ∀ r ∈ ws,
      (ws.foldl (fun s r => s.finishEntry r.1 (f r)) s).entry r.1 =
        (s.entry r.1).map (fun e => { e with outcome := some (f r), outcomeTime := some s.clock }) := by
  intro ws
  induction ws with
  | nil => intro s _; simp
  | cons r ws ih =>
    intro s hn u hu
    simp only [List.map_cons, List.nodup_cons] at hn
    have hr : ∀ u ∈ ws, u.1.key ≠ r.1.key := fun u hu e => hn.1 (e ▸ List.mem_map_of_mem hu)
    rw [List.foldl_cons]
    rcases List.mem_cons.1 hu with rfl | hu
    · rw [(finishEntries_other f ws _).2.2 _ hr]
      unfold State.finishEntry
      rw [s.modEntry_entry, if_pos rfl]
    · rw [ih (s.finishEntry r.1 (f r)) hn.2 u hu]
      unfold State.finishEntry
      rw [s.modEntry_entry, if_neg (Ne.symm (hr u hu))]
      rfl

/-- Finishing entries changes the entry results of trigger records alone. -/
theorem State.finishEntries_only (f : WaitRef × Nat → EntryOutcome) : ∀ (ws : List (WaitRef × Nat)) (s : State),
    let t := ws.foldl (fun s r => s.finishEntry r.1 (f r)) s
    t = { s with schemes := t.schemes } ∧
    ∀ k : SchemeId, ∃ es, t.schemes[k] =
      { s.schemes[k] with record := (s.schemes[k]).record.map (fun r => { r with entries := es }) } := by
  intro ws
  induction ws with
  | nil =>
    refine fun s => ⟨rfl, fun k => ?_⟩
    rw [List.foldl_nil]
    generalize s.schemes[k] = sc
    obtain ⟨_, _, _, _, _, _, r, _, _⟩ := sc
    cases r with
    | none => exact ⟨[], rfl⟩
    | some r => exact ⟨r.entries, rfl⟩
  | cons w ws ih =>
    intro s t
    obtain ⟨h1, h2⟩ := ih (s.finishEntry w.1 (f w))
    refine ⟨h1, fun k => ?_⟩
    obtain ⟨es, h⟩ := h2 k
    refine ⟨es, h.trans ?_⟩
    by_cases e : w.1.scheme.val = k.val
    · simp only [State.finishEntry_schemes, State.modEntry_schemes, Fin.getElem_fin, getElem_modV, e, if_true]
      cases (s.schemes[k.val]).record with
      | none => rfl
      | some r => simp only [Option.map_some]; split <;> rfl
    · simp only [State.finishEntry_schemes, State.modEntry_schemes, Fin.getElem_fin, getElem_modV, e, if_false]

/-- What a reference reads, in terms of the trigger record. -/
theorem State.entry_eq_some {s : State} {w : WaitRef} {e : EntryResult} : s.entry w = some e ↔
    ∃ r, (s.schemes[w.scheme]).record = some r ∧ r.execution = w.execution ∧ r.entries[w.position]? = some e := by
  unfold State.entry Scheme.results
  cases (s.schemes[w.scheme]).record with
  | none => simp
  | some r =>
    simp only [Option.map_some, Option.bind_some, Option.some.injEq, exists_eq_left']
    split <;> simp_all

end Sys2Proof.Machine
end

