-- ==== Sys2Proof/Laws/Frames.lean ====
section
/-! SUPPORT. The parts of a frame read back (R162, R166, R170, R171): big-endian fields, request bodies, DATA items,
    and the bytes of a frame under way. -/

namespace Sys2Proof.Machine

open Wire

/-- A 16-bit field from its bytes. -/
theorem be16_join (w : Word16) : (w.extractLsb' 8 8 ++ w.extractLsb' 0 8 : BitVec 16) = w := by
  apply BitVec.eq_of_getLsbD_eq
  intro i hi
  simp only [BitVec.getLsbD_append, BitVec.getLsbD_extractLsb']
  by_cases h : i < 8
  · simp [h]
  · simp [h, show i - 8 < 8 by omega, show 8 + (i - 8) = i by omega]

/-- A 24-bit field from its bytes. -/
theorem be24_join (w : Gen) : (w.extractLsb' 16 8 ++ w.extractLsb' 8 8 ++ w.extractLsb' 0 8 : BitVec 24) = w := by
  apply BitVec.eq_of_getLsbD_eq
  intro i hi
  simp only [BitVec.getLsbD_append, BitVec.getLsbD_extractLsb']
  by_cases h : i < 8
  · simp [h]
  · by_cases h2 : i < 16
    · simp [h, show i - 8 < 8 by omega, show 8 + (i - 8) = i by omega]
    · simp [h, show ¬ (i - 8 < 8) by omega, show i - 8 - 8 < 8 by omega, show 16 + (i - 8 - 8) = i by omega]

/-- A 32-bit field from its bytes. -/
theorem be32_join (w : BitVec 32) :
    (w.extractLsb' 24 8 ++ w.extractLsb' 16 8 ++ w.extractLsb' 8 8 ++ w.extractLsb' 0 8 : BitVec 32) = w := by
  apply BitVec.eq_of_getLsbD_eq
  intro i hi
  simp only [BitVec.getLsbD_append, BitVec.getLsbD_extractLsb']
  by_cases h : i < 8
  · simp [h]
  · by_cases h2 : i < 16
    · simp [h, show i - 8 < 8 by omega, show 8 + (i - 8) = i by omega]
    · by_cases h3 : i < 24
      · simp [h, show ¬ (i - 8 < 8) by omega, show i - 8 - 8 < 8 by omega, show 16 + (i - 8 - 8) = i by omega]
      · simp [h, show ¬ (i - 8 < 8) by omega, show ¬ (i - 8 - 8 < 8) by omega, show i - 8 - 8 - 8 < 8 by omega,
          show 24 + (i - 8 - 8 - 8) = i by omega]

/-- A byte of a word, from its bits. -/
theorem extract_byte {n k : Nat} {w : BitVec n} {x : Byte} (h : ∀ i, i < 8 → w.getLsbD (k + i) = x.getLsbD i) :
    w.extractLsb' k 8 = x := by
  apply BitVec.eq_of_getLsbD_eq
  intro i hi
  simp [hi, h i hi]

/-- The bytes of a 16-bit field. -/
theorem be16_split (a b : Byte) : be16 (a ++ b : BitVec (8 + 8)) = [a, b] := by
  have h1 : (a ++ b).extractLsb' 8 8 = a := extract_byte fun i hi => by
    simp only [BitVec.getLsbD_append]
    simp
  have h0 : (a ++ b).extractLsb' 0 8 = b := extract_byte fun i hi => by
    simp only [BitVec.getLsbD_append]
    simp [hi]
  exact (congrArg₂ (fun x y => [x, y]) h1 h0)

/-- The bytes of a 24-bit field. -/
theorem be24_split (a b c : Byte) : be24 (a ++ b ++ c : BitVec (8 + 8 + 8)) = [a, b, c] := by
  have h2 : (a ++ b ++ c).extractLsb' 16 8 = a := extract_byte fun i hi => by
    simp only [BitVec.getLsbD_append]
    simp [show ¬ (16 + i < 8) by omega, show 16 + i - 8 = 8 + i by omega]
  have h1 : (a ++ b ++ c).extractLsb' 8 8 = b := extract_byte fun i hi => by
    simp only [BitVec.getLsbD_append]
    simp [hi]
  have h0 : (a ++ b ++ c).extractLsb' 0 8 = c := extract_byte fun i hi => by
    simp only [BitVec.getLsbD_append]
    simp [hi]
  show [BitVec.extractLsb' 16 8 (a ++ b ++ c), BitVec.extractLsb' 8 8 (a ++ b ++ c),
    BitVec.extractLsb' 0 8 (a ++ b ++ c)] = _
  rw [h2, h1, h0]

/-- The bytes of a 32-bit field. -/
theorem be32_split (a b c d : Byte) : be32 (a ++ b ++ c ++ d : BitVec (8 + 8 + 8 + 8)) = [a, b, c, d] := by
  have h3 : (a ++ b ++ c ++ d).extractLsb' 24 8 = a := extract_byte fun i hi => by
    simp only [BitVec.getLsbD_append]
    simp [show ¬ (24 + i < 8) by omega, show ¬ (16 + i < 8) by omega, show 24 + i - 8 = 16 + i by omega,
      show 16 + i - 8 = 8 + i by omega]
  have h2 : (a ++ b ++ c ++ d).extractLsb' 16 8 = b := extract_byte fun i hi => by
    simp only [BitVec.getLsbD_append]
    simp [hi, show ¬ (16 + i < 8) by omega, show 16 + i - 8 = 8 + i by omega]
  have h1 : (a ++ b ++ c ++ d).extractLsb' 8 8 = c := extract_byte fun i hi => by
    simp only [BitVec.getLsbD_append]
    simp [hi]
  have h0 : (a ++ b ++ c ++ d).extractLsb' 0 8 = d := extract_byte fun i hi => by
    simp only [BitVec.getLsbD_append]
    simp [hi]
  show [BitVec.extractLsb' 24 8 (a ++ b ++ c ++ d), BitVec.extractLsb' 16 8 (a ++ b ++ c ++ d),
    BitVec.extractLsb' 8 8 (a ++ b ++ c ++ d), BitVec.extractLsb' 0 8 (a ++ b ++ c ++ d)] = _
  rw [h3, h2, h1, h0]

/-- A section from its code (R166). -/
theorem sectionCode_of {code : Byte} {sec : Section} (h : sectionOf code = some sec) : Wire.sectionCode sec = code := by
  unfold sectionOf at h
  repeat' split at h
  all_goals (cases h; try (subst_vars; rfl))

/-- An empty body is a request. -/
theorem noBytes_parts {body : List Byte} {q r : Request} (h : noBytes body q = .request r) : r = q ∧ body = [] := by
  unfold noBytes at h; split at h <;> cases h; exact ⟨rfl, rfl⟩

/-- A body of one number is a request. -/
theorem oneByte_parts {body : List Byte} {f : Byte → Request} {r : Request} (h : oneByte body f = .request r) :
    ∃ x, r = f x ∧ body = [x] := by
  unfold oneByte at h; split at h <;> cases h; exact ⟨_, rfl, rfl⟩

/-- A body of two numbers is a request. -/
theorem twoBytes_parts {body : List Byte} {f : Byte → Byte → Request} {r : Request} (h : twoBytes body f = .request r) :
    ∃ x y, r = f x y ∧ body = [x, y] := by
  unfold twoBytes at h; split at h <;> cases h; exact ⟨_, _, rfl, rfl⟩

/-- A request body is read back as its request. -/
theorem parseRequest_requestParts (r : Request) : parseRequest (requestParts r).1 (requestParts r).2 = .request r := by
  cases r <;> try rfl
  case readEventsStart n q =>
    simp [parseRequest, requestParts, be32, be32_join]
  case consent k g =>
    simp [parseRequest, requestParts, be24, be24_join]
  case writeSection sec k c =>
    cases sec <;> rfl

/-- DATA items are read back. -/
theorem parseItems_itemBytes : ∀ (items : List DataItem) (n : Nat), (items.flatMap itemBytes).length ≤ n →
    parseItems n (items.flatMap itemBytes) = some items := by
  intro items
  induction items with
  | nil => intro n _; cases n <;> rfl
  | cons x items ih =>
    intro n hn
    cases x with
    | measurement slot quality value =>
      cases n with
      | zero => simp [itemBytes] at hn
      | succ n =>
        have := ih n (by rw [List.flatMap_cons, List.length_append] at hn; simp only [itemBytes, be16,
            List.length_cons, List.length_append, List.length_nil] at hn; omega)
        simp [itemBytes, be16, parseItems, be16_join, this]
    | detection slot a =>
      cases n with
      | zero => simp [itemBytes] at hn
      | succ n =>
        have := ih n (by rw [List.flatMap_cons, List.length_append] at hn; simp only [itemBytes, List.length_cons,
            List.length_nil] at hn; omega)
        cases a <;> simp [itemBytes, flag, parseItems, this]

/-- Bytes that are read as DATA items are the bytes of those items. -/
theorem itemBytes_of_parseItems : ∀ (n : Nat) (bytes : List Byte) (items : List DataItem),
    parseItems n bytes = some items → items.flatMap itemBytes = bytes := by
  intro n
  induction n with
  | zero =>
    intro bytes items h
    cases bytes with
    | nil => cases h; rfl
    | cons b bs => cases h
  | succ n ih =>
    intro bytes items h
    cases bytes with
    | nil => cases h; rfl
    | cons b bs =>
      unfold parseItems at h
      repeat' (split at h)
      all_goals first
        | cases h
        | skip
      all_goals (
        rw [Option.map_eq_some_iff] at h
        obtain ⟨xs, hx, rfl⟩ := h
        rw [List.flatMap_cons, ih _ _ hx]
        simp_all [itemBytes, be16_split, flag])

/-- Contents that are read as a frame's are the contents of the frame that carries them. -/
theorem inboundFrame_of_parseContents (type station : Byte) (contents : List Byte) (body : FrameBody)
    (h : parseContents type contents = some body) :
    inboundFrame station body = stationFrame type station contents := by
  unfold parseContents at h
  repeat' (split at h)
  all_goals first
    | (cases h; done)
    | (cases h; simp_all [inboundFrame, resultCode]; done)
    | skip
  rename_i hi hl
  cases h
  rw [‹type = _›]
  simp only [inboundFrame, u8, hl, BitVec.ofNat_toNat, BitVec.setWidth_eq]
  rw [itemBytes_of_parseItems _ _ _ hi]

/-- An item has at most 5 bytes. -/
theorem itemBytes_length_le : ∀ (items : List DataItem), (items.flatMap itemBytes).length ≤ 5 * items.length := by
  intro items
  induction items with
  | nil => rfl
  | cons x items ih =>
    cases x <;> simp [itemBytes, be16] at ih ⊢ <;> omega

/-- The state with `p` received of the frame under way on link `l`. -/
def State.withReceiving (s : State) (l : LinkId) (p : List Byte) : State := s.modLink l (fun k =>
    { k with receiving := p })

/-- Nothing received. -/
theorem State.withReceiving_self (s : State) (l : LinkId) (h : s.links[l].receiving = []) :
    State.withReceiving s l [] = s := by
  unfold State.withReceiving State.modLink
  rw [modV_self]
  rw [← h]

/-- The last one stands. -/
theorem State.withReceiving_twice (s : State) (l : LinkId) (p q : List Byte) :
    State.withReceiving (State.withReceiving s l p) l q = State.withReceiving s l q := by
  unfold State.withReceiving State.modLink
  congr 1
  ext i hi
  simp only [getElem_modV]
  split <;> simp_all

/-- A byte that does not complete its frame joins what has been received. -/
theorem State.takeByte_under_way (s : State) (l : LinkId) (p : List Byte) (b : Byte) (hs : s.starting = false) (he :
    s.links[l].params.enabled = true)
    (h : receiveByte p b = (p ++ [b], none)) :
        State.takeByte l (State.withReceiving s l p) b = State.withReceiving s l (p ++ [b]) := by
  have h1 : (State.withReceiving s l p).links[l].receiving = p := by simp [State.withReceiving, State.modLink]
  have h2 : (State.withReceiving s l p).links[l].params.enabled = true := by simpa [State.withReceiving,
      State.modLink] using he
  have h3 : (State.withReceiving s l p).starting = false := hs
  unfold State.takeByte
  rw [if_neg (by rw [h2, h3]; simp), h1, h]
  exact State.withReceiving_twice _ _ _ _

/-- Every byte of a frame but the last is under way. -/
theorem receiveByte_under_way (p : List Byte) (b : Byte) (ty st len : Byte) (rest : List Byte) (hl :
    len.toNat ≤ 240) (hr : rest.length = len.toNat + 2)
    (hp : p ++ [b] <+: stationMarker :: ty :: st :: len :: rest) (hlt : p.length + 1 < 6 + len.toNat) :
        receiveByte p b = (p ++ [b], none) := by
  obtain ⟨q, hq⟩ := hp
  match p, hq, hlt with
  | [], hq, _ =>
    simp at hq
    simp [receiveByte, hq.1]
  | [x], hq, _ => simp [receiveByte]
  | [x, y], hq, _ => simp [receiveByte]
  | x :: y :: z :: p', hq, hlt =>
    simp only [receiveByte]
    have h3 : ((x :: y :: z :: p') ++ [b])[3]? = some len := by
      cases p' with
      | nil => simp at hq; simp [hq]
      | cons w p' => simp at hq; simp [hq]
    rw [h3]
    dsimp only
    rw [if_neg (by omega), if_neg]
    simp at hlt ⊢; omega

/-- The bytes of a frame but for the last. -/
theorem State.takeByte_prefix (s : State) (l : LinkId) (hs : s.starting = false) (he :
    s.links[l].params.enabled = true) (ty st len : Byte) (rest : List Byte)
    (hl : len.toNat ≤ 240) (hr : rest.length = len.toNat + 2) : ∀ (q p : List Byte), p ++ q <+: stationMarker :: ty ::
        st :: len :: rest → (p ++ q).length < 6 + len.toNat →
    q.foldl (State.takeByte l) (State.withReceiving s l p) = State.withReceiving s l (p ++ q) := by
  intro q
  induction q with
  | nil => intro p _ _; simp
  | cons b q ih =>
    intro p hp hlt
    have hp' : (p ++ [b]) ++ q <+: stationMarker :: ty :: st :: len :: rest := by simpa using hp
    rw [List.foldl_cons, State.takeByte_under_way s l p b hs he, ih _ hp' (by simpa using hlt)]
    · simp
    · apply receiveByte_under_way p b ty st len rest hl hr
      · exact (List.prefix_append _ _).trans hp'
      · simp at hlt; omega

end Sys2Proof.Machine
end

