-- ==== Sys2Proof/Laws/Store.lean ====
section
/-! SUPPORT. The external store's words: every operation keeps the canonical form, and what a read finds after a write. -/

namespace Sys2Proof.Machine.Memory

theorem wfFrom_mono {m : Memory} {a b : Nat} (h : a ≤ b) (hm : wfFrom b m = true) : wfFrom a m = true := by
  cases m with
  | nil => rfl
  | cons e m =>
    simp only [wfFrom, Bool.and_eq_true, decide_eq_true_eq] at hm ⊢
    exact ⟨⟨le_trans h hm.1.1, hm.1.2⟩, hm.2⟩

theorem wfFrom_write {x : Nat} {v : Word16} : ∀ {m : Memory} {low : Nat}, low ≤ x → wfFrom low m = true →
    wfFrom low (write m x v) = true
  | [], low, hx, _ => by
    simp only [write]
    split
    · rfl
    · simp_all [wfFrom]
  | (a, w) :: m, low, hx, hm => by
    simp only [wfFrom, Bool.and_eq_true, decide_eq_true_eq] at hm
    simp only [write]
    split
    · split
      · simp [wfFrom, hm]
      · next hv => simp [wfFrom, hm, hx, hv]; omega
    · split
      · next h1 h2 =>
        subst h2
        split
        · exact wfFrom_mono (by omega) hm.2
        · next hv => simp [wfFrom, hm, hv]
      · next h1 h2 =>
        simp only [wfFrom, Bool.and_eq_true, decide_eq_true_eq]
        exact ⟨hm.1, wfFrom_write (by omega) hm.2⟩

/-- A write keeps the canonical form. -/
theorem wf_write {m : Memory} (x : Nat) (v : Word16) (h : wf m = true) : wf (write m x v) = true :=
  wfFrom_write (Nat.zero_le _) h

theorem wf_writeAll (ws : List (Nat × Word16)) : ∀ {m : Memory}, wf m = true → wf (writeAll m ws) = true := by
  induction ws with
  | nil => exact fun h => h
  | cons w ws ih => exact fun h => ih (wf_write w.1 w.2 h)

theorem wf_ofWords (words : List Word16) : wf (ofWords words) = true :=
  wf_writeAll _ rfl

theorem read_of_wfFrom {y : Nat} : ∀ {m : Memory} {low : Nat}, y < low → wfFrom low m = true →
    read m y = Config.blankWord
  | [], _, _, _ => rfl
  | (a, w) :: m, low, hy, hm => by
    simp only [wfFrom, Bool.and_eq_true, decide_eq_true_eq] at hm
    have : a ≠ y := by omega
    simp only [read, this, if_false]
    exact read_of_wfFrom (by omega) hm.2

theorem read_writeFrom {x y : Nat} {v : Word16} : ∀ {m : Memory} {low : Nat}, wfFrom low m = true →
    read (write m x v) y = if y = x then v else read m y
  | [], low, _ => by
    simp only [write]
    split
    · next hv => subst hv; simp [read]
    · simp only [read, eq_comm]
  | (a, w) :: m, low, hm => by
    simp only [wfFrom, Bool.and_eq_true, decide_eq_true_eq] at hm
    simp only [write]
    split
    · next hx =>
      have hb : y = x → read ((a, w) :: m) y = Config.blankWord := by
        intro e
        have : a ≠ y := by omega
        simp only [read, this, if_false]
        exact read_of_wfFrom (by omega) hm.2
      split
      · next hv =>
        split
        · next e => rw [hb e, hv]
        · rfl
      · simp only [read, eq_comm]
    · split
      · next h1 h2 =>
        subst h2
        split
        · next hv =>
          split
          · next e => subst e; rw [read_of_wfFrom (by omega) hm.2, hv]
          · next e => simp [read, Ne.symm e]
        · simp only [read]
          by_cases e : x = y
          · simp [e]
          · simp [e, Ne.symm e]
      · next h1 h2 =>
        simp only [read]
        rw [read_writeFrom hm.2]
        by_cases e : a = y
        · subst e
          have : a ≠ x := by omega
          simp [this]
        · simp [e]

/-- What a read finds after a write. -/
theorem read_write {m : Memory} (x y : Nat) (v : Word16) (h : wf m = true) :
    read (write m x v) y = if y = x then v else read m y :=
  read_writeFrom h

/-- A read of an address that none of several writes sets finds what it found before. -/
theorem read_writeAll_of_not_mem {y : Nat} (ws : List (Nat × Word16)) : ∀ {m : Memory}, wf m = true →
    y ∉ ws.map Prod.fst → read (writeAll m ws) y = read m y := by
  induction ws with
  | nil => intro m _ _; rfl
  | cons w ws ih =>
    intro m hm hy
    simp only [List.map_cons, List.mem_cons, not_or] at hy
    have e : read (writeAll (write m w.1 w.2) ws) y = read (write m w.1 w.2) y := ih (wf_write _ _ hm) hy.2
    rw [read_write _ _ _ hm, if_neg hy.1] at e
    exact e

/-- What a read finds at an address that one of several writes to distinct addresses set. -/
theorem read_writeAll_of_mem {y : Nat} {v : Word16} (ws : List (Nat × Word16)) : ∀ {m : Memory}, wf m = true →
    (ws.map Prod.fst).Nodup → (y, v) ∈ ws → read (writeAll m ws) y = v := by
  induction ws with
  | nil => intro m _ _ h; simp at h
  | cons w ws ih =>
    intro m hm hn hy
    simp only [List.map_cons, List.nodup_cons] at hn
    rcases List.mem_cons.mp hy with e | e
    · subst e
      have h2 : read (writeAll (write m y v) ws) y = read (write m y v) y :=
        read_writeAll_of_not_mem ws (wf_write _ _ hm) hn.1
      rw [read_write _ _ _ hm, if_pos rfl] at h2
      exact h2
    · exact ih (wf_write _ _ hm) hn.2 e

/-- The store of the machine right after reset is in canonical form. -/
theorem wf_reset : wf State.reset.store = true := rfl

end Sys2Proof.Machine.Memory
end

