-- ==== Sys2Proof/Laws/Image.lean ====
section
/-! SUPPORT. What the words of a saved image read as (R172, R176). -/

namespace Sys2Proof.Machine

open Memory

/-- How many words the modules take. -/
theorem packedModules_length (bodies : List (List Word16)) : (packedModules bodies).length = (bodies.map (fun b =>
    1 + b.length)).sum := by
  induction bodies with
  | nil => rfl
  | cons b bs ih => simp only [packedModules, List.flatMap_cons, List.length_append,
      List.length_cons] at ih ⊢; simp; simp at ih; omega

/-- One address for each module. -/
theorem moduleAddresses_length : ∀ (bodies : List (List Word16)) (a : Nat),
    (moduleAddresses a bodies).length = bodies.length := by
  intro bodies
  induction bodies with
  | nil => intro a; rfl
  | cons b bs ih => intro a; simp [moduleAddresses, ih]

/-- Every word a save writes reads as written. -/
theorem read_saveWrites {m : Memory} (hm : wf m = true) (bodies : List (List Word16)) (h8 : bodies.length = 8) :
    (∀ i (h : i < (packedModules bodies).length),
        read (writeAll m (saveWrites bodies)) (16 + i) = (packedModules bodies)[i]) ∧
    (∀ i (h : i < 14),
        read (writeAll m (saveWrites bodies)) (1 + i) = ((moduleAddresses 16 bodies).map (BitVec.ofNat 16) ++ List.replicate 6 0)[i]'(by simp [moduleAddresses_length, h8]; omega)) ∧
    read (writeAll m (saveWrites bodies)) 15 = checkWord bodies ∧
    read (writeAll m (saveWrites bodies)) 0 = sealedControl (imageLength bodies) := by
  have hl : ((moduleAddresses 16 bodies).map (BitVec.ofNat 16) ++ List.replicate 6 (0 :
      Word16)).length = 14 := by simp [moduleAddresses_length, h8]
  have hz : ∀ (ws : List Word16) (a : Nat), (ws.zipIdx.map (fun (w : Word16 × Nat) => (a + w.2,
      w.1))).map Prod.fst = List.range' a ws.length := by
    intro ws a
    rw [List.map_map]
    have : (Prod.fst ∘ fun (w : Word16 × Nat) => (a + w.2, w.1)) = (fun i => a + i) ∘ Prod.snd := rfl
    rw [this, ← List.map_map, List.zipIdx_map_snd]
    simp [List.map_add_range']
  have hn : ((saveWrites bodies).map Prod.fst).Nodup := by
    unfold saveWrites
    rw [List.map_append, List.map_append, hz, hz, show Config.moduleBase = 16 from rfl, hl]
    simp only [List.map_cons, List.map_nil]
    rw [List.nodup_append, List.nodup_append]
    refine ⟨⟨List.nodup_range', List.nodup_range', ?_⟩, by decide, ?_⟩
    · intro x hx y hy
      rw [List.mem_range'_1] at hx hy
      omega
    · intro x hx y hy
      simp only [List.mem_append, List.mem_range'_1, List.mem_cons, List.not_mem_nil, or_false] at hx hy
      omega
  have hmem : ∀ (ws : List Word16) (a i : Nat) (h : i < ws.length), (a + i, ws[i]) ∈ ws.zipIdx.map (fun (w :
      Word16 × Nat) => (a + w.2, w.1)) := by
    intro ws a i h
    rw [List.mem_map]
    exact ⟨(ws[i], i), by rw [List.mem_zipIdx_iff_getElem?]; simp [h], rfl⟩
  refine ⟨?_, ?_, ?_, ?_⟩
  · intro i h
    apply read_writeAll_of_mem _ hm hn
    unfold saveWrites
    simp only [List.mem_append]
    exact .inl (.inl (hmem _ _ _ h))
  · intro i h
    apply read_writeAll_of_mem _ hm hn
    unfold saveWrites
    simp only [List.mem_append]
    exact .inl (.inr (hmem _ _ _ _))
  · apply read_writeAll_of_mem _ hm hn
    simp [saveWrites]
  · apply read_writeAll_of_mem _ hm hn
    simp [saveWrites]

/-- Each module stands at its address, with its length before it. -/
theorem readWords_packedModules : ∀ (bodies : List (List Word16)) (a : Nat) (mem : Memory) ,
    (∀ i (h : i < (packedModules bodies).length), read mem (a + i) = (packedModules bodies)[i]) →
    ∀ j (hj : j < bodies.length), ∃ x, (moduleAddresses a bodies)[j]? = some x ∧ a ≤ x ∧
        x + 1 + bodies[j].length ≤ a + (packedModules bodies).length ∧ read mem x = BitVec.ofNat 16 bodies[j].length ∧
      readWords mem (x + 1) bodies[j].length = bodies[j] := by
  intro bodies
  induction bodies with
  | nil => intro a mem _ j hj; simp at hj
  | cons b bs ih =>
    intro a mem h j hj
    have hp : packedModules (b :: bs) = (BitVec.ofNat 16 b.length :: b) ++ packedModules bs := rfl
    have hlen : (packedModules (b :: bs)).length = 1 + b.length + (packedModules bs).length := by rw [hp]; simp; omega
    cases j with
    | zero =>
      refine ⟨a, rfl, Nat.le_refl _, by simp only [List.getElem_cons_zero]; omega, ?_, ?_⟩
      · have := h 0 (by omega)
        simpa [hp] using this
      · simp only [List.getElem_cons_zero]
        apply List.ext_getElem
        · simp [readWords]
        · intro i h1 h2
          have := h (1 + i) (by omega)
          simp only [readWords, List.getElem_map, List.getElem_range]
          rw [Nat.add_assoc, this]
          simp only [hp]
          rw [List.getElem_append_left (by simp; omega)]
          simp [Nat.add_comm 1 i]
    | succ j =>
      have hj' : j < bs.length := by simpa using hj
      obtain ⟨x, h1, h2, h3, h4, h5⟩ := ih (a + 1 + b.length) mem (by
        intro i hi
        have := h (1 + b.length + i) (by omega)
        rw [show a + 1 + b.length + i = a + (1 + b.length + i) by omega, this]
        simp only [hp]
        rw [List.getElem_append_right (by simp; omega)]
        congr 1
        simp; omega) j hj'
      exact ⟨x, by simpa [moduleAddresses] using h1, by omega, by simp only [List.getElem_cons_succ]; omega,
          by simpa using h4, by simpa using h5⟩

/-- The sum of a list in two parts. -/
theorem sumWords_append (a b : List Word16) : sumWords (a ++ b) = sumWords a + sumWords b := by
  have : ∀ (l : List Word16) (x : Word16), l.foldl (· + ·) x = x + l.foldl (· + ·) 0 := by
    intro l
    induction l with
    | nil => intro x; simp
    | cons y l ih => intro x; rw [List.foldl_cons, ih, List.foldl_cons, ih (0 + y)]; simp [BitVec.add_assoc]
  unfold sumWords
  rw [List.foldl_append, this]

/-- A word between the first and the last. -/
theorem getElem_between (a c : Word16) (L : List Word16) (i : Nat) (h : i < ([a] ++ L ++ [c]).length) (h0 :
    0 < i) (h1 : i - 1 < L.length) :
    ([a] ++ L ++ [c])[i] = L[i - 1] := by
  rw [List.getElem_append_left (by simp; omega), List.getElem_append_right (by simp; omega)]
  rfl

end Sys2Proof.Machine
end

