-- ==== Sys2Proof/Laws/Inputs.lean ====
section
/-! SUPPORT. What the cold-reset contents of the input tables satisfy (R1, R2, R12). -/

namespace Sys2Proof.Machine

/-- A slot with its cold-reset contents is lawful. -/
theorem MeasSlot.fresh_lawful (l : Option LinkId) (n : Nat) (h : 10 ≤ n ∧ n ≤ 10000) : (MeasSlot.fresh l n).Lawful := by
  refine ⟨rfl, nofun, by simp [MeasSlot.fresh], by simp [MeasSlot.fresh], h.1, h.2, ?_⟩
  intro e; simp [MeasSlot.fresh] at e ⊢; exact e

/-- Slots 48 to 63 are fed by their fast detect inputs. -/
theorem DetSource.fixed_of_ge (d : DetId) (h : 48 ≤ d.val) : ∃ n, DetSource.fixed d = .fastDetect n := by
  unfold DetSource.fixed finOf
  have := d.isLt
  simp only [h, if_true]
  have h2 : d.val - 48 < 16 := by omega
  simp [h2]

/-- Slots 0 to 47 are unmapped where no map entry names them. -/
theorem DetSource.fixed_of_lt (d : DetId) (h : d.val < 48) : DetSource.fixed d = .unmapped := by
  unfold DetSource.fixed finOf
  have h2 : ¬ 48 ≤ d.val := by omega
  simp [h2, show d.val - 48 = 0 by omega]

end Sys2Proof.Machine
end

