-- ==== Sys2Proof/Laws/Order.lean ====
section
/-! SUPPORT. What the free order of log entry 3 can do: an arrangement is a permutation, so each thing is taken once. -/

namespace Sys2Proof.Machine

/-- An arrangement takes each element once. -/
theorem arrangeFrom_perm {α : Type} : ∀ (fuel n : Nat) (xs : List α), (arrangeFrom fuel n xs).Perm xs
  | _, _, [] => by simp [arrangeFrom]
  | _, _, [x] => by simp [arrangeFrom]
  | 0, _, x :: y :: xs => by simp [arrangeFrom]
  | fuel + 1, n, x :: y :: xs => by
    have hlt : Config.pick n % (x :: y :: xs).length < (x :: y :: xs).length := Nat.mod_lt _ (by simp)
    simp only [arrangeFrom, List.getElem?_eq_getElem hlt]
    exact ((arrangeFrom_perm fuel (n + 1) _).cons _).trans (List.getElem_cons_eraseIdx_perm hlt)

theorem State.arrange_perm {α : Type} (s : State) (xs : List α) : (s.arrange xs).Perm xs :=
  arrangeFrom_perm _ _ _

@[simp] theorem State.mem_arrange {α : Type} (s : State) (xs : List α) (x : α) : x ∈ s.arrange xs ↔ x ∈ xs :=
  (s.arrange_perm xs).mem_iff

@[simp] theorem State.arrange_nil {α : Type} (s : State) : s.arrange ([] : List α) = [] := rfl

@[simp] theorem State.arrange_singleton {α : Type} (s : State) (x : α) : s.arrange [x] = [x] := rfl

/-- Doing something for one thing has one order. -/
theorem State.forEachInSomeOrder_singleton {α : Type} (s : State) (x : α) (f : α → State → State) :
    s.forEachInSomeOrder [x] f = f x (s.opened 1) := rfl

end Sys2Proof.Machine
end

