-- ==== Sys2Proof/Laws/Points.lean ====
section
/-! SUPPORT. What keeps the point law (R22): an entry that fits, and the loaded table. -/

namespace Sys2Proof.Machine

/-- A point definition that R21 and R22 take is not its own backup. -/
theorem pointDefOf_ok {p a b c d e f g n x} (h : pointDefOf p a b c d e f g n = some x) : x.backup ≠ some p ∧
    x.timeout = n := by
  unfold pointDefOf at h
  split at h
  · split at h
    · cases h
    · cases h; exact ⟨by assumption, rfl⟩
  · cases h

/-- A list without repeats splits at one of its elements. -/
theorem countP_filterMap_others {P : PointDef → Bool} {f : PointId → Option PointDef} {p : PointId} :
    ∀ {L : List PointId}, L.Nodup → p ∈ L →
    (L.filterMap f).countP P = (L.filterMap (fun q =>
        if q = p then none else f q)).countP P + ((f p).toList.countP P) := by
  intro L
  induction L with
  | nil => simp
  | cons q L ih =>
    intro hn hp
    rw [List.nodup_cons] at hn
    by_cases e : q = p
    · subst e
      have : L.filterMap (fun r => if r = q then none else f r) = L.filterMap f := by
        apply List.filterMap_congr
        intro r hr
        have : r ≠ q := fun h => hn.1 (h ▸ hr)
        simp [this]
      simp only [List.filterMap_cons, if_true, this]
      cases h : f q with
      | none => simp
      | some x => simp [List.countP_cons]
    · have hp' : p ∈ L := by simp at hp; rcases hp with h | h; exact absurd h.symm e; exact h
      have := ih hn.2 hp'
      simp only [List.filterMap_cons, if_neg e]
      cases h : f q with
      | none => simpa using this
      | some x => simp only [List.countP_cons, this]; omega

/-- The point law, as a property of the table. -/
def PointsLawful (points : Vector (Option Point) 128) : Prop :=
  (∀ p q : PointId, ∀ x y : Point, points[p] = some x → points[q] = some y → x.defn.link = y.defn.link →
    x.defn.address = y.defn.address → p = q) ∧
  (∀ l : LinkId, (definedPoints points).countP (fun d => d.link = l) ≤ 32) ∧
  (∀ p : PointId, ∀ x : Point, points[p] = some x →
    2 ≤ x.defn.timeout ∧ x.defn.timeout ≤ 250 ∧ x.defn.backup ≠ some p)

/-- The defined points are the others and the point itself. -/
theorem countP_definedPoints {P : PointDef → Bool} (v : Vector (Option Point) 128) (p : PointId) :
    (definedPoints v).countP P = (othersDefined v p).countP P + ((v[p].map Point.defn).toList.countP P) := by
  have := countP_filterMap_others (P := P) (f := fun q =>
      v[q].map Point.defn) (p := p) (List.nodup_finRange 128) (List.mem_finRange p)
  exact this

/-- An entry that fits keeps the law. -/
theorem PointsLawful_set {links : Vector Link 8} {v : Vector (Option Point) 128} (hv : PointsLawful v) {p :
    PointId} {x : Point}
    (hf : pointFits links v p x.defn = true) (ht : 2 ≤ x.defn.timeout ∧ x.defn.timeout ≤ 250 ∧ x.defn.backup ≠ some p) :
    PointsLawful (v.set p (some x)) := by
  unfold pointFits at hf
  simp only [Bool.and_eq_true, decide_eq_true_eq] at hf
  obtain ⟨⟨-, h1⟩, h2⟩ := hf
  have hother : ∀ q : PointId, ∀ y, q ≠ p → v[q] = some y → ¬ (y.defn.link = x.defn.link ∧
      y.defn.address = x.defn.address) := by
    intro q y hq hy
    rw [List.all_eq_true] at h1
    have := h1 y.defn (by
      unfold othersDefined
      rw [List.mem_filterMap]
      exact ⟨q, List.mem_finRange q, by simp only [if_neg hq, hy, Option.map_some]⟩)
    intro ⟨a, b⟩; simp [a, b] at this
  have he : ∀ q : PointId, (v.set p (some x))[q] = if p = q then some x else v[q] := by
    intro q; simp only [Fin.getElem_fin, Vector.getElem_set, Fin.ext_iff]
  have hoth : othersDefined (v.set p (some x)) p = othersDefined v p := by
    unfold othersDefined
    apply List.filterMap_congr
    intro q _
    by_cases e : q = p
    · simp [e]
    · rw [if_neg e, if_neg e, he, if_neg (Ne.symm e)]
  refine ⟨?_, ?_, ?_⟩
  · intro a b y z ha hb hl had
    rw [he] at ha hb
    by_cases e1 : p = a <;> by_cases e2 : p = b
    · rw [← e1, ← e2]
    · rw [if_pos e1] at ha; rw [if_neg e2] at hb; cases ha
      exact absurd ⟨hl.symm, had.symm⟩ (hother b z (Ne.symm e2) hb)
    · rw [if_neg e1] at ha; rw [if_pos e2] at hb; cases hb
      exact absurd ⟨hl, had⟩ (hother a y (Ne.symm e1) ha)
    · rw [if_neg e1] at ha; rw [if_neg e2] at hb
      exact hv.1 a b y z ha hb hl had
  · intro l
    rw [countP_definedPoints _ p, hoth, he, if_pos rfl]
    simp only [Option.map_some, Option.toList_some, List.countP_cons, List.countP_nil]
    by_cases e : x.defn.link = l
    · subst e; simp; omega
    · have := hv.2.1 l
      rw [countP_definedPoints _ p] at this
      simp [e]; omega
  · intro q y hy
    rw [he] at hy
    split at hy
    · next e => subst e; cases hy; exact ht
    · exact hv.2.2 q y hy

/-- The law speaks of the definitions only. -/
theorem PointsLawful_map {v w : Vector (Option Point) 128} (hv : PointsLawful v) (h : ∀ q : PointId,
    w[q].map Point.defn = v[q].map Point.defn) :
    PointsLawful w := by
  have hd : definedPoints w = definedPoints v := by
    unfold definedPoints
    apply List.filterMap_congr
    intro q _; exact h q
  have hx : ∀ q : PointId, ∀ y, w[q] = some y → ∃ z, v[q] = some z ∧ z.defn = y.defn := by
    intro q y hy
    have := h q
    rw [hy] at this
    simpa using this.symm
  refine ⟨?_, by rw [hd]; exact hv.2.1, ?_⟩
  · intro a b y z ha hb hl had
    obtain ⟨y', hy, ey⟩ := hx a y ha
    obtain ⟨z', hz, ez⟩ := hx b z hb
    exact hv.1 a b y' z' hy hz (by rw [ey, ez, hl]) (by rw [ey, ez, had])
  · intro q y hy
    obtain ⟨y', hy', ey⟩ := hx q y hy
    rw [← ey]; exact hv.2.2 q y' hy'

/-- A loaded entry keeps the law. -/
theorem PointsLawful_loadPointEntry (links : Vector Link 8) (p : PointId) (v : Vector (Option Point) 128) (e :
    List Word16) (hv : PointsLawful v) :
    PointsLawful (loadPointEntry links p v e) := by
  unfold loadPointEntry
  split
  · split
    · next d hd =>
      split
      · next hf =>
        refine PointsLawful_set hv hf ?_
        obtain ⟨h1, h2⟩ := pointDefOf_ok hd
        refine ⟨?_, ?_, h1⟩ <;> simp only [Point.new, h2, imageTimeout, Config.defaultTimeout] <;> split <;> omega
      · exact hv
    · exact hv
  · exact hv

/-- What one entry keeps, a list of them keeps. -/
theorem foldl_keeps_entry {α β} {P : β → Prop} {f : β → α → β} (hf : ∀ x e, P x → P (f x e)) (es : List α) :
    ∀ x, P x → P (es.foldl f x) := by
  induction es with
  | nil => exact fun _ h => h
  | cons e es ih => exact fun x h => ih _ (hf x e h)

/-- The empty table is lawful. -/
theorem PointsLawful_none : PointsLawful (Vector.replicate 128 none) := by
  refine ⟨by simp, ?_, by simp⟩
  intro l
  have : definedPoints (Vector.replicate 128 none) = [] := by
    simp [definedPoints]
  simp [this]

/-- A loaded table is lawful. -/
theorem PointsLawful_pointTable (links : Vector Link 8) (body) : PointsLawful (pointTable links body) := by
  unfold pointTable
  apply foldl_keeps_entry
  · intro v p hv
    exact foldl_keeps_entry (fun v e => PointsLawful_loadPointEntry links p v e) _ _ hv
  · exact PointsLawful_none

end Sys2Proof.Machine
end

