-- ==== Sys2Proof/Laws/Work.lean ====
section
/-! SUPPORT. What the part can do, said once: `Work` lists every kind of change the part makes in an event without
touching a definition, `Change` adds the definition writes, the loads and the cold reset. A property that each kind of
change keeps is kept by every command. -/

namespace Sys2Proof.Machine

open Relation (ReflTransGen)

/-- What of an order its point's record mirrors (R24, R133). -/
def TripOrder.key (o : TripOrder) : PointId × Byte × Byte := (o.point, o.address, o.tag)

/-- One change inside an event, with what holds when it is made. Definitions, the clock outside a tick, the queue of
commands and the mode are never touched. -/
inductive Work : State → State → Prop
  | append (s : State) (kind : EventKind) (sch : Option SchemeId) (pt : Option PointId) (pa : Option PartyId)
      (de : Option Int) : Work s (s.append kind sch pt pa de)
  | request (s : State) (f : Scheme → Bool) (h : ∀ sc, f sc = true → sc.defn.isSome = true) :
      Work s (s.requestPasses f)
  | point (s : State) (p : PointId) (f : Point → Point) (h : ∀ x, (f x).defn = x.defn)
      (ho : ∀ x, s.points[p] = some x → x.orderState = .ordered → (f x).orderState = .ordered ∧
        (f x).lastTag = x.lastTag)
      (hn : ∀ x, s.points[p] = some x → x.orderState ≠ .ordered → (f x).orderState ≠ .ordered) : Work s (s.modPoint p f)
  | links (s : State) (v : Vector Link 8)
      (h : ∀ l : LinkId, v[l].orders.map TripOrder.key = s.links[l].orders.map TripOrder.key) :
      Work s { s with links := v }
  | place (s : State) (p : PointId) (x : Point) (o : TripOrder) (h : s.points[p] = some x)
      (hi : x.orderState ≠ .ordered) (hp : o.point = p) (ha : o.address = x.defn.address) (hb : s.bench = false) :
      Work s ((s.modLink x.defn.link (fun k => { k with nextTag := k.nextTag + 1, orders := k.orders ++ [o] })).modPoint p
        (fun x => { x with orderState := .ordered, lastTag := some o.tag, lastOutcome := .none }))
  | endOrder (s : State) (l : LinkId) (p : PointId) (f : Point → Point)
      (hf : ∀ x, (f x).defn = x.defn ∧ (f x).orderState ≠ .ordered)
      (h : (∃ o ∈ s.links[l].orders, o.point = p) ∨ ∀ x, s.points[p] = some x → x.orderState ≠ .ordered) :
      Work s ((s.modPoint p f).discardOrder l p)
  | late (s : State) (v : Vector (List WaitRef) 128) : Work s { s with lateLists := v }
  | count (s : State) (n : BitVec 32) : Work s { s with execCount := n }
  | opened (s : State) (n : Nat) : Work s { s with openCount := n }
  | party (s : State) (p : PartyId) (f : PartyLink → PartyLink) : Work s (s.modParty p f)
  | warm (s : State) (w : WarmRequest) : Work s { s with warm := w }
  | tick (s : State) : Work s { s with clock := s.clock + 1 }
  -- the input tables
  | rise (s : State) (d : DetId) (h : s.det[d].source ≠ .unmapped ∨ 48 ≤ d.val) :
      Work s { s.modDet d (fun x => { x with asserted := true, lastRise := some s.clock }) with
                recentRise := s.recentRise.set d true }
  | fall (s : State) (d : DetId) : Work s (s.modDet d (fun x => { x with asserted := false }))
  | riseExpired (s : State) (d : DetId) : Work s { s with recentRise := s.recentRise.set d false }
  | fresh (s : State) (m : MeasId) (v : Int) (q : Quality) (t : Time) (h : s.meas[m].link.isSome = true)
      (hv : -32767 ≤ v ∧ v ≤ 32767) :
      Work s (s.modMeas m (fun x =>
        { x with value := some v, held := v, quality := q, lastUpdate := some t, stale := false }))
  | stale (s : State) (m : MeasId) (f : MeasSlot → MeasSlot)
      (hf : ∀ x, f x = { x with value := none, stale := true, quality := (f x).quality })
      (h : s.meas[m].link.isSome = true ∨ s.meas[m].stale = false) : Work s (s.modMeas m f)
  | tables (s : State) : Work s s.warmTables
  -- the engine
  | flag (s : State) (k : SchemeId) : Work s (s.modScheme k (fun sc => { sc with pendingPass := false }))
  | begin (s : State) (k : SchemeId) (d : SchemeDef) (hd : s.schemes[k].defn = some d)
      (hr : (s.schemes[k]).state.runsPasses = true) (hs : s.storeOp ≠ .coldLoad) (he : s.engine = none) :
      Work s { s with engine := some (s.newPass k d) }
  | walk (s : State) (x : Pass) (n m : Nat) (h : s.engine = some x) :
      Work s { s with
        engine := some { x with walk := s.walkOn x.inputs.figures x.walk.remaining n x.walk }, openCount := m }
  | free (s : State) : Work s { s with engine := none }
  | install (s : State) (x : Pass) (h : s.engine = some x) (hv : x.void = false) :
      Work s (State.modScheme { s with engine := none } x.scheme
        (fun sc => { sc with live := some (s.checkedRecord x.inputs.figures (s.finishedWalk x)) }))
  | arm (s : State) (k : SchemeId) (g : Gen) (hp : s.schemes[k].state = .primed)
      (hl : s.schemes[k].live.isSome = true) (hg : g = nextArmGen s.schemes[k].armGen) :
      Work s (((s.modScheme k (fun sc => { sc with state := .armed, armGen := g, rearming := false })).append
        .schemeArmed (some k) none none (some (g.toNat : Int))).modScheme k
        (fun sc => { sc with latch := none, rearming := false }))
  | unlatch (s : State) (k : SchemeId) (f : Scheme → Scheme)
      (hf : ∀ sc, f sc = { sc with latch := none, rearming := (f sc).rearming } ∧
        ((f sc).rearming = true → sc.rearming = true)) : Work s (s.modScheme k f)
  | without (s : State) (p : PointId) :
      Work s { s with schemes := mapV (fun (sc : Scheme) =>
        if sc.holdsPoint p then { sc with live := sc.live.map (fun r => r.without p) } else sc) s.schemes }
  -- triggers and executions
  | take (s : State) (k : SchemeId) (r : TriggerRecord) (h : s.schemes[k].live = some r.snapshot)
      (ha : s.schemes[k].state = .armed) : Work s (s.modScheme k (fun sc => { sc with record := some r }))
  | fire (s : State) (k : SchemeId) (h : s.schemes[k].state = .armed) :
      Work s (s.modScheme k (fun sc => { sc with state := .firing }))
  | latch (s : State) (k : SchemeId) (t : Trigger) (h : s.schemes[k].latch = none)
      (hs : s.schemes[k].state = .firing ∨ (s.schemes[k].state = .primed ∧ s.schemes[k].rearming = true)) :
      Work s (s.modScheme k (fun sc => { sc with latch := some t }))
  | record (s : State) (k : SchemeId) (f : TriggerRecord → TriggerRecord) (h : ∀ r, (f r).snapshot = r.snapshot) :
      Work s (s.modScheme k (fun sc => { sc with record := sc.record.map f }))
  | rearm (s : State) (k : SchemeId) (h : s.schemes[k].state = .firing) :
      Work s (s.modScheme k (fun sc => { sc with state := .primed, rearming := true, pendingPass := true }))
  | lockout (s : State) (k : SchemeId) (h : s.schemes[k].state = .firing) :
      Work s (((s.modScheme k (fun sc =>
        { sc with state := .lockout, consents := Vector.replicate 4 none })).voidPass k).dropLatch k)
  -- the requests on a scheme's state
  | enable (s : State) (k : SchemeId) (d : SchemeDef) (hd : s.schemes[k].defn = some d)
      (h : s.schemes[k].state = .disabled) (hl : s.loading = false) :
      Work s (s.modScheme k (fun sc => { sc with state := .standby }))
  | disable (s : State) (k : SchemeId) (d : SchemeDef) (pa : Option PartyId) (de : Option Int)
      (hd : s.schemes[k].defn = some d) (h : s.schemes[k].state ≠ .firing) :
      Work s ((((s.modScheme k (fun sc =>
          { sc with state := .disabled, consents := Vector.replicate 4 none, live := none,
                    rearming := false })).voidPass k).append .schemeDisabled (some k) none pa de).dropLatch k)
  | consent (s : State) (k : SchemeId) (p : PartyId) (d : SchemeDef) (hd : s.schemes[k].defn = some d)
      (ha : d.hasAuthority p = true) (h : s.schemes[k].state = .standby) :
      Work s (s.modScheme k (fun sc => { sc with consents := sc.consents.set p (some d.defGen) }))
  | prime (s : State) (k : SchemeId) (d : SchemeDef) (hd : s.schemes[k].defn = some d)
      (hm : s.schemes[k].missing d = []) (h : s.schemes[k].state = .standby) :
      Work s (s.modScheme k (fun sc => { sc with state := .primed, pendingPass := true }))
  | withdraw (s : State) (k : SchemeId) (p : PartyId) (d : SchemeDef) (pa : Option PartyId) (de : Option Int)
      (hd : s.schemes[k].defn = some d)
      (h : s.schemes[k].state = .standby ∨ s.schemes[k].state = .primed ∨ s.schemes[k].state = .armed) :
      Work s ((((s.modScheme k (fun sc =>
          { sc with state := .standby, consents := sc.consents.set p none, live := none,
                    rearming := false })).voidPass k).append .withdraw (some k) none pa de).dropLatch k)
  | resetLockout (s : State) (k : SchemeId) (h : s.schemes[k].state = .lockout) :
      Work s (s.modScheme k (fun sc => { sc with state := .standby }))
  -- the event record's readers
  | reader (s : State) (p : PartyId) (n : Nat) (h : n ≤ s.lag p) :
      Work s { s with readers := (s.readers.set p
        (Reader.mk (s.readers[p].cursor + BitVec.ofNat 32 n) 0 (decide (s.lag p - n ≠ 0)))) }
  -- the store interface and the warm reset
  | storeOp (s : State) (op : StoreOp) (h : op ≠ .coldLoad)
      (hl : ∀ p, op = .load p → ∀ k : SchemeId, s.schemes[k].defn = none ∨ s.schemes[k].state = .disabled) :
      Work s { s with storeOp := op }
  | store (s : State) (m : Memory) (h : Memory.wf s.store = true → Memory.wf m = true) : Work s { s with store := m }
  | warmLinks (s : State) (v : Vector Link 8)
      (h : ∀ l : LinkId, v[l].orders.map TripOrder.key = s.links[l].orders.map TripOrder.key) : Work s { s with links := v, warm := .none, engine := none }
  | warmSchemes (s : State) (h : ∀ k : SchemeId, s.schemes[k].latch = none) :
      Work s { s with schemes := mapV Scheme.warm s.schemes }

/-- Any number of changes. -/
abbrev Works := ReflTransGen Work

/-- A change, or one that writes a definition, loads the tables, or belongs to the cold reset. -/
inductive Change : State → State → Prop
  | work {s t : State} (h : Work s t) : Change s t
  | write (s : State) (k : SchemeId) (sec : Section) (c : List Byte) (d d' : SchemeDef)
      (hd : s.schemes[k].defn = some d) (h : s.schemes[k].state = .disabled) (hw : writtenSection sec c d = some d')
      (hg : d.defGen ≠ genMax) (hl : s.loading = false) :
      Change s (s.modScheme k (fun sc => { sc with defn := some { d' with defGen := d.defGen + 1 } }))
  | define (s : State) (k : SchemeId) (c : List Byte) (h : HeaderFields) (hd : s.schemes[k].defn = none)
      (hp : parseHeader c = some h) (hl : s.loading = false) :
      Change s (s.modScheme k (fun sc => { Scheme.undefined sc.armGen with defn := some (.new h) }))
  | protect (s : State) (k : SchemeId) (d : SchemeDef) (x : Protection) (hd : s.schemes[k].defn = some d) :
      Change s (s.modScheme k (fun sc => { sc with defn := some { d with protection := x } }))
  | definePoint (s : State) (p : PointId) (b : PointBody) (d : PointDef) (h : s.points[p] = none)
      (hw : writtenPoint b p = some d) (hf : pointFits s.links s.points p d = true) :
      Change s { s with points := s.points.set p (some (.new d .blocked)) }
  | rewritePoint (s : State) (p : PointId) (b : PointBody) (x : Point) (d : PointDef) (f : Point → Point)
      (h : s.points[p] = some x) (hw : writtenPoint b p = some d) (hf : pointFits s.links s.points p d = true)
      (hd : ∀ y, (f y).defn = d) (ho : x.orderState ≠ .ordered)
      (hn : ∀ y, y.orderState ≠ .ordered → (f y).orderState ≠ .ordered) : Change s (s.modPoint p f)
  | load (s : State) (m : Memory) (image : Option Image) (h : s.storeOp = .coldLoad ∨ s.loading = true)
      (hm : Memory.wf s.store = true → Memory.wf m = true) :
      Change s (State.loadTables { s with store := m, storeOp := .idle } image)
  | assertReset (s : State) : Change s s.assertReset
  | cold (s : State) (bench : Bool) :
      Change s (State.cold bench s.store (mapV PartyLink.restarted s.parties) s.pending s.openCount)

abbrev Changes := ReflTransGen Change

theorem Works.changes {s t : State} (h : Works s t) : Changes s t := by
  induction h with
  | refl => exact .refl
  | tail _ w ih => exact ih.tail (.work w)

/-- What one change keeps, any number keeps. -/
theorem Works.keeps {P : State → Prop} (step : ∀ s t, Work s t → P s → P t) {s t : State} (h : Works s t) (hs : P s) :
    P t := by
  induction h with
  | refl => exact hs
  | tail _ w ih => exact step _ _ w ih

theorem Changes.keeps {P : State → Prop} (step : ∀ s t, Change s t → P s → P t) {s t : State} (h : Changes s t)
    (hs : P s) : P t := by
  induction h with
  | refl => exact hs
  | tail _ w ih => exact step _ _ w ih

/-! ## Composing: each lemma adds one operation at the end -/

namespace Works

variable {s t u : State}

theorem of (h : Work s t) : Works s t := .single h

theorem trans (h : Works s t) (h' : Works t u) : Works s u := Relation.ReflTransGen.trans h h'

theorem after (h : Work t u) (h' : Works s t) : Works s u := h'.tail h

theorem ite {c : Prop} [Decidable c] (h : Works s t) (h' : Works s u) : Works s (if c then t else u) := by
  split <;> assumption

theorem foldl {α : Type} {f : State → α → State} (hf : ∀ s x, Works s (f s x)) (xs : List α) (h : Works s t) :
    Works s (xs.foldl f t) := by
  induction xs generalizing t with
  | nil => exact h
  | cons x xs ih => exact ih (h.trans (hf t x))

theorem forEach {α : Type} {f : α → State → State} (hf : ∀ x s, Works s (f x s)) (xs : List α) (h : Works s t) :
    Works s (t.forEachInSomeOrder xs f) :=
  foldl (fun s x => hf x s) _ (h.tail (.opened t (t.openCount + xs.length)))

theorem modLink {l : LinkId} {f : Link → Link}
    (hf : ∀ k, (f k).orders.map TripOrder.key = k.orders.map TripOrder.key) (h : Works s t) : Works s (t.modLink l f) :=
  h.tail (.links t (modV t.links l f) (fun j => by
    simp only [Fin.getElem_fin, getElem_modV]
    split
    · exact hf _
    · rfl))

theorem requestForPoint {p : PointId} (h : Works s t) : Works s (t.requestForPoint p) :=
  h.tail (.request t _ (fun sc h => by unfold Scheme.lists at h; split at h <;> simp_all))

theorem requestForSlot {m : MeasId} (h : Works s t) : Works s (t.requestForSlot m) :=
  h.tail (.request t _ (fun sc h => by unfold Scheme.dependsOn at h; split at h <;> simp_all))

theorem append {kind : EventKind} {sch : Option SchemeId} {pt : Option PointId} {pa : Option PartyId}
    {de : Option Int} (h : Works s t) : Works s (t.append kind sch pt pa de) := h.tail (.append t kind sch pt pa de)

/-- A change of a point that leaves its definition, order state and last tag. -/
theorem point {p : PointId} {f : Point → Point}
    (hf : ∀ x, (f x).defn = x.defn ∧ (f x).orderState = x.orderState ∧ (f x).lastTag = x.lastTag) (h : Works s t) :
    Works s (t.modPoint p f) :=
  h.tail (.point t p f (fun x => (hf x).1) (fun x _ e => ⟨(hf x).2.1.trans e, (hf x).2.2⟩)
    (fun x _ e => fun e' => e ((hf x).2.1.symm.trans e')))

theorem late {v : Vector (List WaitRef) 128} (h : Works s t) : Works s { t with lateLists := v } := h.tail (.late t v)

theorem party {p : PartyId} {f : PartyLink → PartyLink} (h : Works s t) : Works s (t.modParty p f) :=
  h.tail (.party t p f)

theorem modEntry {ref : WaitRef} {f : EntryResult → EntryResult} (h : Works s t) : Works s (t.modEntry ref f) :=
  h.tail (.record t ref.scheme (fun r => if r.execution = ref.execution then
    { r with entries := r.entries.modify ref.position f } else r) (fun r => by split <;> rfl))

theorem finishEntry {ref : WaitRef} {o : EntryOutcome} (h : Works s t) : Works s (t.finishEntry ref o) := h.modEntry

end Works

end Sys2Proof.Machine
end

