-- ==== Sys2Proof/Laws/WorkOps.lean ====
section
/-! SUPPORT. Each shared operation of the blocks is a sequence of the changes that `Work` lists. -/

namespace Sys2Proof.Machine

open Relation (ReflTransGen)

/-- The order in flight for a point is on the point's own link. -/
theorem State.orderOf_mem {s : State} {p : PointId} {l : LinkId} {o : TripOrder} (h : s.orderOf p = some (l, o)) :
    ∃ x, s.points[p] = some x ∧ o ∈ s.links[l].orders ∧ o.point = p := by
  unfold State.orderOf at h
  split at h
  · next x hx =>
    obtain ⟨u, hu, e⟩ := Option.map_eq_some_iff.1 h
    cases e
    exact ⟨x, hx, List.mem_of_find?_eq_some hu, by simpa using List.find?_some hu⟩
  · cases h

/-! A point's record is apart from the records that the other operations write. -/

theorem State.modPoint_append (s : State) (p : PointId) (f : Point → Point) (kind : EventKind) (sch : Option SchemeId)
    (pt : Option PointId) (pa : Option PartyId) (de : Option Int) :
    (s.append kind sch pt pa de).modPoint p f = (s.modPoint p f).append kind sch pt pa de := rfl

theorem State.modPoint_modEntry (s : State) (p : PointId) (f : Point → Point) (ref : WaitRef)
    (g : EntryResult → EntryResult) : (s.modEntry ref g).modPoint p f = (s.modPoint p f).modEntry ref g := rfl

theorem State.modPoint_requestForPoint (s : State) (p q : PointId) (f : Point → Point) :
    (s.requestForPoint q).modPoint p f = (s.modPoint p f).requestForPoint q := rfl

namespace Works

variable {s t : State}

/-! ## Points, orders and executions -/

theorem completeBlock {p : PointId} (h : Works s t) : Works s (t.completeBlock p) := by
  unfold State.completeBlock
  split
  · split
    · refine requestForPoint ?_
      refine append ?_
      exact h.point (fun _ => ⟨rfl, rfl, rfl⟩)
    · exact h
  · exact h

theorem placeOrder {p : PointId} {x : Point} {o : TripOrder} (hx : t.points[p] = some x)
    (hi : x.orderState ≠ .ordered) (hp : o.point = p) (ha : o.address = x.defn.address) (hb : t.bench = false)
    (h : Works s t) : Works s (t.placeOrder p x.defn o) := by
  unfold State.placeOrder
  refine requestForPoint ?_
  refine late ?_
  simpa only [hb, Bool.false_eq_true, if_false] using h.tail (.place t p x o hx hi hp ha hb)

theorem dropLatch {k : SchemeId} (h : Works s t) : Works s (t.dropLatch k) := by
  unfold State.dropLatch
  split
  · exact append (h.tail (.unlatch t k _ (fun _ => ⟨rfl, id⟩)))
  · exact h

theorem completeExecution {k : SchemeId} (hf : (t.schemes[k]).state = .firing) (h : Works s t) :
    Works s (t.completeExecution k) := by
  unfold State.completeExecution
  split
  · exact h
  · next r hr =>
    have e : t.modScheme k (fun sc =>
          { sc with record := some { r with completion := some t.clock, delivered := some r.deliveredAmount } }) =
        t.modScheme k (fun sc => { sc with record := sc.record.map (fun r =>
          { r with completion := some t.clock, delivered := some r.deliveredAmount }) }) := by
      unfold State.modScheme modV
      simp only [hr, Option.map_some]
    have h1 : Works s (t.modScheme k (fun sc =>
        { sc with record := some { r with completion := some t.clock, delivered := some r.deliveredAmount } })) := by
      rw [e]
      exact h.tail (.record t k _ (fun _ => rfl))
    dsimp only
    split
    · exact h1.append.tail (.rearm _ k (by simpa using hf))
    · exact h1.append.tail (.lockout _ k (by simpa using hf))

theorem completeIfDone {k : SchemeId} (h : Works s t) : Works s (t.completeIfDone k) := by
  unfold State.completeIfDone
  split
  · next hd =>
    refine completeExecution ?_ h
    unfold Scheme.executionDone at hd
    split at hd
    · simp only [Bool.and_eq_true, decide_eq_true_eq] at hd
      exact hd.1.1
    · simp at hd
  · exact h

theorem completeAll {refs : List WaitRef} (h : Works s t) : Works s (t.completeAll refs) :=
  h.foldl (fun _ _ => completeIfDone .refl) _

/-- An order of link `l` is confirmed, or an order of no link for a point that is not ORDERED. -/
theorem confirmOrder {l : LinkId} {o : TripOrder} {c : ConfirmCause}
    (ho : (∃ u ∈ t.links[l].orders, u.point = o.point) ∨ ∀ x, t.points[o.point] = some x → x.orderState ≠ .ordered)
    (h : Works s t) : Works s (t.confirmOrder l o c) := by
  unfold State.confirmOrder
  refine completeAll ?_
  refine foldl (fun _ _ => finishEntry .refl) _ ?_
  refine completeBlock ?_
  refine requestForPoint ?_
  refine append ?_
  exact h.tail (.endOrder t l o.point _ (fun _ => ⟨rfl, by simp⟩) ho)

/-- In bench mode an order that is placed and confirmed at once (R151) leaves the state it leaves where its point goes
from IDLE to TRIPPED directly. -/
theorem benchOrder {p : PointId} {x : Point} {o : TripOrder} {ref : WaitRef} {f : EntryResult → EntryResult}
    {kind : EventKind} {sch : Option SchemeId} {pt : Option PointId} {pa : Option PartyId} {de : Option Int}
    {c : ConfirmCause} (hx : t.points[p] = some x) (hi : x.orderState ≠ .ordered) (hp : o.point = p)
    (hb : t.bench = true) (h : Works s t) :
    Works s ((((t.placeOrder p x.defn o).modEntry ref f).append kind sch pt pa de).confirmOrder x.defn.link o c) := by
  subst hp
  let placed : State := State.requestForPoint { (t.modLink x.defn.link (fun k => { k with nextTag := k.nextTag + 1 })).modPoint
    o.point (fun x => { x with orderState := .tripped, lastTag := some o.tag, lastOutcome := .none }) with
      lateLists := modV t.lateLists o.point (fun _ => []) } o.point
  have e : (((t.placeOrder o.point x.defn o).modEntry ref f).append kind sch pt pa de).confirmOrder x.defn.link o c =
      ((placed.modEntry ref f).append kind sch pt pa de).confirmOrder x.defn.link o c := by
    have key : (((t.placeOrder o.point x.defn o).modEntry ref f).append kind sch pt pa de).modPoint o.point
          (fun x => { x with orderState := .tripped, lastOutcome := .confirmed }) =
        ((placed.modEntry ref f).append kind sch pt pa de).modPoint o.point
          (fun x => { x with orderState := .tripped, lastOutcome := .confirmed }) := by
      simp only [State.modPoint_append, State.modPoint_modEntry, placed, State.placeOrder, hb, if_true,
        State.modPoint_requestForPoint]
      congr 3
      simp only [State.modPoint, modV_modV]
      congr 2
      funext y
      cases y <;> rfl
    unfold State.confirmOrder
    rw [key]
  rw [e]
  refine confirmOrder (.inr ?_) ?_
  · intro y hy
    have : placed.points[o.point] = some { x with orderState := .tripped, lastTag := some o.tag, lastOutcome := .none } := by
      simp only [Fin.getElem_fin] at hx
      simp [placed, hx]
    simp only [State.append_points, State.modEntry, State.modScheme_points, this, Option.some.injEq] at hy
    simp [← hy]
  · refine append (modEntry (requestForPoint (late ?_)))
    refine after (.point _ o.point _ (fun _ => rfl) ?_ (by simp)) (h.modLink (fun _ => rfl))
    intro y hy
    simp only [State.modLink_points, hx, Option.some.injEq] at hy
    exact fun e' => absurd (hy ▸ e') hi

theorem joinOrder {l : LinkId} {p : PointId} {ref : WaitRef} (h : Works s t) : Works s (t.joinOrder l p ref) := by
  refine h.modLink (fun k => ?_)
  simp only [List.map_map]
  apply List.map_congr_left
  intro o _
  simp only [Function.comp_apply]
  split <;> rfl

theorem requestBackup {failed b : PointId} {ref : WaitRef} (h : Works s t) :
    Works s (t.requestBackup failed b ref) := by
  unfold State.requestBackup
  split
  · split
    · next x hx _ _ hi _ =>
      dsimp only
      by_cases hb : t.bench = true
      · simp only [State.append_bench, State.modEntry_bench, State.placeOrder_bench, hb, if_true]
        exact benchOrder hx (by simp [hi]) rfl hb h
      · have hb' : t.bench = false := by simpa using hb
        simp only [State.append_bench, State.modEntry_bench, State.placeOrder_bench, hb', Bool.false_eq_true, if_false]
        exact append (modEntry (placeOrder hx (by simp [hi]) rfl rfl hb' h))
    · dsimp only
      split
      · exact modEntry h.joinOrder
      · exact h
    · exact h.modEntry.finishEntry
  · exact h.modEntry.finishEntry

theorem failEntry {o : TripOrder} {backup : Option PointId} {r : WaitRef × Nat} (h : Works s t) :
    Works s (State.failEntry o backup t r) := by
  unfold State.failEntry
  split
  · exact h.finishEntry
  · split
    · split
      · exact h.finishEntry
      · exact h.requestBackup
    · exact h.finishEntry

theorem failOrder {l : LinkId} {o : TripOrder} {e : Bool}
    (ho : (∃ u ∈ t.links[l].orders, u.point = o.point) ∨ ∀ x, t.points[o.point] = some x → x.orderState ≠ .ordered)
    (h : Works s t) : Works s (t.failOrder l o e) := by
  unfold State.failOrder
  refine completeAll ?_
  refine late ?_
  refine foldl (fun _ _ => failEntry .refl) _ ?_
  refine requestForPoint ?_
  refine append ?_
  exact h.tail (.endOrder t l o.point _ (fun _ => ⟨rfl, by simp⟩) ho)

theorem takeLateEcho {p : PointId} {tag : Byte} (h : Works s t) : Works s (t.takeLateEcho p tag) := by
  unfold State.takeLateEcho
  refine late ?_
  refine foldl (fun _ _ => modEntry .refl) _ ?_
  have h1 : Works s (t.modPoint p (fun x =>
      { x with orderState := if x.orderState = .idle then .tripped else x.orderState, lastOutcome := .confirmed })) :=
    h.tail (.point t p _ (fun _ => rfl) (fun x _ e => by simp [e]) (fun x _ e => by
      dsimp only; split
      · simp
      · exact e))
  exact ite (requestForPoint (append h1)) (append h1)

theorem fireEntry {k : SchemeId} {n : BitVec 32} {e : (PointId × Nat) × Nat} (h : Works s t) :
    Works s (State.fireEntry k n t e) := by
  unfold State.fireEntry
  dsimp only
  split
  · split
    · next x hx _ _ hi _ =>
      by_cases hb : t.bench = true
      · simp only [State.append_bench, State.modEntry_bench, State.placeOrder_bench, hb, if_true]
        exact benchOrder hx (by simp [hi]) rfl hb h
      · have hb' : t.bench = false := by simpa using hb
        simp only [State.append_bench, State.modEntry_bench, State.placeOrder_bench, hb', Bool.false_eq_true, if_false]
        exact append (modEntry (placeOrder hx (by simp [hi]) rfl rfl hb' h))
    · split
      · exact modEntry h.joinOrder
      · exact h
    · exact h.modEntry.finishEntry
    · exact h.modEntry.finishEntry
  · exact h.modEntry.finishEntry

/-! ## Triggers -/

theorem takeTrigger {k : SchemeId} {x : Trigger} {replayed : Bool} (ha : (t.schemes[k]).state = .armed)
    (h : Works s t) : Works s (t.takeTrigger k x replayed) := by
  unfold State.takeTrigger
  split
  · exact h
  · next snap hl =>
    refine completeIfDone ?_
    refine foldl (fun _ _ => fireEntry .refl) _ ?_
    refine after (.fire _ k (by simpa using ha)) ?_
    refine append ?_
    exact (h.tail (.count t _)).tail
      (.take _ k _ (by simpa [Scheme.newRecord] using hl) (by simpa using ha))

theorem latchTrigger {k : SchemeId} {x : Trigger}
    (hs : (t.schemes[k]).state = .firing ∨ ((t.schemes[k]).state = .primed ∧ (t.schemes[k]).rearming = true))
    (h : Works s t) : Works s (t.latchTrigger k x) := by
  unfold State.latchTrigger
  split
  · next hn => exact append (h.tail (.latch t k x hn hs))
  · exact h.append

theorem answerTrigger {k : SchemeId} {x : Trigger} (h : Works s t) : Works s (t.answerTrigger k x) := by
  unfold State.answerTrigger
  split
  · next hs => exact h.takeTrigger hs
  · next hs => exact h.latchTrigger (.inl hs)
  · next hs =>
    split
    · next hr => exact h.latchTrigger (.inr ⟨hs, hr⟩)
    · exact h.append
  · exact h.append
  · exact h.append
  · exact h

theorem replayLatch {k : SchemeId} (h : Works s t) : Works s (t.replayLatch k) := by
  unfold State.replayLatch
  split
  · split
    · next hs =>
      refine takeTrigger (by simpa using hs) ?_
      exact h.tail (.unlatch t k _ (fun _ => ⟨rfl, by simp⟩))
    · exact h
  · exact h

/-! ## Detections -/

theorem statusRise {p : PointId} (h : Works s t) : Works s (State.statusRise p t) := by
  unfold State.statusRise
  split
  · split
    · next hs =>
      refine requestForPoint ?_
      exact h.tail (.point t p _ (fun _ => rfl) (fun y hy e => absurd e (by simp_all)) (by simp))
    · split
      · next ho =>
        refine h.confirmOrder (.inl ?_)
        obtain ⟨y, hy, hm, hp⟩ := State.orderOf_mem ho
        exact ⟨_, hm, rfl⟩
      · exact h
    · exact h
  · exact h

theorem statusClear {p : PointId} (h : Works s t) : Works s (State.statusClear p t) := by
  unfold State.statusClear
  split
  · split
    · next hs =>
      refine requestForPoint ?_
      exact h.tail (.point t p _ (fun _ => rfl) (fun y hy e => absurd e (by simp_all)) (by simp))
    · exact h
    · exact h
  · exact h

theorem monitorTakesRise {d : DetId} (h : Works s t) : Works s (t.monitorTakesRise d) :=
  h.forEach (fun _ _ => answerTrigger .refl) _

theorem pointsTakeRise {d : DetId} (h : Works s t) : Works s (t.pointsTakeRise d) :=
  h.forEach (fun _ _ => statusRise .refl) _

theorem handOnRise {d : DetId} (h : Works s t) : Works s (t.handOnRise d) := by
  unfold State.handOnRise
  split
  · exact h.monitorTakesRise
  · exact h.pointsTakeRise
  · split
    · exact (monitorTakesRise (h.tail (.opened t _))).pointsTakeRise
    · exact (pointsTakeRise (h.tail (.opened t _))).monitorTakesRise

theorem assertSlot {d : DetId} (hd : t.det[d].source ≠ .unmapped ∨ 48 ≤ d.val) (h : Works s t) :
    Works s (t.assertSlot d) := by
  unfold State.assertSlot
  split
  · exact h
  · exact handOnRise (h.tail (.rise t d hd))

theorem clearSlot {d : DetId} (h : Works s t) : Works s (t.clearSlot d) := by
  unfold State.clearSlot
  split
  · exact foldl (fun _ _ => statusClear .refl) _ (h.tail (.fall t d))
  · exact h

/-! ## The engine -/

theorem takeFlag {k : SchemeId} (hs : t.storeOp ≠ .coldLoad) (h : Works s t) : Works s (t.takeFlag k) := by
  unfold State.takeFlag
  split
  · next hf =>
    have h1 : Works s (t.modScheme k (fun sc => { sc with pendingPass := false })) := h.tail (.flag t k)
    dsimp only
    split
    · next d hd =>
      split
      · next hr =>
        exact h1.tail (.begin (t.modScheme k (fun sc => { sc with pendingPass := false })) k d
          (by simpa using hd) (by simpa using hr) hs hf.1)
      · exact h1
    · exact h1
  · exact h

end Works

theorem State.takeFlag_storeOp (s : State) (k : SchemeId) : (s.takeFlag k).storeOp = s.storeOp := by
  unfold State.takeFlag
  split
  · dsimp only
    split
    · split <;> rfl
    · rfl
  · rfl

namespace Works

variable {s t : State}

theorem takeFlags (h : Works s t) : Works s t.takeFlags := by
  unfold State.takeFlags
  split
  · exact h
  · next hn =>
    have hs : t.storeOp ≠ .coldLoad := by simpa [State.starting] using hn
    clear hn
    generalize List.finRange 32 = ks
    induction ks generalizing t with
    | nil => exact h
    | cons k ks ih => exact ih (h.takeFlag hs) (by rw [State.takeFlag_storeOp]; exact hs)

theorem advanceWalk (h : Works s t) : Works s t.advanceWalk := by
  unfold State.advanceWalk
  split
  · next x hx => exact h.tail (.walk t x _ _ hx)
  · exact h

/-- A scheme told of an installation: it is PRIMED and arms, or nothing happens (R71). -/
theorem tellInstalled {k : SchemeId} (hl : (t.schemes[k]).live.isSome = true) (h : Works s t) :
    Works s (t.tellInstalled k) := by
  unfold State.tellInstalled
  split
  · next hp =>
    have h1 := h.tail (.arm t k _ hp hl rfl)
    dsimp only
    unfold State.replayLatch
    split
    · next x hx =>
      rw [if_pos (by simp)]
      exact takeTrigger (by simp) h1
    · next hx =>
      have e : ∀ u : State, (u.schemes[k]).latch = none → (u.schemes[k]).rearming = false →
          u = u.modScheme k (fun sc => { sc with latch := none, rearming := false }) := by
        intro u h1 h2
        unfold State.modScheme
        rw [modV_self]
        rw [← h1, ← h2]
      rw [e _ hx (by simp)]
      exact h1
  all_goals exact h

theorem install {x : Pass} (hx : t.engine = some x) (hv : x.void = false) (h : Works s t) :
    Works s (State.install { t with engine := none } x.scheme
      (t.checkedRecord x.inputs.figures (t.finishedWalk x))) := by
  unfold State.install
  refine foldl (fun _ _ => completeBlock .refl) _ ?_
  have h1 := h.tail (.install t x hx hv)
  dsimp only
  split
  · exact tellInstalled (by simp) (append h1)
  · exact tellInstalled (by simp) h1

theorem completePass (h : Works s t) : Works s t.completePass := by
  unfold State.completePass
  split
  · next x hx =>
    split
    · exact h.tail (.free t)
    · next hv => exact h.install hx (by simpa using hv)
  · exact h

end Works

end Sys2Proof.Machine
end

