-- ==== Sys2Proof/Laws/WorkEvents.lean ====
section
/-! SUPPORT. Every event and every command is a sequence of the changes that `Work` and `Change` list. -/

namespace Sys2Proof.Machine

open Relation (ReflTransGen)

/-! ## The positions of orders are no part of their keys -/

/-- Orders that change only their positions keep their keys. -/
theorem TripOrder.map_key {c : TripOrder → Prop} [DecidablePred c] {q : OrderPosition} (os : List TripOrder) :
    (os.map (fun o => if c o then { o with position := q } else o)).map TripOrder.key = os.map TripOrder.key := by
  simp only [List.map_map]
  apply List.map_congr_left
  intro o _
  simp only [Function.comp_apply]
  split <;> rfl

theorem Link.startFrame_keys (b : Bool) (k : Link) :
    (k.startFrame b).orders.map TripOrder.key = k.orders.map TripOrder.key := by
  unfold Link.startFrame
  split
  · split
    · exact TripOrder.map_key _
    · rfl
  · rfl

theorem Link.hold_keys (k : Link) : k.hold.orders.map TripOrder.key = k.orders.map TripOrder.key := by
  unfold Link.hold
  split
  · rfl
  · exact TripOrder.map_key _

theorem Link.frameComplete_keys (k : Link) : k.frameComplete.orders.map TripOrder.key = k.orders.map TripOrder.key := by
  unfold Link.frameComplete
  split
  · exact TripOrder.map_key _
  · rfl

/-! ## Latches through a warm reset -/

/-- Dropping the latches of a list of schemes clears those and leaves the others. -/
theorem State.foldl_dropLatch_latch (ks : List SchemeId) : ∀ (s : State) (k : SchemeId),
    ((ks.foldl (fun s k => s.dropLatch k) s).schemes[k]).latch = if k ∈ ks then none else (s.schemes[k]).latch := by
  induction ks with
  | nil => intro s k; simp
  | cons j ks ih =>
    intro s k
    rw [List.foldl_cons, ih]
    by_cases h : k ∈ ks
    · simp [h]
    · by_cases e : k = j
      · subst e; simp [h]
      · have : ¬ j.val = k.val := fun h => e (Fin.ext h.symm)
        simp [h, e, this]

/-- When every set latch has been dropped, no latch is set. -/
theorem State.dropLatches_latch (s : State) (k : SchemeId) :
    ((s.forEachInSomeOrder ((List.finRange 32).filter (fun k => s.schemes[k].latch.isSome))
      (fun k s => s.dropLatch k)).schemes[k]).latch = none := by
  simp only [forEachInSomeOrder, foldl_dropLatch_latch, mem_arrange, List.mem_filter, List.mem_finRange, true_and]
  split
  · rfl
  · next hk => simpa using hk

namespace Works

variable {s t : State}

/-- A change of a link's receiver leaves its queue. -/
theorem receive {l : LinkId} {f : Link → List Byte} (h : Works s t) :
    Works s (t.modLink l (fun k => { k with receiving := f k })) := h.modLink (fun _ => rfl)

theorem beginStaging (h : Works s t) : Works s t.beginStaging := by
  unfold State.beginStaging
  split
  · exact h.tail (.storeOp t _ (by simp) (by simp))
  · exact h

theorem faultPoint {p : PointId} (h : Works s t) : Works s (State.faultPoint p t) := by
  unfold State.faultPoint
  split
  · refine ite h ?_
    refine requestForPoint ?_
    exact h.point (fun _ => ⟨rfl, rfl, rfl⟩)
  · exact h

theorem takeWarmReset {map : Option (Vector LinkParams 8)} (h : Works s t) : Works s (t.takeWarmReset map) := by
  unfold State.takeWarmReset
  refine forEach (fun _ _ => completeBlock .refl) _ ?_
  refine foldl (fun _ _ => faultPoint .refl) _ ?_
  refine after (.tables _) ?_
  refine after (.warmSchemes _ ?_) ?_
  · exact fun k => State.dropLatches_latch _ k
  · refine forEach (fun _ _ => dropLatch .refl) _ ?_
    refine append ?_
    exact h.tail (.warmLinks t _ (fun l => by simp [State.warmLinks]))

theorem warmIfDue (h : Works s t) : Works s t.warmIfDue := by
  unfold State.warmIfDue
  split
  · exact ite h.takeWarmReset h
  · exact h
  · exact h

theorem settle (h : Works s t) : Works s t.settle := by
  unfold State.settle
  refine after (.links _ _ (fun l => ?_)) h.warmIfDue.takeFlags.advanceWalk
  simp only [Fin.getElem_fin, getElem_mapV]
  exact Link.startFrame_keys _ _

/-! ## Station frames -/

theorem takeItem {m : MeasId} {q : Byte} {v : Word16} (hl : t.meas[m].link.isSome = true) (h : Works s t) :
    Works s (t.takeItem m q v) := by
  unfold State.takeItem
  split
  · next hv =>
    refine requestForSlot (h.tail (.fresh t m v.toInt _ _ hl ?_))
    have h1 : v ≠ 0x8000#16 := by
      simp only [validItem, Bool.and_eq_true, decide_eq_true_eq] at hv
      exact hv.2
    constructor
    · have h2 : v.toInt ≠ (0x8000#16).toInt := fun e => h1 (BitVec.eq_of_toInt_eq e)
      have h3 : (0x8000#16).toInt = -32768 := by decide
      have h4 := BitVec.le_toInt v
      rw [h3] at h2
      norm_num at h4
      omega
    · have := BitVec.toInt_lt (x := v)
      norm_num at this
      omega
  · refine requestForSlot ?_
    have h1 := h.tail (.stale t m (fun x => { x with quality := .invalid, stale := true, value := none })
      (fun _ => rfl) (.inl hl))
    exact ite (append h1) h1

theorem takeDataItem {l : LinkId} {x : DataItem} (h : Works s t) : Works s (State.takeDataItem l t x) := by
  unfold State.takeDataItem
  split
  · dsimp only
    split
    · next hl => exact h.takeItem (by rw [hl]; rfl)
    · exact h
  · split
    · split
      · next hs =>
        split
        · exact h.assertSlot (.inl (by rw [hs]; simp))
        · exact h.clearSlot
      · exact h
    · exact h

theorem takeEcho {l : LinkId} {tag a : Byte} {r : EchoResult} (h : Works s t) : Works s (t.takeEcho l tag a r) := by
  unfold State.takeEcho
  split
  · next o ho =>
    have hm : ∃ u ∈ t.links[l].orders, u.point = o.point := ⟨o, List.mem_of_find?_eq_some ho, rfl⟩
    split
    · exact h.confirmOrder (.inl hm)
    · exact h.failOrder (.inl hm)
  · split
    · split
      · exact h.takeLateEcho
      · exact h
    · exact h

theorem takeFrame {l : LinkId} {st : Byte} {b : FrameBody} (h : Works s t) : Works s (t.takeFrame l st b) := by
  unfold State.takeFrame
  refine ite ?_ h.receive
  have h1 : Works s (t.modLink l (fun k => { k with receiving := [] })) := h.receive
  unfold State.deliver
  split
  · exact ite h1 (foldl (fun _ _ => takeDataItem .refl) _ h1)
  · exact takeEcho h1
  · exact modLink Link.hold_keys h1
  · exact modLink (fun _ => rfl) h1

theorem takeByte {l : LinkId} {b : Byte} (h : Works s t) : Works s (State.takeByte l t b) := by
  unfold State.takeByte
  refine ite h ?_
  dsimp only
  split
  · exact settle (takeFrame h.receive)
  · exact h.receive

/-! ## Expiries and time -/

theorem expireMeas {m : MeasId} (h : Works s t) : Works s (t.expireMeas m) := by
  unfold State.expireMeas
  split
  · next hd =>
    refine requestForSlot (append (h.tail (.stale t m _ (fun _ => rfl) (.inr ?_))))
    simp only [State.measDue, Bool.and_eq_true] at hd
    simpa using hd.1
  · exact h

theorem expireRise {d : DetId} (h : Works s t) : Works s (t.expireRise d) := by
  unfold State.expireRise
  exact ite (h.tail (.riseExpired t d)) h

theorem expireDeadline {p : PointId} (h : Works s t) : Works s (t.expireDeadline p) := by
  unfold State.expireDeadline
  split
  · next l o ho =>
    refine failOrder (.inl ?_) h
    unfold State.deadlineDue at ho
    split at ho
    · next l' o' hm =>
      split at ho
      · cases ho
        obtain ⟨_, _, hm, _⟩ := State.orderOf_mem hm
        exact ⟨_, hm, rfl⟩
      · cases ho
    · cases ho
  · exact h

theorem tick (h : Works s t) : Works s t.tick := by
  unfold State.tick
  refine ite h ?_
  split
  · refine settle ?_
    have h1 : Works s (t.opened t.due.length) := h.tail (.opened t _)
    unfold State.takeDue
    split
    · exact expireMeas h1
    · exact expireRise h1
    · exact expireDeadline h1
    · exact completePass h1
  · exact h.tail (.tick t)

/-! ## Store operations that load no table -/

theorem requestWarm (h : Works s t) : Works s t.requestWarm := by
  unfold State.requestWarm
  split
  · exact beginStaging (h.tail (.warm t _))
  · exact h
  · exact h

end Works

/-- What reading the external store leaves in it is canonical where it was. -/
theorem State.storeRead_wf (s : State) (a : StoreAnswer) (h : Memory.wf s.store = true) :
    Memory.wf (s.storeRead a).2 = true := by
  cases a with
  | stored => exact h
  | silent => exact h
  | rewritten ws => exact Memory.wf_ofWords ws

namespace Works

variable {s t : State}

theorem endStaging {a : StoreAnswer} (h : Works s t) : Works s (t.endStaging a) := by
  unfold State.endStaging
  refine ite ?_ h
  exact ((h.tail (.store t _ (t.storeRead_wf a))).tail (.storeOp _ .idle (by simp) (by simp))).tail (.warm _ _)

theorem endSave (h : Works s t) : Works s t.endSave := by
  unfold State.endSave
  split
  · refine beginStaging (append ?_)
    exact (h.tail (.store t _ (Memory.wf_writeAll _))).tail (.storeOp _ .idle (by simp) (by simp))
  all_goals exact h

/-! ## Requests -/

theorem respond {p : PartyId} {r : Response} (h : Works s t) : Works s (t.respond p r) := h.party

end Works

/-- The scheme a request names is defined. -/
theorem State.defn_of_namedScheme {s : State} {n : Byte} {k : SchemeId} {d : SchemeDef}
    (h : s.namedScheme n = some (k, d)) : (s.schemes[k]).defn = some d := by
  unfold State.namedScheme at h
  split at h
  · obtain ⟨d', h1, h2⟩ := Option.map_eq_some_iff.mp h
    cases h2
    exact h1
  · simp at h

/-- The point a request names is defined. -/
theorem State.point_of_namedPoint {s : State} {n : Byte} {p : PointId} {x : Point}
    (h : s.namedPoint n = some (p, x)) : s.points[p] = some x := by
  unfold State.namedPoint at h
  split at h
  · obtain ⟨d', h1, h2⟩ := Option.map_eq_some_iff.mp h
    cases h2
    exact h1
  · simp at h

namespace Works

variable {s t : State}

theorem releaseRecord {old : Option ArmingRecord} (h : Works s t) : Works s (t.releaseRecord old) := by
  unfold State.releaseRecord
  exact forEach (fun _ _ => completeBlock .refl) _ h

theorem enable {p : PartyId} {n : Byte} (h : Works s t) : Works s (t.enable p n).1 := by
  unfold State.enable
  split
  · exact h
  · next k d hk =>
    have hd := State.defn_of_namedScheme hk
    split
    · exact h
    · split
      · exact h
      · next hl =>
        split
        · exact h
        · next hs =>
          split
          · exact h
          · exact append (h.tail (.enable t k d hd (by simpa using hs) (by simpa using hl)))

theorem disable {p : PartyId} {n : Byte} (h : Works s t) : Works s (t.disable p n).1 := by
  unfold State.disable
  split
  · exact h
  · next k d hk =>
    have hd := State.defn_of_namedScheme hk
    split
    · exact h
    · split
      · exact h
      · exact h
      all_goals
        next hs =>
        exact releaseRecord (h.tail (.disable t k d _ _ hd (by rw [hs]; simp)))

theorem consent {p : PartyId} {n : Byte} {g : Gen} (h : Works s t) : Works s (t.consent p n g).1 := by
  unfold State.consent
  split
  · exact h
  · next k d hk =>
    have hd := State.defn_of_namedScheme hk
    split
    · exact h
    · next ha =>
      split
      · exact h
      · next hs =>
        split
        · exact h
        · next hg =>
          split
          · exact h
          · have hg : g = d.defGen := by simpa using hg
            subst hg
            have h1 := append (kind := .consent) (sch := some k) (pt := none) (pa := some p)
              (de := some (d.defGen.toNat : Int))
              (h.tail (.consent t k p d hd (by simpa using ha) (by simpa using hs)))
            dsimp only
            split
            · next hm =>
              exact h1.tail (.prime _ k d (by simpa using hd) hm (by simpa using hs))
            · exact h1

theorem withdraw {p : PartyId} {n : Byte} (h : Works s t) : Works s (t.withdraw p n).1 := by
  unfold State.withdraw
  split
  · exact h
  · next k d hk =>
    have hd := State.defn_of_namedScheme hk
    split
    · exact h
    · split
      · next hs _ => exact releaseRecord (h.tail (.withdraw t k p d _ _ hd (.inl hs)))
      · next hs _ => exact releaseRecord (h.tail (.withdraw t k p d _ _ hd (.inr (.inl hs))))
      · next hs _ => exact releaseRecord (h.tail (.withdraw t k p d _ _ hd (.inr (.inr hs))))
      · exact h

theorem resetLockout {p : PartyId} {n : Byte} (h : Works s t) : Works s (t.resetLockout p n).1 := by
  unfold State.resetLockout
  split
  · exact h
  · next k d hk =>
    split
    · exact h
    · split
      · exact h
      · next hs => exact append (h.tail (.resetLockout t k (by simpa using hs)))

theorem blockNow {party : PartyId} {p : PointId} (h : Works s t) : Works s (t.blockNow party p).1 := by
  unfold State.blockNow
  refine requestForPoint (append ?_)
  refine after (.without _ p) ?_
  exact h.point (fun _ => ⟨rfl, rfl, rfl⟩)

theorem blockImmediate {party : PartyId} {n : Byte} (h : Works s t) : Works s (t.blockImmediate party n).1 := by
  unfold State.blockImmediate
  split
  · exact h
  · split
    · exact h
    · split
      · exact h
      · split
        · exact h
        · exact h.blockNow

theorem blockDeferred {party : PartyId} {n : Byte} (h : Works s t) : Works s (t.blockDeferred party n).1 := by
  unfold State.blockDeferred
  split
  · exact h
  · split
    · exact h
    · split
      · exact h
      · split
        · exact h
        · exact h.blockNow
        · dsimp only
          split
          · exact h
          · split
            · refine requestForPoint (append ?_)
              exact h.point (fun _ => ⟨rfl, rfl, rfl⟩)
            · refine requestForPoint (append ?_)
              exact h.point (fun _ => ⟨rfl, rfl, rfl⟩)

theorem unblockPoint {party : PartyId} {n : Byte} (h : Works s t) : Works s (t.unblockPoint party n).1 := by
  unfold State.unblockPoint
  split
  · exact h
  · split
    · exact h
    · dsimp only
      split
      · split
        · refine requestForPoint (append ?_)
          exact h.point (fun _ => ⟨rfl, rfl, rfl⟩)
        · exact h
      · split
        · refine requestForPoint (append ?_)
          exact h.point (fun _ => ⟨rfl, rfl, rfl⟩)
        · exact h
      · exact h

theorem restorePoint {party : PartyId} {n : Byte} (h : Works s t) : Works s (t.restorePoint party n).1 := by
  unfold State.restorePoint
  split
  · exact h
  · next p x hp =>
    split
    · exact h
    · split
      · exact h
      · next hi =>
        split
        · exact h
        · split
          · exact h
          · split
            · exact h
            · refine requestForPoint (append ?_)
              refine h.tail (.point t p _ (fun _ => rfl) ?_ (by simp))
              intro y hy e
              rw [State.point_of_namedPoint hp, Option.some.injEq] at hy
              exact absurd (hy ▸ e) hi

theorem readEvents {p : PartyId} {n : Byte} (h : Works s t) : Works s (t.readEvents p n).1 := by
  unfold State.readEvents
  split
  · exact h
  · exact h.tail (.reader t p _ (Nat.min_le_right _ _))

theorem startLoad {p : PartyId} (h : Works s t) : Works s (t.startLoad p).1 := by
  unfold State.startLoad
  split
  · exact h
  · split
    · exact h
    · next hd =>
      refine h.tail (.storeOp t _ (by simp) ?_)
      intro _ _ k
      have h1 := List.all_eq_true.mp (Bool.not_eq_false _ ▸ hd)
      simpa [or_iff_not_imp_left] using h1 _ (show (t.schemes[k]) ∈ t.schemes.toList by simp)

theorem startSave {p : PartyId} (h : Works s t) : Works s (t.startSave p).1 := by
  unfold State.startSave
  split
  · exact h
  · have h1 := h.tail (.store t _ fun hw =>
      Memory.wf_write 0 (0b00#2 ++ Config.openControlBits t.openCount : BitVec 16) hw)
    have h2 := h1.tail (.opened _ (t.openCount + 1))
    exact h2.tail (.storeOp _ (.save p (saveWrites t.moduleBodies) (imageLength t.moduleBodies)) nofun nofun)

/-- The end of a select period changes a party link alone (R163, R164). -/
theorem endPeriod {p : PartyId} (h : Works s t) : Works s (t.endPeriod p) := h.party

theorem request {p : PartyId} {f : State → State × Response} (hf : ∀ s, Works s (f s).1) (h : Works s t) :
    Works s (t.request p f) := by
  unfold State.request
  have h := h.endPeriod (p := p)
  dsimp only
  split
  · exact h.party
  all_goals exact ite h.respond (respond (h.trans (hf _)))

theorem overrunPeriod {p : PartyId} (h : Works s t) : Works s (t.overrunPeriod p) :=
  ite (party h.endPeriod) h.endPeriod

theorem request_read {p : PartyId} {f : State → State × Response} (hf : ∀ s, (f s).1 = s) (h : Works s t) :
    Works s (t.request p f) := request (fun s => by rw [hf s]) h

end Works

/-! ## Reads change nothing -/

namespace State

variable (s : State)

theorem queryStatus_fst : s.queryStatus.1 = s := rfl

theorem readScheme_fst (n : Byte) : (s.readScheme n).1 = s := by
  unfold readScheme
  split
  · rfl
  · split <;> rfl

theorem readPoint_fst (n : Byte) : (s.readPoint n).1 = s := by
  unfold readPoint
  split
  · rfl
  · split <;> rfl

theorem readMeasurements_fst (a b : Byte) : (s.readMeasurements a b).1 = s := by
  unfold readMeasurements
  split <;> rfl

theorem readDetections_fst (a b : Byte) : (s.readDetections a b).1 = s := by
  unfold readDetections
  split <;> rfl

theorem readArming_fst (n : Byte) : (s.readArming n).1 = s := by
  unfold readArming
  split <;> rfl

theorem readTrigger_fst (n : Byte) : (s.readTrigger n).1 = s := by
  unfold readTrigger
  split <;> rfl

theorem readEventsStart_fst (n : Byte) (q : Seq) : (s.readEventsStart n q).1 = s := by
  unfold readEventsStart
  split
  · rfl
  · dsimp only
    split <;> rfl

end State

/-! ## Definition writes and loads -/

namespace Changes

variable {s t : State}

theorem trans {u : State} (h : Changes s t) (h' : Changes t u) : Changes s u := ReflTransGen.trans h h'

theorem works {u : State} (w : Works t u) (h : Changes s t) : Changes s u := h.trans w.changes

theorem ite {c : Prop} [Decidable c] {u : State} (h : Changes s t) (h' : Changes s u) :
    Changes s (if c then t else u) := by
  split <;> assumption

theorem writeSection {sec : Section} {p : PartyId} {n : Byte} {c : List Byte} (h : Changes s t) :
    Changes s (t.writeSection sec p n c).1 := by
  unfold State.writeSection
  split
  · exact h
  · split
    · exact h
    · split
      · next hd =>
        split
        · exact h
        · split
          · exact h
          · split
            · exact h
            · next hl =>
              split
              · next x hp =>
                exact h.tail (.define t _ c x hd hp (by simp at hl; exact hl.2))
              · exact h
      · next d hd =>
        split
        · exact h
        · split
          · exact h
          · next hl =>
            split
            · exact h
            · next hs =>
              split
              · exact h
              · split
                · exact h
                · next d' hw =>
                  split
                  · exact h
                  · next hg => exact h.tail (.write t _ sec c d d' hd (by simpa using hs) hw hg (by simp at hl; exact hl.2))

theorem protect {p : PartyId} {n x : Byte} (h : Changes s t) : Changes s (t.protect p n x).1 := by
  unfold State.protect
  split
  · next y k d _ hk =>
    have hd := State.defn_of_namedScheme hk
    split
    · exact h
    · split
      · exact h
      · split
        · exact h
        · exact h.tail (.protect t k d y hd)
  · exact h

theorem writePoint {p : PartyId} {b : PointBody} (h : Changes s t) : Changes s (t.writePoint p b).1 := by
  unfold State.writePoint
  split
  · next q _ _ _ =>
    split
    · next hn =>
      split
      · exact h
      · split
        · exact h
        · split
          · next d hw =>
            split
            · next hf => exact h.tail (.definePoint t q b d hn hw hf)
            · exact h
          · exact h
    · next x hx =>
      split
      · exact h
      · split
        · exact h
        · split
          · exact h
          · next ho =>
            split
            · next d hw =>
              split
              · next hf =>
                have h1 := h.tail (.rewritePoint t q b x d (fun x => x.rewritten d (t.statusAsserted d)) hx hw hf.2
                  (fun _ => rfl) (not_or.1 ho).2 (fun y e => by
                    unfold Point.rewritten
                    dsimp only
                    split
                    · simp
                    · exact e))
                dsimp only
                split
                · exact works (Works.requestForPoint (Works.late .refl)) h1
                · exact works (Works.late .refl) h1
              · exact h
            · exact h
  · exact h

theorem appendLoad {r : Except Nat Image} {p : Option PartyId} (h : Changes s t) : Changes s (t.appendLoad r p) := by
  unfold State.appendLoad
  split
  · exact works (Works.append .refl) h
  · exact works (Works.append .refl) h

theorem endColdLoad {a : StoreAnswer} (h : Changes s t) : Changes s (t.endColdLoad a) := by
  unfold State.endColdLoad
  split
  · next ho =>
    refine works (Works.beginStaging .refl) (appendLoad ?_)
    exact h.tail (.load t _ _ (.inl ho) (t.storeRead_wf a))
  · exact h

theorem endLoad {a : StoreAnswer} (h : Changes s t) : Changes s (t.endLoad a) := by
  unfold State.endLoad
  split
  · next ho =>
    refine works (Works.beginStaging .refl) (appendLoad ?_)
    exact h.tail (.load t _ _ (.inr (by simp [State.loading, ho])) (t.storeRead_wf a))
  all_goals exact h

theorem settle (h : Changes s t) : Changes s t.settle := works (Works.settle .refl) h

theorem request {p : PartyId} {f : State → State × Response} (hf : ∀ s, Changes s (f s).1) (h : Changes s t) :
    Changes s (t.request p f) := by
  unfold State.request
  have h : Changes s (t.endPeriod p) := works (Works.endPeriod .refl) h
  dsimp only
  split
  · exact works (Works.party .refl) h
  all_goals exact ite (works (Works.respond .refl) h) (works (Works.respond .refl) (h.trans (hf _)))

theorem serve {p : PartyId} {r : Request} (s : State) : Changes s (State.serve p r s).1 := by
  cases r with
  | queryStatus => exact .refl
  | readScheme => rw [State.serve, State.readScheme_fst]
  | readPoint => rw [State.serve, State.readPoint_fst]
  | readMeasurements => rw [State.serve, State.readMeasurements_fst]
  | readDetections => rw [State.serve, State.readDetections_fst]
  | readArming => rw [State.serve, State.readArming_fst]
  | readTrigger => rw [State.serve, State.readTrigger_fst]
  | readEvents => exact Works.changes (Works.readEvents .refl)
  | readEventsStart => rw [State.serve, State.readEventsStart_fst]
  | writeSection => exact writeSection .refl
  | writePoint => exact writePoint .refl
  | enable => exact Works.changes (Works.enable .refl)
  | disable => exact Works.changes (Works.disable .refl)
  | consent => exact Works.changes (Works.consent .refl)
  | withdraw => exact Works.changes (Works.withdraw .refl)
  | resetLockout => exact Works.changes (Works.resetLockout .refl)
  | protect => exact protect .refl
  | blockImmediate => exact Works.changes (Works.blockImmediate .refl)
  | blockDeferred => exact Works.changes (Works.blockDeferred .refl)
  | unblockPoint => exact Works.changes (Works.unblockPoint .refl)
  | restorePoint => exact Works.changes (Works.restorePoint .refl)
  | storeLoad => exact Works.changes (Works.startLoad .refl)
  | storeSave => exact Works.changes (Works.startSave .refl)

theorem takeRequest {p : PartyId} {bytes : List Byte} (h : Changes s t) : Changes s (t.takeRequest p bytes) := by
  have hr : ∀ r, Changes s (t.respond p r) := fun r => works (Works.respond .refl) h
  unfold State.takeRequest
  split
  · exact hr _
  · refine ite (hr _) ?_
    split
    · exact hr _
    · exact hr _
    · exact works (Works.respond .refl) (h.trans (serve t))

theorem receive {p : PartyId} {bytes : List Byte} (h : Changes s t) : Changes s (t.receive p bytes) :=
  ite (works (Works.party .refl) h.takeRequest) (works (Works.party .refl) h)

theorem clockIn {p : PartyId} {bytes : List Byte} (h : Changes s t) : Changes s (t.clockIn p bytes) := by
  have hp : ∀ f, Changes s (t.modParty p f) := fun f => works (Works.party .refl) h
  unfold State.clockIn
  split
  · exact h
  · split
    · refine ite ?_ (hp _)
      split
      · exact works (Works.party .refl) (hp _)
      · exact h.receive
      · exact h.receive
    · exact h.receive
    · exact hp _
    · exact h

theorem selectPeriod {p : PartyId} {x : Transfer} (h : Changes s t) : Changes s (t.selectPeriod p x) :=
  ite (works (Works.endPeriod .refl) h.clockIn) h.clockIn

end Changes

/-! ## Commands -/

/-- The commands that write a definition, load the tables, or belong to the cold reset (a select period given by its
bytes may be a write). -/
def defines : Instr → Bool
  | .resetAsserted | .coldResetEnd _ | .coldLoadComplete _ | .storeLoadComplete _ => true
  | .writeHeaderSection .. | .writeTermsSection .. | .writeCurveSection .. | .writeCandidatesSection ..
  | .writeTriggersSection .. | .writePoint .. | .protect .. | .requestRejected ..
  | .responseRead .. => true
  | _ => false

/-- The state an event leads to. -/
theorem event_next {s t : State} {f : State → State} (h : s.event f = .next t) :
    t = s ∨ t = (f s).settle := by
  unfold State.event at h
  split at h
  · cases h; exact .inl rfl
  · cases h; exact .inr rfl

theorem Works.event {s t : State} {f : State → State} (hf : Works s (f s)) (h : s.event f = .next t) : Works s t := by
  rcases event_next h with e | e
  · subst e; exact .refl
  · subst e; exact hf.settle

theorem Changes.event {s t : State} {f : State → State} (hf : Changes s (f s)) (h : s.event f = .next t) :
    Changes s t := by
  rcases event_next h with e | e
  · subst e; exact .refl
  · subst e; exact hf.settle

section

variable {s t : State}

theorem Works.execWarmResetRequest (h : execWarmResetRequest s = .next t) : Works s t := by
  simp only [Machine.execWarmResetRequest] at h
  exact .event (Works.requestWarm .refl) h

theorem Works.execStagingReadBegin (h : execStagingReadBegin s = .next t) : Works s t := by
  simp only [Machine.execStagingReadBegin] at h
  exact .event (Works.beginStaging .refl) h

theorem Works.execStagingReadEnd {answer : StoreAnswer} (h : execStagingReadEnd answer s = .next t) : Works s t := by
  simp only [Machine.execStagingReadEnd] at h
  exact .event (Works.endStaging .refl) h

theorem Works.execWarmResetTaken (h : execWarmResetTaken s = .next t) : Works s t := by
  simp only [Machine.execWarmResetTaken] at h
  exact .event (Works.warmIfDue .refl) h

theorem Works.execData {l : LinkId} {station : Byte} {items : List DataItem} (h : execData l station items s = .next t) : Works s t := by
  simp only [Machine.execData] at h
  exact .event (Works.takeFrame .refl) h

theorem Works.execEcho {l : LinkId} {station tag address : Byte} {result : EchoResult} (h : execEcho l station tag address result s = .next t) : Works s t := by
  simp only [Machine.execEcho] at h
  exact .event (Works.takeFrame .refl) h

theorem Works.execHold {l : LinkId} {station : Byte} (h : execHold l station s = .next t) : Works s t := by
  simp only [Machine.execHold] at h
  exact .event (Works.takeFrame .refl) h

theorem Works.execRelease {l : LinkId} {station : Byte} (h : execRelease l station s = .next t) : Works s t := by
  simp only [Machine.execRelease] at h
  exact .event (Works.takeFrame .refl) h

theorem Works.execStationFrameDiscarded {l : LinkId} {bytes : List Byte} (h : execStationFrameDiscarded l bytes s = .next t) : Works s t := by
  simp only [Machine.execStationFrameDiscarded] at h
  exact .event (Works.foldl (fun _ _ => Works.takeByte .refl) _ .refl) h

theorem Works.assertFd (n : FdId) : Works s (s.assertSlot (fdSlot n)) := by
  have hd : 48 ≤ (fdSlot n).val := by
    show 48 ≤ 48 + n.val
    omega
  exact Works.assertSlot (s := s) (t := s) (d := fdSlot n) (Or.inr hd) .refl

theorem Works.execFdRisingEdge {n : FdId} (h : execFdRisingEdge n s = .next t) : Works s t := by
  refine Works.event (f := fun s => if s.starting then s else s.assertSlot (fdSlot n)) ?_ h
  exact Works.ite .refl (Works.assertFd n)

theorem Works.execFdFallingEdge {n : FdId} (h : execFdFallingEdge n s = .next t) : Works s t := by
  refine Works.event (f := fun s => if s.starting then s else s.clearSlot (fdSlot n)) ?_ h
  have hc : Works s (s.clearSlot (fdSlot n)) := Works.clearSlot (s := s) (t := s) (d := fdSlot n) .refl
  exact Works.ite .refl hc

theorem Works.execStalenessExpiry {m : MeasId} (h : execStalenessExpiry m s = .next t) : Works s t := by
  simp only [Machine.execStalenessExpiry] at h
  exact .event (Works.expireMeas .refl) h

theorem Works.execRiseExpiry {d : DetId} (h : execRiseExpiry d s = .next t) : Works s t := by
  simp only [Machine.execRiseExpiry] at h
  exact .event (Works.expireRise .refl) h

theorem Works.execDeadlineExpiry {p : PointId} (h : execDeadlineExpiry p s = .next t) : Works s t := by
  simp only [Machine.execDeadlineExpiry] at h
  exact .event (Works.expireDeadline .refl) h

theorem Works.execPassBegin (h : execPassBegin s = .next t) : Works s t := by
  simp only [Machine.execPassBegin] at h
  exact .event (Works.takeFlags .refl) h

theorem Works.execPassCompletion (h : execPassCompletion s = .next t) : Works s t := by
  simp only [Machine.execPassCompletion] at h
  exact .event (Works.completePass .refl) h

theorem Works.execTransmissionStart {l : LinkId} (h : execTransmissionStart l s = .next t) : Works s t := by
  simp only [Machine.execTransmissionStart] at h
  exact .event (Works.modLink (Link.startFrame_keys _) .refl) h

theorem Works.execOrderFrameComplete {l : LinkId} (h : execOrderFrameComplete l s = .next t) : Works s t := by
  simp only [Machine.execOrderFrameComplete] at h
  exact .event (Works.modLink Link.frameComplete_keys .refl) h

theorem Works.execExecutionComplete {k : SchemeId} (h : execExecutionComplete k s = .next t) : Works s t := by
  simp only [Machine.execExecutionComplete] at h
  exact .event (Works.completeIfDone .refl) h

theorem Works.execDeferredBlockComplete {p : PointId} (h : execDeferredBlockComplete p s = .next t) : Works s t := by
  simp only [Machine.execDeferredBlockComplete] at h
  exact .event (Works.completeBlock .refl) h

theorem Works.execRetriggerReplay {k : SchemeId} (h : execRetriggerReplay k s = .next t) : Works s t := by
  simp only [Machine.execRetriggerReplay] at h
  exact .event (Works.replayLatch .refl) h

theorem Works.execStoreSaveComplete (h : execStoreSaveComplete s = .next t) : Works s t := by
  simp only [Machine.execStoreSaveComplete] at h
  exact .event (Works.endSave .refl) h

theorem Works.execQueryStatus {p : PartyId} (h : execQueryStatus p s = .next t) : Works s t := by
  simp only [Machine.execQueryStatus] at h
  exact .event (Works.request_read (fun s => s.queryStatus_fst) .refl) h

theorem Works.execReadScheme {p : PartyId} {k : Byte} (h : execReadScheme p k s = .next t) : Works s t := by
  simp only [Machine.execReadScheme] at h
  exact .event (Works.request_read (fun s => s.readScheme_fst _) .refl) h

theorem Works.execReadPoint {p : PartyId} {x : Byte} (h : execReadPoint p x s = .next t) : Works s t := by
  simp only [Machine.execReadPoint] at h
  exact .event (Works.request_read (fun s => s.readPoint_fst _) .refl) h

theorem Works.execReadMeasurements {p : PartyId} {first last : Byte} (h : execReadMeasurements p first last s = .next t) : Works s t := by
  simp only [Machine.execReadMeasurements] at h
  exact .event (Works.request_read (fun s => s.readMeasurements_fst _ _) .refl) h

theorem Works.execReadDetections {p : PartyId} {first last : Byte} (h : execReadDetections p first last s = .next t) : Works s t := by
  simp only [Machine.execReadDetections] at h
  exact .event (Works.request_read (fun s => s.readDetections_fst _ _) .refl) h

theorem Works.execReadArming {p : PartyId} {k : Byte} (h : execReadArming p k s = .next t) : Works s t := by
  simp only [Machine.execReadArming] at h
  exact .event (Works.request_read (fun s => s.readArming_fst _) .refl) h

theorem Works.execReadTrigger {p : PartyId} {k : Byte} (h : execReadTrigger p k s = .next t) : Works s t := by
  simp only [Machine.execReadTrigger] at h
  exact .event (Works.request_read (fun s => s.readTrigger_fst _) .refl) h

theorem Works.execReadEvents {p : PartyId} {count : Byte} (h : execReadEvents p count s = .next t) : Works s t := by
  simp only [Machine.execReadEvents] at h
  exact .event (Works.request (fun _ => Works.readEvents .refl) .refl) h

theorem Works.execReadEventsStart {p : PartyId} {count : Byte} {start : Seq} (h : execReadEventsStart p count start s = .next t) : Works s t := by
  simp only [Machine.execReadEventsStart] at h
  exact .event (Works.request_read (fun s => s.readEventsStart_fst _ _) .refl) h

theorem Works.execEnable {p : PartyId} {k : Byte} (h : execEnable p k s = .next t) : Works s t := by
  simp only [Machine.execEnable] at h
  exact .event (Works.request (fun _ => Works.enable .refl) .refl) h

theorem Works.execDisable {p : PartyId} {k : Byte} (h : execDisable p k s = .next t) : Works s t := by
  simp only [Machine.execDisable] at h
  exact .event (Works.request (fun _ => Works.disable .refl) .refl) h

theorem Works.execConsent {p : PartyId} {k : Byte} {g : Gen} (h : execConsent p k g s = .next t) : Works s t := by
  simp only [Machine.execConsent] at h
  exact .event (Works.request (fun _ => Works.consent .refl) .refl) h

theorem Works.execWithdraw {p : PartyId} {k : Byte} (h : execWithdraw p k s = .next t) : Works s t := by
  simp only [Machine.execWithdraw] at h
  exact .event (Works.request (fun _ => Works.withdraw .refl) .refl) h

theorem Works.execResetLockout {p : PartyId} {k : Byte} (h : execResetLockout p k s = .next t) : Works s t := by
  simp only [Machine.execResetLockout] at h
  exact .event (Works.request (fun _ => Works.resetLockout .refl) .refl) h

theorem Works.execBlockPointImmediate {p : PartyId} {x : Byte} (h : execBlockPointImmediate p x s = .next t) : Works s t := by
  simp only [Machine.execBlockPointImmediate] at h
  exact .event (Works.request (fun _ => Works.blockImmediate .refl) .refl) h

theorem Works.execBlockPointDeferred {p : PartyId} {x : Byte} (h : execBlockPointDeferred p x s = .next t) : Works s t := by
  simp only [Machine.execBlockPointDeferred] at h
  exact .event (Works.request (fun _ => Works.blockDeferred .refl) .refl) h

theorem Works.execUnblockPoint {p : PartyId} {x : Byte} (h : execUnblockPoint p x s = .next t) : Works s t := by
  simp only [Machine.execUnblockPoint] at h
  exact .event (Works.request (fun _ => Works.unblockPoint .refl) .refl) h

theorem Works.execRestorePoint {p : PartyId} {x : Byte} (h : execRestorePoint p x s = .next t) : Works s t := by
  simp only [Machine.execRestorePoint] at h
  exact .event (Works.request (fun _ => Works.restorePoint .refl) .refl) h

theorem Works.execStoreLoad {p : PartyId} (h : execStoreLoad p s = .next t) : Works s t := by
  simp only [Machine.execStoreLoad] at h
  exact .event (Works.request (fun _ => Works.startLoad .refl) .refl) h

theorem Works.execStoreSave {p : PartyId} (h : execStoreSave p s = .next t) : Works s t := by
  simp only [Machine.execStoreSave] at h
  exact .event (Works.request (fun _ => Works.startSave .refl) .refl) h

theorem Works.execOverrun {p : PartyId} (h : execOverrun p s = .next t) : Works s t := by
  simp only [Machine.execOverrun] at h
  exact .event (Works.overrunPeriod .refl) h

theorem Changes.execResetAsserted (h : execResetAsserted s = .next t) : Changes s t := by
  simp only [Machine.execResetAsserted] at h
  split at h
  · cases h; exact .refl
  · cases h; exact .single (.assertReset s)

theorem Changes.execColdResetEnd {bench : Bool} (h : execColdResetEnd bench s = .next t) : Changes s t := by
  simp only [Machine.execColdResetEnd, State.endColdReset] at h
  split at h
  · cases h; exact .single (.cold s bench)
  · cases h; exact .refl

theorem Changes.execColdLoadComplete {answer : StoreAnswer} (h : execColdLoadComplete answer s = .next t) : Changes s t := by
  simp only [Machine.execColdLoadComplete] at h
  exact .event (Changes.endColdLoad .refl) h

theorem Changes.execStoreLoadComplete {answer : StoreAnswer} (h : execStoreLoadComplete answer s = .next t) : Changes s t := by
  simp only [Machine.execStoreLoadComplete] at h
  exact .event (Changes.endLoad .refl) h

theorem Changes.execWriteHeaderSection {p : PartyId} {k : Byte} {contents : List Byte} (h : execWriteHeaderSection p k contents s = .next t) : Changes s t := by
  simp only [Machine.execWriteHeaderSection] at h
  exact .event (Changes.request (fun _ => Changes.writeSection .refl) .refl) h

theorem Changes.execWriteTermsSection {p : PartyId} {k : Byte} {contents : List Byte} (h : execWriteTermsSection p k contents s = .next t) : Changes s t := by
  simp only [Machine.execWriteTermsSection] at h
  exact .event (Changes.request (fun _ => Changes.writeSection .refl) .refl) h

theorem Changes.execWriteCurveSection {p : PartyId} {k : Byte} {contents : List Byte} (h : execWriteCurveSection p k contents s = .next t) : Changes s t := by
  simp only [Machine.execWriteCurveSection] at h
  exact .event (Changes.request (fun _ => Changes.writeSection .refl) .refl) h

theorem Changes.execWriteCandidatesSection {p : PartyId} {k : Byte} {contents : List Byte} (h : execWriteCandidatesSection p k contents s = .next t) : Changes s t := by
  simp only [Machine.execWriteCandidatesSection] at h
  exact .event (Changes.request (fun _ => Changes.writeSection .refl) .refl) h

theorem Changes.execWriteTriggersSection {p : PartyId} {k : Byte} {contents : List Byte} (h : execWriteTriggersSection p k contents s = .next t) : Changes s t := by
  simp only [Machine.execWriteTriggersSection] at h
  exact .event (Changes.request (fun _ => Changes.writeSection .refl) .refl) h

theorem Changes.execWritePoint {p : PartyId} {body : PointBody} (h : execWritePoint p body s = .next t) : Changes s t := by
  simp only [Machine.execWritePoint] at h
  exact .event (Changes.request (fun _ => Changes.writePoint .refl) .refl) h

theorem Changes.execProtect {p : PartyId} {k target : Byte} (h : execProtect p k target s = .next t) : Changes s t := by
  simp only [Machine.execProtect] at h
  exact .event (Changes.request (fun _ => Changes.protect .refl) .refl) h

theorem Changes.selectEvent {p : PartyId} {x : Transfer} (h : s.selectEvent p x = .next t) : Changes s t := by
  unfold State.selectEvent at h
  split at h
  · cases h; exact (Works.party .refl).changes
  · exact .event (Changes.selectPeriod .refl) h

theorem Changes.execRequestRejected {p : PartyId} {x : Transfer} (h : execRequestRejected p x s = .next t) :
    Changes s t := by
  simp only [Machine.execRequestRejected] at h
  exact .selectEvent h

theorem Changes.execResponseRead {p : PartyId} {x : Transfer} (h : execResponseRead p x s = .next t) :
    Changes s t := by
  simp only [Machine.execResponseRead] at h
  exact .selectEvent h

end

/-- A command that is none of `defines` makes only the changes of `Work`. -/
theorem exec_works {c : Instr} (hc : defines c = false) {s t : State} (h : exec c s = .next t) : Works s t := by
  cases c with
  | warmResetRequest => exact .execWarmResetRequest h
  | stagingReadBegin => exact .execStagingReadBegin h
  | stagingReadEnd => exact .execStagingReadEnd h
  | warmResetTaken => exact .execWarmResetTaken h
  | data => exact .execData h
  | echo => exact .execEcho h
  | hold => exact .execHold h
  | release => exact .execRelease h
  | stationFrameDiscarded => exact .execStationFrameDiscarded h
  | fdRisingEdge => exact .execFdRisingEdge h
  | fdFallingEdge => exact .execFdFallingEdge h
  | stalenessExpiry => exact .execStalenessExpiry h
  | riseExpiry => exact .execRiseExpiry h
  | deadlineExpiry => exact .execDeadlineExpiry h
  | passBegin => exact .execPassBegin h
  | passCompletion => exact .execPassCompletion h
  | transmissionStart => exact .execTransmissionStart h
  | orderFrameComplete => exact .execOrderFrameComplete h
  | executionComplete => exact .execExecutionComplete h
  | deferredBlockComplete => exact .execDeferredBlockComplete h
  | retriggerReplay => exact .execRetriggerReplay h
  | storeSaveComplete => exact .execStoreSaveComplete h
  | queryStatus => exact .execQueryStatus h
  | readScheme => exact .execReadScheme h
  | readPoint => exact .execReadPoint h
  | readMeasurements => exact .execReadMeasurements h
  | readDetections => exact .execReadDetections h
  | readArming => exact .execReadArming h
  | readTrigger => exact .execReadTrigger h
  | readEvents => exact .execReadEvents h
  | readEventsStart => exact .execReadEventsStart h
  | enable => exact .execEnable h
  | disable => exact .execDisable h
  | consent => exact .execConsent h
  | withdraw => exact .execWithdraw h
  | resetLockout => exact .execResetLockout h
  | blockPointImmediate => exact .execBlockPointImmediate h
  | blockPointDeferred => exact .execBlockPointDeferred h
  | unblockPoint => exact .execUnblockPoint h
  | restorePoint => exact .execRestorePoint h
  | storeLoad => exact .execStoreLoad h
  | storeSave => exact .execStoreSave h
  | overrun => exact .execOverrun h
  | _ => cases hc

/-- Every command makes only the changes of `Change`. -/
theorem exec_changes {c : Instr} {s t : State} (h : exec c s = .next t) : Changes s t := by
  cases hc : defines c with
  | false => exact (exec_works hc h).changes
  | true =>
    cases c with
    | resetAsserted => exact .execResetAsserted h
    | coldResetEnd => exact .execColdResetEnd h
    | coldLoadComplete => exact .execColdLoadComplete h
    | storeLoadComplete => exact .execStoreLoadComplete h
    | writeHeaderSection => exact .execWriteHeaderSection h
    | writeTermsSection => exact .execWriteTermsSection h
    | writeCurveSection => exact .execWriteCurveSection h
    | writeCandidatesSection => exact .execWriteCandidatesSection h
    | writeTriggersSection => exact .execWriteTriggersSection h
    | writePoint => exact .execWritePoint h
    | protect => exact .execProtect h
    | requestRejected => exact .execRequestRejected h
    | responseRead => exact .execResponseRead h
    | _ => cases hc

/-- A property of the state that the queue of commands does not bear on, and that every change keeps, is kept by every
step. -/
theorem step_keeps {P : State → Prop} (queue : ∀ (s : State) (q : List Instr), P s → P { s with pending := q })
    (change : ∀ s t, Change s t → P s → P t) {s t : State} (h : step s = .next t) (hs : P s) : P t := by
  unfold step at h
  split at h
  · cases h
    exact (Works.changes (Works.tick .refl)).keeps change hs
  · exact (exec_changes h).keeps change (queue s _ hs)

end Sys2Proof.Machine
end

