-- ==== Sys2Proof/Laws/Orders.lean ====
section
/-! SUPPORT. What keeps the order law (R24, R133): the law over the points and the keys of the links' orders, and each
kind of change that touches either. -/

namespace Sys2Proof.Machine

/-- The keys of the orders in flight on a link. -/
def State.keys (s : State) (l : LinkId) : List (PointId × Byte × Byte) := s.links[l].orders.map TripOrder.key

/-- The order law as a property of the points and of the keys on each link. -/
structure OrdersLawful (points : Vector (Option Point) 128) (keys : LinkId → List (PointId × Byte × Byte)) : Prop where
  inFlight : ∀ p : PointId, ∀ x, points[p] = some x → x.orderState = .ordered → ∃ k ∈ keys x.defn.link, k.1 = p
  ordered : ∀ l, ∀ k ∈ keys l, ∃ x, points[k.1] = some x ∧ x.orderState = .ordered ∧ x.defn.link = l ∧
    x.defn.address = k.2.1 ∧ x.lastTag = some k.2.2
  once : ∀ l, ((keys l).map Prod.fst).Nodup

theorem State.orderLaw_iff (s : State) : s.OrderLaw ↔
    (s.inReset = false → OrdersLawful s.points s.keys ∧ (s.bench = true → ∀ l, s.keys l = [])) := by
  have hk : ∀ l, (s.keys l).map Prod.fst = s.links[l].orders.map TripOrder.point := by
    intro l; simp [keys, Function.comp_def, TripOrder.key]
  unfold OrderLaw
  refine imp_congr_right fun _ => ⟨fun ⟨h1, h2, h3, h4⟩ => ⟨⟨?_, ?_, ?_⟩, ?_⟩, fun ⟨⟨h1, h2, h3⟩, h4⟩ => ⟨?_, ?_, ?_, ?_⟩⟩
  · intro p x hx ho
    obtain ⟨o, hm, e⟩ := h1 p x hx ho
    exact ⟨o.key, List.mem_map_of_mem hm, e⟩
  · intro l k hm
    obtain ⟨o, ho, rfl⟩ := List.mem_map.1 hm
    exact h2 l o ho
  · intro l; rw [hk]; exact h3 l
  · intro hb l; rw [keys, h4 hb l]; rfl
  · intro p x hx ho
    obtain ⟨k, hm, e⟩ := h1 p x hx ho
    obtain ⟨o, ho, rfl⟩ := List.mem_map.1 hm
    exact ⟨o, ho, e⟩
  · intro l o ho
    exact h2 l o.key (List.mem_map_of_mem ho)
  · intro l; rw [← hk]; exact h3 l
  · intro hb l
    simpa [keys] using h4 hb l

variable {v : Vector (Option Point) 128} {keys : LinkId → List (PointId × Byte × Byte)}

/-- No point is ORDERED and no order is in flight. -/
theorem OrdersLawful.empty (h : ∀ p : PointId, ∀ x, v[p] = some x → x.orderState ≠ .ordered) :
    OrdersLawful v (fun _ => []) :=
  ⟨fun p x hx ho => absurd ho (h p x hx), by simp, by simp⟩

theorem getElem_modV_fin {α : Type} {n : Nat} (w : Vector α n) (p q : Fin n) (f : α → α) :
    (modV w p f)[q] = if p = q then f w[q] else w[q] := by
  simp [Fin.ext_iff]

/-- A point changes without an order: what is in flight stays so, with the same definition and tag. -/
theorem OrdersLawful.point {p : PointId} {f : Point → Point} (hv : OrdersLawful v keys)
    (h : ∀ x, v[p] = some x → x.orderState = .ordered → (f x).defn = x.defn ∧ (f x).orderState = .ordered ∧
      (f x).lastTag = x.lastTag)
    (hn : ∀ x, v[p] = some x → x.orderState ≠ .ordered → (f x).orderState ≠ .ordered) :
    OrdersLawful (modV v p (fun x => x.map f)) keys := by
  refine ⟨?_, ?_, hv.once⟩
  · intro q x hx ho
    rw [getElem_modV_fin] at hx
    split at hx
    · next e =>
      subst e
      obtain ⟨y, hy, rfl⟩ := Option.map_eq_some_iff.1 hx
      by_cases hi : y.orderState = .ordered
      · rw [(h y hy hi).1]; exact hv.inFlight _ y hy hi
      · exact absurd ho (hn y hy hi)
    · exact hv.inFlight q x hx ho
  · intro l k hk
    obtain ⟨x, hx, h1, h2, h3, h4⟩ := hv.ordered l k hk
    by_cases e : p = k.1
    · subst e
      obtain ⟨a, b, c⟩ := h x hx h1
      exact ⟨f x, by rw [getElem_modV_fin, if_pos rfl, hx]; rfl, b, by rw [a]; exact h2, by rw [a]; exact h3, by rw [c]; exact h4⟩
    · exact ⟨x, by rw [getElem_modV_fin, if_neg e]; exact hx, h1, h2, h3, h4⟩

/-- An undefined point is defined, with no order. -/
theorem OrdersLawful.define {p : PointId} {x : Point} (hv : OrdersLawful v keys) (hp : v[p] = none)
    (hi : x.orderState ≠ .ordered) : OrdersLawful (v.set p (some x)) keys := by
  have he : ∀ q : PointId, (v.set p (some x))[q] = if p = q then some x else v[q] := by
    intro q; simp only [Fin.getElem_fin, Vector.getElem_set, Fin.ext_iff]
  refine ⟨?_, ?_, hv.once⟩
  · intro q y hy ho
    rw [he] at hy
    split at hy
    · cases hy; exact absurd ho hi
    · exact hv.inFlight q y hy ho
  · intro l k hk
    obtain ⟨y, hy, h⟩ := hv.ordered l k hk
    have e : p ≠ k.1 := by
      intro e
      rw [e, hy] at hp
      cases hp
    exact ⟨y, by rw [he, if_neg e]; exact hy, h⟩

/-- An order is placed for a point that has none. -/
theorem OrdersLawful.place {p : PointId} {x : Point} {a t : Byte} {f : Point → Point} (hv : OrdersLawful v keys)
    (hx : v[p] = some x) (hi : x.orderState ≠ .ordered) (ha : a = x.defn.address)
    (hf : (f x).defn = x.defn ∧ (f x).orderState = .ordered ∧ (f x).lastTag = some t) :
    OrdersLawful (modV v p (fun x => x.map f))
      (fun l => if l = x.defn.link then keys l ++ [(p, a, t)] else keys l) := by
  have hout : ∀ l, ∀ k ∈ keys l, k.1 ≠ p := by
    intro l k hk e
    obtain ⟨y, hy, ho, -⟩ := hv.ordered l k hk
    subst e
    exact hi (Option.some.inj (hx.symm.trans hy) ▸ ho)
  have hnew : (modV v p (fun x => x.map f))[p] = some (f x) := by
    rw [getElem_modV_fin, if_pos rfl, hx]; rfl
  refine ⟨?_, ?_, ?_⟩
  · intro q y hy ho
    by_cases e : p = q
    · subst e
      rw [hnew, Option.some.injEq] at hy
      subst hy
      exact ⟨(p, a, t), by simp [hf.1], rfl⟩
    · rw [getElem_modV_fin, if_neg e] at hy
      obtain ⟨k, hk, e⟩ := hv.inFlight q y hy ho
      exact ⟨k, by split <;> simp [hk], e⟩
  · intro l k hk
    have hold : k ∈ keys l → ∃ x, (modV v p (fun x => x.map f))[k.1] = some x ∧ x.orderState = .ordered ∧
        x.defn.link = l ∧ x.defn.address = k.2.1 ∧ x.lastTag = some k.2.2 := by
      intro hk
      obtain ⟨y, hy, h⟩ := hv.ordered l k hk
      exact ⟨y, by rw [getElem_modV_fin, if_neg (Ne.symm (hout l k hk))]; exact hy, h⟩
    split at hk
    · next el =>
      rcases List.mem_append.1 hk with hk | hk
      · exact hold hk
      · rw [List.mem_singleton.1 hk]
        exact ⟨f x, hnew, hf.2.1, by rw [hf.1]; exact el.symm, by rw [hf.1]; exact ha.symm, hf.2.2⟩
    · exact hold hk
  · intro l
    split
    · simp only [List.map_append, List.map_cons, List.map_nil]
      refine List.nodup_append.2 ⟨hv.once l, by simp, ?_⟩
      intro b hb c hc e
      obtain ⟨k, hk, rfl⟩ := List.mem_map.1 hb
      rw [List.mem_singleton.1 hc] at e
      exact hout l k hk e
    · exact hv.once l

/-- The order for a point ends, on the link it is on: the point is no longer ORDERED. -/
theorem OrdersLawful.endOrder {p : PointId} {l : LinkId} {f : Point → Point} (hv : OrdersLawful v keys)
    (hf : ∀ x, (f x).defn = x.defn ∧ (f x).orderState ≠ .ordered)
    (h : (∃ k ∈ keys l, k.1 = p) ∨ ∀ x, v[p] = some x → x.orderState ≠ .ordered) :
    OrdersLawful (modV v p (fun x => x.map f))
      (fun j => if j = l then (keys j).filter (fun k => decide (k.1 ≠ p)) else keys j) := by
  have hmem : ∀ j, ∀ k, k ∈ (if j = l then (keys j).filter (fun k => decide (k.1 ≠ p)) else keys j) ↔
      k ∈ keys j ∧ k.1 ≠ p := by
    intro j k
    split
    · simp
    · next e =>
      refine ⟨fun hk => ⟨hk, fun ek => ?_⟩, And.left⟩
      obtain ⟨y, hy, ho, hl, -⟩ := hv.ordered j k hk
      rcases h with ⟨k', hk', ek'⟩ | h
      · obtain ⟨y', hy', -, hl', -⟩ := hv.ordered l k' hk'
        have ee : k.1 = k'.1 := ek.trans ek'.symm
        have : y = y' := Option.some.inj (hy.symm.trans ((congrArg (fun q : PointId => v[q]) ee).trans hy'))
        exact e (by rw [← hl, ← hl', this])
      · exact h y ((congrArg (fun q : PointId => v[q]) ek).symm.trans hy) ho
  refine ⟨?_, ?_, ?_⟩
  · intro q x hx ho
    rw [getElem_modV_fin] at hx
    split at hx
    · obtain ⟨y, -, rfl⟩ := Option.map_eq_some_iff.1 hx
      exact absurd ho (hf y).2
    · next e =>
      obtain ⟨k, hk, ek⟩ := hv.inFlight q x hx ho
      exact ⟨k, (hmem _ _).2 ⟨hk, fun h => e (by rw [← h, ek])⟩, ek⟩
  · intro j k hk
    obtain ⟨hk, e⟩ := (hmem j k).1 hk
    obtain ⟨y, hy, h⟩ := hv.ordered j k hk
    exact ⟨y, by rw [getElem_modV_fin, if_neg (Ne.symm e)]; exact hy, h⟩
  · intro j
    split
    · exact (hv.once j).sublist (List.filter_sublist.map _)
    · exact hv.once j

/-- A loaded point table has no ORDERED point. -/
theorem pointTable_not_ordered (links : Vector Link 8) (body : List Word16) :
    ∀ p : PointId, ∀ x, (pointTable links body)[p] = some x → x.orderState ≠ .ordered := by
  have entry : ∀ (p : PointId) (w : Vector (Option Point) 128) (e : List Word16),
      (∀ q : PointId, ∀ x, w[q] = some x → x.orderState ≠ .ordered) →
      ∀ q : PointId, ∀ x, (loadPointEntry links p w e)[q] = some x → x.orderState ≠ .ordered := by
    intro p w e hw
    unfold loadPointEntry
    split
    · split
      · split
        · intro q x hx
          simp only [Fin.getElem_fin, Vector.getElem_set] at hx
          split at hx
          · cases hx; simp [Point.new]
          · exact hw q x hx
        · exact hw
      · exact hw
    · exact hw
  unfold pointTable
  refine foldl_keeps_entry (P := fun w : Vector (Option Point) 128 =>
    ∀ p : PointId, ∀ x, w[p] = some x → x.orderState ≠ .ordered) ?_ _ _ (by simp)
  exact fun w p hw => foldl_keeps_entry (P := fun w : Vector (Option Point) 128 =>
    ∀ p : PointId, ∀ x, w[p] = some x → x.orderState ≠ .ordered) (fun w e => entry p w e) _ _ hw

/-- A duplicate-free list of points, each of which has a definition on the link, is no longer than that count. -/
theorem length_le_countP_definedPoints {v : Vector (Option Point) 128} {l : LinkId} {ps : List PointId} (hn : ps.Nodup)
    (h : ∀ p ∈ ps, ∃ x, v[p] = some x ∧ x.defn.link = l) :
    ps.length ≤ (definedPoints v).countP (fun d => decide (d.link = l)) := by
  have hc : (definedPoints v).countP (fun d => decide (d.link = l)) =
      (List.finRange 128).countP (fun p => ((v[p].map Point.defn).map (fun d => decide (d.link = l))).getD false) := by
    unfold definedPoints
    rw [List.countP_filterMap]
  rw [hc, List.countP_eq_length_filter]
  refine (hn.subperm (fun p hp => ?_)).length_le
  obtain ⟨x, hx, e⟩ := h p hp
  simp [show v[(p : Nat)] = some x from hx, e]

end Sys2Proof.Machine
end

