-- ==== Sys2Proof/Laws/Record.lean ====
section
/-! SUPPORT. What an append does to the event record law (R153, R155, R156, R159). -/

namespace Sys2Proof.Machine

/-- The ATTN line that follows the lag. -/
theorem Reader.follow_attn (d : Seq) (r : Reader) : (Reader.follow d r).attn = decide (0 < (d - r.cursor).toNat) := by
  unfold Reader.follow
  rw [Bool.eq_iff_iff]; simp only [decide_eq_true_eq]
  constructor <;> intro h <;> bv_omega

/-- An append keeps the event record law. -/
theorem RecordLaw_append (s : State) (kind sch pt pa de) (hs : s.RecordLaw) :
    (s.append kind sch pt pa de).RecordLaw := by
  obtain ⟨h1, h2, h3, h4⟩ := hs
  have hlen : ((s.append kind sch pt pa de).ring.length) = if 256 ≤ s.ring.length then s.ring.length else s.ring.length + 1 := by
    simp only [State.append, Config.ringSize]
    by_cases h : 256 ≤ s.ring.length <;> simp [h]; omega
  have hcur : ∀ p : PartyId, (s.append kind sch pt pa de).readers[p] = Reader.follow (s.nextSeq + 1)
      (if 256 ≤ s.ring.length then s.readers[p].pulled s.oldestSeq else s.readers[p]) := by
    intro p; simp [State.append, Config.ringSize]; rfl
  refine ⟨by rw [hlen]; split <;> omega, ?_, ?_, ?_⟩
  · intro i hi
    unfold State.oldestSeq
    rw [hlen] at *
    simp only [State.append_nextSeq]
    simp only [State.append, Config.ringSize]
    have h5 : ∀ j (h : j < s.ring.length),
        s.ring[j].seq = s.nextSeq - BitVec.ofNat 32 s.ring.length + BitVec.ofNat 32 j := h2
    split
    · next hf =>
      simp only [hf, if_true] at hi ⊢
      rw [List.getElem_append]
      split
      · next hj =>
        simp only [List.length_tail] at hj
        rw [List.getElem_tail, h5 _ (by omega)]
        bv_omega
      · next hj =>
        simp only [List.length_tail] at hj
        simp
        have : i = s.ring.length - 1 := by omega
        subst this
        bv_omega
    · next hf =>
      simp only [hf, if_false] at hi ⊢
      rw [List.getElem_append]
      split
      · next hj =>
        rw [h5 _ (by omega)]
        bv_omega
      · next hj =>
        have : i = s.ring.length := by omega
        subst this
        simp
        bv_omega
  · intro p
    have h6 := h3 p
    unfold State.lag at *
    rw [hlen, hcur]
    simp only [State.append_nextSeq, Reader.follow]
    split
    · next hf =>
      unfold Reader.pulled State.oldestSeq
      split
      · next e =>
        simp only [e]
        have : s.ring.length = 256 := by omega
        rw [this]
        bv_omega
      · next e =>
        have : s.ring.length = 256 := by omega
        rw [this] at *
        bv_omega
    · bv_omega
  · intro hr p
    rw [hcur]
    have hl : (s.append kind sch pt pa de).lag p = (s.nextSeq + 1 - (if 256 ≤ s.ring.length then s.readers[p].pulled s.oldestSeq else s.readers[p]).cursor).toNat := by
      unfold State.lag
      rw [hcur]; rfl
    rw [hl]
    exact Reader.follow_attn _ _

/-- The event record law speaks of the ring, the next sequence number and the readers only. -/
theorem RecordLaw_same (s t : State) (hs : s.RecordLaw) (h1 : t.ring = s.ring) (h2 : t.nextSeq = s.nextSeq) (h3 :
    t.readers = s.readers) (h4 : t.inReset = s.inReset) : t.RecordLaw := by
  obtain ⟨a1, a2, a3, a4⟩ := hs
  unfold State.oldestSeq State.lag at *
  refine ⟨by rw [h1]; exact a1, ?_, ?_, ?_⟩
  · intro i h
    have h' : i < s.ring.length := by rw [← h1]; exact h
    have := a2 i h'
    simp only [State.oldestSeq, h1, h2]
    exact this
  · intro p; simp only [State.lag, h1, h2, h3]; exact a3 p
  · intro hr p; simp only [State.lag, h2, h3]; exact a4 (by rw [← h4]; exact hr) p

/-- Dropping a latch keeps the event record law. -/
theorem RecordLaw_dropLatch (s : State) (k) (hs : s.RecordLaw) : (s.dropLatch k).RecordLaw := by
  unfold State.dropLatch
  split
  · apply RecordLaw_append; exact RecordLaw_same _ _ hs rfl rfl rfl rfl
  · exact hs

end Sys2Proof.Machine
end

