-- ==== Sys2Proof/Laws/Resets.lean ====
section
/-! SUPPORT. What the steps of a warm reset change (R38, R79, R131, R177): the dropped latches, the faulted points and the
completed blocks, over a whole list of them. -/

namespace Sys2Proof.Machine

/-- `t` differs from `s` at most in its schemes, points and event record, and in the counter of the free values. -/
structure SameElsewhere (s t : State) : Prop where
  pending : t.pending = s.pending
  inReset : t.inReset = s.inReset
  clock : t.clock = s.clock
  bench : t.bench = s.bench
  store : t.store = s.store
  storeOp : t.storeOp = s.storeOp
  warm : t.warm = s.warm
  meas : t.meas = s.meas
  det : t.det = s.det
  recentRise : t.recentRise = s.recentRise
  lateLists : t.lateLists = s.lateLists
  engine : t.engine = s.engine
  links : t.links = s.links
  execCount : t.execCount = s.execCount
  parties : t.parties = s.parties

theorem SameElsewhere.refl (s : State) : SameElsewhere s s := by constructor <;> rfl

theorem SameElsewhere.trans {s t u : State} (h : SameElsewhere s t) (h' : SameElsewhere t u) : SameElsewhere s u := by
  constructor
  · exact h'.pending.trans h.pending
  · exact h'.inReset.trans h.inReset
  · exact h'.clock.trans h.clock
  · exact h'.bench.trans h.bench
  · exact h'.store.trans h.store
  · exact h'.storeOp.trans h.storeOp
  · exact h'.warm.trans h.warm
  · exact h'.meas.trans h.meas
  · exact h'.det.trans h.det
  · exact h'.recentRise.trans h.recentRise
  · exact h'.lateLists.trans h.lateLists
  · exact h'.engine.trans h.engine
  · exact h'.links.trans h.links
  · exact h'.execCount.trans h.execCount
  · exact h'.parties.trans h.parties

/-- `t` differs from `s` at most in latches, none of which is newly set, and the event record. -/
structure OnlyLatches (s t : State) : Prop extends SameElsewhere s t where
  points : t.points = s.points
  schemes : ∀ k : SchemeId, ∃ l, t.schemes[k] = { s.schemes[k] with latch := l } ∧ (s.schemes[k].latch = none → l = none)

theorem OnlyLatches.refl (s : State) : OnlyLatches s s := ⟨.refl s, rfl, fun _ => ⟨_, rfl, id⟩⟩

theorem OnlyLatches.trans {s t u : State} (h : OnlyLatches s t) (h' : OnlyLatches t u) : OnlyLatches s u := by
  refine ⟨h.toSameElsewhere.trans h'.toSameElsewhere, h'.points.trans h.points, fun k => ?_⟩
  obtain ⟨l, e, i⟩ := h.schemes k
  obtain ⟨l', e', i'⟩ := h'.schemes k
  exact ⟨l', by rw [e', e], fun hh => i' (by rw [e]; exact i hh)⟩

theorem dropLatch_onlyLatches (s : State) (k : SchemeId) :
    OnlyLatches s (s.dropLatch k) ∧ (s.dropLatch k).schemes[k].latch = none := by
  unfold State.dropLatch
  split
  · refine ⟨⟨by constructor <;> simp, by simp, fun j => ?_⟩, by simp⟩
    simp only [State.append_schemes, State.modScheme_schemes, Fin.getElem_fin, getElem_modV]
    split
    · exact ⟨_, rfl, by simp⟩
    · exact ⟨_, rfl, id⟩
  · rename_i h
    exact ⟨.refl s, h⟩

/-- Dropping the latches of a list of schemes clears each of them and changes no other state. -/
theorem dropLatches (ks : List SchemeId) : ∀ s : State,
    OnlyLatches s (ks.foldl (fun s k => s.dropLatch k) s) ∧
      ∀ k ∈ ks, (ks.foldl (fun s k => s.dropLatch k) s).schemes[k].latch = none := by
  induction ks with
  | nil => exact fun s => ⟨.refl s, by simp⟩
  | cons k ks ih =>
    intro s
    rw [List.foldl_cons]
    obtain ⟨h1, h2⟩ := dropLatch_onlyLatches s k
    obtain ⟨h3, h4⟩ := ih (s.dropLatch k)
    refine ⟨h1.trans h3, fun j hj => ?_⟩
    rcases List.mem_cons.1 hj with rfl | hj
    · obtain ⟨l, e, i⟩ := h3.schemes j
      rw [e]; exact i h2
    · exact h4 j hj

/-- `t` differs from `s` at most in points, newly set pending-pass flags and the event record. -/
structure OnlyPoints (s t : State) : Prop extends SameElsewhere s t where
  schemes : ∀ k : SchemeId, ∃ b, t.schemes[k] = { s.schemes[k] with pendingPass := b } ∧
    (s.schemes[k].pendingPass = true → b = true)

theorem OnlyPoints.refl (s : State) : OnlyPoints s s := ⟨.refl s, fun _ => ⟨_, rfl, id⟩⟩

theorem OnlyPoints.trans {s t u : State} (h : OnlyPoints s t) (h' : OnlyPoints t u) : OnlyPoints s u := by
  refine ⟨h.toSameElsewhere.trans h'.toSameElsewhere, fun k => ?_⟩
  obtain ⟨l, e, i⟩ := h.schemes k
  obtain ⟨l', e', i'⟩ := h'.schemes k
  exact ⟨l', by rw [e', e], fun hh => i' (by rw [e]; exact i hh)⟩

theorem OnlyPoints.live {s t : State} (h : OnlyPoints s t) (k : SchemeId) : t.schemes[k].live = s.schemes[k].live := by
  obtain ⟨b, e, -⟩ := h.schemes k
  rw [e]

/-- The requests of a point set pending-pass flags only. -/
theorem requestForPoint_schemes (s : State) (p : PointId) (k : SchemeId) :
    ∃ b, (s.requestForPoint p).schemes[k] = { s.schemes[k] with pendingPass := b } ∧
      (s.schemes[k].pendingPass = true → b = true) := by
  simp only [State.requestForPoint, State.requestPasses, Fin.getElem_fin, getElem_mapV]
  split
  · exact ⟨true, rfl, fun _ => rfl⟩
  · exact ⟨_, rfl, id⟩

/-- A point through the first step of R38. -/
def Point.offLine (x : Point) : Point := { x with availability := .faulted, blockPending := false }

/-- A point through the completion of its deferred block (R34), where no live arming record holds it. -/
def Point.released (x : Point) : Point :=
  if x.blockPending = true ∧ x.orderState ≠ .ordered then { x with availability := .blocked, blockPending := false }
  else x

theorem faultPoint_onlyPoints (p : PointId) (s : State) :
    OnlyPoints s (s.faultPoint p) ∧ (∀ q, q ≠ p → (s.faultPoint p).points[q] = s.points[q]) ∧
      (s.faultPoint p).points[p] = s.points[p].map Point.offLine := by
  unfold State.faultPoint
  split
  · rename_i x hx
    split
    · rename_i h
      refine ⟨.refl s, fun _ _ => rfl, ?_⟩
      rw [hx]
      obtain ⟨h1, h2⟩ := h
      cases x
      simp_all [Point.offLine]
    · refine ⟨⟨by constructor <;> simp, fun j => ?_⟩, fun q hq => ?_, by simp; rfl⟩
      · exact requestForPoint_schemes _ p j
      · simp only [State.requestForPoint_points, State.modPoint_points, Fin.getElem_fin, getElem_modV]
        rw [if_neg (fun h => hq (Fin.ext h.symm))]
  · rename_i hx
    exact ⟨.refl s, fun _ _ => rfl, by rw [hx]; rfl⟩

theorem completeBlock_onlyPoints (s : State) (p : PointId) :
    OnlyPoints s (s.completeBlock p) ∧ (∀ q, q ≠ p → (s.completeBlock p).points[q] = s.points[q]) ∧
      (s.holders p = 0 → (s.completeBlock p).points[p] = s.points[p].map Point.released) := by
  unfold State.completeBlock
  split
  · rename_i x hx
    split
    · rename_i h
      refine ⟨⟨by constructor <;> simp, fun j => ?_⟩, fun q hq => ?_, fun _ => ?_⟩
      · exact requestForPoint_schemes _ p j
      · simp only [State.requestForPoint_points, State.append_points, State.modPoint_points, Fin.getElem_fin, getElem_modV]
        rw [if_neg (fun h => hq (Fin.ext h.symm))]
      · obtain ⟨h1, h2, h3⟩ := h
        simp_all [Point.released]
    · rename_i h
      refine ⟨.refl s, fun _ _ => rfl, fun hh => ?_⟩
      rw [hx]
      simp only [hh, true_and] at h
      simp only [Option.map_some, Point.released, if_neg h]
  · rename_i hx
    exact ⟨.refl s, fun _ _ => rfl, fun _ => by rw [hx]; rfl⟩

/-- The first step of R38 over a list of points. -/
theorem faultPoints (ps : List PointId) : ∀ s : State,
    OnlyPoints s (ps.foldl (fun s p => s.faultPoint p) s) ∧
      ∀ q : PointId, (ps.foldl (fun s p => s.faultPoint p) s).points[q] =
        if q ∈ ps then s.points[q].map Point.offLine else s.points[q] := by
  induction ps with
  | nil => exact fun s => ⟨.refl s, by simp⟩
  | cons p ps ih =>
    intro s
    rw [List.foldl_cons]
    obtain ⟨h1, h2, h3⟩ := faultPoint_onlyPoints p s
    obtain ⟨h4, h5⟩ := ih (s.faultPoint p)
    refine ⟨h1.trans h4, fun q => ?_⟩
    rw [h5]
    by_cases hq : q = p
    · subst hq
      simp only [h3, List.mem_cons, true_or, if_true]
      split <;> cases s.points[q] <;> rfl
    · simp only [h2 q hq, List.mem_cons, hq, false_or]

/-- No live arming record, no holder. -/
theorem holders_of_no_record (s : State) (h : ∀ k : SchemeId, s.schemes[k].live = none) (p : PointId) :
    s.holders p = 0 := by
  simp only [State.holders, List.countP_eq_zero]
  intro sc hsc
  rw [Vector.mem_toList_iff] at hsc
  obtain ⟨i, hi, rfl⟩ := Vector.mem_iff_getElem.1 hsc
  have := h ⟨i, hi⟩
  simp only [Fin.getElem_fin] at this
  simp [Scheme.holdsPoint, this]

/-- Deferred blocks completed over a list of points, where no live arming record is left. -/
theorem completeBlocks (ps : List PointId) : ∀ s : State, (∀ k : SchemeId, s.schemes[k].live = none) →
    OnlyPoints s (ps.foldl (fun s p => s.completeBlock p) s) ∧
      ∀ q : PointId, (ps.foldl (fun s p => s.completeBlock p) s).points[q] =
        if q ∈ ps then s.points[q].map Point.released else s.points[q] := by
  induction ps with
  | nil => exact fun s _ => ⟨.refl s, by simp⟩
  | cons p ps ih =>
    intro s hl
    rw [List.foldl_cons]
    obtain ⟨h1, h2, h3⟩ := completeBlock_onlyPoints s p
    obtain ⟨h4, h5⟩ := ih (s.completeBlock p) (fun k => (h1.live k).trans (hl k))
    refine ⟨h1.trans h4, fun q => ?_⟩
    rw [h5]
    by_cases hq : q = p
    · subst hq
      simp only [h3 (holders_of_no_record s hl q), List.mem_cons, true_or, if_true]
      split
      · cases s.points[q] with
        | none => rfl
        | some x =>
          simp only [Option.map_some, Point.released]
          split <;> simp_all
      · rfl
    · simp only [h2 q hq, List.mem_cons, hq, false_or]

end Sys2Proof.Machine
end

