-- ==== Sys2Proof/Laws/Reports.lean ====
section
/-! SUPPORT. What an operation appends to the event record: `State.Logs` put together from its parts, and `State.Logged`,
some records or none, for the operations of the blocks. -/

namespace Sys2Proof.Machine

/-- The event record, its readers and the clock are the same in both states. -/
structure SameRecord (s t : State) : Prop where
  ring : t.ring = s.ring
  nextSeq : t.nextSeq = s.nextSeq
  readers : t.readers = s.readers
  clock : t.clock = s.clock

/-- One append of a report. -/
def State.report (s : State) (r : Report) : State := s.append r.1 r.2.1 r.2.2.1 r.2.2.2.1 r.2.2.2.2

theorem SameRecord.refl (s : State) : SameRecord s s := ⟨rfl, rfl, rfl, rfl⟩

theorem SameRecord.trans {s t u : State} (h : SameRecord s t) (h' : SameRecord t u) : SameRecord s u :=
  ⟨h'.ring.trans h.ring, h'.nextSeq.trans h.nextSeq, h'.readers.trans h.readers, h'.clock.trans h.clock⟩

/-- An append looks at the record, its readers and the clock only. -/
theorem SameRecord.report {s t : State} (h : SameRecord s t) (r : Report) : SameRecord (s.report r) (t.report r) := by
  obtain ⟨h1, h2, h3, h4⟩ := h
  constructor <;> simp [State.report, State.append, Reader.pulled, State.oldestSeq, h1, h2, h3, h4]

theorem SameRecord.reports {s t : State} (rs : List Report) (h : SameRecord s t) :
    SameRecord (rs.foldl State.report s) (rs.foldl State.report t) := by
  induction rs generalizing s t with
  | nil => exact h
  | cons r rs ih => exact ih (h.report r)

@[simp] theorem State.report_clock (s : State) (r : Report) : (s.report r).clock = s.clock := rfl

theorem State.reports_clock (rs : List Report) : ∀ s : State, (rs.foldl State.report s).clock = s.clock := by
  induction rs with
  | nil => exact fun _ => rfl
  | cons r rs ih => exact fun s => (ih (s.report r)).trans rfl

namespace State

variable {s t u : State} {a b : List Report}

theorem logs_iff : s.Logs t a ↔ SameRecord (a.foldl State.report s) t :=
  ⟨fun ⟨h1, h2, h3, h4⟩ => ⟨h1, h2, h3, h4.trans (reports_clock a s).symm⟩,
    fun ⟨h1, h2, h3, h4⟩ => ⟨h1, h2, h3, h4.trans (reports_clock a s)⟩⟩

theorem Logs.nil (h : SameRecord s t) : s.Logs t [] := logs_iff.2 h

theorem Logs.trans (h : s.Logs t a) (h' : t.Logs u b) : s.Logs u (a ++ b) := by
  rw [logs_iff] at *
  rw [List.foldl_append]
  exact (h.reports b).trans h'

theorem Logs.append (h : s.Logs t a) (kind : EventKind) (sch : Option SchemeId) (pt : Option PointId)
    (pa : Option PartyId) (de : Option Int) : s.Logs (t.append kind sch pt pa de) (a ++ [(kind, sch, pt, pa, de)]) :=
  h.trans (logs_iff.2 (.refl _))

/-- A change outside the record adds nothing. -/
theorem Logs.same (h : s.Logs t a) (h' : SameRecord t u) : s.Logs u a := by
  simpa using h.trans (.nil h')

/-- Some records, or none, are appended. -/
def Logged (s t : State) : Prop := ∃ rs, s.Logs t rs

theorem Logged.refl (s : State) : s.Logged s := ⟨[], .nil (.refl s)⟩

theorem Logged.trans (h : s.Logged t) (h' : t.Logged u) : s.Logged u :=
  let ⟨_, h⟩ := h
  let ⟨_, h'⟩ := h'
  ⟨_, h.trans h'⟩

theorem Logged.append {kind : EventKind} {sch : Option SchemeId} {pt : Option PointId}
    {pa : Option PartyId} {de : Option Int} (h : s.Logged t) : s.Logged (t.append kind sch pt pa de) :=
  let ⟨_, h⟩ := h
  ⟨_, h.append kind sch pt pa de⟩

theorem Logged.same (h : s.Logged t) (h' : SameRecord t u) : s.Logged u :=
  let ⟨_, h⟩ := h
  ⟨_, h.same h'⟩

theorem Logged.ite {c : Prop} [Decidable c] (h : s.Logged t) (h' : s.Logged u) : s.Logged (if c then t else u) := by
  split <;> assumption

theorem Logged.foldl {α : Type} {f : State → α → State} (hf : ∀ s x, Logged s (f s x)) (xs : List α)
    (h : s.Logged t) : s.Logged (xs.foldl f t) := by
  induction xs generalizing t with
  | nil => exact h
  | cons x xs ih => exact ih (h.trans (hf t x))

/-- A record of its own first, then some. -/
theorem Logs.more (h : s.Logs t a) (h' : t.Logged u) : ∃ rest, s.Logs u (a ++ rest) :=
  let ⟨rest, h'⟩ := h'
  ⟨rest, h.trans h'⟩

end State

namespace SameRecord

variable (s : State)

theorem modScheme (k : SchemeId) (f : Scheme → Scheme) : SameRecord s (s.modScheme k f) := ⟨rfl, rfl, rfl, rfl⟩
theorem modPoint (p : PointId) (f : Point → Point) : SameRecord s (s.modPoint p f) := ⟨rfl, rfl, rfl, rfl⟩
theorem modLink (l : LinkId) (f : Link → Link) : SameRecord s (s.modLink l f) := ⟨rfl, rfl, rfl, rfl⟩
theorem modEntry (ref : WaitRef) (f : EntryResult → EntryResult) : SameRecord s (s.modEntry ref f) := ⟨rfl, rfl, rfl, rfl⟩
theorem finishEntry (ref : WaitRef) (o : EntryOutcome) : SameRecord s (s.finishEntry ref o) := ⟨rfl, rfl, rfl, rfl⟩
theorem requestForPoint (p : PointId) : SameRecord s (s.requestForPoint p) := ⟨rfl, rfl, rfl, rfl⟩
theorem requestForSlot (m : MeasId) : SameRecord s (s.requestForSlot m) := ⟨rfl, rfl, rfl, rfl⟩
theorem discardOrder (l : LinkId) (p : PointId) : SameRecord s (s.discardOrder l p) := ⟨rfl, rfl, rfl, rfl⟩
theorem joinOrder (l : LinkId) (p : PointId) (ref : WaitRef) : SameRecord s (s.joinOrder l p ref) := ⟨rfl, rfl, rfl, rfl⟩
theorem placeOrder (p : PointId) (d : PointDef) (o : TripOrder) : SameRecord s (s.placeOrder p d o) := ⟨rfl, rfl, rfl, rfl⟩

theorem voidPass (k : SchemeId) : SameRecord s (s.voidPass k) := by
  constructor <;> simp

end SameRecord

/-! ## The operations of the blocks -/

namespace State.Logged

variable {s t : State}

theorem completeBlock {p : PointId} (h : s.Logged t) : s.Logged (t.completeBlock p) := by
  unfold State.completeBlock
  split
  · split
    · exact (Logged.append (h.same (.modPoint t p _))).same (.requestForPoint _ p)
    · exact h
  · exact h

theorem dropLatch {k : SchemeId} (h : s.Logged t) : s.Logged (t.dropLatch k) := by
  unfold State.dropLatch
  split
  · exact Logged.append (h.same (.modScheme t k _))
  · exact h

theorem completeExecution {k : SchemeId} (h : s.Logged t) : s.Logged (t.completeExecution k) := by
  unfold State.completeExecution
  split
  · exact h
  · dsimp only
    split
    · exact (Logged.append (h.same (.modScheme t k _))).same (.modScheme _ k _)
    · exact dropLatch (((Logged.append (h.same (.modScheme t k _))).same (.modScheme _ k _)).same (.voidPass _ k))

theorem completeIfDone {k : SchemeId} (h : s.Logged t) : s.Logged (t.completeIfDone k) := by
  unfold State.completeIfDone
  split
  · exact h.completeExecution
  · exact h

theorem completeAll {refs : List WaitRef} (h : s.Logged t) : s.Logged (t.completeAll refs) :=
  h.foldl (fun s _ => completeIfDone (.refl s)) _

theorem finishEntries {refs : List (WaitRef × Nat)} {f : WaitRef × Nat → EntryOutcome} (h : s.Logged t) :
    s.Logged (refs.foldl (fun s r => s.finishEntry r.1 (f r)) t) :=
  h.foldl (fun s r => (Logged.refl s).same (.finishEntry s r.1 (f r))) _

theorem confirmOrder {l : LinkId} {o : TripOrder} {c : ConfirmCause} (h : s.Logged t) :
    s.Logged (t.confirmOrder l o c) := by
  unfold State.confirmOrder
  refine completeAll (finishEntries (completeBlock ?_))
  exact (Logged.append ((h.same (.modPoint t _ _)).same (.discardOrder _ l _))).same (.requestForPoint _ _)

theorem requestBackup {failed b : PointId} {ref : WaitRef} (h : s.Logged t) :
    s.Logged (t.requestBackup failed b ref) := by
  unfold State.requestBackup
  split
  · split
    · have h1 (p d o ref f) := (h.same (.placeOrder t p d o)).same (.modEntry _ ref f)
      exact ite (confirmOrder (Logged.append (h1 ..))) (Logged.append (h1 ..))
    · dsimp only
      split
      · exact (h.same (.joinOrder t _ _ _)).same (.modEntry _ _ _)
      · exact h
    · exact (h.same (.modEntry t _ _)).same (.finishEntry _ _ _)
  · exact (h.same (.modEntry t _ _)).same (.finishEntry _ _ _)

theorem failEntry {o : TripOrder} {backup : Option PointId} {r : WaitRef × Nat} (h : s.Logged t) :
    s.Logged (State.failEntry o backup t r) := by
  unfold State.failEntry
  split
  · exact h.same (.finishEntry t _ _)
  · split
    · split
      · exact h.same (.finishEntry t _ _)
      · exact h.requestBackup
    · exact h.same (.finishEntry t _ _)

theorem fireEntry {k : SchemeId} {n : BitVec 32} {e : (PointId × Nat) × Nat} (h : s.Logged t) :
    s.Logged (State.fireEntry k n t e) := by
  unfold State.fireEntry
  dsimp only
  split
  · split
    · have h1 (p d o ref f) := (h.same (.placeOrder t p d o)).same (.modEntry _ ref f)
      exact ite (confirmOrder (Logged.append (h1 ..))) (Logged.append (h1 ..))
    · split
      · exact (h.same (.joinOrder t _ _ _)).same (.modEntry _ _ _)
      · exact h
    · exact (h.same (.modEntry t _ _)).same (.finishEntry _ _ _)
    · exact (h.same (.modEntry t _ _)).same (.finishEntry _ _ _)
  · exact (h.same (.modEntry t _ _)).same (.finishEntry _ _ _)

theorem completeBlocks {ps : List PointId} (h : s.Logged t) : s.Logged (ps.foldl State.completeBlock t) :=
  h.foldl (fun s _ => completeBlock (.refl s)) _

end State.Logged

/-! ## The first record of an order's end and of a taking -/

/-- A confirmation's first record is ORDER_CONFIRMED (R141). -/
theorem State.confirmOrder_logs (s : State) (l : LinkId) (o : TripOrder) (c : ConfirmCause) :
    ∃ rest, s.Logs (s.confirmOrder l o c)
      ((.orderConfirmed, some o.placer, some o.point, none, some ((o.tag.toNat : Int) + c.mark)) :: rest) := by
  unfold State.confirmOrder
  have h := (State.Logs.nil ((SameRecord.modPoint s o.point (fun x =>
    { x with orderState := .tripped, lastOutcome := .confirmed })).trans (.discardOrder _ l o.point))).append .orderConfirmed
      (some o.placer) (some o.point) none (some ((o.tag.toNat : Int) + c.mark))
  exact h.more (.completeAll (.finishEntries (.completeBlock ((State.Logged.refl _).same (.requestForPoint _ _)))))

/-- A failure's first record is ORDER_FAILED (R144). -/
theorem State.failOrder_logs (s : State) (l : LinkId) (o : TripOrder) (e : Bool) :
    ∃ rest, s.Logs (s.failOrder l o e)
      ((.orderFailed, some o.placer, some o.point, none, some ((o.tag.toNat : Int) + if e then 256 else 0)) :: rest) := by
  unfold State.failOrder
  have h := (State.Logs.nil ((SameRecord.modPoint s o.point (fun x =>
    { x with orderState := .idle, availability := .faulted, lastOutcome := .failed, blockPending := false })).trans
      (.discardOrder _ l o.point))).append .orderFailed
      (some o.placer) (some o.point) none (some ((o.tag.toNat : Int) + if e then 256 else 0))
  refine h.more (.completeAll ?_)
  refine State.Logged.same ?_ ⟨rfl, rfl, rfl, rfl⟩
  exact ((State.Logged.refl _).same (.requestForPoint _ _)).foldl (fun s _ => .failEntry (.refl s)) _

/-- A taking's first record is TRIGGER_TAKEN (R121, R129). -/
theorem State.takeTrigger_logs (s : State) (k : SchemeId) (x : Trigger) (replayed : Bool) (h : (s.schemes[k]).live ≠ none) :
    ∃ rest, s.Logs (s.takeTrigger k x replayed)
      ((.triggerTaken, some k, none, none, some ((x.slot.val : Int) + if replayed then 64 else 0)) :: rest) := by
  unfold State.takeTrigger
  split
  · contradiction
  · next snap _ =>
    have h0 : SameRecord s (State.modScheme { s with execCount := s.execCount + 1 } k (fun sc =>
      { sc with record := some (s.schemes[k].newRecord snap x s.clock replayed s.execCount) })) := ⟨rfl, rfl, rfl, rfl⟩
    have h := (State.Logs.nil h0).append .triggerTaken (some k) none none
      (some ((x.slot.val : Int) + if replayed then 64 else 0))
    refine State.Logs.more h (.completeIfDone ?_)
    exact ((State.Logged.refl _).same (.modScheme _ _ _)).foldl (fun s _ => .fireEntry (.refl s)) _

/-! ## Lists of blocks and latches -/

/-- The deferred block of point `p` is due (R34). -/
def State.blockDue (s : State) (p : PointId) : Bool :=
  match s.points[p] with
  | some x => x.blockPending && decide (s.holders p = 0) && decide (x.orderState ≠ .ordered)
  | none => false

theorem OnlyPoints.holders {s t : State} (h : OnlyPoints s t) (p : PointId) : t.holders p = s.holders p := by
  have e : ∀ u : State, u.holders p = (List.finRange 32).countP (fun k : SchemeId => (u.schemes[k]).holdsPoint p) := by
    intro u
    have : u.schemes.toList = (List.finRange 32).map (fun k : SchemeId => u.schemes[k]) := by
      apply List.ext_getElem <;> simp
    unfold State.holders
    rw [this, List.countP_map]
    rfl
  rw [e, e]
  refine List.countP_congr fun k _ => ?_
  simp only [Scheme.holdsPoint, h.live k]

/-- One deferred block: where it is due, the point is BLOCKED and POINT_BLOCKED is appended; otherwise nothing happens. -/
theorem State.completeBlock_run (s : State) (p : PointId) :
    s.Logs (s.completeBlock p) (if s.blockDue p then [(.pointBlocked, none, some p, none, some 0)] else []) ∧
      (s.completeBlock p).points[p] = if s.blockDue p then
        s.points[p].map (fun x => { x with availability := .blocked, blockPending := false }) else s.points[p] := by
  have hd : ∀ x, s.points[p] = some x →
      (s.blockDue p = true ↔ x.blockPending = true ∧ s.holders p = 0 ∧ x.orderState ≠ .ordered) := by
    intro x hx
    simp only [State.blockDue, hx, Bool.and_eq_true, decide_eq_true_eq, and_assoc]
  unfold State.completeBlock
  split
  · next x hx =>
    split
    · next h =>
      rw [if_pos ((hd x hx).2 h), if_pos ((hd x hx).2 h)]
      refine ⟨((State.Logs.nil (SameRecord.modPoint s p _)).append .pointBlocked none (some p) none (some 0)).same
        (.requestForPoint _ p), ?_⟩
      simp only [State.requestForPoint_points, State.append_points, State.modPoint_points, Fin.getElem_fin,
        getElem_modV, if_true]
    · next h =>
      rw [if_neg (fun e => h ((hd x hx).1 e)), if_neg (fun e => h ((hd x hx).1 e))]
      exact ⟨.nil (.refl s), rfl⟩
  · next hx =>
    have : s.blockDue p = false := by simp only [State.blockDue, hx]
    rw [this]
    exact ⟨.nil (.refl s), rfl⟩

/-- Deferred blocks completed over a list of points without repeats: exactly the due ones, each with its record. -/
theorem State.completeBlocks_run (ps : List PointId) (hn : ps.Nodup) : ∀ s : State,
    s.Logs (ps.foldl State.completeBlock s)
        ((ps.filter s.blockDue).map (fun p => (.pointBlocked, none, some p, none, some 0))) ∧
      ∀ q : PointId, (ps.foldl State.completeBlock s).points[q] = if q ∈ ps ∧ s.blockDue q = true then
        s.points[q].map (fun x => { x with availability := .blocked, blockPending := false }) else s.points[q] := by
  induction ps with
  | nil => exact fun s => ⟨.nil (.refl s), by simp⟩
  | cons p ps ih =>
    intro s
    obtain ⟨hp, hn⟩ := List.nodup_cons.1 hn
    obtain ⟨h1, h2, -⟩ := completeBlock_onlyPoints s p
    obtain ⟨h3, h4⟩ := s.completeBlock_run p
    obtain ⟨h5, h6⟩ := ih hn (s.completeBlock p)
    have due : ∀ q, q ≠ p → (s.completeBlock p).blockDue q = s.blockDue q := by
      intro q hq
      simp only [State.blockDue, h2 q hq, h1.holders q]
    refine ⟨?_, fun q => ?_⟩
    · have := h3.trans h5
      rw [List.foldl_cons]
      convert this using 1
      rw [List.filter_cons]
      have : ps.filter (s.completeBlock p).blockDue = ps.filter s.blockDue :=
        List.filter_congr (fun q hq => due q (fun e => hp (e ▸ hq)))
      rw [this]
      split <;> rfl
    · rw [List.foldl_cons, h6]
      by_cases hq : q = p
      · subst hq
        simp [hp, h4]
      · simp [hq, due q hq, h2 q hq]

/-- The requests of a point, scheme by scheme (R25). -/
theorem State.requestForPoint_scheme (s : State) (p : PointId) (k : SchemeId) : (s.requestForPoint p).schemes[k] =
    { s.schemes[k] with pendingPass := (s.schemes[k]).pendingPass || (s.schemes[k]).lists p } := by
  simp only [State.requestForPoint, State.requestPasses, Fin.getElem_fin, getElem_mapV]
  split <;> next h => simp [h]

theorem State.completeBlock_due {s : State} {p : PointId} (h : s.blockDue p = true) : s.completeBlock p =
    ((s.modPoint p (fun x => { x with availability := .blocked, blockPending := false })).append .pointBlocked
      (point := some p) (detail := some 0)).requestForPoint p := by
  unfold State.blockDue at h
  unfold State.completeBlock
  cases e : s.points[p] with
  | none => simp [e] at h
  | some x =>
    simp only [e, Bool.and_eq_true, decide_eq_true_eq] at h ⊢
    rw [if_pos ⟨h.1.1, h.1.2, h.2⟩]

theorem State.completeBlock_not_due {s : State} {p : PointId} (h : s.blockDue p = false) : s.completeBlock p = s := by
  unfold State.blockDue at h
  unfold State.completeBlock
  cases e : s.points[p] with
  | none => rfl
  | some x =>
    simp only [e] at h ⊢
    rw [if_neg]
    rintro ⟨h1, h2, h3⟩
    simp [h1, h2, h3] at h

/-- What deferred blocks completed over a list of points may change, and the requests the due ones make. -/
theorem State.completeBlocks_only (ps : List PointId) (hn : ps.Nodup) : ∀ s : State,
    let t := ps.foldl State.completeBlock s
    t = { s with points := t.points, schemes := t.schemes, ring := t.ring, nextSeq := t.nextSeq, readers := t.readers } ∧
    ∀ j : SchemeId, t.schemes[j] = { s.schemes[j] with
      pendingPass := (s.schemes[j]).pendingPass || (ps.filter s.blockDue).any (fun p => (s.schemes[j]).lists p) } := by
  induction ps with
  | nil => intro s; simp
  | cons p ps ih =>
    intro s
    obtain ⟨hp, hn⟩ := List.nodup_cons.1 hn
    obtain ⟨h1, h2, -⟩ := completeBlock_onlyPoints s p
    obtain ⟨h5, h6⟩ := ih hn (s.completeBlock p)
    have hf : ps.filter (s.completeBlock p).blockDue = ps.filter s.blockDue :=
      List.filter_congr fun q hq => by
        simp only [State.blockDue, h2 q (fun e => hp (e ▸ hq)), h1.holders q]
    rw [hf] at h6
    intro t
    have ht : t = ps.foldl State.completeBlock (s.completeBlock p) := rfl
    rw [← ht] at h5 h6
    clear_value t
    by_cases hd : s.blockDue p = true
    · have hb := completeBlock_due hd
      have hs : ∀ j : SchemeId, (s.completeBlock p).schemes[j] =
          { s.schemes[j] with pendingPass := (s.schemes[j]).pendingPass || (s.schemes[j]).lists p } := by
        intro j; rw [hb, requestForPoint_scheme]; rfl
      refine ⟨?_, fun j => ?_⟩
      · rw [h5, hb]; rfl
      · rw [h6 j, hs j, List.filter_cons, if_pos hd]
        simp [Scheme.lists, Bool.or_assoc]
    · rw [completeBlock_not_due (by simpa using hd)] at h5 h6
      refine ⟨h5, fun j => ?_⟩
      rw [h6 j, List.filter_cons, if_neg hd]

/-- Latches dropped over a list of schemes without repeats: each set one, with its record. -/
theorem State.dropLatches_logs (ks : List SchemeId) (hn : ks.Nodup) : ∀ s : State,
    s.Logs (ks.foldl (fun s k => s.dropLatch k) s)
      ((ks.filter (fun k => (s.schemes[k]).latch.isSome)).map (fun k =>
        (.retriggerDropped, some k, none, none, (s.schemes[k]).latch.map (fun g => (g.slot.val : Int))))) := by
  induction ks with
  | nil => exact fun s => .nil (.refl s)
  | cons k ks ih =>
    intro s
    obtain ⟨hk, hn⟩ := List.nodup_cons.1 hn
    have h1 : s.Logs (s.dropLatch k) (if (s.schemes[k]).latch.isSome then
        [(.retriggerDropped, some k, none, none, (s.schemes[k]).latch.map (fun g => (g.slot.val : Int)))] else []) := by
      unfold State.dropLatch
      split
      · next t ht =>
        rw [ht]
        exact (State.Logs.nil (SameRecord.modScheme s k _)).append .retriggerDropped (some k) none none
          (some (t.slot.val : Int))
      · next ht => rw [ht]; exact .nil (.refl s)
    have h2 : ∀ j ∈ ks, ((s.dropLatch k).schemes[j]).latch = (s.schemes[j]).latch := by
      intro j hj
      have : ¬ k.val = j.val := fun e => hk (Fin.ext e ▸ hj)
      simp [this]
    have h3 := h1.trans (ih hn (s.dropLatch k))
    rw [List.foldl_cons]
    convert h3 using 1
    have h4 : ks.filter (fun j => ((s.dropLatch k).schemes[j]).latch.isSome) =
        ks.filter (fun j => (s.schemes[j]).latch.isSome) := List.filter_congr (fun j hj => by rw [h2 j hj])
    have h5 := List.map_congr_left (l := ks.filter (fun j => (s.schemes[j]).latch.isSome)) (fun j hj =>
      congrArg (fun x => ((.retriggerDropped, some j, none, none, x.map (fun g => (g.slot.val : Int))) : Report))
        (h2 j (List.mem_of_mem_filter hj)))
    rw [h4, h5, List.filter_cons]
    split <;> rfl

end Sys2Proof.Machine
end

