-- ==== Sys2Proof/Laws/Schemes.lean ====
section
/-! SUPPORT. What a change of one scheme entry must meet to keep the scheme law (R41, R61 to R63, R108, R120, R126). -/

namespace Sys2Proof.Machine

/-- An undefined entry is lawful. -/
theorem Scheme.undefined_lawful (g) : (Scheme.undefined g).Lawful :=
  ⟨fun _ => rfl, nofun, nofun, nofun, fun _ => rfl, nofun⟩

/-- A change of one entry, with what it may do to the pass in flight. -/
theorem SchemeLaw_mod {s t : State} {k : SchemeId} {f : Scheme → Scheme} (hs : s.SchemeLaw)
    (h1 : t.schemes = modV s.schemes k f) (h2 : t.storeOp = s.storeOp)
    (h3 : ∀ x, t.engine = some x → ∃ y, s.engine = some y ∧ x.scheme = y.scheme ∧
      (x.void = false → y.void = false ∧ (x.scheme = k → (s.schemes[k].state.runsPasses = true →
          (f s.schemes[k]).state.runsPasses = true))))
    (hf : (s.schemes[k]).Lawful → (f s.schemes[k]).Lawful)
    (hl : s.loading = true → s.schemes[k].state = .disabled → (f s.schemes[k]).state = .disabled) : t.SchemeLaw := by
  obtain ⟨a1, a2, a3, a4⟩ := hs
  have he : ∀ i : SchemeId, t.schemes[i] = if k = i then f s.schemes[i] else s.schemes[i] := by
    intro i; rw [h1]; simp only [Fin.getElem_fin, getElem_modV, Fin.ext_iff]
  refine ⟨?_, ?_, ?_, ?_⟩
  · intro i; rw [he]; split
    · next e => subst e; exact hf (a1 k)
    · exact a1 i
  · intro x hx hv
    obtain ⟨y, hy, hxy, hh⟩ := h3 x hx
    obtain ⟨hv', hk⟩ := hh hv
    have hy2 := a2 y hy hv'
    have hy3 : ∀ a b : SchemeId, a = b → s.schemes[b].state.runsPasses = true → s.schemes[a].state.runsPasses = true :=
      fun a b e h => e ▸ h
    have hy4 := hy3 _ _ hxy hy2
    have key : ∀ i : SchemeId, (i = k → s.schemes[k].state.runsPasses = true →
        (f s.schemes[k]).state.runsPasses = true) →
        s.schemes[i].state.runsPasses = true → t.schemes[i].state.runsPasses = true := by
      intro i h5 h6
      rw [he]
      split
      · next e => subst e; exact h5 rfl h6
      · exact h6
    exact key _ hk hy4
  · intro hl' i
    have hl2 : s.loading = true := by simpa [State.loading, h2] using hl'
    rw [he]; split
    · next e => subst e; exact hl hl2 (a3 hl2 k)
    · exact a3 hl2 i
  · intro hc
    have := a4 (h2 ▸ hc)
    cases ht : t.engine with
    | none => rfl
    | some x => obtain ⟨y, hy, _⟩ := h3 x ht; rw [this] at hy; cases hy

/-- The scheme law speaks of the entries, the store operation and the engine only. -/
theorem SchemeLaw_same {s t : State} (hs : s.SchemeLaw) (h1 : t.schemes = s.schemes) (h2 : t.storeOp = s.storeOp)
    (h3 : t.engine = s.engine) : t.SchemeLaw := by
  simpa [State.SchemeLaw, State.loading, h1, h2, h3] using hs

/-- The pass in flight stands. -/
theorem engine_kept {s t : State} {k : SchemeId} {f : Scheme → Scheme} (h : t.engine = s.engine)
    (hf : s.schemes[k].state.runsPasses = true → (f s.schemes[k]).state.runsPasses = true) : ∀ x, t.engine = some x →
        ∃ y, s.engine = some y ∧ x.scheme = y.scheme ∧
      (x.void = false → y.void = false ∧ (x.scheme = k → (s.schemes[k].state.runsPasses = true →
          (f s.schemes[k]).state.runsPasses = true))) :=
  fun x hx => ⟨x, h ▸ hx, rfl, fun hv => ⟨hv, fun _ => hf⟩⟩

/-- The pass in flight is voided where it is of this scheme. -/
theorem engine_voided {s t : State} {k : SchemeId} {Q : Prop} (h :
    t.engine = s.engine.map (fun x => if x.scheme = k then { x with void := true } else x)) : ∀ x, t.engine = some x →
    ∃ y, s.engine = some y ∧ x.scheme = y.scheme ∧
      (x.void = false → y.void = false ∧ (x.scheme = k → Q)) := by
  intro x hx
  rw [h] at hx
  cases hs : s.engine with
  | none => rw [hs] at hx; cases hx
  | some y =>
    rw [hs] at hx
    simp only [Option.map_some, Option.some.injEq] at hx
    refine ⟨y, rfl, ?_, ?_⟩
    · subst hx; split <;> rfl
    · intro hv
      split at hx
      · subst hx; cases hv
      · subst hx; exact ⟨hv, fun e => by contradiction⟩

/-- A change of one entry that leaves the engine alone. -/
theorem SchemeLaw_modScheme {s : State} (k : SchemeId) (f : Scheme → Scheme) (hs : s.SchemeLaw)
    (hr : s.schemes[k].state.runsPasses = true → (f s.schemes[k]).state.runsPasses = true ∨ ∀ x, s.engine = some x →
        x.scheme ≠ k ∨ x.void = true)
    (hf : (s.schemes[k]).Lawful → (f s.schemes[k]).Lawful)
    (hl : s.loading = true → s.schemes[k].state = .disabled → (f s.schemes[k]).state = .disabled) :
        (s.modScheme k f).SchemeLaw := by
  refine SchemeLaw_mod hs rfl rfl ?_ hf hl
  intro x hx
  refine ⟨x, hx, rfl, fun hv => ⟨hv, fun e h => ?_⟩⟩
  rcases hr h with h | h
  · exact h
  · rcases h x hx with h | h
    · exact absurd e h
    · rw [hv] at h; cases h

/-- A scheme that is not DISABLED is defined. -/
theorem Scheme.defined_of_state {sc : Scheme} (h : sc.Lawful) (hn : sc.state ≠ .disabled) : ∃ d, sc.defn = some d := by
  cases hd : sc.defn with
  | none => have := h.undefined hd; rw [this] at hn; simp [Scheme.undefined] at hn
  | some d => exact ⟨d, rfl⟩

end Sys2Proof.Machine
end

