-- ==== Sys2Proof/Laws/Settle.lean ====
section
/-! SUPPORT. What the end of an event does where no warm reset is due (log entry 9): which flags the engine takes and which
pass it begins (R105), what the walk bears on (R100), and when a link begins to transmit (R138). -/

namespace Sys2Proof.Machine

/-! ## Taking flags (R105) -/

/-- Scheme `j` is flagged and would begin a pass. -/
def Begins (s : State) (j : SchemeId) : Prop :=
  (s.schemes[j]).pendingPass = true ∧ (s.schemes[j]).defn ≠ none ∧ (s.schemes[j]).state.runsPasses = true

/-- An engine with a pass in flight takes no flag. -/
theorem takeFlag_busy (s : State) (k : SchemeId) (h : s.engine ≠ none) : s.takeFlag k = s := by
  unfold State.takeFlag; rw [if_neg (fun hh => h hh.1)]

/-- The flag of a scheme that begins no pass is cleared. -/
theorem takeFlag_idle (s : State) (k : SchemeId) (he : s.engine = none) (h : ¬ Begins s k) :
    s.takeFlag k = s.modScheme k (fun sc => { sc with pendingPass := false }) := by
  unfold State.takeFlag
  split
  · next hc =>
    split
    · next d hd =>
      rw [if_neg]
      intro hr
      exact h ⟨hc.2, by rw [hd]; simp, hr⟩
    · rfl
  · next hc =>
    unfold State.modScheme
    rw [modV_self]
    have : s.schemes[k].pendingPass = false := by simpa [he] using hc
    rw [← this]

/-- A scheme that begins a pass has its flag cleared and the engine. -/
theorem takeFlag_begins (s : State) (k : SchemeId) (d : SchemeDef) (he : s.engine = none) (h : Begins s k)
    (hd : (s.schemes[k]).defn = some d) :
    s.takeFlag k = { s.modScheme k (fun sc => { sc with pendingPass := false }) with engine := some (s.newPass k d) } := by
  unfold State.takeFlag
  rw [if_pos ⟨he, h.1⟩]
  split
  · next d' hd' =>
    rw [hd] at hd'
    cases hd'
    rw [if_pos h.2.2]
  · next hd' => rw [hd] at hd'; cases hd'

/-- An engine with a pass in flight takes none of a list of flags. -/
theorem takeFlag_foldl_busy (ks : List SchemeId) (s : State) (h : s.engine ≠ none) : ks.foldl State.takeFlag s = s := by
  induction ks with
  | nil => rfl
  | cons k ks ih => rw [List.foldl_cons, takeFlag_busy s k h, ih]

/-- A list of schemes none of which begins a pass: their flags are cleared. -/
theorem takeFlag_foldl_idle (ks : List SchemeId) : ∀ s : State, s.engine = none → (∀ k ∈ ks, ¬ Begins s k) →
    ∃ v : Vector Scheme 32, ks.foldl State.takeFlag s = { s with schemes := v } ∧
      ∀ j : SchemeId, v[j] = if j ∈ ks then { s.schemes[j] with pendingPass := false } else s.schemes[j] := by
  induction ks with
  | nil => intro s _ _; exact ⟨s.schemes, rfl, by simp⟩
  | cons k ks ih =>
    intro s he h
    rw [List.foldl_cons, takeFlag_idle s k he (h k (by simp))]
    obtain ⟨v, e, hv⟩ := ih (s.modScheme k (fun sc => { sc with pendingPass := false })) he (by
      intro j hj hb
      refine h j (List.mem_cons_of_mem _ hj) ?_
      unfold Begins at hb ⊢
      simp only [State.modScheme_schemes, Fin.getElem_fin, getElem_modV] at hb
      split at hb
      · simp at hb
      · exact hb)
    refine ⟨v, e, fun j => ?_⟩
    rw [hv]
    simp only [State.modScheme_schemes, Fin.getElem_fin, getElem_modV, List.mem_cons]
    by_cases h1 : k.val = j.val
    · have : j = k := Fin.ext h1.symm
      subst this
      simp
    · have : j ≠ k := fun e => h1 (by rw [e])
      simp [h1, this]

/-- Where no scheme begins a pass, every flag is cleared and the engine stays free. -/
theorem takeFlags_idle (s : State) (he : s.engine = none) (hs : s.storeOp ≠ .coldLoad) (h : ∀ k, ¬ Begins s k) :
    ∃ v : Vector Scheme 32, s.takeFlags = { s with schemes := v } ∧
      ∀ j : SchemeId, v[j] = { s.schemes[j] with pendingPass := false } := by
  obtain ⟨v, e, hv⟩ := takeFlag_foldl_idle (List.finRange 32) s he (fun k _ => h k)
  refine ⟨v, ?_, fun j => by rw [hv, if_pos (List.mem_finRange j)]⟩
  unfold State.takeFlags
  rw [if_neg (by simp [State.starting, hs]), e]

/-- The numbers below `n` in order, cut at `k`. -/
theorem finRange_at {n : Nat} (k : Fin n) : ∃ pre post, List.finRange n = pre ++ k :: post ∧ ∀ j, j ∈ pre ↔ j < k := by
  obtain ⟨pre, post, e⟩ := List.append_of_mem (List.mem_finRange k)
  refine ⟨pre, post, e, fun j => ?_⟩
  have hp := List.pairwise_lt_finRange n
  rw [e, List.pairwise_append, List.pairwise_cons] at hp
  obtain ⟨-, ⟨h2, -⟩, h3⟩ := hp
  constructor
  · exact fun hj => h3 j hj k (by simp)
  · intro hj
    have := List.mem_finRange j
    rw [e, List.mem_append, List.mem_cons] at this
    rcases this with h | h | h
    · exact h
    · subst h; exact absurd hj (lt_irrefl _)
    · exact absurd hj (not_lt.2 (le_of_lt (h2 j h)))

/-- The lowest-numbered scheme that begins a pass has the engine; the flags up to it are cleared. -/
theorem takeFlags_begins (s : State) (k : SchemeId) (d : SchemeDef) (he : s.engine = none) (hs : s.storeOp ≠ .coldLoad)
    (hk : Begins s k) (hd : (s.schemes[k]).defn = some d) (h : ∀ j, j < k → ¬ Begins s j) :
    ∃ v : Vector Scheme 32, s.takeFlags = { s with schemes := v, engine := some (s.newPass k d) } ∧
      ∀ j : SchemeId, v[j] = if j ≤ k then { s.schemes[j] with pendingPass := false } else s.schemes[j] := by
  obtain ⟨pre, post, e, hp⟩ := finRange_at k
  obtain ⟨v, e1, hv⟩ := takeFlag_foldl_idle pre s he (fun j hj => h j ((hp j).1 hj))
  have hkv : v[k] = s.schemes[k] := by rw [hv, if_neg (fun hh => lt_irrefl k ((hp k).1 hh))]
  have hb : Begins { s with schemes := v } k := by
    show _ ∧ _ ∧ _
    simp only [hkv]; exact hk
  refine ⟨modV v k (fun sc => { sc with pendingPass := false }), ?_, fun j => ?_⟩
  · unfold State.takeFlags
    rw [if_neg (by simp [State.starting, hs]), e, List.foldl_append, List.foldl_cons, e1,
      takeFlag_begins { s with schemes := v } k d he hb (by rw [← hd]; exact congrArg _ hkv),
      takeFlag_foldl_busy _ _ (by simp)]
    rfl
  · simp only [Fin.getElem_fin, getElem_modV]
    have hvj := hv j
    simp only [Fin.getElem_fin, hp] at hvj
    rw [hvj]
    by_cases h1 : k.val = j.val
    · rw [if_pos h1, if_neg (by rw [Fin.lt_def]; omega), if_pos (by rw [Fin.le_def]; omega)]
    · rw [if_neg h1]
      simp only [Fin.lt_def, Fin.le_def, show (j.val < k.val) = (j.val ≤ k.val) from propext (by omega)]

/-! ## The walk and the transmissions -/

/-- A walk depends on the state by what makes points unavailable alone (R100). -/
theorem walkOn_congr {s t : State} (h : t.unavailable = s.unavailable) : ∀ (f : Figures) (cs : List CandidateCopy)
    (n : Nat) (w : Walk), t.walkOn f cs n w = s.walkOn f cs n w := by
  intro f cs
  induction cs with
  | nil => intro n w; rfl
  | cons c cs ih =>
    intro n w
    cases n with
    | zero => rfl
    | succ n =>
      simp only [State.walkOn, State.judgeCandidate, h, ih]

/-- When a link begins to transmit, and what (R138, R139, R151). -/
theorem Link.startFrame_cases (b : Bool) (k : Link) :
    let idle := k.params.enabled = true ∧ k.params.mode = .full ∧ k.held = false ∧ b = false ∧ k.transmitting = none
    (∀ head, idle → k.orders.find? (fun o => o.position = .queued) = some head →
      Link.startFrame b k = { k with
        orders := k.orders.map (fun o => if o.point = head.point then { o with position := .inTransmission } else o)
        transmitting := some (Wire.orderFrame k.params.station head) }) ∧
    (¬ idle ∨ k.orders.find? (fun o => o.position = .queued) = none → Link.startFrame b k = k) := by
  refine ⟨fun head ⟨h1, h2, h3, h4, h5⟩ h => ?_, fun h => ?_⟩
  · unfold Link.startFrame
    rw [if_pos ⟨by simp [LinkParams.isFull, h1, h2], h4, h3, h5⟩, h]
  · unfold Link.startFrame
    split
    · next hc =>
      rcases h with h | h
      · exfalso; apply h
        simp only [LinkParams.isFull, Bool.and_eq_true, decide_eq_true_eq] at hc
        exact ⟨hc.1.1, hc.1.2, hc.2.2.1, hc.2.1, hc.2.2.2⟩
      · rw [h]
    · rfl

/-- The end of an event where no warm reset is due. -/
theorem settle_quiet (s : State) (h : s.warmDue = false) : s.settle = (s.takeFlags.advanceWalk).startFrames := by
  unfold State.settle State.warmIfDue
  split
  · rw [if_neg (by simp [h])]
  · rfl
  · rfl

end Sys2Proof.Machine
end

