-- ==== Sys2Proof/Tests/Slice0.lean ====
section
/-! SUPPORT. The model's own tests. The expected values are the manual's: its worked sequences (chapters 1 to 11), or a
rule's table worked by hand; each docstring names the place. Then the well-formedness checks, and for every statement with
hypotheses a state and operands that meet them. -/

namespace Sys2Proof.Tests

set_option Elab.async false
set_option synthInstance.maxSize 2048

open Sys2Proof Sys2Proof.Machine

/-! ## The corridor of the manual's worked sequences -/

/-- The next state of a step. -/
def nextOf (o : Host.Outcome State Fault Refusal) : Option State :=
  match o with
  | .next t => some t
  | .fault _ => none
  | .refused _ => none

/-- What `f` reads of the next state. -/
def seen {α : Type} (o : Host.Outcome State Fault Refusal) (f : State → α) : Option α := (nextOf o).map f

/-- A part whose image load has completed, at clock reading `t`. -/
def part (t : Time) : State := { State.reset with storeOp := .idle, clock := t }

/-- The event records of a state, by kind and detail. -/
def records (s : State) : List (EventKind × Option Int) := s.ring.map (fun e => (e.kind, e.detail))

/-- The response that waits for party `p`. -/
def waiting (p : PartyId) (s : State) : Option (Status × List Byte) :=
  (s.parties[p]).waiting.map (fun r => (r.status, r.body))

/-- A schemes table with the scheme numbered `k` replaced. -/
def withScheme (s : State) (k : SchemeId) (sc : Scheme) : State := { s with schemes := s.schemes.set k sc }

def withPoint (s : State) (p : PointId) (x : Point) : State := { s with points := s.points.set p (some x) }

def withLink (s : State) (l : LinkId) (k : Link) : State := { s with links := s.links.set l k }

def withMeas (s : State) (m : MeasId) (x : MeasSlot) : State := { s with meas := s.meas.set m x }

def withDet (s : State) (d : DetId) (x : DetSlot) : State := { s with det := s.det.set d x }

/-- Scheme 4's definition (manual 3.8, 5.7, 6.6, 7.8). -/
def scheme4 : SchemeDef :=
  { label := [0x53, 0x43, 0x48, 0x45, 0x4D, 0x45, 0x20, 0x34], owner := 1, authority := 0b0110, autoRearm := false,
    enabledAtStart := false, terms := [(10, 256), (11, 128)], policy := .holdLast,
    curve := [(6000, 0), (7000, 1500), (8500, 4600), (9500, 6000)], margin := 100, overshoot := 800,
    candidates := [12, 13, 40, 41, 42], sources := [8, 52], k := 2, window := 30, protection := .locked, defGen := 41 }

/-- The figures of worked case 1 (manual 5.7). -/
def figures4 : Figures :=
  { q := some 7820, flags := { indexClamped := false, staleHeld := false, suspectInput := false, fullArming := false },
    a0 := 3195, a := 3295, cap := 4095 }

/-- The record of worked case 1 (manual 6.6). -/
def record4 : ArmingRecord :=
  { time := 5000, figures := figures4, selected := [(12, 2100), (41, 900), (42, 600)],
    skipped := [(13, .overshoot), (40, .blocked)], total := 3600, adequacy := .full, shortfall := none }

/-- Scheme 4 in a state, with the consents of P1 and P2 where the state calls for them. -/
def entry4 (st : SchemeState) (consented : Bool) (live : Option ArmingRecord) : Scheme :=
  { defn := some scheme4, armGen := 22, state := st,
    consents := if consented then #v[none, some 41, some 41, none] else Vector.replicate 4 none,
    pendingPass := false, live := live, record := none, latch := none, rearming := false }

/-- A point on link `l` at output address `a`, with its value in the slot of its own number (manual 2.6, 8.10). -/
def pointOn (owner : PartyId) (kind : PointKind) (l : LinkId) (a : Byte) (slot : MeasId) (status : Option DetId)
    (backup : Option PointId) : Point :=
  { defn := { owner := owner, kind := kind, link := l, address := a, valueSlot := slot, statusSlot := status,
              timeout := 20, backup := backup },
    availability := .inService, blockPending := false, orderState := .idle, lastTag := none, lastOutcome := .none }

def point41 : Point := pointOn 1 .loadShed 3 17 41 (some 20) (some 43)

/-- A full link of station `n` whose next tag is `tag`. -/
def fullLink (n tag : Byte) : Link :=
  { params := { enabled := true, station := n, mode := .full }, held := false, nextTag := tag, orders := [],
    transmitting := none, receiving := [] }

/-- A fresh measurement slot fed by link `l`. -/
def freshSlot (l : LinkId) (v : Int) (t : Time) : MeasSlot :=
  { link := some l, value := some v, held := v, quality := .good, lastUpdate := some t, limit := 2000, stale := false }

/-- The corridor at `t`: links S2, S3 and S5, the five candidates of scheme 4 and point 43, the flows of worked case 1, and
scheme 4 as given. -/
def corridor (t : Time) (sc : Scheme) : State :=
  let s := part t
  let s := withLink (withLink (withLink s 2 (fullLink 0x22 112)) 3 (fullLink 0x33 7)) 5 (fullLink 0x55 30)
  let s := withMeas (withMeas s 10 (freshSlot 2 8423 t)) 11 (freshSlot 2 (-1207) t)
  let s := withMeas (withMeas (withMeas s 12 (freshSlot 2 2100 t)) 13 (freshSlot 2 2200 t)) 40 (freshSlot 2 1800 t)
  let s := withMeas (withMeas (withMeas s 41 (freshSlot 2 900 t)) 42 (freshSlot 2 600 t)) 43 (freshSlot 2 800 t)
  let s := withPoint (withPoint s 12 (pointOn 2 .genDrop 2 9 12 none none)) 13 (pointOn 2 .genDrop 2 10 13 none none)
  let s := withPoint s 40 { pointOn 2 .genDrop 2 11 40 none none with availability := .blocked }
  let s := withPoint (withPoint s 41 point41) 42 (pointOn 2 .genDrop 5 4 42 none none)
  let s := withPoint s 43 (pointOn 1 .loadShed 3 18 43 none none)
  withScheme (withDet s 20 { source := .link 3, asserted := false, lastRise := none }) 4 sc

/-- Scheme 4 ARMED with the record of worked case 1. -/
def armed : State := corridor 5004 (entry4 .armed true (some record4))

/-! ## Measurements and detections (manual 1.6, 1.7) -/

/-- Slot 10 as manual 1.6 has it at 1000 ms, but for the clock. -/
def flow (x : MeasSlot) (t : Time) : State := withLink (withMeas (part t) 10 x) 2 (fullLink 0x22 0)

/-- Manual 1.6 at 1000: a GOOD item makes the slot fresh. -/
theorem test_data_good_item :
    seen (exec (.data 2 0x22 [.measurement 10 1 8423]) (flow (.fresh (some 2) 2000) 1000)) (fun s => s.meas[(10 : MeasId)]) =
      some { link := some 2, value := some 8423, held := 8423, quality := .good, lastUpdate := some 1000, limit := 2000,
             stale := false } := by decide +kernel

/-- Manual 1.6 at 4000: an INVALID item makes a fresh slot stale, with MEAS_STALE of detail 266. -/
theorem test_data_invalid_item :
    seen (exec (.data 2 0x22 [.measurement 10 3 8550]) (flow (freshSlot 2 8501 3600) 4000))
      (fun s => ((s.meas[(10 : MeasId)]).value, (s.meas[(10 : MeasId)]).held, (s.meas[(10 : MeasId)]).stale, records s)) =
      some (none, 8501, true, [(.measStale, some 266)]) := by decide +kernel

/-- Manual 1.6 at 3080: the expiry of slot 10. -/
theorem test_staleness_expiry :
    seen (exec (.stalenessExpiry 10) (flow { freshSlot 2 8390 1080 with quality := .suspect } 3080))
      (fun s => ((s.meas[(10 : MeasId)]).value, (s.meas[(10 : MeasId)]).held, (s.meas[(10 : MeasId)]).quality, records s)) =
      some (none, 8390, .suspect, [(.measStale, some 10)]) := by decide +kernel

/-- Manual 1.7 at 2035 and 2036: the edges of FD2 are an assertion and a clear of slot 50. -/
theorem test_fd_rising_edge :
    seen (exec (.fdRisingEdge 2) (part 2035)) (fun s => (s.det[(50 : DetId)], s.recentRise[(50 : DetId)])) =
      some ({ source := .fastDetect 2, asserted := true, lastRise := some 2035 }, true) := by decide +kernel

theorem test_fd_falling_edge :
    seen (exec (.fdFallingEdge 2) (withDet (part 2036) 50
      { source := .fastDetect 2, asserted := true, lastRise := some 2035 })) (fun s => s.det[(50 : DetId)]) =
      some { source := .fastDetect 2, asserted := false, lastRise := some 2035 } := by decide +kernel

/-- R116: the flag of a rise 1000 ms old. -/
theorem test_rise_expiry :
    seen (exec (.riseExpiry 50) { withDet (part 3035) 50
      { source := .fastDetect 2, asserted := false, lastRise := some 2035 } with
        recentRise := (Vector.replicate 64 false).set 50 true }) (fun s => s.recentRise[(50 : DetId)]) =
      some false := by decide +kernel

/-! ## Arming (manual 5.7 to 5.12, 6.6) -/

/-- R87's table. -/
theorem test_index_rounding :
    [127, 128, -127, -128, -1919, -1920, -1921].map roundedIndex = [0, 1, 0, -1, -7, -8, -8] := by decide

/-- Worked case 3 (manual 5.9): A0 along scheme 4's curve. -/
theorem test_curve_rising :
    [5000, 6000, 6001, 7000, 8499, 8500, 9499, 9500, 12000].map (curveAt scheme4.curve) =
      [0, 0, 2, 1500, 4598, 4600, 5999, 6000, 6000] := by decide

/-- Worked case 4 (manual 5.10): A0 along scheme 22's falling curve. -/
theorem test_curve_falling :
    [-4000, -2999, -1000, 0, 1999, 2000].map (curveAt [(-3000, 3000), (0, 1000), (2000, 0)]) =
      [3000, 3000, 1667, 1000, 1, 0] := by decide

/-- Worked case 2 (manual 5.8): slot 10 held, under the policy `p`. -/
def case2 (p : StalePolicy) : PassInputs :=
  { terms := [{ weight := 256, value := none, held := 8390, quality := .suspect, stale := true },
              { weight := 128, value := some (-1207), held := -1207, quality := .good, stale := false }],
    policy := p, curve := scheme4.curve, margin := 100, overshoot := 800, candidates := [] }

theorem test_figures_held :
    (case2 .holdLast).figures =
      { q := some 7787, flags := { indexClamped := false, staleHeld := true, suspectInput := true, fullArming := false },
        a0 := 3127, a := 3227, cap := 4027 } := by decide

theorem test_figures_full :
    (case2 .armFull).figures =
      { q := none, flags := { indexClamped := false, staleHeld := false, suspectInput := false, fullArming := true },
        a0 := 6000, a := 6100, cap := 6900 } := by decide

/-- Worked case 5 (manual 5.11): clamped, above and, with both weights negative, below. -/
def case5 (w : Int) : PassInputs :=
  { terms := [{ weight := w, value := some 32767, held := 32767, quality := .good, stale := false },
              { weight := w, value := some 30000, held := 30000, quality := .good, stale := false }],
    policy := .holdLast, curve := [(0, 0), (20000, 8000), (30000, 12000)], margin := 500, overshoot := 2000,
    candidates := [] }

theorem test_figures_clamped :
    [case5 1024, case5 (-1024)].map (fun x =>
      (x.figures.q, x.figures.flags.indexClamped, x.figures.a0, x.figures.a, x.figures.cap)) =
      [(some 32767, true, 12000, 12500, 14500), (some (-32767), true, 0, 0, 2000)] := by decide

/-- Worked case 1 (manual 5.7): the pass that begins has these figures. -/
theorem test_pass_begin :
    seen (exec .passBegin (corridor 5000 { entry4 .primed true none with pendingPass := true }))
      (fun s => (s.engine.map (fun x => (x.scheme, x.inputs.figures)), (s.schemes[(4 : SchemeId)]).pendingPass)) =
      some (some (4, figures4), false) := by decide +kernel

/-- A pass of scheme 4 in flight whose walk has ended as manual 6.6 has it. -/
def pass4 : Pass :=
  { scheme := 4, begun := 5000, void := false,
    inputs := (corridor 5000 (entry4 .armed true none)).copyInputs scheme4,
    walk := { total := 3600, selected := record4.selected, skipped := record4.skipped, remaining := [] } }

/-- Manual 6.6: the walk of scheme 4 over the corridor. -/
theorem test_walk :
    (corridor 5000 (entry4 .armed true none)).finishedWalk { pass4 with walk := pass4.inputs.startWalk } =
      { total := 3600, selected := record4.selected, skipped := record4.skipped, remaining := [] } := by decide +kernel

/-- Manual 6.6, second table: point 42 became ORDERED; the record is SHORT by 295 and ARMING_SHORT is appended. -/
theorem test_pass_completion :
    seen (exec .passCompletion { withPoint (corridor 5003 (entry4 .armed true (some record4))) 42
        { pointOn 2 .genDrop 5 4 42 none none with orderState := .ordered, lastTag := some 30 } with
        engine := some pass4 })
      (fun s => ((s.schemes[(4 : SchemeId)]).live, s.engine, records s)) =
      some (some { time := 5003, figures := figures4, selected := [(12, 2100), (41, 900)],
                   skipped := [(13, .overshoot), (40, .blocked), (42, .ordered)], total := 3000, adequacy := .short,
                   shortfall := some 295 }, none, [(.armingShort, some 295)]) := by decide +kernel

/-! ## Triggers (manual 7.7, 7.8) -/

/-- Scheme 4 ARMED, with slot 8 risen at 4990 (manual 7.8). -/
def tripping : State :=
  { withDet (withLink armed 1 (fullLink 0x11 0)) 8 { source := .link 1, asserted := true, lastRise := some 4990 } with
    recentRise := (Vector.replicate 64 false).set 8 true }

/-- Manual 7.8: slot 52 rises at 5004 and scheme 4 fires; its orders take the next tags of S2, S3 and S5. -/
theorem test_trigger_taken :
    seen (exec (.fdRisingEdge 4) tripping)
      (fun s => ((s.schemes[(4 : SchemeId)]).state, (s.schemes[(4 : SchemeId)]).record.map (fun r =>
          (r.trigger, r.takeTime, r.defGen, r.armGen, r.snapshot)), records s)) =
      some (.firing, some ({ time := 5004, slot := 52, counted := [(8, 4990), (52, 5004)] }, 5004, 41, 22, record4),
        [(.triggerTaken, some 52), (.orderPlaced, some 112), (.orderPlaced, some 7), (.orderPlaced, some 30)]) := by
  decide +kernel

/-- Manual 7.7 at 3071: of three sources, the one 41 ms old is not within W = 40. -/
theorem test_coincidence_window :
    (withDet (withDet { part 3071 with
        recentRise := (((Vector.replicate 64 false).set 5 true).set 6 true).set 50 true }
        5 { source := .link 1, asserted := true, lastRise := some 3035 })
        6 { source := .link 4, asserted := true, lastRise := some 3030 }).countedSources [5, 6, 50] 40 50 3071 =
      [(5, 3035), (50, 3071)] := by decide +kernel

/-- Manual 7.7 at 3094: a latched trigger of slot 6 is replayed with detail 6 + 64. -/
theorem test_retrigger_replay :
    seen (exec (.retriggerReplay 4) (corridor 3094 { entry4 .armed true (some { record4 with selected := [(12, 2100)] }) with
        latch := some { time := 3030, slot := 6, counted := [(5, 3000), (6, 3030), (50, 3025)] } }))
      (fun s => ((s.schemes[(4 : SchemeId)]).record.map (fun r => (r.trigger.time, r.takeTime, r.replayed)),
        (s.schemes[(4 : SchemeId)]).latch, records s)) =
      some (some (3030, 3094, true), none, [(.triggerTaken, some 70), (.orderPlaced, some 112)]) := by decide +kernel

/-! ## Orders (manual 8.10, 2.6) -/

/-- An entry result that waits on the order with this tag of link `l`. -/
def placed (l : LinkId) (tag : Byte) : EntryResult := { EntryResult.empty with answer := some .placed, order := some (l, tag) }

/-- An entry result CONFIRMED at `t`. -/
def confirmedAt (l : LinkId) (tag : Byte) (t : Time) : EntryResult :=
  { placed l tag with outcome := some .confirmed, outcomeTime := some t }

/-- Scheme 4's trigger record with these entry results. -/
def fired (es : List EntryResult) : TriggerRecord :=
  { trigger := { time := 5004, slot := 52, counted := [(8, 4990), (52, 5004)] }, takeTime := 5004, replayed := false,
    defGen := 41, armGen := 22, snapshot := record4, entries := es, execution := 0, completion := none,
    delivered := none }

/-- Scheme 4 FIRING with these entry results. -/
def firing4 (es : List EntryResult) : Scheme := { entry4 .firing true (some record4) with record := some (fired es) }

def ref4 (i : Nat) : WaitRef := { scheme := 4, execution := 0, position := i, role := .primary }

def order12 (pos : OrderPosition) : TripOrder :=
  { tag := 112, point := 12, address := 9, kind := .genDrop, placer := 4, backup := false, deadline := 5024,
    position := pos, waiting := [ref4 0] }

def order42 (pos : OrderPosition) : TripOrder :=
  { tag := 30, point := 42, address := 4, kind := .genDrop, placer := 4, backup := false, deadline := 5024,
    position := pos, waiting := [ref4 2] }

def order41 : TripOrder :=
  { tag := 7, point := 41, address := 17, kind := .loadShed, placer := 4, backup := false, deadline := 5024,
    position := .sent, waiting := [ref4 1] }

/-- Order 112 in flight on S2 at `t` with the frame `f` going out (manual 8.10). -/
def ordered12 (t : Time) (pos : OrderPosition) (f : Option (List Byte)) (held : Bool) : State :=
  let s := corridor t (firing4 [placed 2 112, confirmedAt 3 7 5012, placed 5 30])
  let s := withPoint s 12 { pointOn 2 .genDrop 2 9 12 none none with orderState := .ordered, lastTag := some 112 }
  withLink s 2 { fullLink 0x22 113 with orders := [order12 pos], transmitting := f, held := held }

/-- Order 30 in flight on S5 at its deadline (manual 8.10 at 5024). -/
def expiring : State :=
  let s := corridor 5024 (firing4 [confirmedAt 2 112 5016, confirmedAt 3 7 5012, placed 5 30])
  let s := withPoint s 42 { pointOn 2 .genDrop 5 4 42 none none with orderState := .ordered, lastTag := some 30 }
  withLink s 5 { fullLink 0x55 31 with orders := [order42 .sent] }

/-- Manual 8.10 at 5016: the echo confirms order 112. -/
theorem test_echo_executed :
    seen (exec (.echo 2 0x22 112 9 .executed) (ordered12 5016 .sent none false))
      (fun s => ((s.links[(2 : LinkId)]).orders, s.points[(12 : PointId)].map Point.orderState,
        (s.schemes[(4 : SchemeId)]).record.map (fun r => r.entries.map EntryResult.outcome), records s)) =
      some ([], some .tripped, some [some .confirmed, some .confirmed, none], [(.orderConfirmed, some 112)]) := by
  decide +kernel

/-- Manual 8.10 at 5031: a late echo sets the late mark. -/
theorem test_echo_late :
    seen (exec (.echo 5 0x55 30 4 .executed)
      { withPoint (corridor 5031 { entry4 .lockout false (some record4) with
          record := some { fired [confirmedAt 2 112 5016, confirmedAt 3 7 5012,
            { placed 5 30 with outcome := some .failed, outcomeTime := some 5024 }] with completion := some 5024 } }) 42
          { pointOn 2 .genDrop 5 4 42 none none with
            availability := .faulted, lastTag := some 30, lastOutcome := .failed } with
        lateLists := (Vector.replicate 128 []).set 42 [ref4 2] })
      (fun s => (s.points[(42 : PointId)].map Point.orderState,
        (s.schemes[(4 : SchemeId)]).record.map (fun r => r.entries.map EntryResult.late), records s)) =
      some (some .tripped, some [false, false, true], [(.orderLate, some 30)]) := by decide +kernel

/-- Manual 8.10 at 5024: order 30 fails, and the execution completes with 3000 delivered. -/
theorem test_deadline_expiry :
    seen (exec (.deadlineExpiry 42) expiring)
      (fun s => (s.points[(42 : PointId)].map (fun x => (x.availability, x.orderState, x.lastOutcome)),
        (s.schemes[(4 : SchemeId)]).state,
        (s.schemes[(4 : SchemeId)]).record.map (fun r => (r.completion, r.delivered)), records s)) =
      some (some (.faulted, .idle, .failed), .lockout, some (some 5024, some 3000),
        [(.orderFailed, some 286), (.execComplete, some 3000)]) := by decide +kernel

/-- Order 7 in flight for point 41, whose block is pending, with scheme 4's live arming record as given (manual 2.6). -/
def blocking41 (live : ArmingRecord) : State :=
  withLink (withPoint (corridor 5012 { firing4 [placed 2 112, placed 3 7, placed 5 30] with live := some live }) 41
    { point41 with blockPending := true, orderState := .ordered, lastTag := some 7 }) 3
    { fullLink 0x33 8 with orders := [order41] }

/-- The record that scheme 4's pass installs at 5006, which leaves point 41 out (manual 2.6). -/
def record4b : ArmingRecord := { record4 with selected := [(12, 2100), (42, 600)], total := 2700 }

/-- Manual 2.6 and 8.10 at 5012: slot 20 rises; the order of point 41 is confirmed and its deferred block completes, since
no live record holds the point any more; with a record that still holds it the block stays pending (R34). -/
theorem test_status_slot_confirms :
    [record4b, record4].map (fun live => seen (exec (.data 3 0x33 [.detection 20 true]) (blocking41 live)) (fun s =>
      (s.points[(41 : PointId)].map (fun x => (x.availability, x.blockPending, x.orderState, x.lastOutcome)),
        (s.links[(3 : LinkId)]).orders, records s))) =
      [some (some (.blocked, false, .tripped, .confirmed), [], [(.orderConfirmed, some 263), (.pointBlocked, some 0)]),
        some (some (.inService, true, .tripped, .confirmed), [], [(.orderConfirmed, some 263)])] := by decide +kernel

/-- Manual 8.10 at 5005: HOLD abandons order 112. -/
theorem test_hold :
    seen (exec (.hold 2 0x22) (ordered12 5005 .inTransmission (some [0x96]) false))
      (fun s => ((s.links[(2 : LinkId)]).held, (s.links[(2 : LinkId)]).transmitting,
        (s.links[(2 : LinkId)]).orders)) = some (true, none, [order12 .queued]) := by decide +kernel

/-- Manual 8.10 at 5010: RELEASE sends order 112 again: 0x96, ORDER, station, 3, tag, address, kind and the check. -/
theorem test_release :
    seen (exec (.release 2 0x22) (ordered12 5010 .queued none true))
      (fun s => ((s.links[(2 : LinkId)]).held, (s.links[(2 : LinkId)]).transmitting.map (fun f => f.take 7),
        (s.links[(2 : LinkId)]).orders)) =
      some (false, some [0x96, 0x21, 0x22, 3, 112, 9, 0], [order12 .inTransmission]) := by decide +kernel

/-- R138: the order at the head of an idle link's queue goes out; the completed frame's order is SENT. -/
theorem test_transmission_start :
    seen (exec (.transmissionStart 2) (ordered12 5010 .queued none false))
      (fun s => (s.links[(2 : LinkId)]).orders) = some [order12 .inTransmission] := by decide +kernel

theorem test_order_frame_complete :
    seen (exec (.orderFrameComplete 2) (ordered12 5011 .inTransmission (some [0x96]) false))
      (fun s => ((s.links[(2 : LinkId)]).transmitting, (s.links[(2 : LinkId)]).orders)) =
      some (none, [order12 .sent]) := by decide +kernel

/-- R149, R75: all entries final, auto-rearm clear. -/
theorem test_execution_complete :
    seen (exec (.executionComplete 4) (corridor 5024 (firing4 [confirmedAt 2 112 5016, confirmedAt 3 7 5012,
        { placed 5 30 with outcome := some .failed, outcomeTime := some 5024 }])))
      (fun s => ((s.schemes[(4 : SchemeId)]).state, (s.schemes[(4 : SchemeId)]).consents, records s)) =
      some (.lockout, Vector.replicate 4 none, [(.execComplete, some 3000)]) := by decide +kernel

/-- R34: held by no record and not ORDERED. -/
theorem test_deferred_block_complete :
    seen (exec (.deferredBlockComplete 41) (withPoint (corridor 5012 (entry4 .standby false none)) 41
        { point41 with blockPending := true, orderState := .tripped }))
      (fun s => (s.points[(41 : PointId)].map (fun x => (x.availability, x.blockPending)), records s)) =
      some (some (.blocked, false), [(.pointBlocked, some 0)]) := by decide +kernel

/-! ## Scheme requests (manual 3.8, 3.9, 4.7, 4.8) -/

/-- Manual 3.8, step 6: the new curve, from P1, in DISABLED and OPEN, is answered DONE with generation 42. -/
def curveBytes : List Byte :=
  [0, 100, 0x03, 0x20, 5, 0x17, 0x70, 0, 0, 0x1B, 0x58, 0x05, 0xDC, 0x1F, 0x40, 0x0D, 0x48, 0x21, 0x34, 0x11, 0xF8,
   0x25, 0x1C, 0x17, 0x70]

def openScheme : Scheme :=
  { entry4 .disabled false none with defn := some { scheme4 with protection := .opened } }

theorem test_write_curve_section :
    seen (exec (.writeCurveSection 1 4 curveBytes) (corridor 0 openScheme))
      (fun s => (waiting 1 s, (s.schemes[(4 : SchemeId)]).defn.map SchemeDef.curve)) =
      some (some (.done, [0, 0, 42]), some [(6000, 0), (7000, 1500), (8000, 3400), (8500, 4600), (9500, 6000)]) := by
  decide +kernel

/-- Manual 3.8, step 1: from P2, NOT_AUTHORIZED. -/
theorem test_write_curve_not_owner :
    seen (exec (.writeCurveSection 2 4 curveBytes) armed) (waiting 2) = some (some (.notAuthorized, [])) := by
  decide +kernel

/-- Manual 3.8, steps 7 and 8: the candidates with 41 twice, and with 43. -/
theorem test_write_candidates_section :
    [[6, 12, 13, 40, 41, 41, 42], [6, 12, 13, 40, 41, 42, 43]].map (fun c =>
      seen (exec (.writeCandidatesSection 1 4 c) (corridor 0 openScheme)) (waiting 1)) =
      [some (some (.badArgument, [])), some (some (.done, [0, 0, 42]))] := by decide +kernel

/-- R49: a header write defines an undefined entry at generation 1. -/
def headerBytes : List Byte := [0x53, 0x43, 0x48, 0x45, 0x4D, 0x45, 0x20, 0x34, 3, 0x0C, 1]

theorem test_write_header_section :
    seen (exec (.writeHeaderSection 3 17 headerBytes) (part 0))
      (fun s => (waiting 3 s, (s.schemes[(17 : SchemeId)]).defn.map (fun d => (d.owner, d.authority, d.autoRearm, d.k)))) =
      some (some (.done, [0, 0, 1]), some (3, 0b1100, true, 1)) := by decide +kernel

/-- Scheme 17's definition, owned by P3, OPEN, at the last generation (manual 3.9). -/
def scheme17 : SchemeDef :=
  { scheme4 with owner := 3, authority := 0b1000, protection := .opened, defGen := 0xFFFFFF }

/-- Manual 3.9, step 2: at generation 0xFFFFFF, GENERATION_LIMIT. -/
theorem test_write_header_limit :
    seen (exec (.writeHeaderSection 3 17 headerBytes) (withScheme (part 0) 17
      { Scheme.undefined 0 with defn := some scheme17 })) (waiting 3) = some (some (.generationLimit, [])) := by decide +kernel

/-- R43: two terms, and a weight of 1025; and from P2, who is not the owner, a policy code of 2 (R168: the first check). -/
theorem test_write_terms_section :
    [((1 : PartyId), [0, 2, 10, 0x01, 0x00, 11, 0xFF, 0x80]), (1, [0, 1, 10, 0x04, 0x01]), (2, [2, 1, 10, 0x01, 0x00])].map
      (fun (q, c) => seen (exec (.writeTermsSection q 4 c) (corridor 0 openScheme))
        (fun s => (waiting q s, (s.schemes[(4 : SchemeId)]).defn.map SchemeDef.terms))) =
      [some (some (.done, [0, 0, 42]), some [(10, 256), (11, -128)]),
       some (some (.badArgument, []), some [(10, 256), (11, 128)]),
       some (some (.badArgument, []), some [(10, 256), (11, 128)])] := by decide +kernel

/-- R46: k of 2 and W of 40 ms over slots 5, 6 and 50. -/
theorem test_write_triggers_section :
    seen (exec (.writeTriggersSection 1 4 [2, 0, 40, 3, 5, 6, 50]) (corridor 0 openScheme))
      (fun s => (waiting 1 s, (s.schemes[(4 : SchemeId)]).defn.map (fun d => (d.sources, d.k, d.window)))) =
      some (some (.done, [0, 0, 42]), some ([5, 6, 50], 2, 40)) := by decide +kernel

/-- Manual 3.8, steps 3, 4 and 10: PROTECT OPEN while ARMED, DISABLE, and ENABLE. -/
theorem test_protect :
    seen (exec (.protect 1 4 0) armed) (fun s => (waiting 1 s, (s.schemes[(4 : SchemeId)]).state,
      (s.schemes[(4 : SchemeId)]).defn.map SchemeDef.protection)) =
      some (some (.done, [0]), .armed, some .opened) := by decide +kernel

/-- R66: the consents that were present are counted; the record holds no deferred block. -/
theorem test_disable :
    seen (exec (.disable 1 4) (corridor 0 (entry4 .standby true none))) (fun s => (waiting 1 s,
      (s.schemes[(4 : SchemeId)]).state, (s.schemes[(4 : SchemeId)]).consents, records s)) =
      some (some (.done, [0, 2]), .disabled, Vector.replicate 4 none, [(.schemeDisabled, some 2)]) := by decide +kernel

theorem test_enable :
    seen (exec (.enable 1 4) (corridor 0 (entry4 .disabled false none))) (fun s => (waiting 1 s,
      (s.schemes[(4 : SchemeId)]).state, records s)) =
      some (some (.done, [1, 0, 0, 41]), .standby, [(.schemeEnabled, some 41)]) := by decide +kernel

/-- Manual 3.8, steps 11 to 13: a stale generation, the first consent, and the one that completes the set. -/
theorem test_consent :
    seen (exec (.consent 2 4 41) (corridor 0 (entry4 .standby false none))) (fun s => (waiting 2 s,
      (s.schemes[(4 : SchemeId)]).state, records s)) =
      some (some (.done, [1, 1]), .standby, [(.consent, some 41)]) := by decide +kernel

theorem test_consent_completes :
    [41, 40].map (fun g => seen (exec (.consent 1 4 g) (corridor 0 { entry4 .standby false none with
        consents := #v[none, none, some 41, none] })) (fun s => (waiting 1 s, (s.schemes[(4 : SchemeId)]).state))) =
      [some (some (.done, [2, 0]), .primed), some (some (.staleGeneration, []), .standby)] := by decide +kernel

/-- Manual 4.7: WITHDRAW is refused while FIRING, and in PRIMED returns the scheme to STANDBY. -/
theorem test_withdraw :
    [entry4 .firing true none, entry4 .primed true none].map (fun sc =>
      seen (exec (.withdraw 2 4) (corridor 0 sc)) (fun s => (waiting 2 s, (s.schemes[(4 : SchemeId)]).state,
        records s))) =
      [some (some (.wrongState, []), .firing, []), some (some (.done, [1]), .standby, [(.withdraw, some 41)])] := by
  decide +kernel

/-- Manual 4.8 at 1300. -/
theorem test_reset_lockout :
    seen (exec (.resetLockout 1 4) (corridor 1300 (entry4 .lockout false none))) (fun s => (waiting 1 s,
      (s.schemes[(4 : SchemeId)]).state, records s)) =
      some (some (.done, [1]), .standby, [(.lockoutReset, none)]) := by decide +kernel

/-! ## Point requests (R33 to R37, manual 2.6) -/

/-- R33: point 41 is taken out of the record of scheme 4: T = 2700, and SHORT by 595. -/
theorem test_block_point_immediate :
    seen (exec (.blockPointImmediate 1 41) armed) (fun s => (waiting 1 s, s.points[(41 : PointId)].map Point.availability,
      (s.schemes[(4 : SchemeId)]).live.map (fun r => (r.selected, r.total, r.adequacy, r.shortfall)), records s)) =
      some (some (.done, [1]), some .blocked, some ([(12, 2100), (42, 600)], 2700, .short, some 595),
        [(.pointBlocked, some 1)]) := by decide +kernel

/-- Manual 2.6 at 5000, with one holder. -/
theorem test_block_point_deferred :
    seen (exec (.blockPointDeferred 1 41) armed) (fun s => (waiting 1 s,
      s.points[(41 : PointId)].map (fun x => (x.availability, x.blockPending)), records s)) =
      some (some (.done, [1]), some (.inService, true), [(.pointBlocked, some (-1))]) := by decide +kernel

/-- R35. -/
theorem test_unblock_point :
    seen (exec (.unblockPoint 2 40) armed) (fun s => (waiting 2 s, s.points[(40 : PointId)].map Point.availability,
      records s)) = some (some (.done, []), some .inService, [(.pointUnblocked, none)]) := by decide +kernel

/-- R36: TRIPPED and FAULTED, both cleared, detail 3. -/
theorem test_restore_point :
    seen (exec (.restorePoint 1 41) (withPoint armed 41
      { point41 with availability := .faulted, orderState := .tripped, lastTag := some 7 })) (fun s => (waiting 1 s,
      s.points[(41 : PointId)].map (fun x => (x.availability, x.orderState, x.lastTag)), records s)) =
      some (some (.done, []), some (.inService, .idle, some 7), [(.pointRestored, some 3)]) := by decide +kernel

/-- R37: an undefined point is defined BLOCKED, and a defined one that is IN_SERVICE is not written. -/
theorem test_write_point :
    [armed, withPoint armed 50 point41].map (fun s => seen (exec (.writePoint 1
      ⟨50, 1, 1, 3, 19, 41, 0xFF, 20, 0xFF⟩) s) (fun t => (waiting 1 t, t.points[(50 : PointId)].map (fun x =>
        (x.availability, x.defn.address))))) =
      [some (some (.done, []), some (.blocked, 19)), some (some (.wrongState, []), some (.inService, 17))] := by
  decide +kernel

/-! ## Reads (R11, R16, R39, R41, R59, R115, R125, R157, R158, R169) -/

/-- R169: 41 bytes: part code, revision, clock, bench mode, store state and the 32 scheme states. -/
theorem test_query_status :
    seen (exec (.queryStatus 0) armed) (fun s => (waiting 0 s).map (fun r => (r.1, r.2.length, r.2.take 13))) =
      some (some (.done, 41, [0x48, 0x30, 0x01, 0, 0, 0x13, 0x8C, 0, 0, 0xFE, 0xFE, 0xFE, 0xFE])) := by decide +kernel

theorem test_read_scheme :
    seen (exec (.readScheme 0 4) armed) (fun s => (waiting 0 s).map (fun r => (r.1, r.2.take 11))) =
      some (some (.done, [0x53, 0x43, 0x48, 0x45, 0x4D, 0x45, 0x20, 0x34, 1, 6, 0])) := by decide +kernel

theorem test_read_point :
    seen (exec (.readPoint 0 41) armed) (fun s => (waiting 0 s).map (fun r => (r.1, r.2.take 12))) =
      some (some (.done, [1, 1, 1, 3, 17, 41, 20, 20, 43, 0, 0, 0])) := by decide +kernel

/-- R11, R168: 14 bytes an entry. -/
theorem test_read_measurements :
    seen (exec (.readMeasurements 0 10 11) armed) (fun s => (waiting 0 s).map (fun r => (r.1, r.2.length))) =
      some (some (.done, 28)) := by decide +kernel

theorem test_read_detections_range :
    seen (exec (.readDetections 0 63 64) armed) (waiting 0) = some (some (.badArgument, [])) := by decide +kernel

theorem test_read_arming :
    seen (exec (.readArming 0 4) armed) (fun s => (waiting 0 s).map (fun r => (r.1, r.2.take 5))) =
      some (some (.done, [3, 0, 0, 0, 0])) := by decide +kernel

theorem test_read_trigger :
    seen (exec (.readTrigger 0 4) armed) (fun s => (waiting 0 s).map (fun r => (r.1, r.2.take 2))) =
      some (some (.done, [3, 1])) := by decide +kernel

/-- A record with this sequence number, as manual 9.6 counts them. -/
def eventAt (n : Nat) : EventRecord :=
  { seq := BitVec.ofNat 32 n, time := 0, kind := .measStale, scheme := none, point := none, party := none,
    detail := some 0 }

/-- Ten records, 1250 to 1259, of which P1 has read none and lost four. -/
def recorded : State :=
  { part 0 with
    ring := (List.range 10).map (fun i => eventAt (1250 + i))
    nextSeq := 1260
    readers := (Vector.replicate 4 { cursor := 1260, lost := 0, attn := false }).set 1
      { cursor := 1250, lost := 4, attn := true } }

/-- Manual 9.6, steps 3 and 4: 8 records, gap count 4, cursor 1258, remaining 2, and ATTN still asserted. -/
theorem test_read_events :
    seen (exec (.readEvents 1 8) recorded) (fun s => ((waiting 1 s).map (fun r => (r.1, r.2.length, r.2.take 13)),
      s.readers[(1 : PartyId)])) =
      some (some (.done, 145, [1, 1, 0, 0, 0, 4, 0, 2, 8, 0, 0, 0x04, 0xE2]),
        { cursor := 1258, lost := 0, attn := true }) := by decide +kernel

/-- Manual 9.6, step 6: a start before the ring: GAP, no gap count, and the cursor stays. -/
theorem test_read_events_start :
    seen (exec (.readEventsStart 1 2 900) recorded) (fun s => ((waiting 1 s).map (fun r => (r.1, r.2.take 13)),
      (s.readers[(1 : PartyId)]).cursor)) =
      some (some (.done, [1, 0, 0, 0, 0, 0, 0, 8, 2, 0, 0, 0x04, 0xE2]), 1250) := by decide +kernel

/-! ## The party link exchange (R162 to R165, manual 10.5) -/

/-- R162's check value. -/
theorem test_link_check : Wire.crc [0x31, 0x32, 0x33, 0x34, 0x35, 0x36, 0x37, 0x38, 0x39] = 0x29B1#16 := by
  decide +kernel

/-- Party P2 with the response of manual 10.5 waiting, marked overrun. -/
def answeredP2 : State :=
  { part 0 with
    parties := (Vector.replicate 4 PartyLink.cold).set 2
      { select := .inactive, exchange := .responseWaiting, waiting := some { status := .done, body := [2, 0] },
        overrun := true, ready := true, shiftedOut := [] } }

/-- Manual 10.5, steps 3 and 4: a read of 4 bytes leaves the response; one of 11 takes it, with mark 0x01. -/
theorem test_response_read :
    [4, 11].map (fun n => seen (exec (.responseRead 2 ⟨List.replicate n 0, true⟩) answeredP2) (fun s => ((s.parties[(2 : PartyId)]).exchange,
      (s.parties[(2 : PartyId)]).ready, (s.parties[(2 : PartyId)]).shiftedOut.length,
      (s.parties[(2 : PartyId)]).shiftedOut.take 7, (s.parties[(2 : PartyId)]).shiftedOut.drop 9))) =
      [some (.responseWaiting, true, 4, [0xD2, 0, 1, 0], []),
       some (.idle, false, 11, [0xD2, 0, 1, 0, 2, 2, 0], [0xFF, 0xFF])] := by decide +kernel

def markedP2 : PartyLink := { answeredP2.parties[(2 : PartyId)] with overrun := false }

/-- Manual 10.5, step 2: a request while a response waits. -/
theorem test_overrun :
    seen (exec (.overrun 2) { part 0 with parties := (Vector.replicate 4 PartyLink.cold).set 2 markedP2 }) (fun s => (s.parties[(2 : PartyId)]).overrun) =
      some true := by decide +kernel

/-- R163: an incomplete frame, a wrong check, and an unknown kind. -/
theorem test_request_rejected :
    [[0x01], [0x01, 0, 0, 0], 0x09 :: 0 :: Wire.be16 (Wire.crc [0x09, 0])].map (fun b =>
      seen (exec (.requestRejected 0 ⟨0xD1 :: b, true⟩) (part 0)) (waiting 0)) =
      [some (some (.frameError, [])), some (some (.frameError, [])), some (some (.unknownRequest, []))] := by
  decide +kernel

/-- R161, R163: the bytes of a STORE_LOAD frame of party P1 up to its body length are RECEIVING; its check bytes complete it;
the byte after them is ignored, and the period's end leaves the response. -/
theorem test_request_in_parts :
    let first := nextOf (exec (.requestRejected 1 ⟨[0xD1, 0x40, 0], false⟩) (part 0))
    let second := first.bind (fun s =>
      nextOf (exec (.requestRejected 1 ⟨Wire.be16 (Wire.crc [0x40, 0]), false⟩) s))
    let third := second.bind (fun s => nextOf (exec (.requestRejected 1 ⟨[0x40], true⟩) s))
    [first, second, third].map (fun o => o.map (fun s => ((s.parties[(1 : PartyId)]).exchange, waiting 1 s, s.storeOp))) =
      [some (.receiving, none, .idle), some (.responseWaiting, some (.done, []), .load 1),
       some (.responseWaiting, some (.done, []), .load 1)] := by decide +kernel

/-! ## Station frames byte by byte (R3, R4, R170) -/

/-- A DATA frame with a bad link check, and one whose length byte is above 240. -/
theorem test_station_frame_discarded :
    [[0x96, 0x11, 0x22, 6, 1, 0, 10, 1, 0x20, 0xE7, 0, 0], [0x96, 0x11, 0x22, 241]].map (fun b =>
      seen (exec (.stationFrameDiscarded 2 b) (flow (freshSlot 2 8390 1000) 1040)) (fun s =>
        ((s.meas[(10 : MeasId)]).value, (s.links[(2 : LinkId)]).receiving))) =
      [some (some 8390, []), some (some 8390, [])] := by decide +kernel

/-! ## The store interface and the resets (R172 to R177, manual 4.8, 11.5) -/

/-- The image of manual 11.5: a station map of 6 pairs whose words sum to 0x1234. -/
def image : List Word16 :=
  [0x801D, 16] ++ List.replicate 13 0 ++
    [0x12F9, 12, 0x0201, 1, 0x0202, 0x22, 0x0203, 0, 0x0401, 1, 0x0402, 4, 0x0403, 0]

theorem test_cold_load_complete :
    seen (exec (.coldLoadComplete (.rewritten image)) State.reset) (fun s => (s.storeOp, records s,
      (s.links[(2 : LinkId)]).params, (s.links[(4 : LinkId)]).params, (s.links[(0 : LinkId)]).params)) =
      some (.idle, [(.storeLoaded, some 29)], { enabled := true, station := 0x22, mode := .full },
        { enabled := true, station := 4, mode := .full }, { enabled := false, station := 0, mode := .listenOnly }) := by
  decide +kernel

/-- R172: a memory that does not answer is rejected with cause 1. -/
theorem test_cold_load_silent :
    seen (exec (.coldLoadComplete .silent) State.reset) records = some [(.storeInvalid, some 1)] := by decide +kernel

theorem test_store_load :
    [armed, corridor 0 (entry4 .disabled false none)].map (fun s => seen (exec (.storeLoad 2) s) (fun t =>
      (waiting 2 t, t.storeOp))) =
      [some (some (.wrongState, []), .idle), some (some (.done, []), .load 2)] := by decide +kernel

/-- R172: a wrong check word is cause 3. -/
theorem test_store_load_complete :
    seen (exec (.storeLoadComplete (.rewritten (image.set 15 0x12F8))) { part 0 with storeOp := .load 2 })
      (fun s => (s.storeOp, records s)) = some (.idle, [(.storeInvalid, some 3)]) := by decide +kernel

/-- R176: while a save is in flight word 0 has signature 00b. -/
theorem test_store_save :
    seen (exec (.storeSave 0) (part 0)) (fun s => (waiting 0 s, Wire.storeCode s.storeOp)) =
      some (some (.done, []), 2) := by decide +kernel

theorem test_store_save_complete :
    seen (exec .storeSaveComplete { part 0 with storeOp := .save 3 [(1, 16), (0, 0x801D)] 29 }) (fun s =>
      (s.storeOp, s.store, records s)) =
      some (.idle, [(0, 0x801D), (1, 16)], [(.storeSaved, some 29)]) := by decide +kernel

/-- R174: the lines and the operations in flight. -/
theorem test_reset_asserted :
    seen (exec .resetAsserted { recorded with storeOp := .staging, warm := .held }) (fun s =>
      (s.inReset, s.storeOp, s.warm, (s.readers[(1 : PartyId)]).attn)) = some (true, .idle, .none, false) := by
  decide +kernel

/-- R174: BENCH is sampled, the clock starts at 0 and the load begins. -/
theorem test_cold_reset_end :
    seen (exec (.coldResetEnd true) { recorded with inReset := true }) (fun s =>
      (s.inReset, s.bench, s.storeOp, s.nextSeq, s.ring)) = some (false, true, .coldLoad, 0, []) := by decide +kernel

/-- R177: WARM# with the store state IDLE, then the two ends of the staging read. -/
theorem test_warm_reset_request :
    seen (exec .warmResetRequest (part 0)) (fun s => (s.warm, s.storeOp)) = some (.held, .staging) := by decide +kernel

theorem test_staging_read_begin :
    seen (exec .stagingReadBegin { part 0 with warm := .held }) (fun s => s.storeOp) = some .staging := by
  decide +kernel

/-- Manual 4.8 from 1210: with a scheme FIRING the staged reset waits. -/
theorem test_staging_read_end :
    seen (exec (.stagingReadEnd (.rewritten image)) { corridor 1210 (firing4 [placed 2 112]) with
      warm := .held, storeOp := .staging }) (fun s => (s.storeOp, (match s.warm with
        | .staged (some m) => some m[(2 : LinkId)]
        | .staged none | .held | .none => none))) =
      some (.idle, some { enabled := true, station := 0x22, mode := .full }) := by decide +kernel

/-- Manual 4.8 at 1245: an ARMED scheme becomes PRIMED; R38: the points on S3 and S5, disabled by the map, are FAULTED. -/
theorem test_warm_reset_taken :
    seen (exec .warmResetTaken { armed with warm := .staged (some (stationMap (image.drop 17))) }) (fun s =>
      (s.warm, (s.schemes[(4 : SchemeId)]).state, (s.schemes[(4 : SchemeId)]).consents,
        [12, 41, 42].map (fun p : PointId => s.points[p].map Point.availability), records s)) =
      some (.none, .primed, #v[none, some 41, some 41, none], [some .inService, some .faulted, some .faulted],
        [(.warmReset, some 3)]) := by decide +kernel

/-! ## Well-formedness: one ill-formed command for each check, and its well-formed neighbour -/

/-- A point body that R37 takes. -/
def body50 : PointBody := ⟨50, 1, 1, 3, 19, 41, 0xFF, 20, 0xFF⟩

/-- R21, R22, R37: every field just outside its range. -/
theorem smoke_point_body :
    [body50, { body50 with timeout := 2 }, { body50 with timeout := 250 }].all PointBody.wellFormed = true ∧
    [{ body50 with point := 128 }, { body50 with owner := 4 }, { body50 with kind := 4 }, { body50 with link := 8 },
      { body50 with statusSlot := 64 }, { body50 with backup := 128 }, { body50 with backup := 50 },
      { body50 with timeout := 1 }, { body50 with timeout := 251 }].any PointBody.wellFormed = false := by decide

/-- R42 to R46: each content rule broken once. -/
theorem smoke_sections :
    [sectionOk .header headerBytes, sectionOk .terms [0, 1, 10, 4, 0], sectionOk .curve curveBytes,
      sectionOk .candidates [0], sectionOk .triggers [1, 0, 1, 1, 5]] = [true, true, true, true, true] ∧
    [sectionOk .header (headerBytes.set 0 0x1F), sectionOk .header (headerBytes.set 8 4),
      sectionOk .header (headerBytes.set 9 0x04), sectionOk .header (headerBytes.set 10 4),
      sectionOk .header (headerBytes.drop 1), sectionOk .terms [0, 0], sectionOk .terms [2, 1, 10, 4, 0],
      sectionOk .terms [0, 1, 10, 4, 1], sectionOk .terms [0, 2, 10, 0, 1, 10, 0, 2], sectionOk .terms [0, 2, 10, 0, 1],
      sectionOk .curve [0, 0, 0, 0, 1, 0, 0, 0, 0], sectionOk .curve [0, 0, 0, 0, 2, 0, 5, 0, 0, 0, 5, 0, 0],
      sectionOk .curve ([0x13, 0x89] ++ curveBytes.drop 2), sectionOk .candidates [2, 12, 12],
      sectionOk .candidates [1, 128], sectionOk .triggers [1, 0, 1, 0], sectionOk .triggers [2, 0, 1, 1, 5],
      sectionOk .triggers [1, 0, 0, 1, 5], sectionOk .triggers [1, 0x03, 0xE9, 1, 5],
      sectionOk .triggers [1, 0, 1, 1, 64]].any id = false := by decide +kernel

/-- The checks of the other operands, each at the first value it refuses; then at the last value it takes. -/
theorem smoke_operands :
    [Instr.data 0 0 (List.replicate 41 (.detection 0 true)),
      .readScheme 0 32, .readArming 0 32, .readTrigger 0 32, .readPoint 0 128, .readMeasurements 0 1 0,
      .readMeasurements 0 0 32, .readDetections 0 1 0, .readDetections 0 63 64, .readEvents 0 0, .readEventsStart 0 9 0,
      .writeHeaderSection 0 32 headerBytes, .enable 0 32, .disable 0 32, .consent 0 32 0, .withdraw 0 32,
      .resetLockout 0 32, .protect 0 32 0, .protect 0 0 3, .blockPointImmediate 0 128, .blockPointDeferred 0 128,
      .unblockPoint 0 128, .restorePoint 0 128,
      .requestRejected 0 ⟨0xD1 :: 0x01 :: 0 :: Wire.be16 (Wire.crc [0x01, 0]), true⟩].any Instr.wellFormed = false ∧
    [Instr.data 0 0 (List.replicate 40 (.detection 0 true)), .readScheme 0 31, .readPoint 0 127,
      .readMeasurements 0 0 31, .readDetections 0 0 63, .readEvents 0 8, .writeHeaderSection 0 31 headerBytes,
      .protect 0 31 2, .requestRejected 0 ⟨[0xD1, 0x01], true⟩, .requestRejected 0 ⟨[0xD1, 0x01], false⟩].all Instr.wellFormed = true := by decide +kernel

/-- The external store's words end at `Config.storeWords`. -/
theorem smoke_store_words :
    (Instr.coldLoadComplete (.rewritten (List.replicate (Config.storeWords + 1) 0))).wellFormed = false ∧
    (Instr.storeLoadComplete (.rewritten (List.replicate Config.storeWords 0))).wellFormed = true ∧
    (Instr.stagingReadEnd (.rewritten (List.replicate (Config.storeWords + 1) 0))).wellFormed = false := by
  simp [Instr.wellFormed, StoreAnswer.wellFormed]

/-! ## Witnesses: for each statement with hypotheses, states and operands that meet those of every clause -/

def trigger4 : Trigger := { time := 5004, slot := 52, counted := [(8, 4990), (52, 5004)] }

def withStore (op : StoreOp) : State := { part 0 with storeOp := op }

def withWarm (w : WarmRequest) (s : State) : State := { s with warm := w }

theorem witness_IdleStepIsTime :
    let s := flow (freshSlot 2 8390 1080) 3080
    (({ part 0 with inReset := true } : State).pending = [] ∧ ({ part 0 with inReset := true } : State).inReset = true) ∧
    ((part 0).pending = [] ∧ (part 0).inReset = false ∧ (part 0).due = []) ∧
    (s.pending = [] ∧ s.inReset = false ∧ s.due = [.meas 10]) := by decide +kernel

theorem witness_ResetAssertedEndsOperations :
    (ordered12 5011 .inTransmission (some [0x96]) false).inReset = false ∧ ({ part 0 with inReset := true } : State).inReset = true ∧
    (∀ b, Instr.resetAsserted ≠ .coldResetEnd b) ∧
    (∀ p x, Instr.resetAsserted ≠ .requestRejected p x ∧ Instr.resetAsserted ≠ .responseRead p x) :=
  ⟨by decide +kernel, by decide +kernel, by decide, by simp⟩

/-- The select line of P1 inactive, that of P2 active. -/
theorem witness_ColdResetEndValues :
    let s : State := { answeredP2.drive 2 4 with inReset := true }
    s.inReset = true ∧ (s.parties[(1 : PartyId)]).select = .inactive ∧
      (s.parties[(2 : PartyId)]).select ≠ .inactive := by decide +kernel

/-- A staged warm reset due; a queued order on an idle link and on a held one; a pass in flight; a free engine before the
load and after it, with no scheme and with scheme 4 to begin a pass. -/
theorem witness_EndOfEventFrame :
    let s := corridor 5000 { entry4 .primed true none with pendingPass := true }
    let begins := fun (s : State) (j : SchemeId) => (s.schemes[j]).pendingPass = true ∧ (s.schemes[j]).defn ≠ none ∧
      (s.schemes[j]).state.runsPasses = true
    ((withWarm (.staged none) armed).warmDue = true ∧ (withWarm .held armed).warmDue = false) ∧
    (let q := ordered12 5010 .queued none false
     q.warmDue = false ∧ (q.links[(2 : LinkId)]).params.enabled = true ∧ (q.links[(2 : LinkId)]).params.mode = .full ∧
      (q.links[(2 : LinkId)]).held = false ∧ q.bench = false ∧ (q.links[(2 : LinkId)]).transmitting = none ∧
      (q.links[(2 : LinkId)]).orders.find? (fun o => o.position = .queued) = some (order12 .queued) ∧
      ((ordered12 5010 .queued none true).links[(2 : LinkId)]).held ≠ false) ∧
    (({ armed with engine := some pass4 } : State).warmDue = false ∧
      ({ armed with engine := some pass4 } : State).engine = some pass4) ∧
    (State.reset.warmDue = false ∧ State.reset.engine = none ∧ State.reset.storeOp = .coldLoad) ∧
    ((part 0).warmDue = false ∧ (part 0).engine = none ∧ (part 0).storeOp ≠ .coldLoad ∧ ∀ j, ¬ begins (part 0) j) ∧
    (s.warmDue = false ∧ s.engine = none ∧ s.storeOp ≠ .coldLoad ∧ begins s 4 ∧ (∀ j, j < 4 → ¬ begins s j) ∧
      (s.schemes[(4 : SchemeId)]).defn = some scheme4) := by decide +kernel

theorem witness_StoreOperationsComplete :
    State.reset.inReset = false ∧ State.reset.storeOp = .coldLoad ∧ (withStore (.load 2)).storeOp = .load 2 ∧
    (withStore (.save 3 [(1, 16)] 29)).storeOp = .save 3 [(1, 16)] 29 := by decide +kernel

theorem witness_WarmResetIsHeldStagedAndTaken :
    ((part 0).warm = .none ∧ (part 0).storeOp = .idle) ∧ (withStore (.load 2)).storeOp ≠ .idle ∧
    (withWarm .held (part 0)).warm ≠ .none ∧ (withStore .staging).storeOp = .staging ∧
    ((withWarm (.staged none) armed).storeOp = .idle ∧ ∀ k : SchemeId, (armed.schemes[k]).state ≠ .firing) ∧
    (∃ k : SchemeId, ((corridor 0 (firing4 [])).schemes[k]).state = .firing) := by decide +kernel

/-- Points 12 (its link enabled, not block-pending), 41 (block-pending) and 42 (its link disabled by the image); scheme 4
PRIMED with a latched trigger. With a rejected image no point is FAULTED. An ORDERED block-pending point stays so. -/
theorem witness_WarmResetValues :
    let s := withPoint (corridor 5004 { entry4 .primed true none with latch := some trigger4, rearming := true }) 41
      { point41 with blockPending := true }
    let ordered := withPoint s 41 { point41 with blockPending := true, orderState := .ordered }
    let v : Vector LinkParams 8 := (stationMap (image.drop 17)).set 3 { enabled := true, station := 0x33, mode := .full }
    let t := s.takeWarmReset (some v)
    let rejected := s.takeWarmReset none
    s.points[(0 : PointId)] = none ∧ [12, 41, 42].map (fun p : PointId => t.points[p].map (fun x =>
      (x.availability, x.blockPending))) =
      [some (.inService, false), some (.blocked, false), some (.faulted, false)] ∧
    (((ordered.takeWarmReset none).points[(41 : PointId)]).map (fun x => (x.availability, x.blockPending))) =
      some (.inService, true) ∧
    records t = [(.warmReset, some 1), (.retriggerDropped, some 52), (.pointBlocked, some 0)] ∧
    (rejected.points[(42 : PointId)].map Point.availability) = some .inService ∧
    records rejected = [(.warmReset, some (-1)), (.retriggerDropped, some 52), (.pointBlocked, some 0)] := by
  decide +kernel

theorem witness_StoreRequestsAreTaken :
    (part 0).Takes 2 ∧ (part 0).storeOp = .idle ∧
    (∀ k : SchemeId, ((part 0).schemes[k]).defn = none ∨ ((part 0).schemes[k]).state = .disabled) ∧
    (∃ k : SchemeId, (armed.schemes[k]).defn ≠ none ∧ (armed.schemes[k]).state ≠ .disabled) ∧
    (withStore (.load 2)).Takes 1 ∧ (withStore (.load 2)).storeOp ≠ .idle := by decide +kernel

theorem scheme4_lawful : scheme4.Lawful :=
  ⟨by decide, by decide, by decide, by decide, by decide, by decide, by decide⟩

theorem armed_definitions (k : SchemeId) (d : SchemeDef) (h : armed.schemes[k].defn = some d) : d = scheme4 := by
  have each : ∀ k : SchemeId, armed.schemes[k].defn = none ∨ armed.schemes[k].defn = some scheme4 := by decide +kernel
  rcases each k with e | e <;> rw [e] at h
  · cases h
  · exact (Option.some.inj h).symm

/-- One mapped slot, one point on a FULL link and scheme 4. -/
def saved : State :=
  withScheme (withPoint (withLink (flow (freshSlot 2 8390 1000) 1040) 3 (fullLink 0x33 7)) 41 point41) 4
    (entry4 .standby false none)

theorem saved_inputs : saved.MeasurementLaw ∧ saved.DetectionLaw := by
  constructor
  · intro m
    have each : ∀ m : MeasId, saved.meas[m] = .unmapped ∨ saved.meas[m] = freshSlot 2 8390 1000 := by decide +kernel
    rcases each m with e | e <;> rw [e] <;> simp [Config.defaultLimit, MeasSlot.Lawful, MeasSlot.unmapped, MeasSlot.fresh, freshSlot]
  · intro d
    have each : ∀ d : DetId, saved.det[d] = .cleared (.fixed d) ∧ saved.recentRise[d] = false := by decide +kernel
    rw [(each d).1, (each d).2]
    refine ⟨fun _ => rfl, fun h => ?_, fun _ => ⟨rfl, rfl⟩, fun h => by cases h⟩
    have low : ∀ d : DetId, d.val < 48 → DetSource.fixed d = .unmapped := by decide +kernel
    exact Or.inl (low d h)

/-- A table of one point is lawful. -/
theorem one_point {s : State} {q : PointId} {y : Point} (there : s.points[q] = some y)
    (each : ∀ p : PointId, p ≠ q → s.points[p] = none)
    (count : ∀ l : LinkId, (definedPoints s.points).countP (fun d => d.link = l) ≤ 32)
    (fits : 2 ≤ y.defn.timeout ∧ y.defn.timeout ≤ 250 ∧ y.defn.backup ≠ some q) : s.PointLaw := by
  have only : ∀ (p : PointId) (x : Point), s.points[p] = some x → p = q ∧ x = y := by
    intro p x h
    by_cases e : p = q
    · rw [e, there] at h
      exact ⟨e, (Option.some.inj h).symm⟩
    · rw [each p e] at h
      cases h
  refine ⟨fun p r x z hp hr _ _ => (only p x hp).1.trans (only r z hr).1.symm, count, fun p x h => ?_⟩
  obtain ⟨rfl, rfl⟩ := only p x h
  exact fits

theorem saved_points : saved.PointLaw :=
  one_point (q := 41) (y := point41) (by decide +kernel) (by decide +kernel) (by decide +kernel) (by decide)

theorem witness_SavedImageReadsBack :
    saved.DefinitionLaw ∧ Memory.wf [(0, 0x801D), (3000, 7)] = true ∧ saved.MeasurementLaw ∧ saved.DetectionLaw ∧
      saved.PointLaw := by
  refine ⟨fun k d h => ?_, by decide, saved_inputs.1, saved_inputs.2, saved_points⟩
  have each : ∀ k : SchemeId, saved.schemes[k].defn = none ∨ saved.schemes[k].defn = some scheme4 := by decide +kernel
  rcases each k with e | e <;> rw [e] at h
  · cases h
  · exact Option.some.inj h ▸ scheme4_lawful

theorem witness_CutOffSaveIsRejected :
    let s : State := { part 0 with
      storeOp := .save 3 (saveWrites (part 0).moduleBodies) (imageLength (part 0).moduleBodies)
      store := [(0, 0x001D), (9, 5)] }
    s.inReset = false ∧ (part 0).moduleBodies.length = 8 ∧ s.StoreLaw ∧
    (Memory.read s.store 0).extractLsb' 14 2 = 0b00#2 ∧ (nextOf (exec .resetAsserted s)).isSome = true :=
  ⟨by decide +kernel, by decide +kernel, show Memory.wf _ = true by decide, by decide, by decide +kernel⟩

/-- 40 items at the most; a STORE_LOAD in flight; another station's number; 41 items. -/
theorem witness_DataFrameIsTaken :
    let s := flow (freshSlot 2 8390 1000) 1040
    s.Accepts 2 0x22 ∧ (List.replicate 40 (DataItem.detection 0 true)).length ≤ 40 ∧ s.loading = false ∧
    ({ s with storeOp := .load 2 } : State).Accepts 2 0x22 ∧ ({ s with storeOp := .load 2 } : State).loading = true ∧
    ¬ s.Accepts 2 0x21 ∧ 40 < (List.replicate 41 (DataItem.detection 0 true)).length := by decide +kernel

theorem witness_MeasurementItemIsApplied :
    let s := flow (freshSlot 2 8390 1000) 1040
    let t := flow (.fresh (some 2) 2000) 1040
    (s.meas[(11 : MeasId)]).link ≠ some 2 ∧ (s.meas[(10 : MeasId)]).link = some 2 ∧ (0x8001#16 ≠ 0x8000#16) ∧
    ¬ (((2 : Byte) = 1 ∨ (2 : Byte) = 2) ∧ (0x8000#16 : Word16) ≠ 0x8000#16) ∧ (s.meas[(10 : MeasId)]).stale = false ∧
    (t.meas[(10 : MeasId)]).link = some 2 ∧ (t.meas[(10 : MeasId)]).stale = true := by decide +kernel

/-- Slots 20 (fed by S3), 63 (the last one) and 64; FD2 before, while and after it is asserted. Slot 20 is point 41's status
slot alone, slot 52 is a trigger alone, and with point 43's status slot it is both. Points 41, 12 and 42 in the three order
states. -/
theorem witness_DetectionsRiseAndClear :
    let up := withDet armed 20 { source := .link 3, asserted := true, lastRise := some 4000 }
    let both := withPoint tripping 43 (pointOn 1 .loadShed 3 18 43 (some 52) none)
    let inFlight := withPoint (ordered12 5011 .sent none false) 42
      { pointOn 2 .genDrop 5 4 42 none none with orderState := .tripped }
    ((armed.det[(20 : DetId)]).source = .link 3 ∧ (armed.det[(20 : DetId)]).asserted = false ∧
      (up.det[(20 : DetId)]).source = .link 3 ∧ (up.det[(20 : DetId)]).asserted = true ∧
      (armed.det[(63 : DetId)]).source ≠ .link 3 ∧ 64 ≤ (64 : Byte).toNat) ∧
    (State.reset.inReset = false ∧ State.reset.storeOp = .coldLoad) ∧
    (armed.inReset = false ∧ armed.storeOp ≠ .coldLoad ∧ (armed.det[fdSlot 2]).asserted = false) ∧
    ((withDet armed 50 { source := .fastDetect 2, asserted := true, lastRise := none }).det[fdSlot 2]).asserted = true ∧
    (tripping.statusPoints 52 = [] ∧ armed.statusPoints 20 = [41] ∧ armed.triggered 20 = [] ∧
      both.statusPoints 52 = [43] ∧ (both.triggered 52).length = 1) ∧
    ((armed.points[(41 : PointId)]).map Point.orderState = some .idle ∧ inFlight.orderOf 12 = some (2, order12 .sent) ∧
      (inFlight.points[(12 : PointId)]).map Point.orderState = some .ordered ∧
      (inFlight.points[(42 : PointId)]).map Point.orderState = some .tripped) := by decide +kernel

/-- Each expiry at its reading, one reading before it, and where there is nothing to expire. -/
theorem witness_ExpiriesAreTaken :
    let s := flow (freshSlot 2 8390 1080)
    let r := fun t : Time => withDet { part t with recentRise := (Vector.replicate 64 false).set 50 true } 50
      { source := .fastDetect 2, asserted := true, lastRise := some 2035 }
    (((s 3080).meas[(10 : MeasId)]).stale = false ∧ ((s 3080).meas[(10 : MeasId)]).lastUpdate = some 1080 ∧
      ((s 3080).clock - 1080).toNat = ((s 3080).meas[(10 : MeasId)]).limit ∧
      ((s 3079).clock - 1080).toNat ≠ ((s 3079).meas[(10 : MeasId)]).limit) ∧
    ((s 3080).meas[(11 : MeasId)]).stale = true ∧
    ((r 3035).recentRise[(50 : DetId)] = true ∧ ((r 3035).det[(50 : DetId)]).lastRise = some 2035 ∧
      (r 3035).clock - 2035#32 = 1000#32 ∧ (r 3034).clock - 2035#32 ≠ 1000#32) ∧
    (r 3035).recentRise[(51 : DetId)] = false ∧
    (expiring.orderOf 42 = some (5, order42 .sent) ∧ (order42 .sent).deadline = expiring.clock) ∧
    ((ordered12 5023 .sent none false).orderOf 12 = some (2, order12 .sent) ∧ (order12 .sent).deadline ≠ 5023#32) ∧
    expiring.orderOf 41 = none := by decide +kernel

/-- R87's extreme: eight terms of weight 1024 on 32,767 reach 1,048,544. -/
theorem witness_IndexDivisionRoundsToNearest :
    let t : TermCopy := { weight := 1024, value := some 32767, held := 32767, quality := .good, stale := false }
    (List.replicate 8 t).length ≤ 8 ∧
    (∀ u ∈ List.replicate 8 t, -1024 ≤ u.weight ∧ u.weight ≤ 1024 ∧ -32767 ≤ u.input ∧ u.input ≤ 32767) ∧
    roundedIndex (indexSum (List.replicate 8 t)) = 1048544 ∧ (0 : Int) ≤ 0 ∧ (-1 : Int) < 0 := by decide

/-- A rising, a falling and a flat segment, each with Q at its first and at its last value; the ends of scheme 4's curve. -/
theorem witness_SegmentKeepsWithinItsEnds :
    ((7000 : Int) ≤ 7000 ∧ (7000 : Int) < 8500 ∧ 8499 < (8500 : Int) ∧ (7000 : Int) < 8499) ∧
    (1500 < 4600 ∧ 0 < 1000 ∧ (6000 : Nat) = 6000) ∧ risingX scheme4.curve = true ∧
    (∀ c ∈ scheme4.curve, c.2 ≤ 30000) ∧ scheme4.curve ≠ [] ∧
    (scheme4.curve.head? = some (6000, 0) ∧ scheme4.curve.getLast? = some (9500, 6000) ∧
      scheme4.curve[1]? = some (7000, 1500) ∧ scheme4.curve[1 + 1]? = some (8500, 4600)) := by decide

theorem case2_lawful (p : StalePolicy) : (case2 p).Lawful := by
  cases p <;> exact ⟨by decide, by decide, by decide, by decide, by decide⟩

theorem witness_ArmingFiguresInRange :
    ((case2 .holdLast).Lawful ∧ (case2 .armFull).Lawful) ∧ (case2 .holdLast).figures.q = some 7787 ∧
    (case2 .armFull).figures.q = none ∧ (∃ t ∈ (case2 .armFull).terms, t.stale = true) ∧
    ∃ t ∈ (case2 .armFull).terms, t.stale = false ∧ t.value = some (-1207) :=
  ⟨⟨case2_lawful _, case2_lawful _⟩, by decide, by decide, by decide, by decide⟩

/-- Point 40 is BLOCKED; point 12's value 2100 fits under a cap of 4095 as long as T is at most 1995. Then a point for each
reason of R23, and the boundaries of R101. -/
theorem witness_CandidateIsJudged :
    let s := withPoint (ordered12 5011 .sent none false) 42
      { pointOn 2 .genDrop 5 4 42 none none with orderState := .tripped }
    let s := withPoint (withPoint s 41 { point41 with blockPending := true }) 43 { point41 with availability := .faulted }
    let s := withPoint s 50 (pointOn 1 .loadShed 3 19 50 none none)
    armed.unavailable 40 = some .blocked ∧ armed.unavailable 12 = none ∧ ((0 : Int) ≤ 0 ∧ (0 : Int) < 1) ∧
    ((1995 : Int) + 2100 ≤ (4095 : Nat)) ∧ (((4095 : Nat) : Int) < 1996 + 2100) ∧
    [0, 40, 43, 41, 12, 42, 50, 13].map s.unavailable = [some .blocked, some .blocked, some .faulted, some .blockPending,
      some .ordered, some .tripped, some .stale, none] ∧
    (3295 ≤ 3295 ∧ 3294 < 3295 ∧ 0 < 1) := by decide +kernel

/-- Scheme 2's flag is set too, but it is undefined; the pass of scheme 4 begins. -/
theorem witness_PassBegins :
    let s := withScheme (corridor 5000 { entry4 .primed true none with pendingPass := true }) 2
      { Scheme.undefined 0 with pendingPass := true }
    s.inReset = false ∧ s.storeOp ≠ .coldLoad ∧ s.engine = none ∧ (s.schemes[(4 : SchemeId)]).pendingPass = true ∧
    (s.schemes[(4 : SchemeId)]).defn = some scheme4 ∧ (s.schemes[(4 : SchemeId)]).state.runsPasses = true ∧
    ∀ j : SchemeId, j < 4 → (s.schemes[j]).pendingPass = true →
      (s.schemes[j]).state.runsPasses = false ∨ (s.schemes[j]).defn = none := by decide +kernel

theorem witness_PassCompletes :
    let s : State := { armed with engine := some pass4 }
    let t : State := { armed with engine := some { pass4 with void := true } }
    (s.inReset = false ∧ s.engine = some pass4 ∧ pass4.void = false) ∧
    (t.inReset = false ∧ t.engine = some { pass4 with void := true }) := by decide +kernel

/-- Scheme 4 ARMED, PRIMED, and PRIMED with a latched trigger, which the installation replays. -/
theorem witness_InstallationArms :
    let latched : Scheme := { entry4 .primed true none with latch := some trigger4, rearming := true }
    let t := (corridor 5012 latched).install 4 record4
    (armed.schemes[(4 : SchemeId)]).state ≠ .primed ∧
    (((corridor 0 (entry4 .primed true none)).schemes[(4 : SchemeId)]).state = .primed ∧
      ((corridor 0 (entry4 .primed true none)).schemes[(4 : SchemeId)]).latch = none) ∧
    (((corridor 0 latched).schemes[(4 : SchemeId)]).state = .primed ∧
      ((corridor 0 latched).schemes[(4 : SchemeId)]).latch = some trigger4) ∧
    ((t.schemes[(4 : SchemeId)]).state = .firing ∧ (records t).take 2 = [(.schemeArmed, some 23), (.triggerTaken, some 116)] ∧
      ((t.schemes[(4 : SchemeId)]).record.map (fun r => (r.takeTime, r.armGen, r.completion))) = some (5012, 23, none)) := by
  decide +kernel

theorem witness_TriggerOutsideArmed :
    [entry4 .disabled false none, entry4 .standby false none, entry4 .primed true none, entry4 .lockout false none,
      firing4 [], { entry4 .primed true none with rearming := true }, { firing4 [] with latch := some trigger4 },
      entry4 .armed true (some record4)].map
      (fun sc => let s := corridor 0 sc
        ((s.schemes[(4 : SchemeId)]).state, (s.schemes[(4 : SchemeId)]).rearming, (s.schemes[(4 : SchemeId)]).latch)) =
      [(.disabled, false, none), (.standby, false, none), (.primed, false, none), (.lockout, false, none),
        (.firing, false, none), (.primed, true, none), (.firing, false, some trigger4), (.armed, false, none)] := by
  decide +kernel

theorem witness_TriggerIsTaken :
    (armed.schemes[(4 : SchemeId)]).state = .armed ∧ (armed.schemes[(4 : SchemeId)]).live = some record4 ∧
    (((armed.answerTrigger 4 trigger4).schemes[(4 : SchemeId)]).record.map (fun r => r.completion)) = some none := by
  decide +kernel

/-- Points 41 (IDLE and IN_SERVICE), 12 (ORDERED), 42 (TRIPPED), 40 (BLOCKED) and 0 (undefined). -/
theorem witness_FiringRequestsAreAnswered :
    let s := withPoint (ordered12 5011 .sent none false) 42
      { pointOn 2 .genDrop 5 4 42 none none with orderState := .tripped }
    s.bench = false ∧ ({ armed with bench := true } : State).bench = true ∧
    s.orderOf 12 = some (2, order12 .sent) ∧ s.points[(0 : PointId)] = none ∧
    [41, 12, 42, 40].map (fun p : PointId => s.points[p].map (fun x => (x.orderState, x.availability))) =
      [some (.idle, .inService), some (.ordered, .inService), some (.tripped, .inService), some (.idle, .blocked)] := by
  decide +kernel

/-- Order 112 SENT on S2; and order 30 late for point 42, whose late list names the third entry of scheme 4's record. -/
theorem witness_EchoIsTaken :
    let s := ordered12 5016 .sent none false
    let x : Point := { pointOn 2 .genDrop 2 4 42 none none with lastTag := some 30, lastOutcome := .failed }
    let late : State := { withPoint s 42 x with lateLists := s.lateLists.set 42 [ref4 2] }
    (s.Accepts 2 0x22 ∧
      (s.links[(2 : LinkId)]).orders.find? (fun o => o.position = .sent ∧ o.tag = 112 ∧ o.address = 9) =
        some (order12 .sent) ∧
      (s.links[(2 : LinkId)]).orders.find? (fun o => o.position = .sent ∧ o.tag = 111 ∧ o.address = 9) = none ∧
      (∀ p, s.isLateFor 2 111 9 p = false)) ∧ late.Accepts 2 0x22 ∧ (s.inReset = false ∧ ¬ s.Accepts 2 0x23) ∧
    (late.links[(2 : LinkId)]).orders.find? (fun o => o.position = .sent ∧ o.tag = 30 ∧ o.address = 4) = none ∧
    (List.finRange 128).find? (late.isLateFor 2 30 4) = some 42 ∧ late.points[(42 : PointId)] = some x ∧
    ((late.schemes[(4 : SchemeId)]).record.map (fun r => r.entries.map EntryResult.late)) = some [false, false, false] ∧
    (((late.takeLateEcho 42 30).schemes[(4 : SchemeId)]).record.map (fun r => r.entries.map EntryResult.late)) =
      some [false, false, true] := by decide +kernel

/-- What a waiting entry of an order needs: the list names it, and the scheme's record of that execution has it. -/
def entryWaits (s : State) (o : TripOrder) (i : Nat) : Bool :=
  match o.waiting[i]? with
  | some w =>
    match (s.schemes[w.scheme]).record with
    | some r => decide (r.execution = w.execution) && r.entries[w.position]?.isSome
    | none => false
  | none => false

/-- Points 12 and 42 with their orders; an order that a second entry has joined, and one that a backup request placed. -/
theorem witness_OutcomesOfOrders :
    let joined : TripOrder := { order12 .sent with waiting := [ref4 0, { ref4 1 with role := .backup }, ref4 2] }
    let t := ordered12 5016 .sent none false
    (t.points[(order12 .sent).point]).isSome = true ∧ (expiring.points[(order42 .sent).point]).isSome = true ∧
    (joined.waiting.map (fun w => (w.scheme, w.execution, w.position))).Nodup ∧
    [0, 1, 2].map (entryWaits t joined) = [true, true, true] ∧
    joined.waiting.map WaitRef.role = [.primary, .backup, .primary] ∧ joined.backup = false ∧
    ({ joined with backup := true } : TripOrder).backup = true ∧
    (((order42 .sent).waiting.map (fun w => (w.scheme, w.execution, w.position))).Nodup ∧
      entryWaits expiring (order42 .sent) 0 = true) := by decide +kernel

/-- With `witness_OutcomesOfOrders`; and point 41 with its block pending, held by no live record and by one. -/
theorem witness_ConfirmationTripsThePoint :
    (∃ x, (ordered12 5016 .sent none false).points[(order12 .sent).point] = some x) ∧
    ([record4b, record4].map (fun r => ((blocking41 r).points[order41.point].map Point.blockPending,
      (blocking41 r).holders order41.point)) = [(some true, 0), (some true, 1)]) :=
  ⟨Option.isSome_iff_exists.mp witness_OutcomesOfOrders.1, by decide +kernel⟩

/-- The failing point 42 without a backup; and a backup that is IDLE and IN_SERVICE (43), ORDERED (12), TRIPPED (41),
BLOCKED (40) and undefined (0), each another point than the failing one. -/
theorem witness_FailureFaultsThePoint :
    (∃ x, expiring.points[(order42 .sent).point] = some x) ∧
    (let s := withPoint (ordered12 5024 .sent none false) 41 { point41 with orderState := .tripped }
     (s.points[(42 : PointId)].map (fun x => x.defn.backup)) = some none ∧ point41.defn.backup = some 43 ∧
     (43 : PointId) ≠ 41 ∧ s.bench = false ∧ s.points[(0 : PointId)] = none ∧
     s.orderOf 12 = some (2, order12 .sent) ∧
     [43, 12, 41, 40].map (fun p : PointId => s.points[p].map (fun x => (x.orderState, x.availability))) =
      [some (.idle, .inService), some (.ordered, .inService), some (.tripped, .inService), some (.idle, .blocked)]) :=
  ⟨Option.isSome_iff_exists.mp witness_OutcomesOfOrders.2.1, by decide +kernel⟩

theorem witness_OrderFramesAreSentAndHeld :
    let s := ordered12 5010 .queued none false
    let t := ordered12 5011 .inTransmission (some [0x96]) false
    (s.inReset = false ∧ (s.links[(2 : LinkId)]).params.enabled = true ∧ (s.links[(2 : LinkId)]).params.mode = .full ∧
      s.bench = false ∧ (s.links[(2 : LinkId)]).held = false ∧ (s.links[(2 : LinkId)]).transmitting = none ∧
      (s.links[(2 : LinkId)]).orders.find? (fun o => o.position = .queued) = some (order12 .queued)) ∧
    (t.links[(2 : LinkId)]).transmitting = some [0x96] ∧ t.Accepts 2 0x22 ∧ (t.links[(2 : LinkId)]).held = false ∧
    ((ordered12 5010 .queued none true).links[(2 : LinkId)]).held = true ∧
    ((s.links[(2 : LinkId)]).params.station ≠ 0x23 ∧ ¬ s.Accepts 2 0x23) ∧
    (({ s with bench := true } : State).bench = true ∧ (t.links[(2 : LinkId)]).transmitting ≠ none ∧
      (s.links[(0 : LinkId)]).params.enabled = false ∧ (s.links[(0 : LinkId)]).transmitting = none ∧
      (s.links[(0 : LinkId)]).params.mode ≠ .full ∧
      (s.links[(0 : LinkId)]).orders.find? (fun o => o.position = .queued) = none) := by decide +kernel

/-- Scheme 4 with every entry final, and the same with auto-rearm; and with an entry that waits. -/
theorem witness_ExecutionCompletes :
    let done := [confirmedAt 2 112 5016, confirmedAt 3 7 5012,
      { placed 5 30 with outcome := some .failed, outcomeTime := some 5024 }]
    let s := corridor 5024 (firing4 done)
    let auto : SchemeDef := { scheme4 with autoRearm := true }
    let t := corridor 5024 { firing4 done with defn := some auto }
    (s.inReset = false ∧ (s.schemes[(4 : SchemeId)]).record = some (fired done) ∧
      (s.schemes[(4 : SchemeId)]).state = .firing ∧ (s.schemes[(4 : SchemeId)]).defn = some scheme4 ∧
      (fired done).completion = none ∧ (∀ e ∈ (fired done).entries, e.outcome ≠ none) ∧ scheme4.autoRearm = false) ∧
    ((t.schemes[(4 : SchemeId)]).defn = some auto ∧ auto.autoRearm = true) ∧
    (((corridor 5016 (firing4 [placed 2 112])).schemes[(4 : SchemeId)]).record = some (fired [placed 2 112]) ∧
      ∃ e ∈ (fired [placed 2 112]).entries, e.outcome = none) := by decide +kernel

theorem witness_DeferredBlockCompletes :
    let pending : Point := { point41 with blockPending := true, orderState := .tripped }
    let s := withPoint (corridor 5012 (entry4 .standby false none)) 41 pending
    (s.inReset = false ∧ s.points[(41 : PointId)] = some pending ∧ s.holders 41 = 0 ∧ pending.orderState ≠ .ordered) ∧
    (armed.points[(41 : PointId)] = some point41 ∧ point41.blockPending = false ∧ armed.holders 41 ≠ 0) := by
  decide +kernel

theorem witness_LatchedTriggerIsReplayed :
    let s := corridor 5012 { entry4 .armed true (some record4) with latch := some trigger4 }
    s.inReset = false ∧ (s.schemes[(4 : SchemeId)]).latch = some trigger4 ∧
    (s.schemes[(4 : SchemeId)]).state = .armed ∧ (armed.schemes[(4 : SchemeId)]).latch = none := by decide +kernel

/-- A full ring, with P0's cursor at its oldest record and the others' past it. -/
def fullRing : State :=
  { part 0 with
    ring := (List.range 256).map (fun i => eventAt (1000 + i))
    nextSeq := 1256
    readers := (Vector.replicate 4 { cursor := 1256, lost := 0, attn := false }).set 0
      { cursor := 1000, lost := 3, attn := true } }

theorem witness_RecordIsAppended :
    256 ≤ fullRing.ring.length ∧ (fullRing.readers[(0 : PartyId)]).cursor = fullRing.oldestSeq ∧
    (fullRing.readers[(1 : PartyId)]).cursor ≠ fullRing.oldestSeq ∧ recorded.ring.length < 256 := by decide +kernel

theorem witness_EventsAreReadFromTheCursor :
    recorded.Takes 1 ∧ [1, 8].all (fun n : Byte => decide (1 ≤ n.toNat ∧ n.toNat ≤ 8)) = true ∧
    [0, 9].all (fun n : Byte => decide (n.toNat = 0 ∨ 8 < n.toNat)) = true := by decide +kernel

/-- The starts just inside and just outside the ring of ten: 1250 and 1249; and the next number to be written. -/
theorem witness_EventsAreReadFromAStart :
    recorded.Takes 1 ∧ [1250, 1260].all (fun q : Seq => decide ((recorded.nextSeq - q).toNat ≤ recorded.ring.length)) = true ∧
    [1249, 1261].all (fun q : Seq => decide (recorded.ring.length < (recorded.nextSeq - q).toNat)) = true := by
  decide +kernel

theorem witness_ReadsAreAnswered :
    armed.Takes 0 ∧ ((224 : Byte).toNat ≤ (255 : Byte).toNat ∧ (255 : Byte).toNat ≤ (224 : Byte).toNat + 31) ∧
    ((0 : Byte).toNat ≤ (63 : Byte).toNat ∧ (63 : Byte).toNat ≤ 63) ∧ (0 : Byte).toNat + 31 < (32 : Byte).toNat ∧
    63 < (64 : Byte).toNat ∧ 128 ≤ (128 : Byte).toNat ∧ 32 ≤ (32 : Byte).toNat ∧
    ((31 : Byte).toNat = (31 : SchemeId).val ∧ (armed.schemes[(31 : SchemeId)]).defn = none) ∧
    ((127 : Byte).toNat = (127 : PointId).val ∧ armed.points[(127 : PointId)] = none) ∧
    (armed.points[(41 : PointId)]).isSome = true ∧ (armed.schemes[(4 : SchemeId)]).defn = some scheme4 := by
  decide +kernel

/-- Scheme numbers 31 and 32; a policy code of 2, in the right length; owner P1, DISABLED, OPEN; then each refusal of R48
in turn. -/
theorem witness_SectionWriteIsTaken :
    let s := corridor 0 openScheme
    let d : SchemeDef := { scheme4 with protection := .opened }
    (32 ≤ (32 : Byte).toNat ∧ (31 : Byte).toNat = (31 : SchemeId).val ∧ sectionFormOk .terms [2, 1, 10, 0, 1] = false ∧
      sectionFormOk .terms [1, 1, 10, 0, 1] = true) ∧
    (s.Takes 1 ∧ (4 : Byte).toNat = (4 : SchemeId).val ∧ sectionFormOk .curve curveBytes = true ∧ s.saving = false ∧
      s.loading = false ∧ (s.schemes[(4 : SchemeId)]).defn = some d ∧ d.owner = 1 ∧
      (s.schemes[(4 : SchemeId)]).state = .disabled ∧ (writtenSection .curve curveBytes d).isSome = true ∧
      d.defGen ≠ 0xFFFFFF#24) ∧
    ((s.schemes[(17 : SchemeId)]).defn = none ∧ sectionFormOk .header headerBytes = true ∧
      (parseHeader headerBytes).map HeaderFields.owner = some 3 ∧ (headerBytes.getD 8 0).toNat = (3 : PartyId).val ∧
      sectionFormOk .header (headerBytes.set 9 0) = true ∧ parseHeader (headerBytes.set 9 0) = none) ∧
    (d.owner ≠ 2 ∧ (withStore (.save 3 [] 29)).saving = true ∧ (withStore (.load 3)).loading = true ∧
      (armed.schemes[(4 : SchemeId)]).state ≠ .disabled ∧ scheme4.protection ≠ .opened ∧
      (sectionFormOk .candidates [2, 12, 12] = true ∧ writtenSection .candidates [2, 12, 12] d = none) ∧
      scheme17.defGen = 0xFFFFFF#24) := by decide +kernel

theorem witness_WrittenSectionIsValid :
    scheme4.Lawful ∧ (writtenSection .header (headerBytes.set 8 1 |>.set 9 2) scheme4).isSome = true ∧
    ((writtenSection .terms [1, 1, 255, 0xFC, 0x00] scheme4).isSome = true ∧
      sectionFormOk .terms [1, 1, 255, 0xFC, 0x00] = true) ∧
    (writtenSection .curve curveBytes scheme4).isSome = true ∧
    ((writtenSection .candidates [1, 127] scheme4).isSome = true ∧ sectionFormOk .candidates [1, 127] = true) ∧
    ((writtenSection .triggers [1, 0x03, 0xE8, 1, 63] scheme4).isSome = true ∧
      sectionFormOk .triggers [1, 0x03, 0xE8, 1, 63] = true) :=
  ⟨scheme4_lawful, by decide +kernel, by decide +kernel, by decide +kernel, by decide +kernel, by decide +kernel⟩

theorem witness_ProtectIsTaken :
    (32 ≤ (32 : Byte).toNat ∧ protectionOf 3 = none ∧ (armed.schemes[(31 : SchemeId)]).defn = none) ∧
    armed.Takes 1 ∧ (4 : Byte).toNat = (4 : SchemeId).val ∧ [0, 1, 2].all (fun t => (protectionOf t).isSome) = true ∧
    (armed.schemes[(4 : SchemeId)]).defn = some scheme4 ∧ scheme4.owner = 1 ∧ scheme4.owner ≠ 2 ∧
    armed.saving = false ∧ armed.loading = false ∧ (withStore (.save 3 [] 29)).saving = true ∧
    (withStore (.save 3 [] 29)).Takes 1 ∧ scheme4.protection ≠ .fixed ∧
    ((withScheme armed 5 { entry4 .disabled false none with
      defn := some { scheme4 with protection := .fixed } }).schemes[(5 : SchemeId)]).defn =
      some { scheme4 with protection := .fixed } := by decide +kernel

/-- Scheme 4, complete, in the states the clauses name; and incomplete. -/
theorem witness_EnableAndDisableAreTaken :
    let s := corridor 0 (entry4 .disabled false none)
    (s.Takes 1 ∧ (4 : Byte).toNat = (4 : SchemeId).val ∧ (s.schemes[(4 : SchemeId)]).defn = some scheme4 ∧
      scheme4.owner = 1 ∧ s.loading = false ∧ (s.schemes[(4 : SchemeId)]).state = .disabled ∧
      1 ≤ scheme4.terms.length ∧ 2 ≤ scheme4.curve.length ∧ 1 ≤ scheme4.sources.length) ∧
    ({ scheme4 with terms := [] } : SchemeDef).terms = [] ∧
    ({ s with storeOp := .load 2 } : State).loading = true ∧
    ((armed.schemes[(4 : SchemeId)]).state ≠ .firing ∧ (armed.schemes[(4 : SchemeId)]).state ≠ .disabled) ∧
    ((corridor 0 (firing4 [])).schemes[(4 : SchemeId)]).state = .firing := by decide +kernel

/-- Passes of scheme 4 and of another; a latch set and clear; and an old record that holds point 41 (block-pending, held by no
live record now) and point 42 (not block-pending). -/
theorem witness_GivingUpARecord :
    let s := withPoint (corridor 0 (entry4 .disabled false none)) 41 { point41 with blockPending := true }
    (s.engine = none ∧ pass4.scheme = 4 ∧ pass4.scheme ≠ 5 ∧
      ({ armed with engine := some pass4 } : State).engine = some pass4) ∧
    ((armed.schemes[(4 : SchemeId)]).latch = none ∧
      ((corridor 0 { entry4 .primed true none with latch := some trigger4 }).schemes[(4 : SchemeId)]).latch = some trigger4) ∧
    (record4.holds 41 = true ∧ record4.holds 42 = true ∧ s.holders 41 = 0 ∧
      [41, 42].map (fun p => records (s.releaseRecord (some { record4 with selected := [(p, 900)] }))) =
        [[(.pointBlocked, some 0)], []]) := by decide +kernel

/-- P1 and P2 are scheme 4's authority set: P2's consent is the first, P1's completes the set. -/
theorem witness_ConsentIsTaken :
    let s := corridor 0 (entry4 .standby false none)
    let t := corridor 0 { entry4 .standby false none with consents := #v[none, none, some 41, none] }
    let others := fun (u : State) (p : PartyId) => (List.finRange 4).filter (fun q =>
      decide (q ≠ p) && scheme4.authority.getLsbD q.val && (u.schemes[(4 : SchemeId)]).consents[q].isNone)
    (s.Takes 2 ∧ (4 : Byte).toNat = (4 : SchemeId).val ∧ (s.schemes[(4 : SchemeId)]).defn = some scheme4 ∧
      scheme4.authority.getLsbD 2 = true ∧ (s.schemes[(4 : SchemeId)]).state = .standby) ∧ (40 : Gen) ≠ scheme4.defGen ∧
    (armed.schemes[(4 : SchemeId)]).state ≠ .standby ∧
    ((s.schemes[(4 : SchemeId)]).consents[(2 : PartyId)] = none ∧ others s 2 ≠ []) ∧
    (t.schemes[(4 : SchemeId)]).consents[(2 : PartyId)] ≠ none ∧
    ((t.schemes[(4 : SchemeId)]).consents[(1 : PartyId)] = none ∧ others t 1 = []) := by decide +kernel

theorem witness_WithdrawAndResetLockoutAreTaken :
    (armed.Takes 2 ∧ (4 : Byte).toNat = (4 : SchemeId).val ∧ (armed.schemes[(4 : SchemeId)]).defn = some scheme4 ∧
      scheme4.authority.getLsbD 2 = true ∧ (armed.schemes[(4 : SchemeId)]).consents[(2 : PartyId)] = some 41 ∧
      (armed.schemes[(4 : SchemeId)]).state = .armed) ∧
    ((corridor 0 (entry4 .lockout false none)).schemes[(4 : SchemeId)]).state = .lockout ∧
    ((corridor 0 (entry4 .standby false none)).schemes[(4 : SchemeId)]).consents[(2 : PartyId)] = none := by
  decide +kernel

theorem witness_UnauthorizedRequestsAreRefused :
    armed.Takes 3 ∧ (4 : Byte).toNat = (4 : SchemeId).val ∧ (armed.schemes[(4 : SchemeId)]).defn = some scheme4 ∧
    scheme4.owner ≠ 3 ∧ scheme4.authority.getLsbD 3 = false ∧ (41 : Byte).toNat = (41 : PointId).val ∧
    armed.points[(41 : PointId)] = some point41 ∧ point41.defn.owner ≠ 3 ∧ protectionOf 2 = some .fixed ∧
    ((17 : Byte).toNat = (17 : SchemeId).val ∧ (armed.schemes[(17 : SchemeId)]).defn = none ∧ headerBytes.length = 11 ∧
      (headerBytes.getD 8 0).toNat ≠ (2 : PartyId).val) ∧
    (body50.point.toNat = (50 : PointId).val ∧ kindOf body50.kind ≠ none ∧ armed.points[(50 : PointId)] = none ∧
      body50.owner.toNat ≠ (3 : PartyId).val ∧
      ({ body50 with point := 41 } : PointBody).point.toNat = (41 : PointId).val) := by decide +kernel

/-- Point 50 undefined; and BLOCKED, moved to another address. -/
theorem witness_WritePointIsTaken :
    let d : PointDef := { point41.defn with address := 19, statusSlot := none, backup := none }
    let b : Point := { point41 with defn := { d with address := 20 }, availability := .blocked }
    let s := withPoint armed 50 b
    (armed.Takes 1 ∧ armed.saving = false ∧ body50.point.toNat = (50 : PointId).val ∧ writtenPoint body50 50 = some d ∧
      d.owner = 1 ∧ pointFits armed.links armed.points 50 d = true ∧ armed.points[(50 : PointId)] = none) ∧
    (s.points[(50 : PointId)] = some b ∧ pointFits s.links s.points 50 d = true ∧ b.defn.owner = 1 ∧
      b.availability = .blocked ∧ b.orderState ≠ .ordered) ∧
    (128 ≤ (128 : Byte).toNat ∧ kindOf 4 = none ∧ kindOf body50.kind ≠ none ∧
      body50.owner.toNat = (1 : PartyId).val ∧ body50.owner.toNat ≠ (3 : PartyId).val ∧
      (withStore (.save 3 [] 29)).saving = true ∧ (armed.points[(41 : PointId)]).map Point.availability = some .inService ∧
      writtenPoint { body50 with timeout := 251 } 50 = none) := by decide +kernel

/-- Points 41 (held by scheme 4), 43 (held by none) and 40 (BLOCKED), and an ORDERED, a block-pending and a FAULTED
point. -/
theorem witness_BlocksAreTaken :
    (armed.Takes 1 ∧ (41 : Byte).toNat = (41 : PointId).val ∧ armed.points[(41 : PointId)] = some point41 ∧
      point41.defn.owner = 1 ∧ point41.orderState ≠ .ordered ∧ point41.availability = .inService ∧
      point41.blockPending = false ∧ armed.holders 41 ≠ 0) ∧
    ((armed.points[(43 : PointId)]).isSome = true ∧ armed.holders 43 = 0) ∧
    (armed.points[(40 : PointId)].map Point.availability) = some .blocked ∧
    ((ordered12 5011 .sent none false).points[(12 : PointId)].map Point.orderState) = some .ordered ∧
    ({ point41 with blockPending := true } : Point).blockPending = true ∧
    ({ point41 with availability := .faulted } : Point).availability = .faulted ∧
    (record4.selected = [(12, 2100)] ++ (41, 900) :: [(42, 600)] ∧ (41 : PointId) ∉ [((12 : PointId), 2100)].map Prod.fst ∧
      (41 : PointId) ∉ [((42 : PointId), 600)].map Prod.fst ∧ record4.total - 900 < record4.figures.a ∧
      (record4.without 41).shortfall = some 595) ∧
    ({ record4 with total := 4500 } : ArmingRecord).figures.a ≤ 4500 - 900 := by decide +kernel

/-- BLOCKED on a FULL link and on one that is not; block-pending; TRIPPED with its status slot asserted and not. -/
theorem witness_UnblockAndRestoreAreTaken :
    let up := withDet armed 20 { source := .link 3, asserted := true, lastRise := some 4000 }
    let off := withLink armed 2 { fullLink 0x22 0 with params := { enabled := true, station := 0x22, mode := .listenOnly } }
    (armed.Takes 2 ∧ (40 : Byte).toNat = (40 : PointId).val ∧
      (armed.points[(40 : PointId)].map (fun x => (x.defn.owner, x.availability, x.defn.link))) = some (2, .blocked, 2) ∧
      (armed.links[(2 : LinkId)]).params.enabled = true ∧ (armed.links[(2 : LinkId)]).params.mode = .full) ∧
    ¬ (off.links[(2 : LinkId)]).params.mode = .full ∧
    ({ point41 with blockPending := true } : Point).availability = .inService ∧
    (point41.defn.statusSlot = some 20 ∧ (up.det[(20 : DetId)]).asserted = true ∧
      (armed.det[(20 : DetId)]).asserted = false) ∧ point41.orderState = .idle := by decide +kernel

theorem witness_RequestsReachTheirBlock :
    (∃ r, requestOf (.queryStatus 1) = some (1, r)) ∧
    ((answeredP2.parties[(2 : PartyId)]).exchange = .responseWaiting ∧ answeredP2.inReset = false ∧
      (answeredP2.parties[(2 : PartyId)]).select = .inactive) ∧
    ((State.reset.parties[(1 : PartyId)]).exchange ≠ .responseWaiting ∧ State.reset.storeOp = .coldLoad ∧
      (State.reset.parties[(1 : PartyId)]).select = .inactive) ∧
    ((answeredP2.drive 2 4).parties[(2 : PartyId)]).select ≠ .inactive ∧
    armed.Takes 1 := ⟨⟨.queryStatus, rfl⟩, by decide +kernel⟩

/-- A section of 248 bytes still fits; one of 249 does not. A length byte of 250 is complete at its second check byte and one of
251 never; 0x09 is no kind code, 0x01 is. -/
theorem witness_RequestFramesReadBack :
    requestOf (.writeTermsSection 1 4 (List.replicate 248 0)) =
      some (1, .writeSection .terms 4 (List.replicate 248 0)) ∧
    Wire.requestFits (.writeSection .terms 4 (List.replicate 248 0)) = true ∧
    Wire.requestFits (.writeSection .terms 4 (List.replicate 249 0)) = false ∧
    (armed.parties[(1 : PartyId)]).select = .inactive ∧
    [frameComplete (0x10 :: 250 :: List.replicate 252 0), frameComplete (0x10 :: 250 :: List.replicate 251 0),
      frameComplete (0x10 :: 251 :: List.replicate 253 0)] = [true, false, false] ∧
    judgeFrame (0x01 :: 0 :: Wire.be16 (Wire.crc [0x01, 0]) ++ [0x55]) = .parsed (.request .queryStatus) ∧
    parseRequest 0x09 [] = .unknown ∧ parseRequest 0x01 [] = .request .queryStatus := by decide +kernel

/-- Party P0 idle, P2 with a response of 9 frame bytes waiting, and each of them with a period under way. -/
theorem witness_PartyPeriodsAreTaken :
    let bad : List Byte := 0x09 :: 0 :: Wire.be16 (Wire.crc [0x09, 0])
    let receiving := armed.receive 0 [0x01]
    (armed.inReset = false ∧ (armed.parties[(0 : PartyId)]).select = .inactive ∧
      (armed.parties[(0 : PartyId)]).exchange ≠ .responseWaiting) ∧
    (answeredP2.inReset = false ∧ (answeredP2.parties[(2 : PartyId)]).select = .inactive ∧
      (answeredP2.parties[(2 : PartyId)]).exchange = .responseWaiting ∧
      (answeredP2.parties[(2 : PartyId)]).waiting = some { status := .done, body := [2, 0] } ∧
      (Wire.responseFrame true { status := .done, body := [2, 0] }).length = 9) ∧
    ((receiving.parties[(0 : PartyId)]).select = .receiving [0x01] ∧ frameComplete [0x01] = false ∧
      frameComplete bad = true ∧ frameComplete ([0x01] ++ [0, 0, 0]) = true) ∧
    ([0x00#8].head? ≠ some 0xD1#8 ∧ ((answeredP2.drive 2 8).parties[(2 : PartyId)]).select = .reading 8 ∧
      ((answeredP2.drive 2 9).parties[(2 : PartyId)]).select = .reading 9 ∧
      ((answeredP2.setSelect 2 .ignored).parties[(2 : PartyId)]).select = .ignored ∧
      ((armed.drive 0 3).parties[(0 : PartyId)]).select = .reading 3 ∧
      ((armed.drive 0 3).parties[(0 : PartyId)]).exchange ≠ .responseWaiting) ∧
    (judgeFrame [0x01] = .frameError ∧ judgeFrame bad = .parsed .unknown ∧
      judgeFrame (0x02 :: 0 :: Wire.be16 (Wire.crc [0x02, 0])) = .parsed .malformed ∧ armed.storeOp ≠ .coldLoad ∧
      State.reset.storeOp = .coldLoad) := by decide +kernel

theorem witness_StationFramesReadBack :
    armed.starting = false ∧ (armed.links[(2 : LinkId)]).params.enabled = true ∧ (armed.links[(2 : LinkId)]).receiving = [] ∧
    (List.replicate 40 (DataItem.measurement 10 1 8423)).length ≤ 40 ∧
    Wire.parseStation (Wire.inboundFrame 0x22 .hold) = some (0x22, .hold) := by decide +kernel

set_option maxRecDepth 20000 in
/-- A disabled link; a length byte of 241; a length byte of 240 with 242 bytes after it, and 12 bytes whose link check is
wrong. -/
theorem witness_DiscardedFramesHaveNoEffect :
    (armed.inReset = false ∧ (armed.links[(0 : LinkId)]).params.enabled = false ∧ armed.storeOp ≠ .coldLoad ∧
      (armed.links[(2 : LinkId)]).params.enabled = true ∧ (armed.links[(2 : LinkId)]).receiving = []) ∧
    240 < (241 : Byte).toNat ∧
    ((240 : Byte).toNat ≤ 240 ∧ (List.replicate 242 (0 : Byte)).length = (240 : Byte).toNat + 2 ∧
      Wire.parseStation (0x96 :: 0x11 :: 0x22 :: 240 :: List.replicate 242 0) = none) ∧
    Wire.parseStation [0x96, 0x11, 0x22, 6, 1, 0, 10, 1, 0x20, 0xE7, 0, 0] = none := by decide +kernel

theorem witness_EveryStepKeepsTheInputLaws :
    saved.MeasurementLaw ∧ saved.DetectionLaw ∧ (nextOf (step saved)).isSome = true :=
  ⟨saved_inputs.1, saved_inputs.2, by decide +kernel⟩

/-- Point 12 ORDERED, with order 112 in flight for it on S2. -/
def inFlight : State :=
  withLink (withPoint (part 5016) 12 { pointOn 2 .genDrop 2 9 12 none none with orderState := .ordered, lastTag := some 112 })
    2 { fullLink 0x22 113 with orders := [order12 .sent] }

theorem inFlight_orders : inFlight.OrderLaw := by
  intro _
  have each : ∀ p : PointId, p ≠ 12 → inFlight.points[p] = none := by decide +kernel
  have off : ∀ l : LinkId, l ≠ 2 → inFlight.links[l].orders = [] := by decide +kernel
  have there : inFlight.points[(12 : PointId)] =
      some { pointOn 2 .genDrop 2 9 12 none none with orderState := .ordered, lastTag := some 112 } := by decide +kernel
  have on : inFlight.links[(2 : LinkId)].orders = [order12 .sent] := by decide +kernel
  refine ⟨fun p x hx _ => ?_, fun l o ho => ?_, by decide +kernel, by decide +kernel⟩
  · by_cases e : p = 12
    · subst e
      cases hx.symm.trans there
      have : order12 .sent ∈ inFlight.links[(2 : LinkId)].orders := by rw [on]; exact List.mem_singleton_self _
      exact ⟨order12 .sent, this, rfl⟩
    · rw [each p e] at hx; cases hx
  · by_cases e : l = 2
    · subst e
      rw [on, List.mem_singleton] at ho
      subst ho
      exact ⟨_, there, rfl, rfl, rfl, rfl⟩
    · rw [off l e] at ho; cases ho

theorem witness_EveryStepKeepsThePointLaw :
    inFlight.PointLaw ∧ inFlight.OrderLaw ∧ inFlight.inReset = false ∧ (nextOf (step inFlight)).isSome = true :=
  ⟨one_point (q := 12) (y := { pointOn 2 .genDrop 2 9 12 none none with orderState := .ordered, lastTag := some 112 })
    (by decide +kernel) (by decide +kernel) (by decide +kernel) (by decide), inFlight_orders, by decide +kernel,
    by decide +kernel⟩

/-- Scheme 4 ARMED with its two consents, and every other entry undefined. -/
theorem witness_EveryStepKeepsTheSchemeLaw : armed.SchemeLaw ∧ (nextOf (step armed)).isSome = true := by
  have each : ∀ k : SchemeId, k ≠ 4 → armed.schemes[k] = .undefined 0 := by decide +kernel
  have there : armed.schemes[(4 : SchemeId)] = entry4 .armed true (some record4) := by decide +kernel
  have undef : (Scheme.undefined 0).Lawful :=
    ⟨by decide, (by intro d h; cases h), by decide, by decide, by decide, by decide⟩
  have four : (entry4 .armed true (some record4)).Lawful := by
    refine ⟨by decide, ?_, by decide, by decide, by decide, by decide⟩
    intro d h
    cases h
    simp only [Scheme.consentOk, entry4]
    decide
  refine ⟨⟨fun k => ?_, fun x h => ?_, by decide +kernel, by decide +kernel⟩, by decide +kernel⟩
  · by_cases e : k = 4
    · rw [e, there]; exact four
    · rw [each k e]; exact undef
  · have none : armed.engine = none := by decide +kernel
    rw [none] at h
    cases h

theorem witness_EveryStepKeepsTheArmingLaw : armed.ArmingLaw ∧ (nextOf (step armed)).isSome = true := by
  have live : ∀ k : SchemeId, armed.schemes[k].live = none ∨ armed.schemes[k].live = some record4 := by decide +kernel
  have taken : ∀ k : SchemeId, armed.schemes[k].record = none := by decide +kernel
  have engine : armed.engine = none := by decide +kernel
  have lawful : record4.Lawful :=
    ⟨⟨by intro q h; cases h; decide, by decide, by decide, by decide⟩, by decide, by decide, by decide, by decide,
      by decide, by decide⟩
  refine ⟨⟨fun k d h => armed_definitions k d h ▸ scheme4_lawful, fun k r h => ?_, fun k r h => ?_, fun x h => ?_⟩,
    by decide +kernel⟩
  · rcases live k with e | e <;> rw [e] at h
    · cases h
    · cases h; exact lawful
  · rw [taken k] at h; cases h
  · rw [engine] at h; cases h

theorem witness_EveryStepKeepsTheRecordLaw : recorded.RecordLaw ∧ (nextOf (step recorded)).isSome = true := by
  have each : ∀ i : Fin recorded.ring.length, recorded.ring[i].seq = recorded.oldestSeq + BitVec.ofNat 32 i.val := by
    decide +kernel
  exact ⟨⟨by decide +kernel, fun i h => each ⟨i, h⟩, by decide +kernel, fun _ => by decide +kernel⟩, by decide +kernel⟩

theorem witness_EveryStepKeepsTheStoreLaw :
    let s : State := { part 0 with store := [(0, 0x801D), (1, 16)] }
    s.StoreLaw ∧ (nextOf (step s)).isSome = true := ⟨show Memory.wf _ = true by decide, by decide +kernel⟩

end Sys2Proof.Tests
end

section
/-! SUPPORT. What every change of the part keeps of the input tables (R1, R2, R12, R116). -/

namespace Sys2Proof.Machine

/-! ## The tables when cold reset ends -/

/-- The entry of the detection table with no map entry. -/
theorem getElem_detUnmapped (d : DetId) : detUnmapped[d] = .cleared (.fixed d) :=
  getElem_tabulate (fun d => DetSlot.cleared (.fixed d)) d.val d.isLt

section

variable (bench : Bool) (store : Memory) (parties : Vector PartyLink 4) (commands : List Instr) (n : Nat)

theorem State.cold_meas (m : MeasId) : (State.cold bench store parties commands n).meas[m] = .unmapped :=
  Vector.getElem_replicate _

theorem State.cold_det (d : DetId) : (State.cold bench store parties commands n).det[d] = .cleared (.fixed d) :=
  getElem_detUnmapped d

theorem State.cold_recentRise (d : DetId) : (State.cold bench store parties commands n).recentRise[d] = false :=
  Vector.getElem_replicate _

theorem State.cold_points (p : PointId) : (State.cold bench store parties commands n).points[p] = none :=
  Vector.getElem_replicate _

theorem State.cold_lateLists (p : PointId) : (State.cold bench store parties commands n).lateLists[p] = [] :=
  Vector.getElem_replicate _

theorem State.cold_schemes (k : SchemeId) : (State.cold bench store parties commands n).schemes[k] = .undefined 0 :=
  Vector.getElem_replicate _

theorem State.cold_links (l : LinkId) : (State.cold bench store parties commands n).links[l] = .cold :=
  Vector.getElem_replicate _

theorem State.cold_readers (p : PartyId) : (State.cold bench store parties commands n).readers[p] = .cold :=
  Vector.getElem_replicate _

end

/-! ## The measurement law -/

theorem State.MeasurementLaw.of_meas {s t : State} (hs : s.MeasurementLaw) (h : t.meas = s.meas) :
    t.MeasurementLaw := fun m => h ▸ hs m

/-- A change of one slot keeps the law where it keeps that slot lawful. -/
theorem State.MeasurementLaw.modMeas {s : State} {m : MeasId} {f : MeasSlot → MeasSlot} (hs : s.MeasurementLaw)
    (hf : s.meas[m].Lawful → (f s.meas[m]).Lawful) : (s.modMeas m f).MeasurementLaw := by
  intro i
  show (modV s.meas m f)[i.val].Lawful
  rw [getElem_modV]
  split
  · next e => rw [Fin.ext e] at hf; exact hf (hs i)
  · exact hs i

/-- A valid item leaves a mapped slot lawful (R6). -/
theorem MeasSlot.Lawful.fresh {x : MeasSlot} (hx : x.Lawful) (hl : x.link.isSome = true) {v : Int}
    (hv : -32767 ≤ v ∧ v ≤ 32767) (q : Quality) (t : Time) :
    MeasSlot.Lawful { x with value := some v, held := v, quality := q, lastUpdate := some t, stale := false } := by
  obtain ⟨-, -, -, -, hlow, hhigh, -⟩ := hx
  refine ⟨rfl, fun w hw => (Option.some.inj hw).symm, hv.1, hv.2, hlow, hhigh, fun e => ?_⟩
  rw [e] at hl
  cases hl

/-- A mapped slot, or one that was fresh, is lawful once it is stale (R7, R8). -/
theorem MeasSlot.Lawful.stale {x : MeasSlot} (hx : x.Lawful) (hl : x.link.isSome = true ∨ x.stale = false)
    (q : Quality) : MeasSlot.Lawful { x with value := none, stale := true, quality := q } := by
  obtain ⟨-, -, hmin, hmax, hlow, hhigh, hun⟩ := hx
  refine ⟨rfl, nofun, hmin, hmax, hlow, hhigh, fun e => ?_⟩
  rcases hl with hl | hl
  · rw [e] at hl
    cases hl
  · rw [hun e] at hl
    cases hl

/-- A slot through a warm reset (R17). -/
theorem State.warmTables_meas (s : State) (m : MeasId) :
    s.warmTables.meas[m] = .fresh s.meas[m].link s.meas[m].limit :=
  getElem_mapV (fun x : MeasSlot => MeasSlot.fresh x.link x.limit) s.meas m.val m.isLt

theorem State.MeasurementLaw.warmTables {s : State} (hs : s.MeasurementLaw) : s.warmTables.MeasurementLaw := by
  intro m
  obtain ⟨-, -, -, -, hlow, hhigh, -⟩ := hs m
  rw [State.warmTables_meas]
  exact MeasSlot.fresh_lawful _ _ ⟨hlow, hhigh⟩

/-- The table of any measurement map is lawful (R2). -/
theorem measTable_lawful (body : List Word16) (m : MeasId) : (measTable body)[m].Lawful := by
  simp only [measTable, Fin.getElem_fin, getElem_tabulate]
  split
  · refine MeasSlot.fresh_lawful _ _ ?_
    split
    · assumption
    · decide
  · exact MeasSlot.fresh_lawful _ _ (by decide)

theorem State.cold_measurementLaw {bench : Bool} {store : Memory} {parties : Vector PartyLink 4} {commands : List Instr}
    {n : Nat} : (State.cold bench store parties commands n).MeasurementLaw := by
  intro m
  rw [State.cold_meas]
  exact MeasSlot.fresh_lawful _ _ (by decide)

/-- What the part does in an event keeps the law: an item of a mapped slot, a slot that becomes stale and a warm reset
change the table, and nothing else does. -/
theorem Work.keeps_measurementLaw {s t : State} (h : Work s t) (hs : s.MeasurementLaw) : t.MeasurementLaw := by
  cases h with
  | fresh m v q τ hl hv => exact hs.modMeas (fun hm => hm.fresh hl hv q τ)
  | stale m f hf hl => exact hs.modMeas (fun hm => by rw [hf]; exact hm.stale hl _)
  | tables => exact hs.warmTables
  | _ => exact hs.of_meas (by simp)

theorem Change.keeps_measurementLaw {s t : State} (h : Change s t) (hs : s.MeasurementLaw) : t.MeasurementLaw := by
  cases h with
  | work h => exact h.keeps_measurementLaw hs
  | load m image => exact measTable_lawful _
  | cold => exact State.cold_measurementLaw
  | _ => exact hs

/-! ## The detection law -/

/-- What the detection law says of slot `d` with contents `x` and recent-rise flag `r` (R12, R116). -/
def DetSlot.LawfulAt (d : DetId) (x : DetSlot) (r : Bool) : Prop :=
  (48 ≤ d.val → x.source = .fixed d) ∧
  (d.val < 48 → x.source = .unmapped ∨ ∃ l, x.source = .link l) ∧
  (x.source = .unmapped → x.asserted = false ∧ x.lastRise = none) ∧
  (r = true → x.lastRise.isSome = true)

theorem State.detectionLaw_iff (s : State) :
    s.DetectionLaw ↔ ∀ d : DetId, DetSlot.LawfulAt d s.det[d] s.recentRise[d] := Iff.rfl

theorem State.DetectionLaw.of_det {s t : State} (hs : s.DetectionLaw) (h : t.det = s.det)
    (hr : t.recentRise = s.recentRise) : t.DetectionLaw := by
  intro d
  rw [h, hr]
  exact hs d

/-- Slots 48 to 63 are never unmapped. -/
theorem DetSource.fixed_ne_unmapped (d : DetId) (h : 48 ≤ d.val) : DetSource.fixed d ≠ .unmapped := by
  obtain ⟨n, e⟩ := DetSource.fixed_of_ge d h
  simp [e]

namespace DetSlot.LawfulAt

variable {d : DetId} {x : DetSlot} {r : Bool}

/-- A slot that something feeds is lawful after a rise (R13, R116). -/
theorem rise (hx : LawfulAt d x r) (h : x.source ≠ .unmapped ∨ 48 ≤ d.val) (t : Time) (r' : Bool) :
    LawfulAt d { x with asserted := true, lastRise := some t } r' := by
  obtain ⟨hfixed, hmapped, -, -⟩ := hx
  refine ⟨hfixed, hmapped, fun e => ?_, fun _ => rfl⟩
  rcases h with h | h
  · exact absurd e h
  · exact absurd ((hfixed h).symm.trans e) (DetSource.fixed_ne_unmapped d h)

theorem fall (hx : LawfulAt d x r) : LawfulAt d { x with asserted := false } r := by
  obtain ⟨hfixed, hmapped, hnone, hrise⟩ := hx
  exact ⟨hfixed, hmapped, fun e => ⟨rfl, (hnone e).2⟩, hrise⟩

theorem expired (hx : LawfulAt d x r) : LawfulAt d x false := by
  obtain ⟨hfixed, hmapped, hnone, -⟩ := hx
  exact ⟨hfixed, hmapped, hnone, nofun⟩

/-- A cleared slot is lawful where its source is. -/
theorem cleared {source : DetSource} (hfixed : 48 ≤ d.val → source = .fixed d)
    (hmapped : d.val < 48 → source = .unmapped ∨ ∃ l, source = .link l) : LawfulAt d (.cleared source) false :=
  ⟨hfixed, hmapped, fun _ => ⟨rfl, rfl⟩, nofun⟩

theorem cleared_fixed (d : DetId) : LawfulAt d (.cleared (.fixed d)) false :=
  .cleared (fun _ => rfl) (fun h => .inl (DetSource.fixed_of_lt d h))

end DetSlot.LawfulAt

theorem State.DetectionLaw.rise {s : State} {d : DetId} (hs : s.DetectionLaw)
    (h : s.det[d].source ≠ .unmapped ∨ 48 ≤ d.val) :
    State.DetectionLaw { s.modDet d (fun x => { x with asserted := true, lastRise := some s.clock }) with
      recentRise := s.recentRise.set d true } := by
  intro e
  show DetSlot.LawfulAt e (modV s.det d _)[e.val] (s.recentRise.set d.val true)[e.val]
  rw [getElem_modV, Vector.getElem_set]
  split
  · next he => obtain rfl := Fin.ext he; exact DetSlot.LawfulAt.rise (hs d) h _ _
  · exact hs e

theorem State.DetectionLaw.fall {s : State} {d : DetId} (hs : s.DetectionLaw) :
    (s.modDet d (fun x => { x with asserted := false })).DetectionLaw := by
  intro e
  show DetSlot.LawfulAt e (modV s.det d _)[e.val] s.recentRise[e]
  rw [getElem_modV]
  split
  · exact DetSlot.LawfulAt.fall (hs e)
  · exact hs e

theorem State.DetectionLaw.riseExpired {s : State} {d : DetId} (hs : s.DetectionLaw) :
    State.DetectionLaw { s with recentRise := s.recentRise.set d false } := by
  intro e
  show DetSlot.LawfulAt e s.det[e] (s.recentRise.set d.val false)[e.val]
  rw [Vector.getElem_set]
  split
  · exact DetSlot.LawfulAt.expired (hs e)
  · exact hs e

/-- A detection slot through a warm reset (R18, R116). -/
theorem State.warmTables_det (s : State) (d : DetId) :
    s.warmTables.det[d] = .cleared s.det[d].source ∧ s.warmTables.recentRise[d] = false :=
  ⟨getElem_mapV (fun x : DetSlot => DetSlot.cleared x.source) s.det d.val d.isLt, Vector.getElem_replicate _⟩

theorem State.DetectionLaw.warmTables {s : State} (hs : s.DetectionLaw) : s.warmTables.DetectionLaw := by
  intro d
  obtain ⟨hfixed, hmapped, -, -⟩ := hs d
  show DetSlot.LawfulAt d s.warmTables.det[d] s.warmTables.recentRise[d]
  rw [(s.warmTables_det d).1, (s.warmTables_det d).2]
  exact .cleared hfixed hmapped

/-- The table of any detection map is lawful, with no recent rise (R12). -/
theorem detTable_lawful (body : List Word16) (d : DetId) : DetSlot.LawfulAt d (detTable body)[d] false := by
  simp only [detTable, Fin.getElem_fin, getElem_tabulate]
  split
  · exact .cleared_fixed d
  · next h =>
    split
    · split
      · exact .cleared (fun h' => absurd h' h) (fun _ => .inr ⟨_, rfl⟩)
      · exact .cleared (fun h' => absurd h' h) (fun _ => .inl rfl)
    · exact .cleared (fun h' => absurd h' h) (fun _ => .inl rfl)

theorem State.cold_detectionLaw {bench : Bool} {store : Memory} {parties : Vector PartyLink 4} {commands : List Instr}
    {n : Nat} : (State.cold bench store parties commands n).DetectionLaw := by
  rw [State.detectionLaw_iff]
  intro d
  rw [State.cold_det, State.cold_recentRise]
  exact .cleared_fixed d

/-- What the part does in an event keeps the law: a rise, a clear, a rise expiry and a warm reset change the table, and
nothing else does. -/
theorem Work.keeps_detectionLaw {s t : State} (h : Work s t) (hs : s.DetectionLaw) : t.DetectionLaw := by
  cases h with
  | rise d h => exact hs.rise h
  | fall d => exact hs.fall
  | riseExpired d => exact hs.riseExpired
  | tables => exact hs.warmTables
  | _ => exact hs.of_det (by simp) (by simp)

theorem Change.keeps_detectionLaw {s t : State} (h : Change s t) (hs : s.DetectionLaw) : t.DetectionLaw := by
  cases h with
  | work h => exact h.keeps_detectionLaw hs
  | load m image =>
    intro d
    show DetSlot.LawfulAt d (detTable _)[d] (Vector.replicate 64 false)[d.val]
    rw [Vector.getElem_replicate]
    exact detTable_lawful _ d
  | cold => exact State.cold_detectionLaw
  | _ => exact hs

/-- Settles O55: each kind of change keeps both laws, and a step makes only such changes. -/
theorem everyStepKeepsTheInputLaws : Obligations.EveryStepKeepsTheInputLaws := fun _ _ h =>
  ⟨step_keeps (fun _ _ hs => hs) (fun _ _ c hs => c.keeps_measurementLaw hs) h,
    step_keeps (fun _ _ hs => hs) (fun _ _ c hs => c.keeps_detectionLaw hs) h⟩

end Sys2Proof.Machine
end

section
/-! SUPPORT. The tables when cold reset ends (R174) and as a load without an image leaves them (R172). -/

namespace Sys2Proof.Machine

/-! ## Cold reset -/

/-- A party link when cold reset ends (R161): beside its select line it has its cold-reset contents. -/
theorem PartyLink.restarted_select (q : PartyLink) :
    (q.select = .inactive → q.restarted.select = .inactive) ∧ (q.select ≠ .inactive → q.restarted.select = .ignored) := by
  unfold PartyLink.restarted
  cases q.select <;> simp

theorem finOf_fdSlot (n : FdId) : finOf 16 ((fdSlot n).val - 48) = some n := by
  have e : (fdSlot n).val - 48 = n.val := Nat.add_sub_cancel_left 48 n.val
  rw [e, finOf, dif_pos n.isLt]

/-- Detection slot 48 + n is fed by FDn (R12). -/
theorem DetSource.fixed_fdSlot (n : FdId) : DetSource.fixed (fdSlot n) = .fastDetect n := by
  unfold DetSource.fixed
  split
  · next m h =>
    obtain rfl := Option.some.inj ((finOf_fdSlot n).symm.trans h)
    exact if_pos (Nat.le_add_right 48 n.val)
  · next h => exact nomatch (finOf_fdSlot n).symm.trans h

/-- Settles O4: the state that COLD_RESET_END answers is `State.cold`. -/
theorem coldResetEndValues : Obligations.ColdResetEndValues := by
  intro bench s hs
  refine ⟨State.cold bench s.store (mapV PartyLink.restarted s.parties) s.pending s.openCount, ?_, rfl, rfl, rfl, rfl,
    rfl, rfl, rfl, fun m => ?_, fun d => ?_, fun n => ?_, fun p => ?_, fun k => State.cold_schemes .., rfl, fun l => ?_,
    rfl, rfl, rfl, fun p => ?_⟩
  · show Host.Outcome.next (s.endColdReset bench) = _
    rw [State.endColdReset, if_pos hs]
  · rw [State.cold_meas]
    exact ⟨rfl, rfl, rfl, rfl, rfl⟩
  · rw [State.cold_det, State.cold_recentRise]
    exact ⟨rfl, rfl, rfl⟩
  · rw [State.cold_det]
    exact DetSource.fixed_fdSlot n
  · exact ⟨State.cold_points .., State.cold_lateLists ..⟩
  · rw [State.cold_links]
    exact ⟨rfl, rfl, rfl, rfl, rfl⟩
  · have hp : (State.cold bench s.store (mapV PartyLink.restarted s.parties) s.pending s.openCount).parties[p] =
        s.parties[p].restarted := getElem_mapV ..
    obtain ⟨hin, hact⟩ := s.parties[p].restarted_select
    rw [State.cold_readers, hp]
    exact ⟨rfl, rfl, rfl, rfl, rfl, rfl, rfl, hin, hact⟩

/-! ## The laws of the machine right after reset -/

theorem reset_definitionLaw : State.reset.DefinitionLaw := by
  intro k d h
  rw [State.reset, State.cold_schemes] at h
  cases h

theorem reset_pointLaw : State.reset.PointLaw := by
  have none : ∀ (p : PointId) (x : Point), State.reset.points[p] ≠ some x := by
    intro p x h
    rw [State.reset, State.cold_points] at h
    cases h
  refine ⟨fun p q x y hp => absurd hp (none p x), fun l => ?_, fun p x hp => absurd hp (none p x)⟩
  have undef : definedPoints State.reset.points = [] := by
    refine List.filterMap_eq_nil_iff.2 fun p _ => ?_
    rw [State.reset, State.cold_points]
    rfl
  rw [undef]
  exact Nat.zero_le _

theorem reset_orderLaw : State.reset.OrderLaw := by
  refine State.reset.orderLaw_iff.2 fun _ => ?_
  have keys : State.reset.keys = fun _ => [] := by
    funext l
    rw [State.keys, State.reset, State.cold_links]
    rfl
  rw [keys]
  refine ⟨OrdersLawful.empty fun p x h => ?_, nofun⟩
  rw [State.reset, State.cold_points] at h
  cases h

theorem reset_schemeLaw : State.reset.SchemeLaw := by
  refine ⟨fun k => ?_, nofun, nofun, fun _ => rfl⟩
  rw [State.reset, State.cold_schemes]
  exact Scheme.undefined_lawful 0

theorem reset_armingLaw : State.reset.ArmingLaw := by
  refine ⟨reset_definitionLaw, fun k r h => ?_, fun k r h => ?_, nofun⟩ <;>
  · rw [State.reset, State.cold_schemes] at h
    cases h

theorem reset_recordLaw : State.reset.RecordLaw := by
  have lag : ∀ p : PartyId, State.reset.lag p = 0 := by
    intro p
    rw [State.lag, State.reset, State.cold_readers]
    rfl
  refine ⟨Nat.zero_le _, nofun, fun p => (lag p).le, fun _ p => ?_⟩
  rw [lag, State.reset, State.cold_readers]
  rfl

/-- Settles O5: one law of the cold-reset tables after another. -/
theorem resetMeetsEveryLaw : Obligations.ResetMeetsEveryLaw :=
  ⟨State.cold_measurementLaw, State.cold_detectionLaw, reset_pointLaw, reset_orderLaw, reset_definitionLaw, reset_schemeLaw,
    reset_armingLaw, reset_recordLaw, Memory.wf_reset⟩

/-! ## A load -/

/-- An empty module holds no entry (R173). -/
theorem entriesOf_nil (size : List Word16 → Nat) : entriesOf size [] = [] := rfl

section

variable (s : State) (image : Option Image)

/-- The body of the `n`-th module a load reads: empty where there is no image. -/
def loadBody (image : Option Image) (n : Nat) : List Word16 := (image.map (fun x => x.body n)).getD []

theorem State.loadTables_links (l : LinkId) : (s.loadTables image).links[l] =
    { s.links[l] with
      params := (stationMap (loadBody image 0))[l], held := false, orders := [], transmitting := none
      receiving := if (stationMap (loadBody image 0))[l].enabled then s.links[l].receiving else [] } :=
  getElem_tabulate ..

theorem State.loadTables_meas : (s.loadTables image).meas = measTable (loadBody image 1) := rfl

theorem State.loadTables_det : (s.loadTables image).det = detTable (loadBody image 2) := rfl

theorem State.loadTables_recentRise (d : DetId) : (s.loadTables image).recentRise[d] = false :=
  Vector.getElem_replicate _

theorem State.loadTables_lateLists (p : PointId) : (s.loadTables image).lateLists[p] = [] := Vector.getElem_replicate _

theorem State.loadTables_points :
    (s.loadTables image).points = pointTable (s.loadTables image).links (loadBody image 3) := by
  simp only [State.loadTables, loadBody]

theorem State.loadTables_schemes (k : SchemeId) : (s.loadTables image).schemes[k] =
    Scheme.loaded s.schemes[k].armGen (loadScheme
      (entriesOf (fun e => 9 + 2 * countAt 8 e) (loadBody image 4))
      (entriesOf (fun e => 3 + 2 * countAt 0 e) (loadBody image 5))
      (entriesOf (fun e => 1 + countAt 0 e) (loadBody image 6))
      (entriesOf (fun e => 3 + countAt 0 e) (loadBody image 7)) k) :=
  getElem_tabulate ..

end

theorem measTable_nil (m : MeasId) : (measTable [])[m] = .unmapped := getElem_tabulate ..

theorem detTable_nil (d : DetId) : (detTable [])[d] = .cleared (.fixed d) := by
  simp only [detTable, Fin.getElem_fin, getElem_tabulate]
  split
  · rfl
  · next h => rw [DetSource.fixed_of_lt d (by omega)]; rfl

theorem pointTable_nil (links : Vector Link 8) (p : PointId) : (pointTable links [])[p] = none := by
  have skip : ∀ (ps : List PointId) (v : Vector (Option Point) 128), ps.foldl (fun v _ => v) v = v := by
    intro ps
    induction ps with
    | nil => exact fun _ => rfl
    | cons _ _ ih => exact ih
  simp only [pointTable, entriesOf_nil, List.filter_nil, List.foldl_nil, skip, Fin.getElem_fin, Vector.getElem_replicate]

/-- Settles O8: without an image every module is empty. -/
theorem rejectedImageLeavesNothing : Obligations.RejectedImageLeavesNothing := by
  intro s
  refine ⟨fun m => ?_, fun d => ?_, fun p => ?_, fun k => ?_, fun l => ?_⟩
  · rw [State.loadTables_meas]
    exact measTable_nil m
  · rw [State.loadTables_det]
    exact detTable_nil d
  · rw [State.loadTables_points]
    exact pointTable_nil _ p
  · exact State.loadTables_schemes s none k
  · rw [State.loadTables_links]
    exact Vector.getElem_replicate _

end Sys2Proof.Machine
end

section
/-! SUPPORT. How an event ends, and what the station frames, the edges, the expiries and the part's own time do (R3 to R10,
R13 to R15, R19, R31, R116, R138, R139, R143; log entries 10, 11, 13). -/

namespace Sys2Proof.Machine

/-! ## Events and changed entries -/

/-- Outside reset an event is taken, and ends (log entry 9). -/
theorem State.event_awake {s : State} (h : s.inReset = false) (f : State → State) : s.event f = State.ended (f s) := by
  rw [State.event, h]
  rfl

namespace State

variable (s : State)

theorem modLink_eq (l : LinkId) (f : Link → Link) :
    s.modLink l f = { s with links := s.links.set l (f s.links[l]) } := rfl

theorem modPoint_eq {p : PointId} {x : Point} (h : s.points[p] = some x) (f : Point → Point) :
    s.modPoint p f = { s with points := s.points.set p (some (f x)) } := by
  unfold modPoint modV
  rw [h]
  rfl

/-- Changing a link to itself changes nothing. -/
theorem modLink_self {l : LinkId} {f : Link → Link} (h : f s.links[l] = s.links[l]) : s.modLink l f = s := by
  unfold modLink
  rw [modV_self _ _ _ h]

theorem modLink_modLink (l : LinkId) (f g : Link → Link) :
    (s.modLink l f).modLink l g = s.modLink l (fun k => g (f k)) := by
  unfold modLink
  rw [modV_modV]

theorem outsideFrame_params (l : LinkId) : (s.outsideFrame l).links[l].params = s.links[l].params := by
  simp [outsideFrame]

theorem starting_iff : s.starting = true ↔ s.storeOp = .coldLoad := decide_eq_true_iff

theorem not_starting_iff : s.starting = false ↔ s.storeOp ≠ .coldLoad := decide_eq_false_iff_not

end State

section

variable (s : State) (l : LinkId) (station : Byte)

theorem exec_data (items : List DataItem) :
    exec (.data l station items) s = s.event (fun s => s.takeFrame l station (.data items)) := rfl

theorem exec_hold : exec (.hold l station) s = s.event (fun s => s.takeFrame l station .hold) := rfl

theorem exec_release : exec (.release l station) s = s.event (fun s => s.takeFrame l station .release) := rfl

theorem exec_stationFrameDiscarded (bytes : List Byte) :
    exec (.stationFrameDiscarded l bytes) s = s.event (fun s => bytes.foldl (State.takeByte l) s) := rfl

theorem exec_fdRisingEdge (n : FdId) :
    exec (.fdRisingEdge n) s = s.event (fun s => if s.starting then s else s.assertSlot (fdSlot n)) := rfl

theorem exec_fdFallingEdge (n : FdId) :
    exec (.fdFallingEdge n) s = s.event (fun s => if s.starting then s else s.clearSlot (fdSlot n)) := rfl

theorem exec_stalenessExpiry (m : MeasId) : exec (.stalenessExpiry m) s = s.event (fun s => s.expireMeas m) := rfl

theorem exec_riseExpiry (d : DetId) : exec (.riseExpiry d) s = s.event (fun s => s.expireRise d) := rfl

theorem exec_deadlineExpiry (p : PointId) : exec (.deadlineExpiry p) s = s.event (fun s => s.expireDeadline p) := rfl

theorem exec_transmissionStart :
    exec (.transmissionStart l) s = s.event (fun s => s.modLink l (Link.startFrame s.bench)) := rfl

theorem exec_orderFrameComplete :
    exec (.orderFrameComplete l) s = s.event (fun s => s.modLink l Link.frameComplete) := rfl

end

/-! ## The part's own time (log entry 10) -/

theorem step_of_empty {s : State} (h : s.pending = []) : step s = .next s.tick := by
  unfold step
  rw [h]

theorem State.tick_inReset {s : State} (h : s.inReset = true) : s.tick = s := if_pos h

theorem State.tick_nothing_due {s : State} (h : s.inReset = false) (hd : s.due = []) :
    s.tick = { s with clock := s.clock + 1 } := by
  rw [State.tick, h, hd]
  rfl

theorem State.tick_one_due {s : State} (h : s.inReset = false) {x : Due} (hd : s.due = [x]) :
    s.tick = ((s.opened 1).takeDue x).settle := by
  rw [State.tick, h, hd]
  rfl

/-- Settles O2: what is due decides between the three cases of a tick. -/
theorem idleStepIsTime : Obligations.IdleStepIsTime := by
  intro s hq
  rw [step_of_empty hq]
  exact ⟨fun h => by rw [State.tick_inReset h], fun h hd => by rw [State.tick_nothing_due h hd],
    fun h x hd => by rw [State.tick_one_due h hd]; rfl⟩

/-! ## Frames (R3, R4) -/

/-- A frame is delivered where its link accepts it; the receiver is outside a frame either way. -/
theorem State.takeFrame_eq (s : State) (l : LinkId) (station : Byte) (body : FrameBody) :
    s.takeFrame l station body =
      if s.starting = false ∧ s.links[l].params.accepts station body = true then (s.outsideFrame l).deliver l body
      else s.outsideFrame l := by
  rw [← s.outsideFrame_params l]
  rfl

/-- Every condition of R4 but the number of items is `State.Accepts`. -/
theorem State.accepts_iff {s : State} (h : s.inReset = false) (l : LinkId) (station : Byte) (body : FrameBody) :
    (s.starting = false ∧ s.links[l].params.accepts station body = true) ↔
      s.Accepts l station ∧ ∀ items, body = .data items → items.length ≤ 40 := by
  rw [State.not_starting_iff]
  cases body <;> simp [LinkParams.accepts, State.Accepts, h, and_assoc]

theorem State.takeFrame_accepted {s : State} {l : LinkId} {station : Byte} (h : s.Accepts l station) {body : FrameBody}
    (hb : ∀ items, body = .data items → items.length ≤ 40) :
    s.takeFrame l station body = (s.outsideFrame l).deliver l body := by
  rw [State.takeFrame_eq, if_pos ((State.accepts_iff h.1 l station body).2 ⟨h, hb⟩)]

theorem State.takeFrame_refused {s : State} (hs : s.inReset = false) {l : LinkId} {station : Byte} {body : FrameBody}
    (h : ¬ (s.Accepts l station ∧ ∀ items, body = .data items → items.length ≤ 40)) :
    s.takeFrame l station body = s.outsideFrame l := by
  rw [State.takeFrame_eq, if_neg (fun h' => h ((State.accepts_iff hs l station body).1 h'))]

/-- Settles O14: the frame is accepted or refused by `State.accepts_iff`, and an accepted one is delivered. -/
theorem dataFrameIsTaken : Obligations.DataFrameIsTaken := by
  intro l station items s hs
  have deliver : (s.outsideFrame l).deliver l (.data items) =
      if s.loading then s.outsideFrame l else items.foldl (State.takeDataItem l) (s.outsideFrame l) := rfl
  rw [exec_data, State.event_awake hs]
  refine ⟨fun ha hn hl => ?_, fun ha hl => ?_, fun h => ?_⟩
  · rw [State.takeFrame_accepted ha (fun _ e => by cases e; exact hn), deliver, hl]
    rfl
  · by_cases hn : items.length ≤ 40
    · rw [State.takeFrame_accepted ha (fun _ e => by cases e; exact hn), deliver, hl]
      rfl
    · rw [State.takeFrame_refused hs (fun h => hn (h.2 items rfl))]
  · rw [State.takeFrame_refused hs]
    rintro ⟨ha, hn⟩
    rcases h with h | h
    · exact h ha
    · exact absurd (hn items rfl) (by omega)

/-! ## Measurement items (R5 to R7, R10) -/

theorem validItem_iff (quality : Byte) (value : Word16) :
    validItem quality value = true ↔ (quality = 1 ∨ quality = 2) ∧ value ≠ 0x8000#16 := by
  simp [validItem]

/-- An item for slot `m` is taken where the slot is mapped to the link (R5). -/
theorem State.takeDataItem_measurement (l : LinkId) (s : State) (m : MeasId) (quality : Byte) (value : Word16) :
    State.takeDataItem l s (.measurement (BitVec.ofNat 8 m.val) quality value) =
      if s.meas[m].link = some l then s.takeItem m quality value else s := by
  have slot : (⟨(BitVec.ofNat 8 m.val).toNat, (BitVec.ofNat 8 m.val).isLt⟩ : MeasId) = m :=
    Fin.ext (Nat.mod_eq_of_lt m.isLt)
  simp only [State.takeDataItem, slot]

/-- Settles O15: the mapping of R5 decides first, then the validity of R6. -/
theorem measurementItemIsApplied : Obligations.MeasurementItemIsApplied := by
  intro l m quality value s
  dsimp only
  rw [State.takeDataItem_measurement]
  refine ⟨fun h => if_neg h, fun h hq hv => ?_, fun h hn hf => ?_, fun h hn hf => ?_⟩
  · rw [if_pos h, State.takeItem, if_pos ((validItem_iff _ _).2 ⟨hq, hv⟩)]
    rfl
  · rw [if_pos h, State.takeItem, if_neg (fun h' => hn ((validItem_iff _ _).1 h')), hf]
    rfl
  · rw [if_pos h, State.takeItem, if_neg (fun h' => hn ((validItem_iff _ _).1 h')), hf]
    rfl

/-! ## Requests for passes (R9, R25, R104) -/

theorem Scheme.dependsOn_iff (points : Vector (Option Point) 128) (m : MeasId) (sc : Scheme) :
    sc.dependsOn points m = true ↔ ∃ d, sc.defn = some d ∧
      ((∃ w, (m, w) ∈ d.terms) ∨ ∃ q ∈ d.candidates, ∃ x, points[q] = some x ∧ x.defn.valueSlot = m) := by
  unfold Scheme.dependsOn
  cases sc.defn with
  | none => simp
  | some d =>
    simp only [Bool.or_eq_true, List.any_eq_true, decide_eq_true_eq, Option.some.injEq, exists_eq_left']
    refine or_congr (by simp) (exists_congr fun q => and_congr_right fun _ => ?_)
    cases points[q] <;> simp

theorem Scheme.lists_iff (sc : Scheme) (p : PointId) :
    sc.lists p = true ↔ ∃ d, sc.defn = some d ∧ p ∈ d.candidates := by
  unfold Scheme.lists
  cases sc.defn <;> simp

/-- A request sets the flags of the schemes picked, and nothing else (R104). -/
theorem State.requestPasses_spec (s : State) (f : Scheme → Bool) :
    ∃ v, s.requestPasses f = { s with schemes := v } ∧ ∀ k : SchemeId,
      v[k] = { s.schemes[k] with pendingPass := v[k].pendingPass } ∧
      (v[k].pendingPass = true ↔ s.schemes[k].pendingPass = true ∨ f s.schemes[k] = true) := by
  refine ⟨_, rfl, fun k => ?_⟩
  simp only [Fin.getElem_fin, getElem_mapV]
  cases f s.schemes[k.val] <;> simp

/-- Settles O16: the two requests are `State.requestPasses` of the two conditions. -/
theorem requestsSetPendingFlags : Obligations.RequestsSetPendingFlags := by
  intro s m p
  constructor
  · simp only [← Scheme.dependsOn_iff]
    exact s.requestPasses_spec _
  · simp only [← Scheme.lists_iff]
    exact s.requestPasses_spec _

/-! ## Detections (R5, R13 to R15, R31) -/

theorem State.mem_statusPoints (s : State) (d : DetId) (p : PointId) :
    p ∈ s.statusPoints d ↔ ∃ x, s.points[p] = some x ∧ x.defn.statusSlot = some d := by
  unfold State.statusPoints
  simp only [List.mem_filter, List.mem_finRange, true_and]
  cases s.points[p] <;> simp

/-- Things done in some order are done in an order that takes each once. -/
theorem State.forEachInSomeOrder_perm {α : Type} (s : State) (xs : List α) (f : α → State → State) :
    ∃ (ys : List α) (n : Nat), ys.Perm xs ∧
      s.forEachInSomeOrder xs f = ys.foldl (fun u x => f x u) { s with openCount := n } :=
  ⟨s.arrange xs, s.openCount + xs.length, s.arrange_perm xs, rfl⟩

theorem finOf_val {n : Nat} (x : Fin n) : finOf n x.val = some x := dif_pos x.isLt

/-- A detection item is taken where the slot is fed by the link (R5). -/
theorem State.takeDataItem_detection (l : LinkId) (s : State) {slot : Byte} {d : DetId} (h : slot.toNat = d.val)
    (asserted : Bool) : State.takeDataItem l s (.detection slot asserted) =
      if s.det[d].source = .link l then (if asserted then s.assertSlot d else s.clearSlot d) else s := by
  simp only [State.takeDataItem, h, finOf_val]

theorem State.assertSlot_asserted {s : State} {d : DetId} (h : s.det[d].asserted = true) : s.assertSlot d = s := if_pos h

theorem State.assertSlot_cleared {s : State} {d : DetId} (h : s.det[d].asserted = false) :
    s.assertSlot d = State.handOnRise { s with
      det := s.det.set d { s.det[d] with asserted := true, lastRise := some s.clock }
      recentRise := s.recentRise.set d true } d := by
  rw [State.assertSlot, h]
  rfl

theorem State.clearSlot_cleared {s : State} {d : DetId} (h : s.det[d].asserted = false) : s.clearSlot d = s := by
  rw [State.clearSlot, h]
  rfl

theorem State.clearSlot_asserted {s : State} {d : DetId} (h : s.det[d].asserted = true) :
    s.clearSlot d =
      let t : State := { s with det := s.det.set d { s.det[d] with asserted := false } }
      (t.statusPoints d).foldl (fun u p => u.statusClear p) t := if_pos h

/-- An item on a slot that nothing feeds by number, by link or newly changes nothing; the others assert or clear. -/
theorem detectionItem_taken (s : State) (l : LinkId) (slot : Byte) (asserted : Bool) :
    (64 ≤ slot.toNat → State.takeDataItem l s (.detection slot asserted) = s) ∧
    (∀ d : DetId, slot.toNat = d.val →
      (s.det[d].source ≠ .link l → State.takeDataItem l s (.detection slot asserted) = s) ∧
      (s.det[d].source = .link l → s.det[d].asserted = asserted →
        State.takeDataItem l s (.detection slot asserted) = s) ∧
      (s.det[d].source = .link l → asserted = true → s.det[d].asserted = false →
        State.takeDataItem l s (.detection slot asserted) = s.assertSlot d) ∧
      (s.det[d].source = .link l → asserted = false → s.det[d].asserted = true →
        State.takeDataItem l s (.detection slot asserted) = s.clearSlot d)) := by
  refine ⟨fun h => ?_, fun d hd => ?_⟩
  · have none : finOf 64 slot.toNat = none := dif_neg (by omega)
    simp only [State.takeDataItem, none]
  · rw [State.takeDataItem_detection l s hd]
    refine ⟨fun h => if_neg h, fun h ha => ?_, fun h ha _ => ?_, fun h ha _ => ?_⟩
    · rw [if_pos h]
      cases asserted with
      | true => exact State.assertSlot_asserted ha
      | false => exact State.clearSlot_cleared ha
    · rw [if_pos h, if_pos ha]
    · rw [if_pos h, ha]
      rfl

/-- An edge asserts or clears the slot of its input, but not while the image is loaded after cold reset (R14). -/
theorem fdEdges_taken {s : State} (hs : s.inReset = false) (n : FdId) :
    (s.storeOp = .coldLoad → exec (.fdRisingEdge n) s = s.ended ∧ exec (.fdFallingEdge n) s = s.ended) ∧
    (s.storeOp ≠ .coldLoad → exec (.fdRisingEdge n) s = State.ended (s.assertSlot (fdSlot n)) ∧
      exec (.fdFallingEdge n) s = State.ended (s.clearSlot (fdSlot n))) := by
  refine ⟨fun h => ?_, fun h => ?_⟩
  · have starting := s.starting_iff.2 h
    rw [exec_fdRisingEdge, exec_fdFallingEdge, State.event_awake hs, State.event_awake hs, starting]
    exact ⟨rfl, rfl⟩
  · have ready := s.not_starting_iff.2 h
    rw [exec_fdRisingEdge, exec_fdFallingEdge, State.event_awake hs, State.event_awake hs, ready]
    exact ⟨rfl, rfl⟩

/-- What a rise is handed to, and in which orders (R15; log entries 3 and 4). -/
theorem handOnRise_orders (s : State) (d : DetId) :
    (s.statusPoints d = [] → s.handOnRise d = s.monitorTakesRise d) ∧
    (s.statusPoints d ≠ [] → s.triggered d = [] → s.handOnRise d = s.pointsTakeRise d) ∧
    (s.statusPoints d ≠ [] → s.triggered d ≠ [] → ∃ n : Nat,
      let u : State := { s with openCount := n }
      s.handOnRise d = (u.monitorTakesRise d).pointsTakeRise d ∨
        s.handOnRise d = (u.pointsTakeRise d).monitorTakesRise d) := by
  unfold State.handOnRise
  cases s.statusPoints d with
  | nil => exact ⟨fun _ => rfl, fun h => absurd rfl h, fun h => absurd rfl h⟩
  | cons p ps =>
    cases s.triggered d with
    | nil => exact ⟨nofun, fun _ _ => rfl, fun _ h => absurd rfl h⟩
    | cons t ts =>
      refine ⟨nofun, fun _ => nofun, fun _ _ => ⟨s.openCount + 1, ?_⟩⟩
      dsimp only
      split
      · exact .inl rfl
      · exact .inr rfl

/-- What a point does with a rise and a clear of its status slot, in each order state (R31). -/
theorem statusEvents_taken {s : State} {p : PointId} {x : Point} (h : s.points[p] = some x) :
    (x.orderState = .idle → s.statusRise p =
      State.requestForPoint { s with points := s.points.set p (some { x with orderState := .tripped }) } p) ∧
    (∀ l o, x.orderState = .ordered → s.orderOf p = some (l, o) → s.statusRise p = s.confirmOrder l o .statusSlot) ∧
    (x.orderState = .tripped → s.statusRise p = s) ∧
    (x.orderState = .tripped → s.statusClear p =
      State.requestForPoint { s with points := s.points.set p (some { x with orderState := .idle }) } p) ∧
    (x.orderState ≠ .tripped → s.statusClear p = s) := by
  simp only [State.statusRise, State.statusClear, h]
  refine ⟨fun ho => ?_, fun l o ho hf => ?_, fun ho => ?_, fun ho => ?_, fun ho => ?_⟩
  · rw [ho, ← s.modPoint_eq h (fun x => { x with orderState := .tripped })]
  · simp only [ho, hf]
  · rw [ho]
  · rw [ho, ← s.modPoint_eq h (fun x => { x with orderState := .idle })]
  · split
    · exact absurd (by assumption) ho
    · rfl
    · rfl

/-- Settles O17: the two conditions of R5 and R13 decide an item or an edge, and the hand-offs are permutations. -/
theorem detectionsRiseAndClear : Obligations.DetectionsRiseAndClear := by
  intro s rise clear
  have rises : ∀ {d : DetId}, s.det[d].asserted = false → s.assertSlot d = rise d := State.assertSlot_cleared
  have clears : ∀ {d : DetId}, s.det[d].asserted = true → s.clearSlot d = clear d := State.clearSlot_asserted
  refine ⟨fun l slot asserted => ?_, fun n hs => ?_, fun d => ?_, fun p x h => statusEvents_taken h⟩
  · obtain ⟨none, some⟩ := detectionItem_taken s l slot asserted
    refine ⟨none, fun d hd => ?_⟩
    obtain ⟨other, same, up, down⟩ := some d hd
    exact ⟨other, same, fun h ha hc => (up h ha hc).trans (rises hc), fun h ha hc => (down h ha hc).trans (clears hc)⟩
  · obtain ⟨starting, taken⟩ := fdEdges_taken hs n
    refine ⟨starting, fun h hc => ?_, fun h ha => ?_⟩
    · obtain ⟨up, down⟩ := taken h
      rw [up, down, rises hc, State.clearSlot_cleared hc]
      exact ⟨rfl, rfl⟩
    · obtain ⟨up, down⟩ := taken h
      rw [up, down, clears ha, State.assertSlot_asserted ha]
      exact ⟨rfl, rfl⟩
  · obtain ⟨monitor, points, both⟩ := handOnRise_orders s d
    exact ⟨s.mem_statusPoints d, s.forEachInSomeOrder_perm _ State.statusRise,
      s.forEachInSomeOrder_perm _ (fun x : SchemeId × Trigger => fun s => s.answerTrigger x.1 x.2), monitor, points, both⟩

/-! ## Expiries (R8, R116, R143) -/

theorem State.measDue_iff (s : State) (m : MeasId) : s.measDue m = true ↔
    s.meas[m].stale = false ∧ ∃ t, s.meas[m].lastUpdate = some t ∧ (s.clock - t).toNat = s.meas[m].limit := by
  unfold State.measDue
  cases s.meas[m].lastUpdate <;> simp

theorem State.riseDue_iff (s : State) (d : DetId) : s.riseDue d = true ↔
    s.recentRise[d] = true ∧ ∃ t, s.det[d].lastRise = some t ∧ s.clock - t = Config.riseLife := by
  unfold State.riseDue
  cases s.det[d].lastRise <;> simp

theorem State.expireMeas_due {s : State} {m : MeasId} (h : s.measDue m = true) :
    s.expireMeas m = State.requestForSlot (State.append { s with meas := s.meas.set m { s.meas[m] with
      stale := true, value := none } } .measStale none none none (some (m.val : Int))) m := if_pos h

theorem State.expireMeas_not_due {s : State} {m : MeasId} (h : s.measDue m ≠ true) : s.expireMeas m = s := if_neg h

theorem State.expireRise_due {s : State} {d : DetId} (h : s.riseDue d = true) :
    s.expireRise d = { s with recentRise := s.recentRise.set d false } := if_pos h

theorem State.expireRise_not_due {s : State} {d : DetId} (h : s.riseDue d ≠ true) : s.expireRise d = s := if_neg h

theorem State.expireDeadline_of_order {s : State} {p : PointId} {l : LinkId} {o : TripOrder}
    (h : s.orderOf p = some (l, o)) :
    s.expireDeadline p = if o.deadline = s.clock then s.failOrder l o true else s := by
  simp only [State.expireDeadline, State.deadlineDue, h]
  by_cases e : o.deadline = s.clock
  · simp only [if_pos e]
  · simp only [if_neg e]

theorem State.expireDeadline_no_order {s : State} {p : PointId} (h : s.orderOf p = none) : s.expireDeadline p = s := by
  simp only [State.expireDeadline, State.deadlineDue, h]

/-- Settles O18: each expiry is taken exactly where its condition is due. -/
theorem expiriesAreTaken : Obligations.ExpiriesAreTaken := by
  intro m d p s hs
  rw [exec_stalenessExpiry, exec_riseExpiry, exec_deadlineExpiry]
  simp only [State.event_awake hs]
  refine ⟨fun t hf ht => ⟨fun h => ?_, fun h => ?_⟩, fun h => ?_, fun t hf ht => ⟨fun h => ?_, fun h => ?_⟩, fun h => ?_,
    fun l o ho => ⟨fun h => ?_, fun h => ?_⟩, fun h => ?_⟩
  · rw [State.expireMeas_due ((s.measDue_iff m).2 ⟨hf, t, ht, h⟩)]
  · rw [State.expireMeas_not_due]
    rintro h'
    obtain ⟨-, t', ht', e⟩ := (s.measDue_iff m).1 h'
    cases ht.symm.trans ht'
    exact h e
  · rw [State.expireMeas_not_due]
    intro h'
    obtain ⟨hf, t, ht, -⟩ := (s.measDue_iff m).1 h'
    rcases h with h | h
    · exact nomatch h.symm.trans hf
    · exact nomatch h.symm.trans ht
  · rw [State.expireRise_due ((s.riseDue_iff d).2 ⟨hf, t, ht, h⟩)]
  · rw [State.expireRise_not_due]
    intro h'
    obtain ⟨-, t', ht', e⟩ := (s.riseDue_iff d).1 h'
    cases ht.symm.trans ht'
    exact h e
  · rw [State.expireRise_not_due]
    intro h'
    obtain ⟨hf, t, ht, -⟩ := (s.riseDue_iff d).1 h'
    rcases h with h | h
    · exact nomatch h.symm.trans hf
    · exact nomatch h.symm.trans ht
  · rw [State.expireDeadline_of_order ho, if_pos h]
  · rw [State.expireDeadline_of_order ho, if_neg h]
  · rw [State.expireDeadline_no_order h]

/-! ## Transmissions, HOLD and RELEASE (R138, R139) -/

theorem LinkParams.isFull_iff (q : LinkParams) : q.isFull = true ↔ q.enabled = true ∧ q.mode = .full := by
  simp [LinkParams.isFull]

/-- A transmission begins with the order at the head of the queue (R138). -/
theorem Link.startFrame_begins {bench : Bool} {k : Link} {head : TripOrder} (hf : k.params.isFull = true)
    (hb : bench = false) (hh : k.held = false) (ht : k.transmitting = none)
    (ho : k.orders.find? (fun o => o.position = .queued) = some head) :
    Link.startFrame bench k = { k with
      orders := k.orders.map (fun o => if o.point = head.point then { o with position := .inTransmission } else o)
      transmitting := some (Wire.orderFrame k.params.station head) } := by
  rw [Link.startFrame, if_pos ⟨hf, hb, hh, ht⟩, ho]

/-- Where a condition of R138 fails no transmission begins. -/
theorem Link.startFrame_nothing {bench : Bool} {k : Link}
    (h : ¬ (k.params.isFull = true ∧ bench = false ∧ k.held = false ∧ k.transmitting = none) ∨
      k.orders.find? (fun o => o.position = .queued) = none) : Link.startFrame bench k = k := by
  unfold Link.startFrame
  split
  · next hc =>
    rcases h with h | h
    · exact absurd hc h
    · simp only [h]
  · rfl

theorem Link.frameComplete_sends {k : Link} {f : List Byte} (h : k.transmitting = some f) :
    k.frameComplete = { k with
      transmitting := none
      orders := k.orders.map (fun o => if o.position = .inTransmission then { o with position := .sent } else o) } := by
  simp only [Link.frameComplete, h]

theorem Link.frameComplete_nothing {k : Link} (h : k.transmitting = none) : k.frameComplete = k := by
  simp only [Link.frameComplete, h]

/-- A HOLD that is accepted, on any link (R139). -/
theorem State.takeFrame_hold {s : State} {l : LinkId} {station : Byte} (h : s.Accepts l station) :
    s.takeFrame l station .hold = s.modLink l (fun k => Link.hold { k with receiving := [] }) := by
  rw [State.takeFrame_accepted h (fun _ e => by cases e)]
  exact s.modLink_modLink l (fun k => { k with receiving := [] }) Link.hold

theorem State.takeFrame_release {s : State} {l : LinkId} {station : Byte} (h : s.Accepts l station) :
    s.takeFrame l station .release = s.modLink l (fun k => { k with receiving := [], held := false }) := by
  rw [State.takeFrame_accepted h (fun _ e => by cases e)]
  exact s.modLink_modLink l (fun k => { k with receiving := [] }) (fun k => { k with held := false })

/-- Settles O32: each command changes its link by one link operation, and leaves it where a condition of R138 fails. -/
theorem orderFramesAreSentAndHeld : Obligations.OrderFramesAreSentAndHeld := by
  intro l station s hs
  rw [exec_transmissionStart, exec_orderFrameComplete, exec_hold, exec_release]
  simp only [State.event_awake hs]
  refine ⟨fun head he hm hb hh ht ho => ?_, fun h => ?_, fun h => ?_, fun h => ?_, fun f h => ?_, fun h => ⟨fun hh => ?_,
    fun hh => ?_, ?_⟩⟩
  · rw [State.modLink_eq, Link.startFrame_begins ((LinkParams.isFull_iff _).2 ⟨he, hm⟩) hb hh ht ho]
  · rw [s.modLink_self (Link.startFrame_nothing ?_)]
    rw [LinkParams.isFull_iff]
    rcases h with he | hm | hb | hh | ht | ho
    · exact .inl fun hc => nomatch he.symm.trans hc.1.1
    · exact .inl fun hc => hm hc.1.2
    · exact .inl fun hc => nomatch hb.symm.trans hc.2.1
    · exact .inl fun hc => nomatch hh.symm.trans hc.2.2.1
    · exact .inl fun hc => ht hc.2.2.2
    · exact .inr ho
  · rw [s.modLink_self (Link.frameComplete_nothing h)]
  · rw [State.takeFrame_refused hs (fun h' => h h'.1), State.takeFrame_refused hs (fun h' => h h'.1)]
    exact ⟨rfl, rfl⟩
  · rw [State.modLink_eq, Link.frameComplete_sends h]
  · rw [State.takeFrame_hold h, State.modLink_eq, Link.hold, if_neg (by rw [hh]; decide)]
  · rw [State.takeFrame_hold h, State.modLink_eq, Link.hold, if_pos hh]
    rfl
  · rw [State.takeFrame_release h]
    rfl

/-! ## Frames byte by byte (R3, R4, R170, R171) -/

/-- A link that is disabled takes no byte, and no link takes one while the image is loaded after cold reset (R3). -/
theorem State.takeByte_ignored {s : State} {l : LinkId} (h : s.starting = true ∨ s.links[l].params.enabled = false)
    (b : Byte) : State.takeByte l s b = s := if_pos h

theorem State.takeBytes_ignored {s : State} {l : LinkId} (h : s.starting = true ∨ s.links[l].params.enabled = false)
    (bytes : List Byte) : bytes.foldl (State.takeByte l) s = s := by
  induction bytes with
  | nil => rfl
  | cons b bytes ih => rw [List.foldl_cons, State.takeByte_ignored h, ih]

/-- A byte that ends the frame under way, on a link that takes bytes: the frame is taken where it is read as one, and
nothing happens where there is none to read. -/
theorem State.takeByte_last {s : State} {l : LinkId} (hs : s.starting = false)
    (he : s.links[l].params.enabled = true) (got : List Byte) (b : Byte) {frame : Option (List Byte)}
    (h : Wire.receiveByte got b = ([], frame)) :
    (∀ station body, frame.bind Wire.parseStation = some (station, body) →
      State.takeByte l (s.withReceiving l got) b = ((s.withReceiving l []).takeFrame l station body).settle) ∧
    (frame.bind Wire.parseStation = none → State.takeByte l (s.withReceiving l got) b = s.withReceiving l []) := by
  have received : (s.withReceiving l got).links[l].receiving = got := by simp [State.withReceiving]
  have enabled : (s.withReceiving l got).links[l].params.enabled = true := by simpa [State.withReceiving] using he
  have awake : (s.withReceiving l got).starting = false := hs
  have again : (s.withReceiving l got).modLink l (fun k => { k with receiving := [] }) = s.withReceiving l [] :=
    State.withReceiving_twice s l got []
  unfold State.takeByte
  rw [if_neg (by rw [enabled, awake]; decide), received, h]
  refine ⟨fun station body hp => ?_, fun hp => ?_⟩ <;>
  · simp only [hp, again]

/-- The bytes of a whole frame, received one by one outside a frame (R170): the frame is taken where it is read as one,
and nothing happens where it is not. -/
theorem State.takeBytes_frame {s : State} {l : LinkId} (hs : s.starting = false)
    (he : s.links[l].params.enabled = true) (hr : s.links[l].receiving = []) (type station len : Byte)
    {rest : List Byte} (hl : len.toNat ≤ 240) (hn : rest.length = len.toNat + 2) :
    (∀ number body, Wire.parseStation (0x96#8 :: type :: station :: len :: rest) = some (number, body) →
      (0x96#8 :: type :: station :: len :: rest).foldl (State.takeByte l) s = (s.takeFrame l number body).settle) ∧
    (Wire.parseStation (0x96#8 :: type :: station :: len :: rest) = none →
      (0x96#8 :: type :: station :: len :: rest).foldl (State.takeByte l) s = s) := by
  obtain ⟨front, last, hrest⟩ : ∃ front last, rest = front ++ [last] :=
    ⟨rest.dropLast, rest.getLast (by rintro rfl; simp at hn), (List.dropLast_append_getLast _).symm⟩
  subst hrest
  have front_length : front.length = len.toNat + 1 := by simpa using hn
  have frame : 0x96#8 :: type :: station :: len :: (front ++ [last]) =
      (0x96#8 :: type :: station :: len :: front) ++ [last] := rfl
  have outside := s.withReceiving_self l hr
  have before := s.takeByte_prefix l hs he type station len (front ++ [last]) hl hn
    (0x96#8 :: type :: station :: len :: front) [] ⟨[last], rfl⟩ (by simp [front_length]; omega)
  have complete : Wire.receiveByte (0x96#8 :: type :: station :: len :: front) last =
      ([], some (0x96#8 :: type :: station :: len :: (front ++ [last]))) := by
    simp only [Wire.receiveByte, List.cons_append, List.getElem?_cons_succ, List.getElem?_cons_zero]
    rw [if_neg (by omega), if_pos (by simp [front_length]; omega)]
  have taken := State.takeByte_last hs he _ _ complete
  rw [outside] at before taken
  have folded : (0x96#8 :: type :: station :: len :: (front ++ [last])).foldl (State.takeByte l) s =
      State.takeByte l (s.withReceiving l (0x96#8 :: type :: station :: len :: front)) last := by
    rw [frame, List.foldl_append, before]
    rfl
  rw [folded]
  exact taken

/-- A length byte above 240 ends the frame under way (R170). -/
theorem State.takeBytes_overlong {s : State} {l : LinkId} (hs : s.starting = false)
    (he : s.links[l].params.enabled = true) (hr : s.links[l].receiving = []) (type station len : Byte)
    (hl : 240 < len.toNat) : [0x96#8, type, station, len].foldl (State.takeByte l) s = s := by
  have step : ∀ got b, Wire.receiveByte got b = (got ++ [b], none) →
      State.takeByte l (s.withReceiving l got) b = s.withReceiving l (got ++ [b]) :=
    fun got b => s.takeByte_under_way l got b hs he
  have overlong : Wire.receiveByte [0x96#8, type, station] len = ([], none) := by
    simp [Wire.receiveByte, hl]
  have outside := s.withReceiving_self l hr
  calc [0x96#8, type, station, len].foldl (State.takeByte l) s
      = [0x96#8, type, station, len].foldl (State.takeByte l) (s.withReceiving l []) := by rw [outside]
    _ = State.takeByte l (s.withReceiving l [0x96#8, type, station]) len := by
        simp only [List.foldl_cons, List.foldl_nil]
        rw [step [] 0x96#8 rfl, List.nil_append, step [0x96#8] type rfl, List.cons_append, List.nil_append,
          step [0x96#8, type] station rfl]
        rfl
    _ = s := by rw [(State.takeByte_last hs he _ _ overlong).2 rfl, outside]

/-- Settles O54: the receiver takes no byte, drops the overlong frame, or has a whole frame that is not read as one. -/
theorem discardedFramesHaveNoEffect : Obligations.DiscardedFramesHaveNoEffect := by
  intro l s hs
  simp only [exec_stationFrameDiscarded, State.event_awake hs]
  refine ⟨fun bytes h => ?_, fun type station len hc he hr hl => ?_, fun type station len rest hc he hr hl hn hp => ?_⟩
  · rw [State.takeBytes_ignored (h.symm.imp_left s.starting_iff.2)]
  · rw [State.takeBytes_overlong (s.not_starting_iff.2 hc) he hr type station len hl]
  · rw [(State.takeBytes_frame (s.not_starting_iff.2 hc) he hr type station len hl hn).2 hp]

open Wire in
theorem stationFrame_bytes (type station : Byte) (contents : List Byte) :
    stationFrame type station contents = 0x96#8 :: type :: station :: u8 contents.length ::
      (contents ++ be16 (crc ([type, station, u8 contents.length] ++ contents))) := rfl

open Wire in
/-- What a frame with a length byte that says its length carries (R170, R171). -/
theorem parseStation_stationFrame (type station : Byte) {contents : List Byte} (h : contents.length < 256) :
    parseStation (stationFrame type station contents) =
      (parseContents type contents).map (fun body => (station, body)) := by
  have len : (u8 contents.length).toNat = contents.length := Nat.mod_eq_of_lt h
  simp [stationFrame, parseStation, len]

open Wire in
/-- Contents that a frame of the layout has are read back (R171). -/
theorem parseStation_inboundFrame (station : Byte) {body : FrameBody}
    (h : ∀ items, body = .data items → items.length ≤ 40) :
    parseStation (inboundFrame station body) = some (station, body) := by
  cases body with
  | data items =>
    have hn := h items rfl
    have bytes := itemBytes_length_le items
    have count : (u8 items.length).toNat = items.length := Nat.mod_eq_of_lt (by omega)
    rw [inboundFrame, parseStation_stationFrame _ _ (by rw [List.length_cons]; omega)]
    simp only [parseContents, if_true, parseItems_itemBytes items _ le_rfl, count, Option.map_some]
  | echo tag address result =>
    rw [inboundFrame, parseStation_stationFrame _ _ (by simp)]
    cases result <;> rfl
  | hold =>
    rw [inboundFrame, parseStation_stationFrame _ _ (by simp)]
    rfl
  | release =>
    rw [inboundFrame, parseStation_stationFrame _ _ (by simp)]
    rfl

open Wire in
/-- Bytes that are read as a frame's are a frame of the layout (R162, R170). -/
theorem stationFrame_of_parseStation {frame : List Byte} {station : Byte} {body : FrameBody}
    (h : parseStation frame = some (station, body)) :
    ∃ type contents, frame = stationFrame type station contents ∧ parseContents type contents = some body := by
  unfold parseStation at h
  split at h
  · next marker type number len rest =>
    dsimp only at h
    split at h
    · next hc =>
      obtain ⟨hm, check, hlen⟩ := hc
      obtain ⟨b, hb, e⟩ := Option.map_eq_some_iff.1 h
      cases e
      refine ⟨type, rest.take len.toNat, ?_, hb⟩
      have len_eq : u8 (rest.take len.toNat).length = len := by rw [hlen, u8, BitVec.ofNat_toNat, BitVec.setWidth_eq]
      rw [stationFrame_bytes, len_eq, hm, ← check, List.take_append_drop]
      rfl
    · cases h
  · cases h

open Wire in
/-- The frame of a body is a frame of the layout with at most 240 bytes of contents. -/
theorem inboundFrame_layout (station : Byte) {body : FrameBody} (h : ∀ items, body = .data items → items.length ≤ 40) :
    ∃ type contents, inboundFrame station body = stationFrame type station contents ∧ contents.length ≤ 240 := by
  cases body with
  | data items =>
    have hn := h items rfl
    have bytes := itemBytes_length_le items
    exact ⟨_, _, rfl, by rw [List.length_cons]; omega⟩
  | echo tag address result => exact ⟨_, _, rfl, by simp⟩
  | hold => exact ⟨_, _, rfl, by simp⟩
  | release => exact ⟨_, _, rfl, by simp⟩

open Wire in
/-- Settles O53: a frame is read back from its layout, and only a frame of the layout is read as one. -/
theorem stationFramesReadBack : Obligations.StationFramesReadBack := by
  refine ⟨fun l station body s hs he hr hb => ?_, fun frame station body h => ?_⟩
  · have parsed := parseStation_inboundFrame station hb
    refine ⟨parsed, ?_⟩
    obtain ⟨type, contents, layout, short⟩ := inboundFrame_layout station hb
    have len : (u8 contents.length).toNat = contents.length := Nat.mod_eq_of_lt (by omega)
    rw [layout, stationFrame_bytes] at parsed ⊢
    exact (State.takeBytes_frame hs he hr type station _ (by rw [len]; exact short)
      (by rw [len]; simp [be16])).1 _ _ parsed
  · obtain ⟨type, contents, rfl, hc⟩ := stationFrame_of_parseStation h
    exact (inboundFrame_of_parseContents type station contents body hc).symm

end Sys2Proof.Machine
end

section
/-! SUPPORT. What the read requests answer (R11, R16, R39, R41, R59, R115, R125, R169). -/

namespace Sys2Proof.Machine

/-- A request that reaches its block is answered as the block says (R161, R163). -/
theorem State.request_taken {s : State} {p : PartyId} (h : s.Takes p) (handler : State → State × Response) :
    s.request p handler = (handler s).1.respond p (handler s).2 := by
  obtain ⟨-, ready, free, inactive⟩ := h
  rw [State.request, State.endPeriod_inactive s p inactive]
  split
  · next e => exact absurd e free
  · rw [if_neg (by rw [s.starting_iff]; exact ready)]
  · rw [if_neg (by rw [s.starting_iff]; exact ready)]

/-- A request whose block changes nothing and answers `r`. -/
theorem State.request_answered {s : State} {p : PartyId} (h : s.Takes p) {handler : State → State × Response}
    {status : Status} {body : List Byte} (hr : handler s = (s, { status := status, body := body })) :
    s.event (fun s => s.request p handler) = s.answered p status body := by
  rw [State.event_awake h.1, State.request_taken h, hr]
  rfl

section

variable (s : State) {b : Byte} {k : SchemeId} {x : PointId}

theorem State.readScheme_undefined (h : b.toNat = k.val) (hd : s.schemes[k].defn = none) :
    s.readScheme b = (s, done (0xFE :: Wire.be24 s.schemes[k].armGen)) := by
  simp only [State.readScheme, h, finOf_val, hd]

theorem State.readScheme_defined (h : b.toNat = k.val) {d : SchemeDef} (hd : s.schemes[k].defn = some d) :
    s.readScheme b = (s, done (schemeBody s.schemes[k] d)) := by
  simp only [State.readScheme, h, finOf_val, hd]

theorem State.readPoint_undefined (h : b.toNat = x.val) (hx : s.points[x] = none) : s.readPoint b = (s, done [0]) := by
  simp only [State.readPoint, h, finOf_val, hx]

theorem State.readPoint_defined (h : b.toNat = x.val) {y : Point} (hx : s.points[x] = some y) :
    s.readPoint b = (s, done (s.pointBody x y)) := by
  simp only [State.readPoint, h, finOf_val, hx]

theorem State.namedScheme_undefined (h : b.toNat = k.val) (hd : s.schemes[k].defn = none) : s.namedScheme b = none := by
  simp only [State.namedScheme, h, finOf_val, hd, Option.map_none]

theorem State.namedScheme_defined (h : b.toNat = k.val) {d : SchemeDef} (hd : s.schemes[k].defn = some d) :
    s.namedScheme b = some (k, d) := by
  simp only [State.namedScheme, h, finOf_val, hd, Option.map_some]

theorem State.namedScheme_out_of_range (h : 32 ≤ b.toNat) : s.namedScheme b = none := by
  have none : finOf 32 b.toNat = none := dif_neg (by omega)
  simp only [State.namedScheme, none]

theorem State.readArming_unnamed (h : s.namedScheme b = none) : s.readArming b = (s, refuse .badArgument) := by
  simp only [State.readArming, h]

theorem State.readTrigger_unnamed (h : s.namedScheme b = none) : s.readTrigger b = (s, refuse .badArgument) := by
  simp only [State.readTrigger, h]

theorem State.readArming_named {d : SchemeDef} (h : s.namedScheme b = some (k, d)) :
    s.readArming b = (s, done ([Wire.stateCode s.schemes[k].state, Wire.flag s.schemes[k].pendingPass,
      Wire.flag (s.passOf k).isSome, Wire.flag (((s.passOf k).map Pass.void).getD false),
      Wire.flag s.schemes[k].live.isNone] ++ ((s.schemes[k].live.map Wire.recordBytes).getD []))) := by
  simp only [State.readArming, h]
  cases s.schemes[k].live <;> rfl

theorem State.readTrigger_named {d : SchemeDef} (h : s.namedScheme b = some (k, d)) :
    s.readTrigger b = (s, done ([Wire.stateCode s.schemes[k].state, Wire.flag s.schemes[k].record.isNone] ++
      ((s.schemes[k].record.map Wire.triggerBytes).getD []) ++
      ((s.schemes[k].latch.map (fun t => 1 :: Wire.latchBytes t)).getD [0]) ++ [Wire.flag s.schemes[k].rearming])) := by
  simp only [State.readTrigger, h]
  cases s.schemes[k].record <;> cases s.schemes[k].latch <;> rfl

theorem State.readScheme_out_of_range (h : 32 ≤ b.toNat) : s.readScheme b = (s, refuse .badArgument) := by
  have none : finOf 32 b.toNat = none := dif_neg (by omega)
  simp only [State.readScheme, none]

theorem State.readPoint_out_of_range (h : 128 ≤ b.toNat) : s.readPoint b = (s, refuse .badArgument) := by
  have none : finOf 128 b.toNat = none := dif_neg (by omega)
  simp only [State.readPoint, none]

end

/-- Settles O39: a request that reaches its block is answered with what the block gives for the number it names. -/
theorem readsAreAnswered : Obligations.ReadsAreAnswered := by
  intro p s hs
  refine ⟨State.request_answered hs rfl, fun a b h h' => ?_, fun a b h h' => ?_, fun a b => ⟨fun h => ?_, fun h => ?_⟩,
    fun b h => ?_, fun b h => ⟨?_, ?_, ?_⟩, fun b k hb hd => ⟨?_, ?_, ?_⟩, fun b x hb => ⟨fun hx => ?_, fun y hx => ?_⟩,
    fun b k d hb hd => ⟨?_, ?_, ?_⟩⟩
  · exact State.request_answered hs (if_neg (by omega))
  · exact State.request_answered hs (if_neg (by omega))
  · exact State.request_answered hs (if_pos h)
  · exact State.request_answered hs (if_pos h)
  · exact State.request_answered hs (s.readPoint_out_of_range h)
  · exact State.request_answered hs (s.readScheme_out_of_range h)
  · exact State.request_answered hs (s.readArming_unnamed (s.namedScheme_out_of_range h))
  · exact State.request_answered hs (s.readTrigger_unnamed (s.namedScheme_out_of_range h))
  · exact State.request_answered hs (s.readScheme_undefined hb hd)
  · exact State.request_answered hs (s.readArming_unnamed (s.namedScheme_undefined hb hd))
  · exact State.request_answered hs (s.readTrigger_unnamed (s.namedScheme_undefined hb hd))
  · exact State.request_answered hs (s.readPoint_undefined hb hx)
  · exact State.request_answered hs (s.readPoint_defined hb hx)
  · exact State.request_answered hs (s.readScheme_defined hb hd)
  · exact State.request_answered hs (s.readArming_named (s.namedScheme_defined hb hd))
  · exact State.request_answered hs (s.readTrigger_named (s.namedScheme_defined hb hd))

end Sys2Proof.Machine
end

section
/-! SUPPORT. A warm reset stage by stage (R17, R18, R38, R79, R113, R177; log entry 25): what each stage leaves and what it
appends to the event record. -/

namespace Sys2Proof.Machine

/-! ## The stages -/

section

variable (s : State) (map : Option (Vector LinkParams 8))

/-- The links have taken their parameters, and the request and the pass in flight are given up. -/
def State.warmBegun : State := { s.warmLinks map with warm := .none, engine := none }

/-- The points that the first step of R38 makes FAULTED: none for a rejected image (log entry 18). -/
def State.warmOff : List PointId := if map.isSome then (s.warmBegun map).offLinkPoints else []

/-- WARM_RESET is appended. -/
def State.warmRecorded : State :=
  (s.warmBegun map).append .warmReset
    (detail := some (if map.isSome then ((s.warmBegun map).newlyFaulted : Int) else -1))

/-- The schemes whose latch is set. -/
def State.latched : List SchemeId := (List.finRange 32).filter (fun k => s.schemes[k].latch.isSome)

/-- The latches are dropped. -/
def State.warmDropped : State :=
  (s.warmRecorded map).forEachInSomeOrder (s.warmRecorded map).latched (fun k s => s.dropLatch k)

/-- The schemes and the input tables have gone through the reset. -/
def State.warmCleared : State :=
  State.warmTables { s.warmDropped map with schemes := mapV Scheme.warm (s.warmDropped map).schemes }

/-- The first step of R38 is done. -/
def State.warmFaulted : State := (s.warmOff map).foldl (fun s p => s.faultPoint p) (s.warmCleared map)

/-- Point `p` has a deferred block. -/
def State.pendingBlock (p : PointId) : Bool :=
  match s.points[p] with
  | some x => x.blockPending
  | none => false

/-- The points with a deferred block. -/
def State.pendingBlocks : List PointId := (List.finRange 128).filter s.pendingBlock

/-- A warm reset is these stages and the second step of R38. -/
theorem State.takeWarmReset_eq : s.takeWarmReset map =
    (s.warmFaulted map).forEachInSomeOrder (s.warmFaulted map).pendingBlocks (fun p s => s.completeBlock p) := rfl

end

/-! ## What stands beside the points, the schemes and the event record -/

/-- What a warm reset has made of the links and the input tables, and what it leaves. -/
structure WarmedTo (s : State) (map : Option (Vector LinkParams 8)) (t : State) : Prop where
  warm : t.warm = .none
  clock : t.clock = s.clock
  bench : t.bench = s.bench
  storeOp : t.storeOp = s.storeOp
  store : t.store = s.store
  execCount : t.execCount = s.execCount
  lateLists : t.lateLists = s.lateLists
  engine : t.engine = none
  parties : t.parties = s.parties
  links : t.links = (s.warmBegun map).links
  meas : ∀ m : MeasId, t.meas[m] = .fresh s.meas[m].link s.meas[m].limit
  det : ∀ d : DetId, t.det[d] = .cleared s.det[d].source ∧ t.recentRise[d] = false

theorem WarmedTo.elsewhere {s t u : State} {map : Option (Vector LinkParams 8)} (h : WarmedTo s map t)
    (h' : SameElsewhere t u) : WarmedTo s map u where
  warm := h'.warm.trans h.warm
  clock := h'.clock.trans h.clock
  bench := h'.bench.trans h.bench
  storeOp := h'.storeOp.trans h.storeOp
  store := h'.store.trans h.store
  execCount := h'.execCount.trans h.execCount
  lateLists := h'.lateLists.trans h.lateLists
  engine := h'.engine.trans h.engine
  parties := h'.parties.trans h.parties
  links := h'.links.trans h.links
  meas m := by rw [h'.meas, h.meas]
  det d := by rw [h'.det, h'.recentRise]; exact h.det d

/-- Moving on to unused free values. -/
theorem SameElsewhere.opened (s : State) (n : Nat) : SameElsewhere s (s.opened n) := by constructor <;> rfl

theorem SameRecord.opened (s : State) (n : Nat) : SameRecord s (s.opened n) := ⟨rfl, rfl, rfl, rfl⟩

theorem OnlyPoints.opened (s : State) (n : Nat) : OnlyPoints s (s.opened n) := ⟨.opened s n, fun _ => ⟨_, rfl, id⟩⟩

theorem OnlyLatches.opened (s : State) (n : Nat) : OnlyLatches s (s.opened n) :=
  ⟨.opened s n, rfl, fun _ => ⟨_, rfl, id⟩⟩

section

variable (s : State) (map : Option (Vector LinkParams 8))

theorem State.warmBegun_links (l : LinkId) : (s.warmBegun map).links[l] = { s.links[l] with
    params := (match map with | some v => v[l] | none => s.links[l].params)
    held := false, transmitting := none, receiving := [] } := getElem_tabulate ..

/-! ## The latches -/

theorem State.warmDropped_onlyLatches : OnlyLatches (s.warmRecorded map) (s.warmDropped map) :=
  (OnlyLatches.opened _ _).trans (dropLatches _ _).1

/-- No latch is left. -/
theorem State.warmDropped_latch (k : SchemeId) : (s.warmDropped map).schemes[k].latch = none := by
  by_cases h : (s.warmRecorded map).schemes[k].latch = none
  · obtain ⟨l, e, hl⟩ := (s.warmDropped_onlyLatches map).schemes k
    rw [e]
    exact hl h
  · refine (dropLatches _ _).2 k ((State.mem_arrange _ _ k).2 ?_)
    simpa [State.latched, Option.isSome_iff_ne_none] using h

theorem State.warmDropped_schemes (k : SchemeId) :
    (s.warmDropped map).schemes[k] = { s.schemes[k] with latch := none } := by
  obtain ⟨l, e, -⟩ := (s.warmDropped_onlyLatches map).schemes k
  have none := s.warmDropped_latch map k
  rw [e] at none ⊢
  cases none
  rfl

/-- The latched schemes in some order, each dropped with its record. -/
theorem State.warmDropped_logs : ∃ ks : List SchemeId, ks.Perm s.latched ∧
    (s.warmRecorded map).Logs (s.warmDropped map) (ks.map (fun k => (.retriggerDropped, some k, none, none,
      s.schemes[k].latch.map (fun g => (g.slot.val : Int))))) := by
  have perm := (s.warmRecorded map).arrange_perm (s.warmRecorded map).latched
  refine ⟨_, perm, ?_⟩
  have all : ((s.warmRecorded map).arrange (s.warmRecorded map).latched).filter
      (fun k => s.schemes[k].latch.isSome) = (s.warmRecorded map).arrange (s.warmRecorded map).latched :=
    List.filter_eq_self.2 fun k hk => (List.mem_filter.1 (perm.mem_iff.1 hk)).2
  rw [← all]
  exact (State.Logs.nil (SameRecord.opened _ _)).trans
    (State.dropLatches_logs _ (perm.nodup_iff.2 ((List.nodup_finRange 32).filter _)) _)

/-! ## The tables -/

theorem State.warmCleared_warmedTo : WarmedTo s map (s.warmCleared map) := by
  have only := s.warmDropped_onlyLatches map
  refine ⟨only.warm, only.clock, only.bench, only.storeOp, only.store, only.execCount, only.lateLists, only.engine,
    only.parties, only.links, fun m => ?_, fun d => ?_⟩
  · rw [State.warmCleared, State.warmTables_meas]
    exact congrArg (fun v : Vector MeasSlot 256 => MeasSlot.fresh v[m].link v[m].limit) only.meas
  · obtain ⟨det, recent⟩ := State.warmTables_det
      { s.warmDropped map with schemes := mapV Scheme.warm (s.warmDropped map).schemes } d
    exact ⟨det.trans (congrArg (fun v : Vector DetSlot 64 => DetSlot.cleared v[d].source) only.det), recent⟩

theorem State.warmCleared_points : (s.warmCleared map).points = s.points := (s.warmDropped_onlyLatches map).points

theorem State.warmCleared_schemes (k : SchemeId) :
    (s.warmCleared map).schemes[k] = Scheme.warm { s.schemes[k] with latch := none } := by
  rw [← s.warmDropped_schemes map k]
  exact getElem_mapV ..

/-! ## The points -/

/-- The first step of R38 appends nothing. -/
theorem SameRecord.faultPoint (s : State) (p : PointId) : SameRecord s (s.faultPoint p) := by
  unfold State.faultPoint
  split
  · split
    · exact .refl s
    · exact (SameRecord.modPoint s p _).trans (.requestForPoint _ p)
  · exact .refl s

theorem SameRecord.faultPoints (ps : List PointId) :
    ∀ s : State, SameRecord s (ps.foldl (fun s p => s.faultPoint p) s) := by
  induction ps with
  | nil => exact .refl
  | cons p ps ih => exact fun s => (SameRecord.faultPoint s p).trans (ih (s.faultPoint p))

theorem State.mem_warmOff (p : PointId) :
    p ∈ s.warmOff map ↔ map.isSome = true ∧ (s.warmBegun map).offLink p = true := by
  unfold State.warmOff State.offLinkPoints
  split <;> simp_all

theorem State.offLink_defined {s : State} {p : PointId} {x : Point} (h : s.points[p] = some x) :
    s.offLink p = !s.links[x.defn.link].params.isFull := by
  simp only [State.offLink, h]

theorem State.warmFaulted_onlyPoints : OnlyPoints (s.warmCleared map) (s.warmFaulted map) := (faultPoints _ _).1

theorem State.warmFaulted_points (p : PointId) : (s.warmFaulted map).points[p] =
    if p ∈ s.warmOff map then s.points[p].map Point.offLine else s.points[p] := by
  rw [← s.warmCleared_points map]
  exact (faultPoints _ _).2 p

theorem State.warmFaulted_live (k : SchemeId) : (s.warmFaulted map).schemes[k].live = none := by
  rw [(s.warmFaulted_onlyPoints map).live, State.warmCleared_schemes]
  rfl

theorem State.takeWarmReset_onlyPoints : OnlyPoints (s.warmCleared map) (s.takeWarmReset map) := by
  rw [State.takeWarmReset_eq]
  exact (s.warmFaulted_onlyPoints map).trans ((OnlyPoints.opened _ _).trans
    (Machine.completeBlocks _ ((s.warmFaulted map).opened _) (s.warmFaulted_live map)).1)

theorem State.takeWarmReset_points (p : PointId) : (s.takeWarmReset map).points[p] =
    if (s.warmFaulted map).pendingBlock p = true then (s.warmFaulted map).points[p].map Point.released
    else (s.warmFaulted map).points[p] := by
  refine ((Machine.completeBlocks _ ((s.warmFaulted map).opened _) (s.warmFaulted_live map)).2 p).trans ?_
  simp only [State.mem_arrange, List.mem_filter, List.mem_finRange, true_and]
  rfl

theorem State.takeWarmReset_warmedTo : WarmedTo s map (s.takeWarmReset map) :=
  (s.warmCleared_warmedTo map).elsewhere (s.takeWarmReset_onlyPoints map).toSameElsewhere

theorem State.takeWarmReset_schemes (k : SchemeId) : ∃ b, (s.takeWarmReset map).schemes[k] =
      { Scheme.warm { s.schemes[k] with latch := none } with pendingPass := b } ∧
    ((if s.schemes[k].state = .armed then SchemeState.primed else s.schemes[k].state) = .primed → b = true) := by
  obtain ⟨b, e, set⟩ := (s.takeWarmReset_onlyPoints map).schemes k
  rw [State.warmCleared_schemes] at e set
  exact ⟨b, e, fun h => set (decide_eq_true h)⟩

end

/-! ## Each point through the reset -/

section

variable {s : State} {map : Option (Vector LinkParams 8)} {p : PointId} {x : Point}

theorem State.pendingBlock_defined (h : s.points[p] = some x) : s.pendingBlock p = x.blockPending := by
  simp only [State.pendingBlock, h]

theorem State.takeWarmReset_undefined (h : s.points[p] = none) : (s.takeWarmReset map).points[p] = none := by
  rw [State.takeWarmReset_points, State.warmFaulted_points, h]
  simp

/-- A point on a link that takes no orders. -/
theorem State.takeWarmReset_off (h : s.points[p] = some x) (ho : p ∈ s.warmOff map) :
    (s.takeWarmReset map).points[p] = some x.offLine := by
  have faulted : (s.warmFaulted map).points[p] = some x.offLine := by
    rw [State.warmFaulted_points, if_pos ho, h]
    rfl
  rw [State.takeWarmReset_points, State.pendingBlock_defined faulted, faulted]
  rfl

/-- A point on any other link. -/
theorem State.takeWarmReset_on (h : s.points[p] = some x) (ho : p ∉ s.warmOff map) :
    (s.takeWarmReset map).points[p] = some (if x.blockPending = true then x.released else x) := by
  have kept : (s.warmFaulted map).points[p] = some x := by rw [State.warmFaulted_points, if_neg ho, h]
  rw [State.takeWarmReset_points, State.pendingBlock_defined kept, kept]
  split <;> rfl

/-- The point's deferred block completes. -/
theorem State.warmFaulted_blockDue (p : PointId) :
    ((s.warmFaulted map).blockDue p = true) ↔ ∃ x, s.points[p] = some x ∧ x.blockPending = true ∧
      x.orderState ≠ .ordered ∧ p ∉ s.warmOff map := by
  have held : (s.warmFaulted map).holders p = 0 := holders_of_no_record _ (s.warmFaulted_live map) p
  unfold State.blockDue
  rw [State.warmFaulted_points, held]
  by_cases ho : p ∈ s.warmOff map <;> cases s.points[p] <;> simp [ho, Point.offLine]

end

/-! ## The event record -/

/-- The deferred blocks that complete, in some order, each with its record. -/
theorem State.takeWarmReset_blocks_log (s : State) (map : Option (Vector LinkParams 8)) :
    ∃ ps : List PointId, ps.Perm ((List.finRange 128).filter (s.warmFaulted map).blockDue) ∧
      (s.warmFaulted map).Logs (s.takeWarmReset map)
        (ps.map (fun p => (.pointBlocked, none, some p, none, some 0))) := by
  have perm := (s.warmFaulted map).arrange_perm (s.warmFaulted map).pendingBlocks
  refine ⟨((s.warmFaulted map).arrange (s.warmFaulted map).pendingBlocks).filter (s.warmFaulted map).blockDue,
    (perm.filter _).trans ?_, (State.Logs.nil (SameRecord.opened _ _)).trans (State.completeBlocks_run _
      (perm.nodup_iff.2 ((List.nodup_finRange 128).filter _)) ((s.warmFaulted map).opened _)).1⟩
  rw [State.pendingBlocks, List.filter_filter]
  refine List.Perm.of_eq (List.filter_congr fun p _ => ?_)
  show ((s.warmFaulted map).blockDue p && (s.warmFaulted map).pendingBlock p) = (s.warmFaulted map).blockDue p
  unfold State.blockDue State.pendingBlock
  cases (s.warmFaulted map).points[p] with
  | none => rfl
  | some x =>
    dsimp only
    cases x.blockPending <;> simp

/-- The records of a warm reset, in order (R177; log entry 25). -/
theorem State.takeWarmReset_logs (s : State) (map : Option (Vector LinkParams 8)) :
    ∃ (ks : List SchemeId) (ps : List PointId), ks.Perm s.latched ∧
      ps.Perm ((List.finRange 128).filter (s.warmFaulted map).blockDue) ∧
      s.Logs (s.takeWarmReset map)
        ((.warmReset, none, none, none, some (if map.isSome then ((s.warmBegun map).newlyFaulted : Int) else -1)) ::
        (ks.map (fun k => (.retriggerDropped, some k, none, none, s.schemes[k].latch.map (fun g => (g.slot.val : Int)))) ++
          ps.map (fun p => (.pointBlocked, none, some p, none, some 0)))) := by
  obtain ⟨ks, hks, dropped⟩ := s.warmDropped_logs map
  obtain ⟨ps, hps, blocked⟩ := s.takeWarmReset_blocks_log map
  have begun : s.Logs (s.warmBegun map) [] := .nil ⟨rfl, rfl, rfl, rfl⟩
  have cleared : SameRecord (s.warmDropped map) (s.warmCleared map) := ⟨rfl, rfl, rfl, rfl⟩
  have faulted : SameRecord (s.warmCleared map) (s.warmFaulted map) := SameRecord.faultPoints _ _
  exact ⟨ks, ps, hks, hps, (begun.append ..).trans ((dropped.same (cleared.trans faulted)).trans blocked)⟩

/-- The points of the first step of R38 that were not FAULTED already. -/
theorem State.newlyFaulted_eq (s : State) : s.newlyFaulted = (List.finRange 128).countP (fun p =>
    s.offLink p && decide (s.points[p].map Point.availability ≠ some .faulted)) := by
  rw [State.newlyFaulted, State.offLinkPoints, List.countP_filter]
  refine List.countP_congr fun p _ => ?_
  rw [Bool.and_comm, decide_not]

/-- Settles O10: the tables from the stages of the reset, each point by whether its link takes orders, and the records. -/
theorem warmResetValues : Obligations.WarmResetValues := by
  intro s map t
  have warmed : WarmedTo s map t := s.takeWarmReset_warmedTo map
  have off_iff : ∀ (p : PointId) (x : Point), s.points[p] = some x → (p ∈ s.warmOff map ↔
      map.isSome = true ∧ ¬ (t.links[x.defn.link].params.enabled = true ∧ t.links[x.defn.link].params.mode = .full)) := by
    intro p x h
    rw [State.mem_warmOff, State.offLink_defined (s := s.warmBegun map) h, warmed.links, ← LinkParams.isFull_iff]
    simp
  refine ⟨warmed.warm, warmed.clock, warmed.bench, warmed.storeOp, warmed.store, warmed.execCount, warmed.lateLists,
    warmed.engine, warmed.parties, fun l => ?_, warmed.meas, warmed.det, fun k => ?_,
    fun p h => State.takeWarmReset_undefined h, fun p x h => ?_, ?_⟩
  · rw [warmed.links]
    exact s.warmBegun_links map l
  · obtain ⟨b, e, set⟩ := s.takeWarmReset_schemes map k
    rw [show t.schemes[k] = _ from e]
    exact ⟨rfl, rfl, rfl, rfl, rfl, rfl, rfl, rfl, set⟩
  · dsimp only
    rw [← off_iff p x h]
    refine ⟨fun ho => State.takeWarmReset_off h ho, fun ho hb hs => ?_, fun ho hb => ?_⟩
    · rw [show t.points[p] = _ from State.takeWarmReset_on h ho, if_pos hb, Point.released, if_pos ⟨hb, hs⟩]
    · rw [show t.points[p] = _ from State.takeWarmReset_on h ho]
      rcases hb with hb | hs
      · rw [if_neg (by rw [hb]; decide)]
      · have kept : x.released = x := if_neg (fun h' => h'.2 hs)
        rw [kept, ite_self]
  · intro off madeFaulted
    have off_eq : off = (s.warmBegun map).offLink := by
      simp only [off, warmed.links]
      rfl
    clear_value off
    subst off_eq
    obtain ⟨ks, ps, hks, hps, logs⟩ := s.takeWarmReset_logs map
    refine ⟨ks, ps, hks, hps.trans (List.Perm.of_eq (List.filter_congr fun p _ => ?_)), ?_⟩
    · rw [Bool.eq_iff_iff, State.warmFaulted_blockDue, State.mem_warmOff]
      cases s.points[p] with
      | none => simp
      | some x => cases map <;> simp [and_assoc]
    · rw [show madeFaulted = (s.warmBegun map).newlyFaulted from (s.warmBegun map).newlyFaulted_eq.symm]
      exact logs

end Sys2Proof.Machine
end

section
/-! SUPPORT. The image a save writes: its length, and that it reads back as a valid image of the modules saved (R172,
R176). -/

namespace Sys2Proof.Machine

/-! ## The length of the modules -/

/-- Entries of bounded lengths. -/
theorem length_flatMap_le {α β : Type} {f : α → List β} {bound : α → Nat} (xs : List α)
    (h : ∀ x ∈ xs, (f x).length ≤ bound x) : (xs.flatMap f).length ≤ (xs.map bound).sum := by
  rw [List.length_flatMap]
  exact List.sum_le_sum h

/-- Entries of `n` things of at most `c` words each. -/
theorem length_flatMap_finRange_le {β : Type} {n c : Nat} {f : Fin n → List β} (h : ∀ x, (f x).length ≤ c) :
    ((List.finRange n).flatMap f).length ≤ n * c := by
  refine (length_flatMap_le _ (fun x _ => h x)).trans ?_
  simp

theorem stationWords_length (links : Vector Link 8) : (stationWords links).length = 48 := rfl

theorem measWords_length_le (meas : Vector MeasSlot 256) : (measWords meas).length ≤ 512 := by
  refine length_flatMap_finRange_le (c := 2) fun m => ?_
  split <;> simp

theorem detWords_length_le (det : Vector DetSlot 64) : (detWords det).length ≤ 48 := by
  refine (length_flatMap_le (bound := fun d : DetId => if d.val < 48 then 1 else 0) _ fun d _ => ?_).trans (by decide)
  split
  · split <;> simp
  all_goals simp

theorem pointWords_length_le (points : Vector (Option Point) 128) : (pointWords points).length ≤ 640 := by
  refine length_flatMap_finRange_le (c := 5) fun p => ?_
  split <;> simp

theorem schemeWords_length_le {schemes : Vector Scheme 32} {f : SchemeId → SchemeDef → List Word16} {c : Nat}
    (h : ∀ (k : SchemeId) (d : SchemeDef), schemes[k].defn = some d → (f k d).length ≤ c) :
    (schemeWords schemes f).length ≤ 32 * c := by
  refine length_flatMap_finRange_le fun k => ?_
  split
  · next d hd => exact h k d hd
  · exact Nat.zero_le c

theorem labelWords_length : ∀ label : List Byte, (labelWords label).length ≤ label.length / 2
  | [] => Nat.zero_le _
  | [_] => Nat.zero_le _
  | a :: b :: rest => by
    have := labelWords_length rest
    simp only [labelWords, List.length_cons]
    omega

namespace SchemeDef.Lawful

variable {d : SchemeDef} (h : d.Lawful) (k : SchemeId)

include h

theorem headerWords_length_le : (headerWords k d).length ≤ 25 := by
  have label := labelWords_length d.label
  rw [h.label.1] at label
  have terms := h.terms.1
  simp only [headerWords, List.length_append, List.length_cons, List.length_nil, List.length_flatMap, List.map_const',
    List.sum_replicate, smul_eq_mul]
  omega

theorem curveWords_length_le : (curveWords k d).length ≤ 19 := by
  have curve := h.curve.2.1
  simp only [curveWords, List.length_append, List.length_cons, List.length_nil, List.length_flatMap, List.map_const',
    List.sum_replicate, smul_eq_mul]
  omega

theorem candidateWords_length_le : (candidateWords k d).length ≤ 17 := by
  have candidates := h.candidates.1
  simp only [candidateWords, List.length_cons, List.length_map]
  omega

theorem triggerWords_length_le : (triggerWords k d).length ≤ 9 := by
  have sources := h.sources.1
  simp only [triggerWords, List.length_append, List.length_cons, List.length_nil, List.length_map]
  omega

end SchemeDef.Lawful

/-- An image of lawful definitions is at most 3,512 words long (R176). -/
theorem imageLength_le {s : State} (hs : s.DefinitionLaw) : imageLength s.moduleBodies ≤ 3512 := by
  have station := stationWords_length s.links
  have meas := measWords_length_le s.meas
  have det := detWords_length_le s.det
  have points := pointWords_length_le s.points
  have headers := schemeWords_length_le fun k d h => (hs k d h).headerWords_length_le k
  have curves := schemeWords_length_le fun k d h => (hs k d h).curveWords_length_le k
  have candidates := schemeWords_length_le fun k d h => (hs k d h).candidateWords_length_le k
  have triggers := schemeWords_length_le fun k d h => (hs k d h).triggerWords_length_le k
  simp only [imageLength, Config.moduleBase, packedModules_length, State.moduleBodies, List.map_cons, List.map_nil,
    List.sum_cons, List.sum_nil]
  omega

/-! ## Reading the image back -/

section

variable {m : Memory} (hm : Memory.wf m = true) {bodies : List (List Word16)} (h8 : bodies.length = 8)

include hm h8

/-- The control word reads as the seal and the image length. -/
theorem read_control (hn : imageLength bodies < 2 ^ 14) :
    (Memory.read (Memory.writeAll m (saveWrites bodies)) 0).extractLsb' 14 2 = 0b10#2 ∧
    ((Memory.read (Memory.writeAll m (saveWrites bodies)) 0).extractLsb' 0 14).toNat = imageLength bodies := by
  obtain ⟨-, -, -, control⟩ := read_saveWrites hm bodies h8
  rw [control]
  refine ⟨BitVec.extractLsb'_append_eq_left, ?_⟩
  rw [sealedControl, BitVec.extractLsb'_append_eq_right]
  exact Nat.mod_eq_of_lt hn

/-- Every pointer names its module, behind its length word (conditions 2 of R172). -/
theorem readModule_saved (hn : imageLength bodies < 2 ^ 14) (i : Nat) (hi : i < bodies.length) :
    readModule (Memory.writeAll m (saveWrites bodies)) (imageLength bodies)
      (Memory.read (Memory.writeAll m (saveWrites bodies)) (i + 1)) = some (some bodies[i]) := by
  obtain ⟨modules, pointers, -, -⟩ := read_saveWrites hm bodies h8
  obtain ⟨x, address, low, high, length, body⟩ := readWords_packedModules bodies 16 _ modules i hi
  have fits : imageLength bodies = 16 + (packedModules bodies).length := rfl
  have pointer : Memory.read (Memory.writeAll m (saveWrites bodies)) (i + 1) = BitVec.ofNat 16 x := by
    have hx := (List.getElem?_eq_some_iff.1 address).2
    rw [Nat.add_comm, pointers i (by omega), List.getElem_append_left (by simpa [moduleAddresses_length] using hi),
      List.getElem_map, hx]
  have pointer_toNat : (BitVec.ofNat 16 x).toNat = x := Nat.mod_eq_of_lt (by omega)
  have length_toNat : (BitVec.ofNat 16 bodies[i].length).toNat = bodies[i].length := Nat.mod_eq_of_lt (by omega)
  have present : ¬ (BitVec.ofNat 16 x = 0x0000 ∨ BitVec.ofNat 16 x = 0xFFFF) := by
    rintro (h | h)
    · have zero : x = 0 := pointer_toNat.symm.trans (congrArg BitVec.toNat h)
      omega
    · have blank : x = 65535 := pointer_toNat.symm.trans (congrArg BitVec.toNat h)
      omega
  rw [pointer, readModule, if_neg present, pointer_toNat, if_neg (by omega), length, length_toNat, if_neg (by omega), body]

/-- The header words of a saved image: control word, pointers, six zeros and check word (R176). -/
theorem readWords_header : readWords (Memory.writeAll m (saveWrites bodies)) 0 16 =
    [sealedControl (imageLength bodies)] ++
      ((moduleAddresses 16 bodies).map (BitVec.ofNat 16) ++ List.replicate 6 0) ++ [checkWord bodies] := by
  obtain ⟨-, pointers, check, control⟩ := read_saveWrites hm bodies h8
  have length : ((moduleAddresses 16 bodies).map (BitVec.ofNat 16) ++ List.replicate 6 (0 : Word16)).length = 14 := by
    simp [moduleAddresses_length, h8]
  refine List.ext_getElem (by simp [readWords, moduleAddresses_length, h8]) fun i hi hi' => ?_
  have bound : i < 16 := by simpa [readWords] using hi
  simp only [readWords, List.getElem_map, List.getElem_range, Nat.zero_add]
  by_cases first : i = 0
  · subst first
    exact control
  · by_cases last : i = 15
    · subst last
      rw [List.getElem_append_right (by simp [moduleAddresses_length, h8])]
      simpa using check
    · rw [getElem_between _ _ _ _ hi' (by omega) (by omega), ← pointers (i - 1) (by omega)]
      congr 1
      omega

/-- The check word makes the sum of R172 right. -/
theorem sumWords_saved : sumWords (readWords (Memory.writeAll m (saveWrites bodies)) 0 16 ++ bodies.flatten) =
    Config.imageSum := by
  have zeros : sumWords (List.replicate 6 0) = 0 := rfl
  have one : ∀ w : Word16, sumWords [w] = w := fun w => BitVec.zero_add w
  rw [readWords_header hm h8]
  simp only [sumWords_append, zeros, one, checkWord, Config.moduleBase]
  ring

/-- What a save writes is a valid image of exactly the modules saved, all of them present. -/
theorem readImage_saved (hn : imageLength bodies < 2 ^ 14) :
    readImage (Memory.writeAll m (saveWrites bodies)) =
      .ok { length := imageLength bodies, modules := bodies.map some } := by
  obtain ⟨signature, length⟩ := read_control hm h8 hn
  have long : 16 ≤ imageLength bodies := Nat.le_add_right 16 _
  have modules : (List.range 8).map (fun i => readModule (Memory.writeAll m (saveWrites bodies)) (imageLength bodies)
      (Memory.read (Memory.writeAll m (saveWrites bodies)) (i + 1))) = bodies.map (fun b => some (some b)) := by
    refine List.ext_getElem (by simp [h8]) fun i hi hi' => ?_
    rw [List.getElem_map, List.getElem_range, List.getElem_map, readModule_saved hm h8 hn i (by simpa using hi')]
  have present : (bodies.map (fun b => some (some b))).mapM id = some (bodies.map some) := by
    rw [List.mapM_map]
    exact List.mapM_pure
  have whole : ((bodies.map some).map (fun b => b.getD [])).flatten = bodies.flatten := by simp
  unfold readImage
  dsimp only
  rw [signature, length, if_neg (by simp; omega), modules, present]
  dsimp only
  rw [whole, if_pos (sumWords_saved hm h8)]

end

end Sys2Proof.Machine
end

section
/-! SUPPORT. What a load reads from the modules a save writes (R2, R12, R22, R55, R173, R176): entries cut apart again, the
station map, the two input maps, the point table and the four scheme modules. -/

namespace Sys2Proof.Machine

/-! ## Bytes of a word -/

theorem hiByte_joinBytes (hi lo : Byte) : hiByte (joinBytes hi lo) = hi := BitVec.extractLsb'_append_eq_left

theorem loByte_joinBytes (hi lo : Byte) : loByte (joinBytes hi lo) = lo := BitVec.extractLsb'_append_eq_right

theorem toNat_byte {n : Nat} (h : n < 256) : (BitVec.ofNat 8 n).toNat = n := Nat.mod_eq_of_lt h

theorem toNat_word {n : Nat} (h : n < 65536) : (BitVec.ofNat 16 n).toNat = n := Nat.mod_eq_of_lt h

theorem toInt_word {x : Int} (h : -32768 ≤ x ∧ x ≤ 32767) : (BitVec.ofInt 16 x).toInt = x := by
  rw [BitVec.toInt_ofInt]
  exact Int.bmod_eq_of_le (by omega) (by omega)

theorem finOf_byte {n : Nat} (hn : n ≤ 256) (x : Fin n) : finOf n (BitVec.ofNat 8 x.val).toNat = some x := by
  rw [toNat_byte (by omega), finOf_val]

/-- An optional object number is read back (R168). -/
theorem optFinOf_opt8 {n : Nat} (hn : n ≤ 255) (x : Option (Fin n)) :
    optFinOf n (Wire.opt8 (x.map Fin.val)) = some x := by
  cases x with
  | none => rfl
  | some x =>
    have code : (Wire.u8 x.val).toNat = x.val := toNat_byte (by omega)
    have present : Wire.u8 x.val ≠ 0xFF := fun h => by
      have : x.val = 255 := code.symm.trans (congrArg BitVec.toNat h)
      omega
    show optFinOf n (Wire.u8 x.val) = _
    rw [optFinOf, if_neg present, code, finOf_val]
    rfl

/-! ## Entries -/

/-- The entries of a table, each written one after another. -/
theorem flatMap_getD {α β : Type} (g : α → Option (List β)) (xs : List α) :
    xs.flatMap (fun x => (g x).getD []) = (xs.filterMap g).flatten := by
  induction xs with
  | nil => rfl
  | cons x xs ih =>
    rw [List.flatMap_cons, List.filterMap_cons, ih]
    cases g x <;> rfl

/-- Among entries that each name their object, those of one object. -/
theorem filter_named {β : Type} {n : Nat} {g : Fin n → Option β} {name : β → Nat}
    (hg : ∀ k b, g k = some b → name b = k.val) (k : Fin n) :
    ((List.finRange n).filterMap g).filter (fun b => decide (name b = k.val)) = (g k).toList := by
  have key : ∀ xs : List (Fin n), xs.Nodup →
      (xs.filterMap g).filter (fun b => decide (name b = k.val)) = if k ∈ xs then (g k).toList else [] := by
    intro xs hn
    induction xs with
    | nil => rfl
    | cons x xs ih =>
      obtain ⟨hx, hn⟩ := List.nodup_cons.1 hn
      rw [List.filterMap_cons]
      by_cases e : x = k
      · subst e
        rw [if_pos List.mem_cons_self]
        cases h : g x with
        | none => simp only [ih hn, if_neg hx, Option.toList_none]
        | some b =>
          simp only [List.filter_cons, hg x b h, decide_true, if_true, ih hn, if_neg hx, Option.toList_some]
      · have mem : k ∈ x :: xs ↔ k ∈ xs := by simp [Ne.symm e]
        simp only [mem]
        cases h : g x with
        | none => exact ih hn
        | some b =>
          have other : ¬ name b = k.val := fun h' => e (Fin.ext ((hg x b h).symm.trans h'))
          simp only [List.filter_cons, other, decide_false, Bool.false_eq_true, if_false, ih hn]
  exact (key _ (List.nodup_finRange n)).trans (if_pos (List.mem_finRange k))

/-- The first of several entries that names an object, where every entry passes the further condition `q`. -/
theorem find_named {β : Type} {n : Nat} {g : Fin n → Option β} {name : β → Nat} {q : β → Prop} [DecidablePred q]
    (hg : ∀ k b, g k = some b → name b = k.val ∧ q b) (k : Fin n) :
    ((List.finRange n).filterMap g).find? (fun b => decide (name b = k.val ∧ q b)) = g k := by
  have passes : ∀ b ∈ (List.finRange n).filterMap g, decide (name b = k.val ∧ q b) = decide (name b = k.val) := by
    intro b hb
    obtain ⟨j, -, hj⟩ := List.mem_filterMap.1 hb
    exact decide_eq_decide.2 (and_iff_left (hg j b hj).2)
  rw [← List.head?_filter, List.filter_congr passes, filter_named (fun j b h => (hg j b h).1)]
  cases g k <;> rfl

/-- Entries whose leading words say their length are cut apart as they were written (R173). -/
theorem entriesOf_flatten {size : List Word16 → Nat} {es : List (List Word16)}
    (h : ∀ e ∈ es, e ≠ [] ∧ ∀ rest, size (e ++ rest) = e.length) : entriesOf size es.flatten = es := by
  have cut : ∀ (es : List (List Word16)) (fuel : Nat), (∀ e ∈ es, e ≠ [] ∧ ∀ rest, size (e ++ rest) = e.length) →
      es.flatten.length ≤ fuel → cutEntries size fuel es.flatten = es := by
    intro es
    induction es with
    | nil =>
      intro fuel _ _
      cases fuel with
      | zero => rfl
      | succ fuel => exact if_pos (.inl rfl)
    | cons e es ih =>
      intro fuel h hf
      obtain ⟨nonempty, length⟩ := h e List.mem_cons_self
      have positive : 0 < e.length := List.length_pos_of_ne_nil nonempty
      rw [List.flatten_cons, List.length_append] at hf
      cases fuel with
      | zero => omega
      | succ fuel =>
        rw [List.flatten_cons, cutEntries, length, if_neg (by simp [nonempty]), List.take_left, List.drop_left,
          ih fuel (fun e he => h e (List.mem_cons_of_mem _ he)) (by omega)]
  exact cut es _ h le_rfl

/-- Words written in pairs are read in pairs. -/
theorem pairsOf_flatMap {α : Type} (f : α → List (Word16 × Word16)) (xs : List α) :
    pairsOf (xs.flatMap (fun x => (f x).flatMap (fun e => [e.1, e.2]))) = xs.flatMap f := by
  have pairs : ∀ (es : List (Word16 × Word16)) (rest : List Word16),
      pairsOf (es.flatMap (fun e => [e.1, e.2]) ++ rest) = es ++ pairsOf rest := by
    intro es rest
    induction es with
    | nil => rfl
    | cons e es ih => exact congrArg (e :: ·) ih
  induction xs with
  | nil => rfl
  | cons x xs ih => rw [List.flatMap_cons, List.flatMap_cons, pairs, ih]

theorem pairsOf_map {α : Type} (a b : α → Word16) (xs : List α) :
    pairsOf (xs.flatMap (fun x => [a x, b x])) = xs.map (fun x => (a x, b x)) := by
  rw [List.map_eq_flatMap]
  exact pairsOf_flatMap (fun x => [(a x, b x)]) xs

/-! ## The station map -/

/-- The three pairs of link `l`. -/
def stationPairs (links : Vector Link 8) (l : LinkId) : List (Word16 × Word16) :=
  let q := links[l].params
  [(joinBytes (BitVec.ofNat 8 l.val) 1, boolWord q.enabled),
   (joinBytes (BitVec.ofNat 8 l.val) 2, q.station.setWidth 16),
   (joinBytes (BitVec.ofNat 8 l.val) 3, boolWord (decide (q.mode = .listenOnly)))]

theorem pairsOf_stationWords (links : Vector Link 8) :
    pairsOf (stationWords links) = (List.finRange 8).flatMap (stationPairs links) :=
  pairsOf_flatMap (stationPairs links) (List.finRange 8)

section

variable (v : Vector LinkParams 8) (l : LinkId)

theorem stationPair_link (id : Byte) : finOf 8 (hiByte (joinBytes (BitVec.ofNat 8 l.val) id)).toNat = some l := by
  rw [hiByte_joinBytes]
  exact finOf_byte (by decide) l

theorem applyStationPair_enabled (b : Bool) :
    applyStationPair v (joinBytes (BitVec.ofNat 8 l.val) 1, boolWord b) = modV v l (fun q => { q with enabled := b }) := by
  simp only [applyStationPair, stationPair_link, loByte_joinBytes]
  cases b <;> rfl

theorem applyStationPair_station (n : Byte) :
    applyStationPair v (joinBytes (BitVec.ofNat 8 l.val) 2, n.setWidth 16) = modV v l (fun q => { q with station := n }) := by
  have low : loByte (n.setWidth 16) = n := by
    apply BitVec.eq_of_getLsbD_eq
    intro i hi
    simp [loByte, hi]
    omega
  have fits : (n.setWidth 16).toNat < 256 := by
    rw [BitVec.toNat_setWidth]
    omega
  simp only [applyStationPair, stationPair_link, loByte_joinBytes, low, fits, if_true]
  rfl

theorem applyStationPair_mode (x : LinkMode) :
    applyStationPair v (joinBytes (BitVec.ofNat 8 l.val) 3, boolWord (decide (x = .listenOnly))) =
      modV v l (fun q => { q with mode := x }) := by
  simp only [applyStationPair, stationPair_link, loByte_joinBytes]
  cases x <;> rfl

/-- The three pairs of a link set its parameters. -/
theorem applyStationPairs (links : Vector Link 8) :
    (stationPairs links l).foldl applyStationPair v = modV v l (fun _ => links[l].params) := by
  simp only [stationPairs, List.foldl_cons, List.foldl_nil, applyStationPair_enabled, applyStationPair_station,
    applyStationPair_mode, modV_modV]

end

/-- Entries written one after another, each by its own number. -/
theorem foldl_modV {α : Type} {n : Nat} (f : Fin n → α) (v : Vector α n) (k : Fin n) :
    ((List.finRange n).foldl (fun v k => modV v k (fun _ => f k)) v)[k] = f k := by
  have key : ∀ (ks : List (Fin n)) (v : Vector α n),
      (ks.foldl (fun v k => modV v k (fun _ => f k)) v)[k] = if k ∈ ks then f k else v[k] := by
    intro ks
    induction ks with
    | nil => exact fun v => rfl
    | cons j ks ih =>
      intro v
      rw [List.foldl_cons, ih, getElem_modV_fin]
      by_cases e : j = k
      · subst e; simp
      · simp [e, Ne.symm e]
  rw [key, if_pos (List.mem_finRange k)]

/-- The saved station map gives the link parameters back. -/
theorem stationMap_stationWords (links : Vector Link 8) (l : LinkId) :
    (stationMap (stationWords links))[l] = links[l].params := by
  rw [stationMap, pairsOf_stationWords, List.foldl_flatMap]
  simp only [applyStationPairs]
  exact foldl_modV (fun l => links[l].params) _ l

/-! ## The input maps -/

theorem linkCode_byte (l : LinkId) : linkCode (BitVec.ofNat 8 l.val) = some (some l) :=
  optFinOf_opt8 (by decide) (some l)

/-- The map entry of a measurement slot, where it is mapped. -/
def measPair (meas : Vector MeasSlot 256) (m : MeasId) : Option (Word16 × Word16) :=
  meas[m].link.map (fun l => (joinBytes (BitVec.ofNat 8 m.val) (BitVec.ofNat 8 l.val), BitVec.ofNat 16 meas[m].limit))

theorem pairsOf_measWords (meas : Vector MeasSlot 256) :
    pairsOf (measWords meas) = (List.finRange 256).filterMap (measPair meas) := by
  have words : measWords meas =
      (List.finRange 256).flatMap (fun m => ((measPair meas m).toList).flatMap (fun e => [e.1, e.2])) := by
    unfold measWords measPair
    congr 1
    funext m
    cases meas[m].link <;> rfl
  rw [words, pairsOf_flatMap]
  exact (List.filterMap_eq_flatMap_toList _ _).symm

/-- The entry that names measurement slot `m` in the saved map. -/
theorem find_measPair (meas : Vector MeasSlot 256) (m : MeasId) :
    (pairsOf (measWords meas)).find? (fun e => (hiByte e.1).toNat = m.val ∧ (linkCode (loByte e.1)).isSome = true) =
      measPair meas m := by
  rw [pairsOf_measWords]
  refine find_named (name := fun e : Word16 × Word16 => (hiByte e.1).toNat)
    (q := fun e => (linkCode (loByte e.1)).isSome = true) (fun k b hb => ?_) m
  obtain ⟨l, -, rfl⟩ := Option.map_eq_some_iff.1 hb
  rw [hiByte_joinBytes, loByte_joinBytes, linkCode_byte]
  exact ⟨toNat_byte k.isLt, rfl⟩

section

variable {meas : Vector MeasSlot 256} {m : MeasId}

/-- The saved measurement map gives a mapped slot back with its limit (R2). -/
theorem measTable_mapped {l : LinkId} (hl : meas[m].link = some l) (h : 10 ≤ meas[m].limit ∧ meas[m].limit ≤ 10000) :
    (measTable (measWords meas))[m] = .fresh (some l) meas[m].limit := by
  have entry : measPair meas m =
      some (joinBytes (BitVec.ofNat 8 m.val) (BitVec.ofNat 8 l.val), BitVec.ofNat 16 meas[m].limit) := by
    rw [measPair, hl]
    rfl
  have limit : (BitVec.ofNat 16 meas[m].limit).toNat = meas[m].limit := toNat_word (by omega)
  rw [Fin.getElem_fin, measTable, getElem_tabulate]
  simp only [find_measPair, entry, loByte_joinBytes, linkCode_byte, Option.getD_some, limit, h, and_self, if_true]

theorem measTable_unmapped (hl : meas[m].link = none) : (measTable (measWords meas))[m] = .unmapped := by
  have entry : measPair meas m = none := by
    rw [measPair, hl]
    rfl
  rw [Fin.getElem_fin, measTable, getElem_tabulate]
  simp only [find_measPair, entry]

end

/-- The map entry of a detection slot, where it is a mapped one of slots 0 to 47. -/
def detWord (det : Vector DetSlot 64) (d : DetId) : Option Word16 :=
  match det[d].source with
  | .link l => if d.val < 48 then some (joinBytes (BitVec.ofNat 8 d.val) (BitVec.ofNat 8 l.val)) else none
  | .fastDetect _ | .unmapped => none

theorem detWords_eq (det : Vector DetSlot 64) : detWords det = (List.finRange 64).filterMap (detWord det) := by
  rw [List.filterMap_eq_flatMap_toList]
  unfold detWords detWord
  congr 1
  funext d
  cases det[d].source with
  | link l => by_cases h : d.val < 48 <;> simp [h]
  | fastDetect n => rfl
  | unmapped => rfl

theorem find_detWord (det : Vector DetSlot 64) (d : DetId) :
    (detWords det).find? (fun e => (hiByte e).toNat = d.val ∧ (linkCode (loByte e)).isSome = true) = detWord det d := by
  rw [detWords_eq]
  refine find_named (name := fun e : Word16 => (hiByte e).toNat)
    (q := fun e => (linkCode (loByte e)).isSome = true) (fun k b hb => ?_) d
  unfold detWord at hb
  split at hb
  · split at hb
    · cases hb
      rw [hiByte_joinBytes, loByte_joinBytes, linkCode_byte]
      exact ⟨toNat_byte (by omega), rfl⟩
    · cases hb
  all_goals cases hb

/-- The saved detection map gives the sources back (R12). -/
theorem detTable_detWords {det : Vector DetSlot 64} {d : DetId} (high : 48 ≤ d.val → det[d].source = .fixed d)
    (low : d.val < 48 → det[d].source = .unmapped ∨ ∃ l, det[d].source = .link l) :
    (detTable (detWords det))[d] = .cleared det[d].source := by
  rw [Fin.getElem_fin, detTable, getElem_tabulate]
  by_cases h : 48 ≤ d.val
  · rw [if_pos h, high h]
  · have h' : d.val < 48 := by omega
    rw [if_neg h]
    simp only [find_detWord]
    rcases low h' with hs | ⟨l, hs⟩
    · simp only [detWord, hs]
    · simp only [detWord, hs, if_pos h', loByte_joinBytes, linkCode_byte, Option.getD_some]

/-! ## The point table -/

/-- The entry of a defined point. -/
def pointEntry (p : PointId) (d : PointDef) : List Word16 :=
  [joinBytes (BitVec.ofNat 8 p.val) (BitVec.ofNat 8 d.owner.val),
   joinBytes (Wire.kindCode d.kind) (BitVec.ofNat 8 d.link.val),
   joinBytes d.address (BitVec.ofNat 8 d.valueSlot.val),
   joinBytes (Wire.opt8 (d.statusSlot.map Fin.val)) (Wire.opt8 (d.backup.map Fin.val)),
   BitVec.ofNat 16 d.timeout]

theorem entriesOf_pointWords (points : Vector (Option Point) 128) : entriesOf (fun _ => 5) (pointWords points) =
    (List.finRange 128).filterMap (fun p => points[p].map (fun x => pointEntry p x.defn)) := by
  have words : pointWords points =
      (List.finRange 128).flatMap (fun p => (points[p].map (fun x => pointEntry p x.defn)).getD []) := by
    unfold pointWords
    congr 1
    funext p
    cases points[p] <;> rfl
  rw [words, flatMap_getD]
  refine entriesOf_flatten fun e he => ?_
  obtain ⟨p, -, hp⟩ := List.mem_filterMap.1 he
  obtain ⟨x, -, rfl⟩ := Option.map_eq_some_iff.1 hp
  exact ⟨nofun, fun _ => rfl⟩

/-- The entry of point `p` is the only one with its number. -/
theorem pointEntries_named (points : Vector (Option Point) 128) (p : PointId) :
    (entriesOf (fun _ => 5) (pointWords points)).filter (fun e => (hiByte (e.getD 0 0)).toNat = p.val) =
      (points[p].map (fun x => pointEntry p x.defn)).toList := by
  rw [entriesOf_pointWords]
  refine filter_named (name := fun e : List Word16 => (hiByte (e.getD 0 0)).toNat) (fun q e he => ?_) p
  obtain ⟨x, -, rfl⟩ := Option.map_eq_some_iff.1 he
  show (hiByte (joinBytes (BitVec.ofNat 8 q.val) _)).toNat = q.val
  rw [hiByte_joinBytes, toNat_byte (by omega)]

theorem kindOf_kindCode (k : PointKind) : kindOf (Wire.kindCode k) = some k := by cases k <;> rfl

theorem imageTimeout_word {n : Nat} (h : 2 ≤ n ∧ n ≤ 250) : imageTimeout (BitVec.ofNat 16 n) = n := by
  rw [imageTimeout, toNat_word (by omega), if_pos h]

/-- The fields of an entry give the definition back. -/
theorem pointDefOf_saved {p : PointId} {d : PointDef} (h : d.backup ≠ some p) :
    pointDefOf p (BitVec.ofNat 8 d.owner.val) (Wire.kindCode d.kind) (BitVec.ofNat 8 d.link.val) d.address
      (BitVec.ofNat 8 d.valueSlot.val) (Wire.opt8 (d.statusSlot.map Fin.val)) (Wire.opt8 (d.backup.map Fin.val))
      d.timeout = some d := by
  have slot : (⟨(BitVec.ofNat 8 d.valueSlot.val).toNat, (BitVec.ofNat 8 d.valueSlot.val).isLt⟩ : MeasId) = d.valueSlot :=
    Fin.ext (Nat.mod_eq_of_lt d.valueSlot.isLt)
  have owner : finOf 4 (BitVec.ofNat 8 d.owner.val).toNat = some d.owner := finOf_byte (by decide) _
  have link : finOf 8 (BitVec.ofNat 8 d.link.val).toNat = some d.link := finOf_byte (by decide) _
  have status := optFinOf_opt8 (by decide) d.statusSlot
  have backup := optFinOf_opt8 (by decide) d.backup
  simp only [pointDefOf, owner, kindOf_kindCode, link, status, backup, if_neg h, slot]

/-- An entry of a lawful point is taken where it fits (R22). -/
theorem loadPointEntry_saved (links : Vector Link 8) {p : PointId} {v : Vector (Option Point) 128} {d : PointDef}
    (hv : v[p] = none) (ht : 2 ≤ d.timeout ∧ d.timeout ≤ 250) (hb : d.backup ≠ some p) :
    loadPointEntry links p v (pointEntry p d) =
      if pointFits links v p d then v.set p (some (.new d .inService)) else v := by
  simp only [loadPointEntry, hv, pointEntry, hiByte_joinBytes, loByte_joinBytes, imageTimeout_word ht,
    pointDefOf_saved hb]

/-- What a load makes of a saved point (R22). -/
def reloadedPoint (links : Vector Link 8) (x : Option Point) : Option Point :=
  x.bind (fun x => if links[x.defn.link].params.isFull then some (.new x.defn .inService) else none)

/-- Fewer of the same entries. -/
theorem filterMap_sublist {α β : Type} {f g : α → Option β} (h : ∀ x, f x = none ∨ f x = g x) (xs : List α) :
    (xs.filterMap f).Sublist (xs.filterMap g) := by
  induction xs with
  | nil => exact .slnil
  | cons x xs ih =>
    rw [List.filterMap_cons, List.filterMap_cons]
    rcases h x with e | e <;> rw [e]
    · cases g x with
      | none => exact ih
      | some b => exact ih.cons b
    · cases g x with
      | none => exact ih
      | some b => exact ih.cons_cons b

/-- The points of `v` are points of `points` as reloaded, each with its definition. -/
def ReloadedFrom (links : Vector Link 8) (points v : Vector (Option Point) 128) : Prop :=
  ∀ q : PointId, v[q] = none ∨ v[q] = reloadedPoint links points[q]

section

variable {links : Vector Link 8} {points v : Vector (Option Point) 128}

theorem ReloadedFrom.defn (hv : ReloadedFrom links points v) (q : PointId) :
    v[q].map Point.defn = none ∨ v[q].map Point.defn = points[q].map Point.defn := by
  rcases hv q with e | e <;> rw [e]
  · exact .inl rfl
  · cases points[q] with
    | none => exact .inl rfl
    | some x =>
      by_cases h : links[x.defn.link].params.isFull = true
      · exact .inr (by simp only [reloadedPoint, Option.bind_some, if_pos h]; rfl)
      · exact .inl (by simp only [reloadedPoint, Option.bind_some, if_neg h]; rfl)

/-- Beside other points of a lawful table a point fits where its link takes orders (R22). -/
theorem ReloadedFrom.pointFits (hv : ReloadedFrom links points v) (hs : PointsLawful points) {p : PointId} {x : Point}
    (hx : points[p] = some x) : pointFits links v p x.defn = links[x.defn.link].params.isFull := by
  obtain ⟨apart, atMost, -⟩ := hs
  have alone : (othersDefined v p).all
      (fun y => !(decide (y.link = x.defn.link) && decide (y.address = x.defn.address))) = true := by
    refine List.all_eq_true.2 fun y hy => ?_
    obtain ⟨q, -, hq⟩ := List.mem_filterMap.1 hy
    split at hq
    · cases hq
    · next ne =>
      rcases hv.defn q with e | e
      · exact nomatch e.symm.trans hq
      · obtain ⟨z, hz, rfl⟩ := Option.map_eq_some_iff.1 (e.symm.trans hq)
        have differ : ¬ z.defn.link = x.defn.link ∨ ¬ z.defn.address = x.defn.address :=
          not_and_or.1 fun ⟨hl, ha⟩ => ne (apart q p z x hz hx hl ha)
        simpa using differ
  have few : (othersDefined v p).countP (fun y => y.link = x.defn.link) < 32 := by
    have fewer : (othersDefined v p).countP (fun y => y.link = x.defn.link) ≤
        (othersDefined points p).countP (fun y => y.link = x.defn.link) := by
      refine (filterMap_sublist (fun q => ?_) _).countP_le
      split
      · exact .inl rfl
      · exact hv.defn q
    have all := countP_definedPoints (P := fun y => y.link = x.defn.link) points p
    rw [hx] at all
    simp only [Option.map_some, Option.toList_some, List.countP_singleton, decide_true, if_true] at all
    have bound := atMost x.defn.link
    omega
  rw [Machine.pointFits, alone, decide_eq_true few, Bool.and_true, Bool.and_true]

/-- The entries of point `p` in the saved table, judged. -/
def judgeEntries (links : Vector Link 8) (points v : Vector (Option Point) 128) (p : PointId) :
    Vector (Option Point) 128 :=
  ((entriesOf (fun _ => 5) (pointWords points)).filter (fun e => (hiByte (e.getD 0 0)).toNat = p.val)).foldl
    (loadPointEntry links p) v

/-- The entry of a point not yet loaded sets the point as reloaded, and no other. -/
theorem judgeEntries_entry (hv : ReloadedFrom links points v) (hs : PointsLawful points) {p : PointId} (hp : v[p] = none)
    (q : PointId) :
    (judgeEntries links points v p)[q] = if q = p then reloadedPoint links points[p] else v[q] := by
  rw [judgeEntries, pointEntries_named]
  cases hx : points[p] with
  | none =>
    by_cases e : q = p
    · rw [if_pos e, e]
      exact hp
    · rw [if_neg e]
      rfl
  | some x =>
    obtain ⟨low, high, backup⟩ := hs.2.2 p x hx
    simp only [Option.map_some, Option.toList_some, List.foldl_cons, List.foldl_nil,
      loadPointEntry_saved links hp ⟨low, high⟩ backup, hv.pointFits hs hx, reloadedPoint, Option.bind_some]
    by_cases e : q = p
    · subst e
      split <;> simp [hp]
    · have e' : ¬ p.val = q.val := fun h => e (Fin.ext h.symm)
      split <;> simp [e']

/-- The saved point table gives the points on links that take orders back (R22). -/
theorem pointTable_pointWords (hs : PointsLawful points) (p : PointId) :
    (pointTable links (pointWords points))[p] = reloadedPoint links points[p] := by
  have key : ∀ (ps : List PointId) (v : Vector (Option Point) 128), ps.Nodup → ReloadedFrom links points v →
      (∀ q ∈ ps, v[q] = none) → ∀ q : PointId,
      (ps.foldl (judgeEntries links points) v)[q] = if q ∈ ps then reloadedPoint links points[q] else v[q] := by
    intro ps
    induction ps with
    | nil => exact fun _ _ _ _ _ => rfl
    | cons p ps ih =>
      intro v hn hv hnone q
      obtain ⟨hp, hn⟩ := List.nodup_cons.1 hn
      have entry := judgeEntries_entry hv hs (hnone p List.mem_cons_self)
      have judged : ReloadedFrom links points (judgeEntries links points v p) := by
        intro q
        rw [entry]
        split
        · next e => exact .inr (by rw [e])
        · exact hv q
      have rest : ∀ q ∈ ps, (judgeEntries links points v p)[q] = none := by
        intro q hq
        rw [entry, if_neg (fun e : q = p => hp (e ▸ hq))]
        exact hnone q (List.mem_cons_of_mem _ hq)
      rw [List.foldl_cons, ih _ hn judged rest, entry]
      by_cases e : q = p
      · subst e
        simp
      · simp [e]
  have empty : ∀ q : PointId, (Vector.replicate 128 (none : Option Point))[q] = none := fun q => Vector.getElem_replicate _
  exact (key _ _ (List.nodup_finRange 128) (fun q => .inl (empty q)) (fun q _ => empty q) p).trans
    (if_pos (List.mem_finRange p))

end

/-! ## The scheme modules -/

section

variable {schemes : Vector Scheme 32} {f : SchemeId → SchemeDef → List Word16} {size : List Word16 → Nat}

theorem schemeWords_eq (schemes : Vector Scheme 32) (f : SchemeId → SchemeDef → List Word16) :
    schemeWords schemes f = ((List.finRange 32).filterMap (fun k => schemes[k].defn.map (f k))).flatten := by
  rw [← flatMap_getD]
  unfold schemeWords
  congr 1
  funext k
  cases schemes[k].defn <;> rfl

/-- A scheme's entry of a saved module is the only one with its number. -/
theorem schemeEntries_named (hsize : ∀ (k : SchemeId) (d : SchemeDef), schemes[k].defn = some d →
      ∀ rest, size (f k d ++ rest) = (f k d).length)
    (hname : ∀ (k : SchemeId) (d : SchemeDef), ∃ lo rest, f k d = joinBytes (BitVec.ofNat 8 k.val) lo :: rest)
    (k : SchemeId) :
    (entriesOf size (schemeWords schemes f)).filter (fun e => (hiByte (e.getD 0 0)).toNat = k.val) =
      (schemes[k].defn.map (f k)).toList := by
  have cut : entriesOf size (schemeWords schemes f) =
      (List.finRange 32).filterMap (fun k => schemes[k].defn.map (f k)) := by
    rw [schemeWords_eq]
    refine entriesOf_flatten fun e he => ?_
    obtain ⟨j, -, hj⟩ := List.mem_filterMap.1 he
    obtain ⟨d, hd, rfl⟩ := Option.map_eq_some_iff.1 hj
    obtain ⟨lo, rest, e⟩ := hname j d
    exact ⟨by rw [e]; exact nofun, hsize j d hd⟩
  rw [cut]
  refine filter_named (name := fun e : List Word16 => (hiByte (e.getD 0 0)).toNat) (fun j e he => ?_) k
  obtain ⟨d, -, rfl⟩ := Option.map_eq_some_iff.1 he
  obtain ⟨lo, rest, e⟩ := hname j d
  rw [e, List.getD_cons_zero, hiByte_joinBytes, toNat_byte (by omega)]

end

/-! ### One header entry -/

theorem policyOf_policyCode (x : StalePolicy) : policyOf (Wire.policyCode x) = some x := by cases x <;> rfl

/-- The flags byte of a header entry: bits 0 and 1 of R42, the protection in bits 2 and 3 (R173). -/
def headerFlags (d : SchemeDef) : Byte :=
  BitVec.ofNat 8 (d.autoRearm.toNat + 2 * d.enabledAtStart.toNat) ||| (Wire.protectionCode d.protection <<< 2)

theorem headerFlags_eq (d : SchemeDef) :
    (BitVec.ofNat 8 (d.autoRearm.toNat + 2 * d.enabledAtStart.toNat) ||| (Wire.protectionCode d.protection <<< 2)) =
      headerFlags d := rfl

theorem protectionOf_headerFlags (d : SchemeDef) : protectionOf ((headerFlags d >>> 2) &&& 0x03) = some d.protection := by
  unfold headerFlags
  cases d.autoRearm <;> cases d.enabledAtStart <;> cases d.protection <;> rfl

theorem headerFlags_bits (d : SchemeDef) : (headerFlags d &&& 0xF3).toNat < 4 ∧
    (headerFlags d &&& 0xF3).getLsbD 0 = d.autoRearm ∧ (headerFlags d &&& 0xF3).getLsbD 1 = d.enabledAtStart := by
  unfold headerFlags
  cases d.autoRearm <;> cases d.enabledAtStart <;> cases d.protection <;> decide

/-- The header fields of a definition. -/
def SchemeDef.header (d : SchemeDef) : HeaderFields :=
  { label := d.label, owner := d.owner, authority := d.authority, autoRearm := d.autoRearm,
    enabledAtStart := d.enabledAtStart }

theorem headerFields_saved {d : SchemeDef} (h : d.Lawful) :
    headerFields d.label (BitVec.ofNat 8 d.owner.val) (d.authority.setWidth 8) (headerFlags d &&& 0xF3) =
      some d.header := by
  have owner : finOf 4 (BitVec.ofNat 8 d.owner.val).toNat = some d.owner := finOf_byte (by decide) _
  obtain ⟨small, rearm, start⟩ := headerFlags_bits d
  have bits : (d.authority.setWidth 8).toNat < 16 := by
    have := d.authority.isLt
    rw [BitVec.toNat_setWidth]
    omega
  have member : (d.authority.setWidth 8).getLsbD d.owner.val = true := by
    simp [h.authority]
    omega
  have authority : (d.authority.setWidth 8).setWidth 4 = d.authority := by simp
  simp only [headerFields, owner, h.label, bits, member, small, and_self, if_true, authority, rearm, start]
  rfl

theorem mapM_finOf_val {n : Nat} (xs : List (Fin n)) : (xs.map Fin.val).mapM (finOf n) = some xs := by
  induction xs with
  | nil => rfl
  | cons x xs ih => simp [ih, finOf_val]

theorem termsOf_saved {ts : List (MeasId × Int)} (hn : (ts.map Prod.fst).Nodup) (hw : ∀ t ∈ ts, -1024 ≤ t.2 ∧ t.2 ≤ 1024) :
    termsOf (ts.map (fun t => (t.1.val, t.2))) = some ts := by
  have slots : (ts.map (fun t => (t.1.val, t.2))).map Prod.fst = (ts.map Prod.fst).map Fin.val := by simp
  have distinct : ((ts.map (fun t => (t.1.val, t.2))).map Prod.fst).Nodup := by
    rw [slots]
    exact hn.map Fin.val_injective
  have weights : (ts.map (fun t => (t.1.val, t.2))).all (fun t => decide (-1024 ≤ t.2 ∧ t.2 ≤ 1024)) = true := by
    simpa using hw
  rw [termsOf, if_pos ⟨distinct, weights⟩]
  clear hn hw slots distinct weights
  induction ts with
  | nil => rfl
  | cons t ts ih =>
    rw [List.map_cons, List.mapM_cons, ih]
    simp [finOf_val]

theorem termWordsOf_saved {ts : List (MeasId × Int)} (hw : ∀ t ∈ ts, -1024 ≤ t.2 ∧ t.2 ≤ 1024) :
    termWordsOf (ts.flatMap (fun t => [BitVec.ofNat 16 t.1.val, BitVec.ofInt 16 t.2])) =
      ts.map (fun t => (t.1.val, t.2)) := by
  rw [termWordsOf, pairsOf_map, List.map_map]
  refine List.map_congr_left fun t ht => ?_
  obtain ⟨low, high⟩ := hw t ht
  exact Prod.ext (toNat_word (by omega)) (toInt_word (by omega))

/-- A label of eight bytes is read from its four words. -/
theorem label_saved {label : List Byte} (h : label.length = 8) : ∃ a b c e : Word16,
    labelWords label = [a, b, c, e] ∧ [a, b, c, e].flatMap (fun x => [hiByte x, loByte x]) = label := by
  obtain ⟨b0, b1, b2, b3, b4, b5, b6, b7, rfl⟩ : ∃ b0 b1 b2 b3 b4 b5 b6 b7, label = [b0, b1, b2, b3, b4, b5, b6, b7] := by
    match label, h with
    | [b0, b1, b2, b3, b4, b5, b6, b7], _ => exact ⟨b0, b1, b2, b3, b4, b5, b6, b7, rfl⟩
  exact ⟨_, _, _, _, rfl, by simp [hiByte_joinBytes, loByte_joinBytes]⟩

/-- A header entry gives the header, terms, policy, protection and generation back (R55). -/
theorem headerEntry_headerWords {d : SchemeDef} (h : d.Lawful) (k : SchemeId) :
    headerEntry (headerWords k d) = some { SchemeDef.new d.header with
      protection := d.protection, defGen := d.defGen, terms := d.terms, policy := d.policy } := by
  obtain ⟨a, b, c, e, label, bytes⟩ := label_saved h.label.1
  obtain ⟨few, distinct, weights⟩ := h.terms
  have generation : (d.defGen.extractLsb' 16 8 ++ d.defGen.extractLsb' 0 16 : BitVec 24) = d.defGen := by
    apply BitVec.eq_of_getLsbD_eq
    intro i hi
    simp only [BitVec.getLsbD_append, BitVec.getLsbD_extractLsb']
    by_cases h16 : i < 16
    · simp [h16]
    · simp [h16, show i - 16 < 8 by omega, show 16 + (i - 16) = i by omega]
  have fields := headerFields_saved h
  have protection := protectionOf_headerFlags d
  have terms := termsOf_saved distinct weights
  rw [← termWordsOf_saved weights] at terms
  simp only [headerEntry, headerWords, label, List.cons_append, List.nil_append, List.getD_cons_succ,
    List.getD_cons_zero, List.drop_succ_cons, List.drop_zero, hiByte_joinBytes, loByte_joinBytes, headerFlags_eq, bytes,
    fields, protection, terms, policyOf_policyCode, generation, few, if_true]

/-! ### The other entries -/

/-- A curve entry sets the curve, the margin and the overshoot (R55). -/
theorem SchemeLoad.curve_curveWords {d d' : SchemeDef} (h : d.Lawful) (k : SchemeId) {x : SchemeLoad}
    (hx : x.defn = some d') (hs : x.curveSet = false) : x.curve (curveWords k d) = { x with
      defn := some { d' with curve := d.curve, margin := d.margin, overshoot := d.overshoot }, curveSet := true } := by
  obtain ⟨count, most, valid⟩ := h.curve
  have ranges := valid
  simp only [curveValid, Bool.and_eq_true, decide_eq_true_eq, List.all_eq_true] at ranges
  obtain ⟨⟨⟨points, -⟩, margin⟩, overshoot⟩ := ranges
  have curve : (pairsOf (d.curve.flatMap (fun c => [BitVec.ofInt 16 c.1, BitVec.ofNat 16 c.2]))).map
      (fun c => (c.1.toInt, c.2.toNat)) = d.curve := by
    rw [pairsOf_map, List.map_map]
    refine (List.map_congr_left fun c hc => ?_).trans (List.map_id _)
    obtain ⟨low, high, y⟩ := points c hc
    exact Prod.ext (toInt_word (by omega)) (toNat_word (by omega))
  have counted : d.curve.length = 0 ∨ 2 ≤ d.curve.length ∧ d.curve.length ≤ 8 :=
    count.imp (fun e => by rw [e]; rfl) (fun e => ⟨e, most⟩)
  have margin' : (BitVec.ofNat 16 d.margin).toNat = d.margin := toNat_word (by omega)
  have overshoot' : (BitVec.ofNat 16 d.overshoot).toNat = d.overshoot := toNat_word (by omega)
  simp only [SchemeLoad.curve, hx, curveWords, List.cons_append, List.nil_append, List.getD_cons_succ,
    List.getD_cons_zero, List.drop_succ_cons, List.drop_zero, curve, margin', overshoot']
  rw [if_pos ⟨hs, counted, valid⟩]

theorem map_toNat_words {n : Nat} (hn : n ≤ 65536) (xs : List (Fin n)) :
    (xs.map (fun x => BitVec.ofNat 16 x.val)).map BitVec.toNat = xs.map Fin.val := by
  rw [List.map_map]
  exact List.map_congr_left fun x _ => toNat_word (by omega)

/-- A candidates entry sets the candidates (R55). -/
theorem SchemeLoad.candidates_candidateWords {d d' : SchemeDef} (h : d.Lawful) (k : SchemeId) {x : SchemeLoad}
    (hx : x.defn = some d') (hs : x.candidatesSet = false) : x.candidates (candidateWords k d) = { x with
      defn := some { d' with candidates := d.candidates }, candidatesSet := true } := by
  obtain ⟨most, distinct⟩ := h.candidates
  have candidates : candidatesOf (d.candidates.map Fin.val) = some d.candidates := by
    rw [candidatesOf, if_pos ⟨by simpa using most, distinct.map Fin.val_injective⟩, mapM_finOf_val]
  simp only [SchemeLoad.candidates, hx, candidateWords, List.drop_succ_cons, List.drop_zero,
    map_toNat_words (n := 128) (by decide), candidates, hs]
  rfl

/-- A triggers entry sets the sources, the coincidence count and the window (R55). -/
theorem SchemeLoad.triggers_triggerWords {d d' : SchemeDef} (h : d.Lawful) (k : SchemeId) {x : SchemeLoad}
    (hx : x.defn = some d') (hs : x.triggersSet = false) : x.triggers (triggerWords k d) = { x with
      defn := some { d' with sources := d.sources, k := d.k, window := d.window }, triggersSet := true } := by
  obtain ⟨most, distinct⟩ := h.sources
  obtain ⟨k1, k2, w1, w2⟩ := h.coincidence
  have sources : sourcesOf (d.sources.map Fin.val) = some d.sources := by
    rw [sourcesOf, if_pos ⟨by simpa using most, distinct.map Fin.val_injective⟩, mapM_finOf_val]
  have count : (BitVec.ofNat 16 d.k).toNat = d.k := toNat_word (by omega)
  have window : (BitVec.ofNat 16 d.window).toNat = d.window := toNat_word (by omega)
  simp only [SchemeLoad.triggers, hx, triggerWords, List.cons_append, List.nil_append, List.getD_cons_succ,
    List.getD_cons_zero, List.drop_succ_cons, List.drop_zero, map_toNat_words (n := 64) (by decide), sources, count, window]
  rw [if_pos ⟨hs, k1, k2, w1, w2⟩]

/-! ### The four modules -/

section

variable {s : State} (hs : s.DefinitionLaw) (k : SchemeId)

include hs

theorem headerEntries_named :
    (entriesOf (fun e => 9 + 2 * countAt 8 e) (schemeWords s.schemes headerWords)).filter
      (fun e => (hiByte (e.getD 0 0)).toNat = k.val) = (s.schemes[k].defn.map (headerWords k)).toList := by
  refine schemeEntries_named (f := headerWords) (fun k d hd rest => ?_) (fun k d => ⟨_, _, rfl⟩) k
  have lawful := hs k d hd
  obtain ⟨a, b, c, e, label, -⟩ := label_saved lawful.label.1
  have terms : (BitVec.ofNat 8 d.terms.length).toNat = d.terms.length := toNat_byte (by have := lawful.terms.1; omega)
  simp only [countAt, headerWords, label, List.cons_append, List.nil_append, List.getD_cons_succ, List.getD_cons_zero,
    loByte_joinBytes, terms, List.length_cons, List.length_flatMap, List.length_nil, List.map_const', List.sum_replicate,
    smul_eq_mul]
  omega

theorem curveEntries_named :
    (entriesOf (fun e => 3 + 2 * countAt 0 e) (schemeWords s.schemes curveWords)).filter
      (fun e => (hiByte (e.getD 0 0)).toNat = k.val) = (s.schemes[k].defn.map (curveWords k)).toList := by
  refine schemeEntries_named (f := curveWords) (fun k d hd rest => ?_) (fun k d => ⟨_, _, rfl⟩) k
  have curve : (BitVec.ofNat 8 d.curve.length).toNat = d.curve.length :=
    toNat_byte (by have := (hs k d hd).curve.2.1; omega)
  simp only [countAt, curveWords, List.cons_append, List.nil_append, List.getD_cons_zero, loByte_joinBytes, curve,
    List.length_cons, List.length_flatMap, List.length_nil, List.map_const', List.sum_replicate, smul_eq_mul]
  omega

theorem candidateEntries_named :
    (entriesOf (fun e => 1 + countAt 0 e) (schemeWords s.schemes candidateWords)).filter
      (fun e => (hiByte (e.getD 0 0)).toNat = k.val) = (s.schemes[k].defn.map (candidateWords k)).toList := by
  refine schemeEntries_named (f := candidateWords) (fun k d hd rest => ?_) (fun k d => ⟨_, _, rfl⟩) k
  have candidates : (BitVec.ofNat 8 d.candidates.length).toNat = d.candidates.length :=
    toNat_byte (by have := (hs k d hd).candidates.1; omega)
  simp only [countAt, candidateWords, List.cons_append, List.getD_cons_zero, loByte_joinBytes, candidates,
    List.length_cons, List.length_map]
  omega

theorem triggerEntries_named :
    (entriesOf (fun e => 3 + countAt 0 e) (schemeWords s.schemes triggerWords)).filter
      (fun e => (hiByte (e.getD 0 0)).toNat = k.val) = (s.schemes[k].defn.map (triggerWords k)).toList := by
  refine schemeEntries_named (f := triggerWords) (fun k d hd rest => ?_) (fun k d => ⟨_, _, rfl⟩) k
  have sources : (BitVec.ofNat 8 d.sources.length).toNat = d.sources.length :=
    toNat_byte (by have := (hs k d hd).sources.1; omega)
  simp only [countAt, triggerWords, List.cons_append, List.nil_append, List.getD_cons_zero, loByte_joinBytes, sources,
    List.length_cons, List.length_map]
  omega

/-- The saved scheme modules give every definition back (R55). -/
theorem loadScheme_saved :
    loadScheme (entriesOf (fun e => 9 + 2 * countAt 8 e) (schemeWords s.schemes headerWords))
      (entriesOf (fun e => 3 + 2 * countAt 0 e) (schemeWords s.schemes curveWords))
      (entriesOf (fun e => 1 + countAt 0 e) (schemeWords s.schemes candidateWords))
      (entriesOf (fun e => 3 + countAt 0 e) (schemeWords s.schemes triggerWords)) k = s.schemes[k].defn := by
  simp only [loadScheme, headerEntries_named hs, curveEntries_named hs, candidateEntries_named hs,
    triggerEntries_named hs]
  cases hd : s.schemes[k].defn with
  | none => rfl
  | some d =>
    have lawful := hs k d hd
    simp only [Option.map_some, Option.toList_some, List.foldl_cons, List.foldl_nil, SchemeLoad.header,
      headerEntry_headerWords lawful]
    rw [SchemeLoad.curve_curveWords lawful k rfl rfl, SchemeLoad.candidates_candidateWords lawful k rfl rfl,
      SchemeLoad.triggers_triggerWords lawful k rfl rfl]
    rfl

end

/-! ## Loading a saved image -/

section

variable (s u : State)

/-- The image a save of `s` writes, read back. -/
def State.savedImage (s : State) : Image := { length := imageLength s.moduleBodies, modules := s.moduleBodies.map some }

theorem State.reload_params (l : LinkId) : (u.loadTables (some s.savedImage)).links[l].params = s.links[l].params := by
  rw [State.loadTables_links]
  exact stationMap_stationWords s.links l

theorem State.reload_links (l : LinkId) : (u.loadTables (some s.savedImage)).links[l] = { u.links[l] with
    params := s.links[l].params, held := false, orders := [], transmitting := none
    receiving := if s.links[l].params.enabled then u.links[l].receiving else [] } := by
  have params : (stationMap (loadBody (some s.savedImage) 0))[l] = s.links[l].params := stationMap_stationWords s.links l
  rw [State.loadTables_links, params]

theorem State.reload_points (hs : s.PointLaw) (p : PointId) :
    (u.loadTables (some s.savedImage)).points[p] = reloadedPoint s.links s.points[p] := by
  rw [State.loadTables_points]
  refine (pointTable_pointWords hs p).trans ?_
  simp only [reloadedPoint, State.reload_params]

theorem State.reload_schemes (hs : s.DefinitionLaw) (k : SchemeId) :
    (u.loadTables (some s.savedImage)).schemes[k] = Scheme.loaded u.schemes[k].armGen s.schemes[k].defn := by
  rw [State.loadTables_schemes]
  exact congrArg _ (loadScheme_saved hs k)

end

/-- Settles O12: the length, the image read back, and each table from the words of its module. -/
theorem savedImageReadsBack : Obligations.SavedImageReadsBack := by
  intro s m hs hm
  have length := imageLength_le hs
  refine ⟨length, readImage_saved hm rfl (by omega), fun hmeas hdet hpoints u => ⟨fun l => State.reload_links s u l,
    fun i => ?_, fun d => ⟨?_, u.loadTables_recentRise _ d⟩, fun p => ⟨u.loadTables_lateLists _ p, ?_⟩, fun k => ?_⟩⟩
  · obtain ⟨-, -, -, -, low, high, -⟩ := hmeas i
    rw [State.loadTables_meas]
    cases h : s.meas[i].link with
    | none => exact measTable_unmapped h
    | some l => exact measTable_mapped h ⟨low, high⟩
  · obtain ⟨high, low, -, -⟩ := hdet d
    exact detTable_detWords high low
  · refine (State.reload_points s u hpoints p).trans ?_
    cases s.points[p] with
    | none => rfl
    | some x => exact if_congr (LinkParams.isFull_iff _) rfl rfl
  · refine (State.reload_schemes s u hs k).trans ?_
    cases s.schemes[k].defn with
    | none => rfl
    | some d => simp only [Scheme.loaded, Bool.and_eq_true]

end Sys2Proof.Machine
end

section
/-! SUPPORT. What every change of the part keeps of the point law (R22) and of the order law (R24, R133, R151), and the bound
of a link's queue (R136). -/

namespace Sys2Proof.Machine

/-! ## The point law -/

/-- A change of a point that keeps its definition keeps every definition. -/
theorem modV_definitions {v : Vector (Option Point) 128} {p : PointId} {f : Point → Point} (hf : ∀ x, (f x).defn = x.defn)
    (q : PointId) : (modV v p (fun x => x.map f))[q].map Point.defn = v[q].map Point.defn := by
  rw [getElem_modV_fin]
  split
  · rw [Option.map_map]
    exact congrArg (fun g => v[q].map g) (funext hf)
  · rfl

/-- No change of an event touches a definition. -/
theorem Work.keeps_definitions {s t : State} (h : Work s t) (q : PointId) :
    t.points[q].map Point.defn = s.points[q].map Point.defn := by
  cases h with
  | point p f hf => exact modV_definitions hf q
  | place p x o =>
    exact modV_definitions (f := fun x => { x with orderState := .ordered, lastTag := some o.tag, lastOutcome := .none })
      (fun _ => rfl) q
  | endOrder l p f hf => exact modV_definitions (fun x => (hf x).1) q
  | tables => rfl
  | _ => simp

/-- What WRITE_POINT takes lies in the ranges of R22. -/
theorem writtenPoint_ok {b : PointBody} {p : PointId} {d : PointDef} (h : writtenPoint b p = some d) :
    2 ≤ d.timeout ∧ d.timeout ≤ 250 ∧ d.backup ≠ some p := by
  unfold writtenPoint at h
  split at h
  · next hr =>
    obtain ⟨backup, timeout⟩ := pointDefOf_ok h
    exact ⟨timeout ▸ hr.1, timeout ▸ hr.2, backup⟩
  · cases h

/-- A definition write, a load and a cold reset set definitions; each that they set fits. -/
theorem Change.keeps_pointLaw {s t : State} (h : Change s t) (hs : s.PointLaw) : t.PointLaw := by
  cases h with
  | work h => exact PointsLawful_map hs h.keeps_definitions
  | definePoint p b d _ hw hf => exact PointsLawful_set hs hf (writtenPoint_ok hw)
  | rewritePoint p b x d f hx hw hf hd =>
    rw [s.modPoint_eq hx]
    refine PointsLawful_set (links := s.links) hs ?_ ?_ <;> rw [hd x]
    · exact hf
    · exact writtenPoint_ok hw
  | load m image =>
    show PointsLawful _
    rw [State.loadTables_points]
    exact PointsLawful_pointTable _ _
  | cold => exact PointsLawful_none
  | _ => exact hs

/-! ## The order law -/

/-- The order law is kept by what keeps the points lawful with the keys in flight, and lets bench mode place no order. -/
theorem State.OrderLaw.of_keys {s t : State} (hs : s.OrderLaw) (hr : t.inReset = s.inReset) (hb : t.bench = s.bench)
    (ho : OrdersLawful s.points s.keys → OrdersLawful t.points t.keys)
    (hk : s.bench = true → (∀ l, s.keys l = []) → ∀ l, t.keys l = []) : t.OrderLaw := by
  rw [State.orderLaw_iff] at hs ⊢
  intro awake
  obtain ⟨orders, bench⟩ := hs (hr ▸ awake)
  exact ⟨ho orders, fun h => hk (hb ▸ h) (bench (hb ▸ h))⟩

/-- The order law speaks of the points and of the keys in flight only. -/
theorem State.OrderLaw.of_same {s t : State} (hs : s.OrderLaw) (hr : t.inReset = s.inReset) (hb : t.bench = s.bench)
    (hp : t.points = s.points) (hk : ∀ l, t.keys l = s.keys l) : t.OrderLaw := by
  have keys : t.keys = s.keys := funext hk
  exact hs.of_keys hr hb (fun h => by rw [hp, keys]; exact h) (fun _ h => by rw [keys]; exact h)

/-- No point is ORDERED and no order is in flight. -/
theorem State.OrderLaw.of_empty {t : State} (hp : ∀ p : PointId, ∀ x, t.points[p] = some x → x.orderState ≠ .ordered)
    (hl : ∀ l : LinkId, t.links[l].orders = []) : t.OrderLaw := by
  have keys : t.keys = fun _ => [] := funext fun l => by rw [State.keys, hl, List.map_nil]
  refine t.orderLaw_iff.2 fun _ => ?_
  rw [keys]
  exact ⟨.empty hp, fun _ _ => rfl⟩

/-- The keys in flight after a change of one link. -/
theorem State.keys_modLink (s : State) (l : LinkId) (f : Link → Link) (j : LinkId) :
    (s.modLink l f).keys j = if j = l then (f s.links[j]).orders.map TripOrder.key else s.keys j := by
  unfold State.keys State.modLink
  rw [getElem_modV_fin]
  simp only [eq_comm (a := l)]
  split <;> rfl

/-- The keys left on a link when the order of a point is discarded. -/
theorem TripOrder.map_key_filter (os : List TripOrder) (p : PointId) :
    (os.filter (fun o => o.point ≠ p)).map TripOrder.key =
      (os.map TripOrder.key).filter (fun k => decide (k.1 ≠ p)) := by
  rw [List.filter_map]
  rfl

/-- Placing and ending an order change the point and the keys together; a change without an order leaves both. -/
theorem Work.keeps_orderLaw {s t : State} (h : Work s t) (hs : s.OrderLaw) : t.OrderLaw := by
  cases h with
  | links v hk => exact hs.of_same rfl rfl rfl hk
  | warmLinks v hk => exact hs.of_same rfl rfl rfl hk
  | point p f hd ho hn =>
    exact hs.of_keys rfl rfl (fun h => h.point (fun x hx hi => ⟨hd x, ho x hx hi⟩) hn) (fun _ h => h)
  | place p x o hx hi hp ha hb =>
    have keys : State.keys ((s.modLink x.defn.link (fun k =>
          { k with nextTag := k.nextTag + 1, orders := k.orders ++ [o] })).modPoint p
        (fun x => { x with orderState := .ordered, lastTag := some o.tag, lastOutcome := .none })) =
        fun l => if l = x.defn.link then s.keys l ++ [(p, o.address, o.tag)] else s.keys l := by
      funext l
      refine (s.keys_modLink x.defn.link _ l).trans ?_
      rw [List.map_append, List.map_singleton, TripOrder.key, hp]
      rfl
    refine hs.of_keys rfl rfl (fun h => ?_) (fun bench => nomatch hb.symm.trans bench)
    rw [keys]
    exact h.place (f := fun x => { x with orderState := .ordered, lastTag := some o.tag, lastOutcome := .none }) hx hi ha
      ⟨rfl, rfl, rfl⟩
  | endOrder l p f hf ho =>
    have keys : State.keys ((s.modPoint p f).discardOrder l p) =
        fun j => if j = l then (s.keys j).filter (fun k => decide (k.1 ≠ p)) else s.keys j := by
      funext j
      refine ((s.modPoint p f).keys_modLink l _ j).trans ?_
      rw [TripOrder.map_key_filter]
      rfl
    refine hs.of_keys rfl rfl (fun h => ?_) (fun _ none j => ?_)
    · rw [keys]
      exact h.endOrder hf (ho.imp_left fun ⟨o, mem, e⟩ => ⟨o.key, List.mem_map_of_mem mem, e⟩)
    · rw [keys]
      simp only [none j, List.filter_nil, ite_self]
  | tables => exact hs.of_same rfl rfl rfl (fun _ => rfl)
  | _ => exact hs.of_same (by simp) (by simp) (by simp) (fun l => by simp [State.keys])

/-- A point written is not ORDERED before or after, and a load and a cold reset leave no order. -/
theorem Change.keeps_orderLaw {s t : State} (h : Change s t) (hs : s.OrderLaw) : t.OrderLaw := by
  cases h with
  | work h => exact h.keeps_orderLaw hs
  | definePoint p b d hp =>
    exact hs.of_keys rfl rfl (fun h => h.define hp (by simp [Point.new])) (fun _ h => h)
  | rewritePoint p b x d f hx _ _ _ ho hn =>
    refine hs.of_keys rfl rfl (fun h => h.point (fun y hy hi => ?_) (fun y _ => hn y)) (fun _ h => h)
    obtain rfl := Option.some.inj (hx.symm.trans hy)
    exact absurd hi ho
  | load m image =>
    refine .of_empty (fun p x hx => ?_) (fun l => by rw [State.loadTables_links])
    rw [State.loadTables_points] at hx
    exact pointTable_not_ordered _ _ p x hx
  | assertReset => exact fun awake => nomatch awake
  | cold =>
    refine .of_empty (fun p x hx => ?_) (fun l => by rw [State.cold_links]; rfl)
    rw [State.cold_points] at hx
    cases hx
  | _ => exact hs.of_same rfl rfl rfl (fun _ => rfl)

/-! ## The bound of a link's queue -/

/-- Each order in flight on a link is that of another point of the link, and at most 32 points name it (R22, R136). -/
theorem State.orders_length_le {s : State} (hp : s.PointLaw) (ho : s.OrderLaw) (hs : s.inReset = false) (l : LinkId) :
    (s.links[l]).orders.length ≤ 32 := by
  obtain ⟨-, ordered, once, -⟩ := ho hs
  obtain ⟨-, named, -⟩ := hp
  have points : ∀ p ∈ (s.links[l]).orders.map TripOrder.point, ∃ x, s.points[p] = some x ∧ x.defn.link = l := by
    intro p h
    obtain ⟨o, mem, rfl⟩ := List.mem_map.1 h
    obtain ⟨x, hx, -, link, -⟩ := ordered l o mem
    exact ⟨x, hx, link⟩
  calc (s.links[l]).orders.length = ((s.links[l]).orders.map TripOrder.point).length := (List.length_map _).symm
    _ ≤ (definedPoints s.points).countP (fun d => decide (d.link = l)) :=
        length_le_countP_definedPoints (once l) points
    _ ≤ 32 := named l

/-- Settles O56: each kind of change keeps both laws, and a step makes only such changes. -/
theorem everyStepKeepsThePointLaw : Obligations.EveryStepKeepsThePointLaw :=
  ⟨fun _ _ h => ⟨step_keeps (fun _ _ hs => hs) (fun _ _ c hs => c.keeps_pointLaw hs) h,
      step_keeps (fun _ _ hs => hs) (fun _ _ c hs => c.keeps_orderLaw hs) h⟩,
    fun _ hp ho hs l => State.orders_length_le hp ho hs l⟩

end Sys2Proof.Machine
end

section
/-! SUPPORT. How the selection walk judges a candidate (R23, R100, R101), and the completion of a deferred block (R34). -/

namespace Sys2Proof.Machine

/-! ## A point's availability for arming (R23) -/

namespace State

variable {s : State} {p : PointId} {x : Point}

theorem unavailable_undefined (h : s.points[p] = none) : s.unavailable p = some .blocked := by
  simp only [unavailable, h]

theorem unavailable_blocked (h : s.points[p] = some x) (ha : x.availability = .blocked) :
    s.unavailable p = some .blocked := by
  simp only [unavailable, h, ha]

theorem unavailable_faulted (h : s.points[p] = some x) (ha : x.availability = .faulted) :
    s.unavailable p = some .faulted := by
  simp only [unavailable, h, ha]

theorem unavailable_blockPending (h : s.points[p] = some x) (ha : x.availability = .inService)
    (hb : x.blockPending = true) : s.unavailable p = some .blockPending := by
  simp only [unavailable, h, ha, hb, if_true]

theorem unavailable_ordered (h : s.points[p] = some x) (ha : x.availability = .inService)
    (hb : x.blockPending = false) (ho : x.orderState = .ordered) : s.unavailable p = some .ordered := by
  simp only [unavailable, h, ha, hb, ho, Bool.false_eq_true, if_false]

theorem unavailable_tripped (h : s.points[p] = some x) (ha : x.availability = .inService)
    (hb : x.blockPending = false) (ho : x.orderState = .tripped) : s.unavailable p = some .tripped := by
  simp only [unavailable, h, ha, hb, ho, Bool.false_eq_true, if_false]

theorem unavailable_idle (h : s.points[p] = some x) (ha : x.availability = .inService)
    (hb : x.blockPending = false) (ho : x.orderState = .idle) :
    s.unavailable p = if (s.meas[x.defn.valueSlot]).stale then some .stale else none := by
  simp only [unavailable, h, ha, hb, ho, Bool.false_eq_true, if_false]

/-! ## One candidate (R100) -/

variable {cap : Nat} {w : Walk} {c : CandidateCopy}

theorem judgeCandidate_unavailable {r : SkipReason} (h : s.unavailable c.point = some r) :
    s.judgeCandidate cap w c = { w with skipped := w.skipped ++ [(c.point, r)] } := by
  simp only [judgeCandidate, h]

theorem judgeCandidate_no_value (h : s.unavailable c.point = none) (hv : c.value = none) :
    s.judgeCandidate cap w c = { w with skipped := w.skipped ++ [(c.point, .stale)] } := by
  simp only [judgeCandidate, h, hv]

/-- An available candidate with a copied value is judged by the value and the cap. -/
theorem judgeCandidate_value {v : Int} (h : s.unavailable c.point = none) (hv : c.value = some v) :
    s.judgeCandidate cap w c =
      if v ≤ 0 then { w with skipped := w.skipped ++ [(c.point, .noOutput)] }
      else if cap < w.total + v.toNat then { w with skipped := w.skipped ++ [(c.point, .overshoot)] }
      else { w with selected := w.selected ++ [(c.point, v.toNat)], total := w.total + v.toNat } := by
  simp only [judgeCandidate, h, hv]

/-! ## The walk (R100) -/

variable {f : Figures}

theorem walkOn_reached (h : f.a ≤ w.total) (cs : List CandidateCopy) (n : Nat) :
    s.walkOn f cs n w = { w with remaining := [] } := by
  cases cs with
  | nil => rfl
  | cons c cs => cases n <;> exact if_pos h

end State

/-- Settles O22: one equation for each test of R23 and R100, for the walk and for the adequacy. -/
theorem candidateIsJudged : Obligations.CandidateIsJudged := by
  refine ⟨fun s cap w c => ⟨fun r h => State.judgeCandidate_unavailable h, fun h hv => State.judgeCandidate_no_value h hv,
      fun v h hv => ?_⟩,
    fun s f w c cs n => ⟨fun h xs => State.walkOn_reached h xs n, fun h => ?_⟩,
    fun s p => ⟨fun h => State.unavailable_undefined h, fun x h => ⟨fun ha => State.unavailable_blocked h ha,
      fun ha => State.unavailable_faulted h ha, fun ha => ⟨fun hb => State.unavailable_blockPending h ha hb,
        fun hb => ⟨fun ho => State.unavailable_ordered h ha hb ho, fun ho => State.unavailable_tripped h ha hb ho,
          fun ho => ?_⟩⟩⟩⟩,
    fun a total => ⟨fun h => if_pos h, fun h h' => ?_, fun h => ?_⟩⟩
  · rw [State.judgeCandidate_value h hv]
    refine ⟨fun hn => if_pos hn, fun hn hc => ?_, fun hn hc => ?_⟩
    · rw [if_neg (by omega), if_pos (by omega)]
    · rw [if_neg (by omega), if_neg (by omega)]
  · have below : ¬ f.a ≤ w.total := by omega
    exact ⟨rfl, if_neg below, if_neg below⟩
  · rw [State.unavailable_idle h ha hb ho]
    exact ⟨fun hs => if_pos hs, fun hs => if_neg (by rw [hs]; decide)⟩
  · rw [judgeAdequacy, if_neg (by omega), if_pos h']
  · rw [judgeAdequacy, if_neg (by omega), if_neg (by omega)]

/-! ## Deferred blocks (R34) -/

theorem State.blockDue_iff {s : State} {p : PointId} {x : Point} (h : s.points[p] = some x) :
    s.blockDue p = true ↔ x.blockPending = true ∧ s.holders p = 0 ∧ x.orderState ≠ .ordered := by
  simp only [State.blockDue, h, Bool.and_eq_true, decide_eq_true_eq, and_assoc]

theorem exec_deferredBlockComplete (p : PointId) (s : State) :
    exec (.deferredBlockComplete p) s = s.event (fun s => s.completeBlock p) := rfl

/-- Settles O34: the block completes exactly where it is due. -/
theorem deferredBlockCompletes : Obligations.DeferredBlockCompletes := by
  intro p x s hs hx
  rw [exec_deferredBlockComplete, State.event_awake hs]
  refine ⟨fun hb hh ho => ?_, fun h => ?_⟩
  · rw [State.completeBlock_due ((State.blockDue_iff hx).2 ⟨hb, hh, ho⟩), s.modPoint_eq hx]
  · rw [State.completeBlock_not_due]
    refine Bool.eq_false_iff.2 fun due => ?_
    obtain ⟨hb, hh, ho⟩ := (State.blockDue_iff hx).1 due
    rcases h with h | h | h
    · exact nomatch h.symm.trans hb
    · exact h hh
    · exact ho h

end Sys2Proof.Machine
end

section
/-! SUPPORT. The point requests of a point's owner and of any other party (R32 to R37). -/

namespace Sys2Proof.Machine

/-- A request that reaches its block, whose block leaves the tables as `t` and answers this (R161, R163). -/
theorem State.request_served {s t : State} {p : PartyId} (h : s.Takes p) {handler : State → State × Response}
    {status : Status} {body : List Byte} (hr : handler s = (t, { status := status, body := body })) :
    s.event (fun s => s.request p handler) = t.answered p status body := by
  obtain ⟨awake, -⟩ := id h
  rw [State.event_awake awake, State.request_taken h, hr]
  rfl

theorem State.namedPoint_defined {s : State} {b : Byte} {q : PointId} {x : Point} (h : b.toNat = q.val)
    (hx : s.points[q] = some x) : s.namedPoint b = some (q, x) := by
  simp only [State.namedPoint, h, finOf_val, hx, Option.map_some]

theorem State.linkFull_iff (s : State) (x : Point) : s.linkFull x = true ↔
    (s.links[x.defn.link]).params.enabled = true ∧ (s.links[x.defn.link]).params.mode = .full :=
  LinkParams.isFull_iff _

theorem State.statusAsserted_iff (s : State) (d : PointDef) :
    s.statusAsserted d = true ↔ ∃ e, d.statusSlot = some e ∧ (s.det[e]).asserted = true := by
  unfold State.statusAsserted
  cases d.statusSlot <;> simp

/-! ## UNBLOCK_POINT and RESTORE_POINT (R35, R36) -/

namespace State

section

variable {s : State} {p : PartyId} {b : Byte} {q : PointId} {x : Point}

theorem unblockPoint_unauthorized (h : s.namedPoint b = some (q, x)) (ho : x.defn.owner ≠ p) :
    s.unblockPoint p b = (s, refuse .notAuthorized) := by
  simp only [unblockPoint, h]
  exact if_pos ho

theorem unblockPoint_blocked (h : s.namedPoint b = some (q, x)) (ho : x.defn.owner = p) (ha : x.availability = .blocked)
    (hf : s.linkFull x = true) : s.unblockPoint p b =
      (((s.modPoint q (fun x => { x with availability := .inService })).append .pointUnblocked none (some q)
        (some p)).requestForPoint q, done []) := by
  simp only [unblockPoint, h, ha, hf, if_true]
  exact if_neg (not_not.2 ho)

theorem unblockPoint_pending (h : s.namedPoint b = some (q, x)) (ho : x.defn.owner = p)
    (ha : x.availability = .inService) (hb : x.blockPending = true) : s.unblockPoint p b =
      (((s.modPoint q (fun x => { x with blockPending := false })).append .pointUnblocked none (some q)
        (some p)).requestForPoint q, done []) := by
  simp only [unblockPoint, h, ha, hb, if_true]
  exact if_neg (not_not.2 ho)

theorem unblockPoint_refused (h : s.namedPoint b = some (q, x)) (ho : x.defn.owner = p)
    (hr : x.availability = .blocked ∧ s.linkFull x = false ∨ x.availability = .inService ∧ x.blockPending = false ∨
      x.availability = .faulted) : s.unblockPoint p b = (s, refuse .wrongState) := by
  simp only [unblockPoint, h]
  refine (if_neg (not_not.2 ho)).trans ?_
  rcases hr with ⟨ha, hf⟩ | ⟨ha, hb⟩ | ha
  · simp only [ha, hf, Bool.false_eq_true, if_false]
  · simp only [ha, hb, Bool.false_eq_true, if_false]
  · simp only [ha]

theorem restorePoint_unauthorized (h : s.namedPoint b = some (q, x)) (ho : x.defn.owner ≠ p) :
    s.restorePoint p b = (s, refuse .notAuthorized) := by
  simp only [restorePoint, h]
  exact if_pos ho

theorem restorePoint_ordered (h : s.namedPoint b = some (q, x)) (ho : x.defn.owner = p)
    (hs : x.orderState = .ordered) : s.restorePoint p b = (s, refuse .pointBusy) := by
  simp only [restorePoint, h]
  rw [if_neg (not_not.2 ho), if_pos hs]

/-- The three rows of R36 that refuse a point that is not ORDERED. -/
theorem restorePoint_refused (h : s.namedPoint b = some (q, x)) (ho : x.defn.owner = p) (hs : x.orderState ≠ .ordered)
    (hr : x.orderState = .tripped ∧ s.statusAsserted x.defn = true ∨ x.availability = .faulted ∧ s.linkFull x = false ∨
      x.orderState = .idle ∧ x.availability ≠ .faulted) : s.restorePoint p b = (s, refuse .wrongState) := by
  simp only [restorePoint, h]
  rw [if_neg (not_not.2 ho), if_neg hs]
  split
  · rfl
  · next tripped =>
    split
    · rfl
    · next faulted =>
      rcases hr with hr | hr | hr
      · exact absurd hr tripped
      · exact absurd hr faulted
      · exact if_pos hr

theorem restorePoint_done (h : s.namedPoint b = some (q, x)) (ho : x.defn.owner = p) (hs : x.orderState ≠ .ordered)
    (hc : x.orderState = .tripped → s.statusAsserted x.defn ≠ true) (hf : x.availability = .faulted → s.linkFull x = true)
    (ht : x.orderState = .tripped ∨ x.availability = .faulted) : s.restorePoint p b =
      (((s.modPoint q (fun x => { x with
          orderState := .idle
          availability := if x.availability = .faulted then .inService else x.availability })).append .pointRestored none
        (some q) (some p) (some ((if x.orderState = .tripped then 1 else 0) +
          (if x.availability = .faulted then 2 else 0)))).requestForPoint q, done []) := by
  simp only [restorePoint, h]
  rw [if_neg (not_not.2 ho), if_neg hs, if_neg (fun e => hc e.1 e.2),
    if_neg (fun e => Bool.eq_false_iff.1 e.2 (hf e.1)), if_neg]
  rintro ⟨idle, available⟩
  rcases ht with ht | ht
  · exact nomatch idle.symm.trans ht
  · exact available ht

end

end State

/-- Settles O49: one case of the two tables after another. -/
theorem unblockAndRestoreAreTaken : Obligations.UnblockAndRestoreAreTaken := by
  intro p b q x s hs hb hx ho full closed
  have named := State.namedPoint_defined hb hx
  have full_iff : s.linkFull x = true ↔ full := s.linkFull_iff x
  have not_full : ¬ full → s.linkFull x = false := fun h => Bool.eq_false_iff.2 fun h' => h (full_iff.1 h')
  have closed_iff : s.statusAsserted x.defn = true ↔ closed := s.statusAsserted_iff x.defn
  refine ⟨fun ha hf => ?_, fun ha hf => ?_, fun ha hp => ?_, fun ha hp => ?_, fun ha => ?_, fun hi => ?_, fun hi hc => ?_,
    fun hi ha hf => ?_, fun hi ha => ?_, fun hi hc hf ht => ?_⟩
  · rw [← s.modPoint_eq hx (fun x => { x with availability := .inService })]
    exact State.request_served hs (State.unblockPoint_blocked named ho ha (full_iff.2 hf))
  · exact State.request_answered hs (State.unblockPoint_refused named ho (.inl ⟨ha, not_full hf⟩))
  · rw [← s.modPoint_eq hx (fun x => { x with blockPending := false })]
    exact State.request_served hs (State.unblockPoint_pending named ho ha hp)
  · exact State.request_answered hs (State.unblockPoint_refused named ho (.inr (.inl ⟨ha, hp⟩)))
  · exact State.request_answered hs (State.unblockPoint_refused named ho (.inr (.inr ha)))
  · exact State.request_answered hs (State.restorePoint_ordered named ho hi)
  · exact State.request_answered hs (State.restorePoint_refused named ho (by simp [hi]) (.inl ⟨hi, closed_iff.2 hc⟩))
  · exact State.request_answered hs (State.restorePoint_refused named ho hi (.inr (.inl ⟨ha, not_full hf⟩)))
  · exact State.request_answered hs (State.restorePoint_refused named ho (by simp [hi]) (.inr (.inr ⟨hi, ha⟩)))
  · rw [← s.modPoint_eq hx (fun x => { x with
      orderState := .idle, availability := if x.availability = .faulted then .inService else x.availability })]
    exact State.request_served hs (State.restorePoint_done named ho hi (fun e h => hc e (closed_iff.1 h))
      (fun e => full_iff.2 (hf e)) ht)

/-! ## BLOCK_POINT (R33, R34) -/

/-- What a point that no entry names leaves of a list of entries. -/
theorem filter_other_points {q : PointId} {es : List (PointId × Nat)} (h : q ∉ es.map Prod.fst) :
    es.filter (fun e => decide (e.1 = q)) = [] ∧ es.filter (fun e => decide (e.1 ≠ q)) = es := by
  have other : ∀ e ∈ es, e.1 ≠ q := fun e mem eq => h (eq ▸ List.mem_map_of_mem mem)
  exact ⟨List.filter_eq_nil_iff.2 fun e mem => by simp [other e mem],
    List.filter_eq_self.2 fun e mem => by simp [other e mem]⟩

/-- A record gives up a point that it holds once: its entry is out, its credit is off T, and the adequacy is judged again
(R33). -/
theorem ArmingRecord.without_eq {r : ArmingRecord} {q : PointId} {credit : Nat} {before after : List (PointId × Nat)}
    (h : r.selected = before ++ (q, credit) :: after) (hb : q ∉ before.map Prod.fst) (ha : q ∉ after.map Prod.fst) :
    r.without q = { r with
      selected := before ++ after, total := r.total - credit
      adequacy := if r.figures.a ≤ r.total - credit then .full else .short
      shortfall := if r.figures.a ≤ r.total - credit then none else some (r.figures.a - (r.total - credit)) } := by
  obtain ⟨none_before, all_before⟩ := filter_other_points hb
  obtain ⟨none_after, all_after⟩ := filter_other_points ha
  have entry : r.selected.filter (fun e => decide (e.1 = q)) = [(q, credit)] := by
    rw [h, List.filter_append, none_before, List.filter_cons_of_pos (by simp), none_after, List.nil_append]
  have others : r.selected.filter (fun e => decide (e.1 ≠ q)) = before ++ after := by
    rw [h, List.filter_append, all_before, List.filter_cons_of_neg (by simp), all_after]
  unfold ArmingRecord.without
  rw [entry, others]
  rfl

namespace State

section

variable {s : State} {p : PartyId} {b : Byte} {q : PointId} {x : Point}

theorem blockImmediate_unauthorized (h : s.namedPoint b = some (q, x)) (ho : x.defn.owner ≠ p) :
    s.blockImmediate p b = (s, refuse .notAuthorized) := by
  simp only [blockImmediate, h]
  exact if_pos ho

theorem blockDeferred_unauthorized (h : s.namedPoint b = some (q, x)) (ho : x.defn.owner ≠ p) :
    s.blockDeferred p b = (s, refuse .notAuthorized) := by
  simp only [blockDeferred, h]
  exact if_pos ho

theorem blocks_ordered (h : s.namedPoint b = some (q, x)) (ho : x.defn.owner = p) (hs : x.orderState = .ordered) :
    s.blockImmediate p b = (s, refuse .pointBusy) ∧ s.blockDeferred p b = (s, refuse .pointBusy) := by
  simp only [blockImmediate, blockDeferred, h]
  rw [if_neg (not_not.2 ho), if_neg (not_not.2 ho), if_pos hs, if_pos hs]
  exact ⟨rfl, rfl⟩

theorem blocks_blocked (h : s.namedPoint b = some (q, x)) (ho : x.defn.owner = p) (hs : x.orderState ≠ .ordered)
    (ha : x.availability = .blocked) :
    s.blockImmediate p b = (s, done [0]) ∧ s.blockDeferred p b = (s, done [0]) := by
  simp only [blockImmediate, blockDeferred, h, ha]
  rw [if_neg (not_not.2 ho), if_neg (not_not.2 ho), if_neg hs, if_neg hs]
  exact ⟨rfl, rfl⟩

theorem blockImmediate_now (h : s.namedPoint b = some (q, x)) (ho : x.defn.owner = p) (hs : x.orderState ≠ .ordered)
    (ha : x.availability ≠ .blocked) : s.blockImmediate p b = s.blockNow p q := by
  simp only [blockImmediate, h]
  rw [if_neg (not_not.2 ho), if_neg hs, if_neg ha]

theorem blockDeferred_faulted (h : s.namedPoint b = some (q, x)) (ho : x.defn.owner = p) (hs : x.orderState ≠ .ordered)
    (ha : x.availability = .faulted) : s.blockDeferred p b = s.blockNow p q := by
  simp only [blockDeferred, h, ha]
  rw [if_neg (not_not.2 ho), if_neg hs]

/-- An IN_SERVICE point: the deferred block is pending already, made at once, or becomes pending (R34). -/
theorem blockDeferred_inService (h : s.namedPoint b = some (q, x)) (ho : x.defn.owner = p) (hs : x.orderState ≠ .ordered)
    (ha : x.availability = .inService) : s.blockDeferred p b =
      if x.blockPending then (s, done [Wire.u8 (s.holders q)])
      else if s.holders q = 0 then
        (((s.modPoint q (fun x => { x with availability := .blocked })).append .pointBlocked none (some q) (some p)
          (some 0)).requestForPoint q, done [0])
      else
        (((s.modPoint q (fun x => { x with blockPending := true })).append .pointBlocked none (some q) (some p)
          (some (-(s.holders q : Int)))).requestForPoint q, done [Wire.u8 (s.holders q)]) := by
  simp only [blockDeferred, h, ha]
  rw [if_neg (not_not.2 ho), if_neg hs]

end

/-- The scheme entries after every live arming record has given up point `q` (R33). -/
def schemesWithout (s : State) (q : PointId) : Vector Scheme 32 :=
  mapV (fun (sc : Scheme) => if sc.holdsPoint q then { sc with live := sc.live.map (fun r => r.without q) } else sc)
    s.schemes

theorem schemesWithout_entry (s : State) (q : PointId) (k : SchemeId) :
    ((s.schemes[k]).holdsPoint q = false → (s.schemesWithout q)[k] = s.schemes[k]) ∧
    (∀ r, (s.schemes[k]).live = some r → r.holds q = true →
      (s.schemesWithout q)[k] = { s.schemes[k] with live := some (r.without q) }) := by
  have entry : (s.schemesWithout q)[k] = if (s.schemes[k]).holdsPoint q then
      { s.schemes[k] with live := (s.schemes[k]).live.map (fun r => r.without q) } else s.schemes[k] :=
    getElem_mapV _ _ k.val k.isLt
  refine ⟨fun h => ?_, fun r live holds => ?_⟩
  · rw [entry, h]
    rfl
  · have h : (s.schemes[k]).holdsPoint q = true := by simp only [Scheme.holdsPoint, live, holds]
    rw [entry, if_pos h, live]
    rfl

theorem blockNow_eq {s : State} {q : PointId} {x : Point} (p : PartyId) (h : s.points[q] = some x) :
    s.blockNow p q = (State.requestForPoint (State.append { s with
      points := s.points.set q (some { x with availability := .blocked, blockPending := false })
      schemes := s.schemesWithout q } .pointBlocked none (some q) (some p) (some (s.holders q : Int))) q,
      done [Wire.u8 (s.holders q)]) := by
  unfold blockNow
  rw [s.modPoint_eq h]
  rfl

end State

/-- Settles O48: the record without the point, then one case of the two modes after another. -/
theorem blocksAreTaken : Obligations.BlocksAreTaken := by
  refine ⟨?_, fun p b q x s hs hb hx ho => ?_⟩
  · intro r q credit before after h hb ha left
    rw [ArmingRecord.without_eq h hb ha]
    refine ⟨fun hf => ?_, fun hf => ?_⟩
    · rw [if_pos hf, if_pos hf]
    · rw [if_neg (Nat.not_le.2 hf), if_neg (Nat.not_le.2 hf)]
  · have named := State.namedPoint_defined hb hx
    refine ⟨fun hi => ?_, fun hi ha => ?_, fun hi ha => ⟨s.schemesWithout q, fun c hc => ?_, s.schemesWithout_entry q⟩,
      fun hi ha hp => ?_, fun hi ha hp hn => ?_, fun hi ha hp hn => ?_⟩
    · obtain ⟨immediate, deferred⟩ := State.blocks_ordered named ho hi
      exact ⟨State.request_answered hs immediate, State.request_answered hs deferred⟩
    · obtain ⟨immediate, deferred⟩ := State.blocks_blocked named ho hi ha
      exact ⟨State.request_answered hs immediate, State.request_answered hs deferred⟩
    · rcases hc with rfl | ⟨rfl, hf⟩
      · exact State.request_served hs ((State.blockImmediate_now named ho hi ha).trans (State.blockNow_eq p hx))
      · exact State.request_served hs ((State.blockDeferred_faulted named ho hi hf).trans (State.blockNow_eq p hx))
    · exact State.request_answered hs ((State.blockDeferred_inService named ho hi ha).trans (if_pos hp))
    · rw [← s.modPoint_eq hx (fun x => { x with availability := .blocked })]
      refine State.request_served hs ((State.blockDeferred_inService named ho hi ha).trans ?_)
      rw [hp, if_pos hn]
      rfl
    · rw [← s.modPoint_eq hx (fun x => { x with blockPending := true })]
      refine State.request_served hs ((State.blockDeferred_inService named ho hi ha).trans ?_)
      rw [hp, if_neg hn]
      rfl

end Sys2Proof.Machine
end

section
/-! SUPPORT. WRITE_POINT (R22, R32, R37), and the requests of a party without the authority they ask for. -/

namespace Sys2Proof.Machine

/-! ## A definition that fits (R22) -/

theorem mem_othersDefined {points : Vector (Option Point) 128} {q : PointId} {d : PointDef} :
    d ∈ othersDefined points q ↔ ∃ r, r ≠ q ∧ ∃ y, points[r] = some y ∧ y.defn = d := by
  unfold othersDefined
  rw [List.mem_filterMap]
  refine exists_congr fun r => ?_
  by_cases e : r = q <;> simp [e]

/-- How many others name a link, counted point by point. -/
theorem countP_othersDefined (points : Vector (Option Point) 128) (q : PointId) (l : LinkId) :
    (othersDefined points q).countP (fun y => decide (y.link = l)) = (List.finRange 128).countP (fun r =>
      decide (r ≠ q) && decide (points[r].map (fun y => y.defn.link) = some l)) := by
  unfold othersDefined
  rw [List.countP_filterMap]
  refine List.countP_congr fun r _ => ?_
  by_cases e : r = q
  · simp [e]
  · cases points[r] <;> simp [e]

theorem pointFits_iff (links : Vector Link 8) (points : Vector (Option Point) 128) (q : PointId) (d : PointDef) :
    pointFits links points q d = true ↔
      (links[d.link]).params.enabled = true ∧ (links[d.link]).params.mode = .full ∧
      (∀ (r : PointId) (y : Point), r ≠ q → points[r] = some y →
        ¬ (y.defn.link = d.link ∧ y.defn.address = d.address)) ∧
      (List.finRange 128).countP (fun r => decide (r ≠ q) &&
        decide (points[r].map (fun y => y.defn.link) = some d.link)) < 32 := by
  have apart : (othersDefined points q).all (fun y => !(decide (y.link = d.link) && decide (y.address = d.address))) = true ↔
      ∀ (r : PointId) (y : Point), r ≠ q → points[r] = some y →
        ¬ (y.defn.link = d.link ∧ y.defn.address = d.address) := by
    simp only [List.all_eq_true, mem_othersDefined, Bool.not_eq_true', Bool.and_eq_false_iff, decide_eq_false_iff_not,
      ← not_and_or]
    exact ⟨fun h r y hr hy => h y.defn ⟨r, hr, y, hy, rfl⟩, fun h d ⟨r, hr, y, hy, e⟩ => e ▸ h r y hr hy⟩
  unfold pointFits
  rw [Bool.and_eq_true, Bool.and_eq_true, decide_eq_true_eq, LinkParams.isFull_iff, apart, countP_othersDefined]
  simp only [and_assoc]

/-- The owner and the kind of a definition that a WRITE_POINT carries are those of its body. -/
theorem writtenPoint_fields {b : PointBody} {q : PointId} {d : PointDef} (h : writtenPoint b q = some d) :
    d.owner.val = b.owner.toNat ∧ kindOf b.kind = some d.kind := by
  unfold writtenPoint pointDefOf at h
  split at h
  · split at h
    · next owner kind _ _ _ =>
      split at h
      · cases h
      · cases h
        exact ⟨finOf_eq owner, kind⟩
    · cases h
  · cases h

/-! ## WRITE_POINT (R37) -/

namespace State

section

variable {s : State} {p : PartyId} {b : PointBody} {q : PointId} {x : Point} {d : PointDef}

theorem writePoint_unnamed (h : 128 ≤ b.point.toNat ∨ kindOf b.kind = none) :
    s.writePoint p b = (s, refuse .badArgument) := by
  unfold writePoint
  split
  · next r k hr hk =>
    rcases h with h | h
    · exact absurd (finOf_eq hr ▸ r.isLt) (Nat.not_lt.2 h)
    · exact nomatch h.symm.trans hk
  · rfl

theorem writePoint_unauthorized_undefined (hq : b.point.toNat = q.val) (hk : kindOf b.kind ≠ none)
    (hx : s.points[q] = none) (ho : b.owner.toNat ≠ p.val) : s.writePoint p b = (s, refuse .notAuthorized) := by
  obtain ⟨k, hk⟩ := Option.ne_none_iff_exists'.1 hk
  simp only [writePoint, hq, finOf_val, hk, hx]
  exact if_pos ho

theorem writePoint_unauthorized_defined (hq : b.point.toNat = q.val) (hk : kindOf b.kind ≠ none)
    (hx : s.points[q] = some x) (ho : x.defn.owner ≠ p) : s.writePoint p b = (s, refuse .notAuthorized) := by
  obtain ⟨k, hk⟩ := Option.ne_none_iff_exists'.1 hk
  simp only [writePoint, hq, finOf_val, hk, hx]
  exact if_pos ho

/-- The party may write point `q`: an undefined one as its owner to be, a defined one as its owner (check 2 of R37). -/
def MayWrite (s : State) (p : PartyId) (b : PointBody) (q : PointId) : Prop :=
  (s.points[q] = none ∧ b.owner.toNat = p.val) ∨ ∃ x, s.points[q] = some x ∧ x.defn.owner = p

theorem writePoint_unauthorized (hq : b.point.toNat = q.val) (hk : kindOf b.kind ≠ none) (hm : ¬ s.MayWrite p b q) :
    s.writePoint p b = (s, refuse .notAuthorized) := by
  cases hx : s.points[q] with
  | none => exact writePoint_unauthorized_undefined hq hk hx fun e => hm (.inl ⟨hx, e⟩)
  | some x => exact writePoint_unauthorized_defined hq hk hx fun e => hm (.inr ⟨x, hx, e⟩)

theorem writePoint_saving (hq : b.point.toNat = q.val) (hk : kindOf b.kind ≠ none) (hm : s.MayWrite p b q)
    (hs : s.saving = true) : s.writePoint p b = (s, refuse .storeBusy) := by
  obtain ⟨k, hk⟩ := Option.ne_none_iff_exists'.1 hk
  rcases hm with ⟨hx, ho⟩ | ⟨x, hx, ho⟩
  · simp only [writePoint, hq, finOf_val, hk, hx]
    rw [if_neg (not_not.2 ho), if_pos hs]
  · simp only [writePoint, hq, finOf_val, hk, hx]
    rw [if_neg (not_not.2 ho), if_pos hs]

theorem writePoint_wrongState (hq : b.point.toNat = q.val) (hk : kindOf b.kind ≠ none) (hx : s.points[q] = some x)
    (ho : x.defn.owner = p) (hs : s.saving = false) (hw : x.availability ≠ .blocked ∨ x.orderState = .ordered) :
    s.writePoint p b = (s, refuse .wrongState) := by
  obtain ⟨k, hk⟩ := Option.ne_none_iff_exists'.1 hk
  simp only [writePoint, hq, finOf_val, hk, hx]
  rw [if_neg (not_not.2 ho), hs, if_neg Bool.false_ne_true, if_pos hw]

/-- A body that is no definition, or none of the party's that fits (check 5 of R37). -/
theorem writePoint_unfit (hq : b.point.toNat = q.val) (hk : kindOf b.kind ≠ none) (hm : s.MayWrite p b q)
    (hs : s.saving = false) (hw : ∀ x, s.points[q] = some x → x.availability = .blocked ∧ x.orderState ≠ .ordered)
    (hd : ∀ d, writtenPoint b q = some d → pointFits s.links s.points q d = true → d.owner ≠ p) :
    s.writePoint p b = (s, refuse .badArgument) := by
  obtain ⟨k, hk⟩ := Option.ne_none_iff_exists'.1 hk
  rcases hm with ⟨hx, ho⟩ | ⟨x, hx, ho⟩
  · simp only [writePoint, hq, finOf_val, hk, hx]
    rw [if_neg (not_not.2 ho), hs, if_neg Bool.false_ne_true]
    cases h : writtenPoint b q with
    | none => rfl
    | some d =>
      refine if_neg fun hf => hd d h hf (Fin.ext ?_)
      rw [(writtenPoint_fields h).1, ho]
  · obtain ⟨blocked, free⟩ := hw x hx
    simp only [writePoint, hq, finOf_val, hk, hx]
    rw [if_neg (not_not.2 ho), hs, if_neg Bool.false_ne_true, if_neg (not_or.2 ⟨not_not.2 blocked, free⟩)]
    cases h : writtenPoint b q with
    | none => rfl
    | some d => exact if_neg fun hf => hd d h hf.2 (hf.1.trans ho)

theorem writePoint_defines (hq : b.point.toNat = q.val) (hs : s.saving = false) (hd : writtenPoint b q = some d)
    (ho : d.owner = p) (hf : pointFits s.links s.points q d = true) (hx : s.points[q] = none) :
    s.writePoint p b = ({ s with points := s.points.set q (some (.new d .blocked)) }, done []) := by
  obtain ⟨owner, hk⟩ := writtenPoint_fields hd
  have mine : ¬ b.owner.toNat ≠ p.val := not_not.2 (by rw [← owner, ho])
  simp only [writePoint, hq, finOf_val, hk, hx, hd, hf, hs]
  rw [if_neg mine]
  rfl

/-- A BLOCKED point that is not ORDERED takes the definition (R37). -/
theorem writePoint_rewrites (hq : b.point.toNat = q.val) (hs : s.saving = false) (hd : writtenPoint b q = some d)
    (ho : d.owner = p) (hf : pointFits s.links s.points q d = true) (hx : s.points[q] = some x) (hm : x.defn.owner = p)
    (ha : x.availability = .blocked) (hi : x.orderState ≠ .ordered) :
    let t : State := { s with
      points := s.points.set q (some (x.rewritten d (s.statusAsserted d)))
      lateLists := s.lateLists.set q (if d.link ≠ x.defn.link ∨ d.address ≠ x.defn.address then [] else s.lateLists[q]) }
    s.writePoint p b =
      (if x.orderState = .idle ∧ s.statusAsserted d = true then t.requestForPoint q else t, done []) := by
  obtain ⟨-, hk⟩ := writtenPoint_fields hd
  simp only [writePoint, hq, finOf_val, hk, hx, hd]
  rw [if_neg (not_not.2 hm), hs, if_neg Bool.false_ne_true, if_neg (not_or.2 ⟨not_not.2 ha, hi⟩),
    if_pos ⟨ho.trans hm.symm, hf⟩, s.modPoint_eq hx]
  simp only [Bool.and_eq_true, decide_eq_true_eq]
  rfl

end

end State

/-- Settles O47: the checks of R37 in their order, then the two effects. -/
theorem writePointIsTaken : Obligations.WritePointIsTaken := by
  intro p body s hs
  refine ⟨fun h => State.request_answered hs (State.writePoint_unnamed h), fun q hq => ⟨fun d => pointFits_iff _ _ q d,
    fun hk => ⟨fun hm => State.request_answered hs (State.writePoint_unauthorized hq hk hm),
      fun hm hb => State.request_answered hs (State.writePoint_saving hq hk hm hb),
      fun x hx ho hb hw => State.request_answered hs (State.writePoint_wrongState hq hk hx ho hb hw),
      fun hm hb hw hd => State.request_answered hs (State.writePoint_unfit hq hk hm hb hw hd)⟩,
    fun d hb hd ho hf => ⟨fun hx => State.request_served hs (State.writePoint_defines hq hb hd ho hf hx),
      fun x hx hm ha hi => State.request_served hs (State.writePoint_rewrites hq hb hd ho hf hx hm ha hi)⟩⟩⟩

end Sys2Proof.Machine
end

section
/-! SUPPORT. The requests on a scheme's state that release a record (R65, R66, R69, R70), and the requests of a party without
the authority they ask for. -/

namespace Sys2Proof.Machine

/-! ## Voiding a pass, dropping a latch, releasing a record (R34, R108, R130) -/

namespace State

variable (s : State)

theorem voidPass_free {k : SchemeId} (h : s.engine = none) : s.voidPass k = s := by
  unfold voidPass
  rw [h, Option.map_none, ← h]

theorem voidPass_other {k : SchemeId} {x : Pass} (h : s.engine = some x) (hx : x.scheme ≠ k) : s.voidPass k = s := by
  unfold voidPass
  rw [h, Option.map_some, if_neg hx, ← h]

theorem voidPass_own {k : SchemeId} {x : Pass} (h : s.engine = some x) (hx : x.scheme = k) :
    s.voidPass k = { s with engine := some { x with void := true } } := by
  unfold voidPass
  rw [h, Option.map_some, if_pos hx]

theorem dropLatch_clear {k : SchemeId} (h : (s.schemes[k]).latch = none) : s.dropLatch k = s := by
  simp only [dropLatch, h]

theorem dropLatch_set {k : SchemeId} {g : Trigger} (h : (s.schemes[k]).latch = some g) :
    s.dropLatch k = State.append { s with schemes := s.schemes.set k { s.schemes[k] with latch := none } }
      .retriggerDropped (some k) none none (some (g.slot.val : Int)) := by
  simp only [dropLatch, h]
  rfl

theorem releaseRecord_none : s.releaseRecord none = s := rfl

/-- The points of a released record: the deferred blocks that are due complete, each once, in some order (R34; log entry 3). -/
theorem releaseRecord_some (old : ArmingRecord) :
    ∃ (ps : List PointId) (n : Nat), ps.Perm ((List.finRange 128).filter (fun p => old.holds p)) ∧
      s.releaseRecord (some old) = ps.foldl State.completeBlock { s with openCount := n } :=
  let ⟨ps, n, perm, run⟩ := s.forEachInSomeOrder_perm ((List.finRange 128).filter (fun p => old.holds p))
    (fun p s => s.completeBlock p)
  ⟨ps, n, perm, run⟩

/-- The points that the release of record `old` makes BLOCKED (R34). -/
def releases (old : ArmingRecord) (p : PointId) : Bool :=
  old.holds p && decide (s.holders p = 0) &&
    (match s.points[p] with
     | some x => x.blockPending && decide (x.orderState ≠ .ordered)
     | none => false)

theorem releases_eq (old : ArmingRecord) (p : PointId) : s.releases old p = (s.blockDue p && old.holds p) := by
  unfold releases blockDue
  cases s.points[p] with
  | none => rw [Bool.and_false, Bool.false_and]
  | some x =>
    dsimp only
    ac_rfl

/-- The released points that are due are those of the record, in an order. -/
theorem releases_perm {old : ArmingRecord} {ps : List PointId}
    (h : ps.Perm ((List.finRange 128).filter (fun p => old.holds p))) :
    (ps.filter s.blockDue).Perm ((List.finRange 128).filter (s.releases old)) := by
  refine (h.filter _).trans (List.Perm.of_eq ?_)
  rw [List.filter_filter]
  exact List.filter_congr fun p _ => (s.releases_eq old p).symm

theorem releaseRecord_run (old : ArmingRecord) :
    let t := s.releaseRecord (some old)
    (t = { s with points := t.points, schemes := t.schemes, ring := t.ring, nextSeq := t.nextSeq
                  readers := t.readers, openCount := t.openCount }) ∧
    (∃ ps : List PointId, ps.Perm ((List.finRange 128).filter (s.releases old)) ∧
      s.Logs t (ps.map (fun p => (.pointBlocked, none, some p, none, some 0)))) ∧
    (∀ p : PointId, t.points[p] = if s.releases old p then
      (s.points[p]).map (fun x => { x with availability := .blocked, blockPending := false }) else s.points[p]) ∧
    ∀ j : SchemeId, t.schemes[j] = { s.schemes[j] with
      pendingPass := (s.schemes[j]).pendingPass ||
        ((List.finRange 128).filter (s.releases old)).any (fun p => (s.schemes[j]).lists p) } := by
  intro t
  obtain ⟨ps, n, perm, run⟩ := s.releaseRecord_some old
  have nodup : ps.Nodup := perm.nodup_iff.2 ((List.nodup_finRange 128).filter _)
  have due := s.releases_perm perm
  obtain ⟨logs, points⟩ := completeBlocks_run ps nodup { s with openCount := n }
  obtain ⟨only, schemes⟩ := completeBlocks_only ps nodup { s with openCount := n }
  have same : State.blockDue { s with openCount := n } = s.blockDue := rfl
  rw [← run] at logs points only schemes
  rw [same] at logs
  have start : s.Logs { s with openCount := n } [] := .nil ⟨rfl, rfl, rfl, rfl⟩
  refine ⟨?_, ⟨_, due, start.trans logs⟩, fun p => ?_, fun j => ?_⟩
  · have count : t.openCount = n := congrArg State.openCount only
    rw [count]
    exact only
  · refine (points p).trans ?_
    have mem : p ∈ ps ∧ s.blockDue p = true ↔ s.releases old p = true := by
      simp [perm.mem_iff, releases_eq, and_comm]
    exact if_congr mem rfl rfl
  · rw [← due.any_eq]
    exact schemes j

end State

/-! ## ENABLE and DISABLE (R65, R66) -/

theorem SchemeDef.complete_iff (d : SchemeDef) :
    d.complete = true ↔ 1 ≤ d.terms.length ∧ 2 ≤ d.curve.length ∧ 1 ≤ d.sources.length := by
  simp [SchemeDef.complete, and_assoc]

namespace State

section

variable {s : State} {p : PartyId} {b : Byte} {k : SchemeId} {d : SchemeDef}

theorem enable_unauthorized (h : s.namedScheme b = some (k, d)) (ho : d.owner ≠ p) :
    s.enable p b = (s, refuse .notAuthorized) := by
  simp only [enable, h]
  exact if_pos ho

theorem enable_loading (h : s.namedScheme b = some (k, d)) (ho : d.owner = p) (hl : s.loading = true) :
    s.enable p b = (s, refuse .storeBusy) := by
  simp only [enable, h]
  rw [if_neg (not_not.2 ho), if_pos hl]

theorem enable_wrongState (h : s.namedScheme b = some (k, d)) (ho : d.owner = p) (hl : s.loading = false)
    (hs : (s.schemes[k]).state ≠ .disabled) : s.enable p b = (s, refuse .wrongState) := by
  simp only [enable, h]
  rw [if_neg (not_not.2 ho), hl, if_neg Bool.false_ne_true, if_pos hs]

theorem enable_incomplete (h : s.namedScheme b = some (k, d)) (ho : d.owner = p) (hl : s.loading = false)
    (hs : (s.schemes[k]).state = .disabled) (hc : d.complete = false) : s.enable p b = (s, refuse .badDefinition) := by
  simp only [enable, h]
  rw [if_neg (not_not.2 ho), hl, if_neg Bool.false_ne_true, if_neg (not_not.2 hs), if_pos hc]

theorem enable_done (h : s.namedScheme b = some (k, d)) (ho : d.owner = p) (hl : s.loading = false)
    (hs : (s.schemes[k]).state = .disabled) (hc : d.complete = true) : s.enable p b =
      (State.append { s with schemes := s.schemes.set k { s.schemes[k] with state := .standby } } .schemeEnabled (some k)
        none (some p) (some (d.defGen.toNat : Int)), done (1 :: Wire.be24 d.defGen)) := by
  simp only [enable, h]
  rw [if_neg (not_not.2 ho), hl, if_neg Bool.false_ne_true, if_neg (not_not.2 hs), if_neg (by rw [hc]; decide)]
  rfl

theorem disable_unauthorized (h : s.namedScheme b = some (k, d)) (ho : d.owner ≠ p) :
    s.disable p b = (s, refuse .notAuthorized) := by
  simp only [disable, h]
  exact if_pos ho

theorem disable_firing (h : s.namedScheme b = some (k, d)) (ho : d.owner = p) (hs : (s.schemes[k]).state = .firing) :
    s.disable p b = (s, refuse .wrongState) := by
  simp only [disable, h, hs]
  exact if_neg (not_not.2 ho)

theorem disable_disabled (h : s.namedScheme b = some (k, d)) (ho : d.owner = p)
    (hs : (s.schemes[k]).state = .disabled) : s.disable p b = (s, done [0, 0]) := by
  simp only [disable, h, hs]
  exact if_neg (not_not.2 ho)

/-- DISABLE in STANDBY, PRIMED, ARMED and LOCKOUT. -/
theorem disable_done (h : s.namedScheme b = some (k, d)) (ho : d.owner = p) (hf : (s.schemes[k]).state ≠ .firing)
    (hd : (s.schemes[k]).state ≠ .disabled) :
    s.disable p b =
      (((((State.voidPass { s with
            schemes := s.schemes.set k { s.schemes[k] with
              state := .disabled, consents := Vector.replicate 4 none, live := none, rearming := false } } k).append
          .schemeDisabled (some k) none (some p) (some ((s.schemes[k]).consenting.length : Int))).dropLatch
            k).releaseRecord (s.schemes[k]).live),
        done [0, Wire.u8 (s.schemes[k]).consenting.length]) := by
  simp only [disable, h]
  refine (if_neg (not_not.2 ho)).trans ?_
  cases state : (s.schemes[k]).state with
  | firing => exact absurd state hf
  | disabled => exact absurd state hd
  | standby => rfl
  | primed => rfl
  | armed => rfl
  | lockout => rfl

end

end State

/-- Settles O43: the three helpers by their own rules, then one state after another. -/
theorem enableAndDisableAreTaken : Obligations.EnableAndDisableAreTaken := by
  refine ⟨fun k s => ⟨s.voidPass_free, fun x => s.voidPass_other, fun x => s.voidPass_own, s.dropLatch_clear,
    fun g => s.dropLatch_set, s.releaseRecord_none, s.releaseRecord_run⟩, fun p b k d s hs hb hd ho => ?_⟩
  · have named := s.namedScheme_defined hb hd
    refine ⟨fun hl hst ht hc hso => ?_, fun hl hst => ?_, fun hl hst hc => ?_, fun hl => ?_, fun hf hst => ?_,
      fun hst => ?_, fun hst => ?_⟩
    · exact State.request_served hs (State.enable_done named ho hl hst (d.complete_iff.2 ⟨ht, hc, hso⟩))
    · exact State.request_answered hs (State.enable_wrongState named ho hl hst)
    · refine State.request_answered hs (State.enable_incomplete named ho hl hst (Bool.eq_false_iff.2 fun complete => ?_))
      obtain ⟨terms, curve, sources⟩ := d.complete_iff.1 complete
      rcases hc with h | h | h
      · simp [h] at terms
      · omega
      · simp [h] at sources
    · exact State.request_answered hs (State.enable_loading named ho hl)
    · exact State.request_served hs (State.disable_done named ho hf hst)
    · exact State.request_answered hs (State.disable_disabled named ho hst)
    · exact State.request_answered hs (State.disable_firing named ho hst)

/-! ## WITHDRAW and RESET_LOCKOUT (R69, R70) -/

namespace State

section

variable {s : State} {p : PartyId} {b : Byte} {k : SchemeId} {d : SchemeDef}

theorem withdraw_unauthorized (h : s.namedScheme b = some (k, d)) (ha : d.hasAuthority p = false) :
    s.withdraw p b = (s, refuse .notAuthorized) := by
  simp only [withdraw, h]
  exact if_pos ha

theorem withdraw_done (h : s.namedScheme b = some (k, d)) (ha : d.hasAuthority p = true) {g : Gen}
    (hc : (s.schemes[k]).consents[p] = some g)
    (hs : (s.schemes[k]).state = .standby ∨ (s.schemes[k]).state = .primed ∨ (s.schemes[k]).state = .armed) :
    s.withdraw p b =
      (((((State.voidPass { s with
            schemes := s.schemes.set k { s.schemes[k] with
              state := .standby, consents := (s.schemes[k]).consents.set p none, live := none, rearming := false } }
            k).append .withdraw (some k) none (some p) (some (g.toNat : Int))).dropLatch k).releaseRecord
          (s.schemes[k]).live), done [1]) := by
  simp only [withdraw, h]
  refine (if_neg (by rw [ha]; decide)).trans ?_
  rcases hs with hs | hs | hs <;> rw [hs, hc] <;> rfl

theorem withdraw_refused (h : s.namedScheme b = some (k, d)) (ha : d.hasAuthority p = true)
    (hr : (s.schemes[k]).consents[p] = none ∨ (s.schemes[k]).state = .firing ∨ (s.schemes[k]).state = .lockout ∨
      (s.schemes[k]).state = .disabled) : s.withdraw p b = (s, refuse .wrongState) := by
  simp only [withdraw, h]
  refine (if_neg (by rw [ha]; decide)).trans ?_
  rcases hr with hr | hr | hr | hr
  · rw [hr]
    cases (s.schemes[k]).state <;> rfl
  all_goals
    rw [hr]

theorem resetLockout_unauthorized (h : s.namedScheme b = some (k, d)) (ha : d.hasAuthority p = false) :
    s.resetLockout p b = (s, refuse .notAuthorized) := by
  simp only [resetLockout, h]
  exact if_pos ha

theorem resetLockout_done (h : s.namedScheme b = some (k, d)) (ha : d.hasAuthority p = true)
    (hs : (s.schemes[k]).state = .lockout) : s.resetLockout p b =
      (State.append { s with schemes := s.schemes.set k { s.schemes[k] with state := .standby } } .lockoutReset (some k)
        none (some p) none, done [1]) := by
  simp only [resetLockout, h]
  rw [if_neg (by rw [ha]; decide), if_neg (not_not.2 hs)]
  rfl

theorem resetLockout_refused (h : s.namedScheme b = some (k, d)) (ha : d.hasAuthority p = true)
    (hs : (s.schemes[k]).state ≠ .lockout) : s.resetLockout p b = (s, refuse .wrongState) := by
  simp only [resetLockout, h]
  rw [if_neg (by rw [ha]; decide), if_pos hs]

end

end State

/-- Settles O45: one state after another. -/
theorem withdrawAndResetLockoutAreTaken : Obligations.WithdrawAndResetLockoutAreTaken := by
  intro p b k d s hs hb hd ha
  have named := s.namedScheme_defined hb hd
  exact ⟨fun g hc hst => State.request_served hs (State.withdraw_done named ha hc hst),
    fun hr => State.request_answered hs (State.withdraw_refused named ha hr),
    fun hst => State.request_served hs (State.resetLockout_done named ha hst),
    fun hst => State.request_answered hs (State.resetLockout_refused named ha hst)⟩

/-! ## A party without the authority (R32, R37, R48, R54, R64) -/

namespace State

section

variable {s : State} {p : PartyId} {b : Byte} {k : SchemeId} {d : SchemeDef}

theorem consent_unauthorized (h : s.namedScheme b = some (k, d)) (ha : d.hasAuthority p = false) (g : Gen) :
    s.consent p b g = (s, refuse .notAuthorized) := by
  simp only [consent, h]
  exact if_pos ha

theorem protect_unauthorized (h : s.namedScheme b = some (k, d)) (ho : d.owner ≠ p) {target : Byte} {x : Protection}
    (hx : protectionOf target = some x) : s.protect p b target = (s, refuse .notAuthorized) := by
  simp only [protect, h, hx]
  exact if_pos ho

/-- A header of another owner for an undefined entry (check 2 of R48). -/
theorem writeHeader_unauthorized (hb : b.toNat = k.val) (hd : (s.schemes[k]).defn = none) {c : List Byte}
    (hc : c.length = 11) (ho : (c.getD 8 0).toNat ≠ p.val) :
    s.writeSection .header p b c = (s, refuse .notAuthorized) := by
  have form : sectionFormOk .header c = true := decide_eq_true hc
  simp only [writeSection, hb, finOf_val, form, hd]
  exact if_pos ho

end

end State

/-- Settles O46: the check of the authority stands in front of every effect. -/
theorem unauthorizedRequestsAreRefused : Obligations.UnauthorizedRequestsAreRefused := by
  intro p b s hs
  have refused : ∀ {handler : State → State × Response}, handler s = (s, refuse .notAuthorized) →
      s.event (fun s => s.request p handler) = s.answered p .notAuthorized [] := State.request_answered hs
  refine ⟨fun k d hb hd => ⟨fun ho => ?_, fun ha => ?_⟩,
    fun k c hb hd hc ho => refused (State.writeHeader_unauthorized hb hd hc ho), fun q x hb hx ho => ?_,
    fun q body hq hk => ⟨fun x hx ho => refused (State.writePoint_unauthorized_defined hq hk hx ho),
      fun hx ho => refused (State.writePoint_unauthorized_undefined hq hk hx ho)⟩⟩
  · have named := s.namedScheme_defined hb hd
    exact ⟨refused (State.enable_unauthorized named ho), refused (State.disable_unauthorized named ho),
      fun target x hx => refused (State.protect_unauthorized named ho hx)⟩
  · have named := s.namedScheme_defined hb hd
    exact ⟨refused (State.withdraw_unauthorized named ha), refused (State.resetLockout_unauthorized named ha),
      fun g => refused (State.consent_unauthorized named ha g)⟩
  · have named := State.namedPoint_defined hb hx
    exact ⟨refused (State.blockImmediate_unauthorized named ho), refused (State.blockDeferred_unauthorized named ho),
      refused (State.unblockPoint_unauthorized named ho), refused (State.restorePoint_unauthorized named ho)⟩

end Sys2Proof.Machine
end

section
/-! SUPPORT. The answers to firing requests (R26, R133 to R136) and the accepted ECHO (R30, R140 to R142, R146). -/

namespace Sys2Proof.Machine

/-! ## One entry result -/

/-- A change of one entry result, scheme by scheme. -/
theorem State.modEntry_scheme (s : State) (w : WaitRef) (f : EntryResult → EntryResult) (j : SchemeId) :
    (s.modEntry w f).schemes[j] = { s.schemes[j] with
      record := (s.schemes[j]).record.map (fun r => if j = w.scheme ∧ r.execution = w.execution then
        { r with entries := r.entries.modify w.position f } else r) } := by
  rw [State.modEntry_schemes, getElem_modV_fin]
  by_cases h : w.scheme = j
  · simp only [h, true_and, if_true]
  · simp only [if_neg h, Ne.symm h, false_and, if_false, Option.map_id']

/-! ## Firing requests (R26, R135) -/

namespace State

variable {s : State} {k : SchemeId} {n : BitVec 32} {p : PointId} {credited position : Nat} {x : Point}

theorem fireEntry_merged (hx : s.points[p] = some x) (ho : x.orderState = .ordered) {l : LinkId} {o : TripOrder}
    (hf : s.orderOf p = some (l, o)) : s.fireEntry k n ((p, credited), position) =
      (s.joinOrder l p { scheme := k, execution := n, position := position, role := .primary }).modEntry
        { scheme := k, execution := n, position := position, role := .primary }
        (fun e => { e with answer := some .merged, order := some (l, o.tag) }) := by
  simp only [fireEntry, hx, ho, hf]

theorem fireEntry_alreadyOpen (hx : s.points[p] = some x) (ho : x.orderState = .tripped) :
    s.fireEntry k n ((p, credited), position) =
      s.modEntry { scheme := k, execution := n, position := position, role := .primary } (fun e =>
        { e with answer := some .alreadyOpen, outcome := some .alreadyOpen, outcomeTime := some s.clock }) := by
  simp only [fireEntry, hx, ho]
  exact s.modEntry_finishEntry _ _ _

theorem fireEntry_skipped (h : s.points[p] = none ∨
      ∃ x, s.points[p] = some x ∧ x.orderState = .idle ∧ x.availability ≠ .inService) :
    s.fireEntry k n ((p, credited), position) =
      s.modEntry { scheme := k, execution := n, position := position, role := .primary } (fun e =>
        { e with answer := some .skipped, outcome := some .skipped, outcomeTime := some s.clock }) := by
  rcases h with hx | ⟨x, hx, ho, ha⟩
  · simp only [fireEntry, hx]
    exact s.modEntry_finishEntry _ _ _
  · cases available : x.availability with
    | inService => exact absurd available ha
    | blocked =>
      simp only [fireEntry, hx, ho, available]
      exact s.modEntry_finishEntry _ _ _
    | faulted =>
      simp only [fireEntry, hx, ho, available]
      exact s.modEntry_finishEntry _ _ _

/-- A request that is PLACED, before bench mode confirms its order: order `o` is placed for point `p` with definition `d`,
its entry is answered, and its record is appended (R26, R27). -/
def requestPlaced (s : State) (p : PointId) (d : PointDef) (o : TripOrder) (w : WaitRef) (f : EntryResult → EntryResult)
    (r : Report) : State := ((s.placeOrder p d o).modEntry w f).report r

section

variable (d : PointDef) (o : TripOrder) (w : WaitRef) (f : EntryResult → EntryResult) (r : Report)

theorem requestPlaced_points (hx : s.points[p] = some x) : (s.requestPlaced p d o w f r).points =
    s.points.set p (some { x with orderState := .ordered, lastTag := some o.tag, lastOutcome := .none }) := by
  show modV s.points p _ = _
  rw [modV_eq_set, hx]
  rfl

theorem requestPlaced_links : (s.requestPlaced p d o w f r).links = s.links.set d.link { s.links[d.link] with
    nextTag := (s.links[d.link]).nextTag + 1
    orders := if s.bench then (s.links[d.link]).orders else (s.links[d.link]).orders ++ [o] } := rfl

theorem requestPlaced_lateLists : (s.requestPlaced p d o w f r).lateLists = s.lateLists.set p [] := rfl

theorem requestPlaced_scheme (j : SchemeId) : (s.requestPlaced p d o w f r).schemes[j] = { s.schemes[j] with
    pendingPass := (s.schemes[j]).pendingPass || (s.schemes[j]).lists p
    record := (s.schemes[j]).record.map (fun t => if j = w.scheme ∧ t.execution = w.execution then
      { t with entries := t.entries.modify w.position f } else t) } := by
  refine ((s.placeOrder p d o).modEntry_scheme w f j).trans ?_
  rw [placeOrder_schemes, requestForPoint_scheme]

theorem requestPlaced_logs : s.Logs (s.requestPlaced p d o w f r) [r] :=
  (Logs.nil ((SameRecord.placeOrder s p d o).trans (.modEntry _ w f))).append r.1 r.2.1 r.2.2.1 r.2.2.2.1 r.2.2.2.2

theorem requestPlaced_bench : (s.requestPlaced p d o w f r).bench = s.bench := by simp [requestPlaced, report]
theorem requestPlaced_meas : (s.requestPlaced p d o w f r).meas = s.meas := by simp [requestPlaced, report]
theorem requestPlaced_det : (s.requestPlaced p d o w f r).det = s.det := by simp [requestPlaced, report]
theorem requestPlaced_execCount : (s.requestPlaced p d o w f r).execCount = s.execCount := by simp [requestPlaced, report]
theorem requestPlaced_engine : (s.requestPlaced p d o w f r).engine = s.engine := by simp [requestPlaced, report]

end

end State

/-- Settles O28: the state of the point decides which of the four answers is given. -/
theorem firingRequestsAreAnswered : Obligations.FiringRequestsAreAnswered := by
  intro k n p credited position s ref t
  refine ⟨?_, fun x l o hx ho hf => State.fireEntry_merged hx ho hf, fun x hx ho => State.fireEntry_alreadyOpen hx ho,
    fun h => State.fireEntry_skipped h, fun w f => ⟨(s.modEntry w f).schemes, rfl, s.modEntry_scheme w f⟩⟩
  intro x hx hi ha l tag o
  let f : EntryResult → EntryResult := fun e => { e with answer := some .placed, order := some (l, tag) }
  let r : Report := (.orderPlaced, some k, some p, none, some ((tag.toNat : Int) + if s.bench then 512 else 0))
  exact ⟨s.requestPlaced p x.defn o ref f r, State.fireEntry_placed hx hi ha rfl rfl, s.requestPlaced_points _ o ref f r hx,
    s.requestPlaced_links x.defn o ref f r, s.requestPlaced_lateLists x.defn o ref f r,
    s.requestPlaced_scheme x.defn o ref f r, s.requestPlaced_logs x.defn o ref f r, s.requestPlaced_bench x.defn o ref f r,
    s.requestPlaced_meas x.defn o ref f r, s.requestPlaced_det x.defn o ref f r, s.requestPlaced_execCount x.defn o ref f r,
    s.requestPlaced_engine x.defn o ref f r⟩

/-! ## Late echoes (R30, R146) -/

theorem State.isLateFor_iff (s : State) (l : LinkId) (tag address : Byte) (p : PointId) :
    s.isLateFor l tag address p = true ↔ ∃ x, s.points[p] = some x ∧ x.defn.link = l ∧ x.defn.address = address ∧
      x.lastOutcome = .failed ∧ x.lastTag = some tag := by
  unfold State.isLateFor
  cases s.points[p] with
  | none => simp
  | some x => simp [and_assoc]

/-- A late list names the entry of scheme `k`'s execution `n` at position `j`. -/
def namesEntry (refs : List WaitRef) (k : SchemeId) (n : BitVec 32) (j : Nat) : Bool :=
  refs.any (fun w => decide (w.scheme = k) && decide (w.execution = n) && decide (w.position = j))

/-- A trigger record of scheme `k` with the late marks that a late list sets. -/
def TriggerRecord.markLate (refs : List WaitRef) (k : SchemeId) (r : TriggerRecord) : TriggerRecord :=
  { r with entries := r.entries.mapIdx (fun j e => { e with late := e.late || namesEntry refs k r.execution j }) }

theorem TriggerRecord.markLate_nil (k : SchemeId) (r : TriggerRecord) : r.markLate [] k = r := by
  have same : r.entries.mapIdx (fun _ e => { e with late := e.late || false }) = r.entries := by
    refine List.ext_getElem? fun j => ?_
    rw [List.getElem?_mapIdx]
    simp
  unfold TriggerRecord.markLate
  simp only [namesEntry, List.any_nil, same]

/-- The first reference marks its entry where the record is of its execution; the others mark theirs after it. -/
theorem TriggerRecord.markLate_cons (w : WaitRef) (refs : List WaitRef) (k : SchemeId) (r : TriggerRecord) :
    r.markLate (w :: refs) k = TriggerRecord.markLate refs k (if k = w.scheme ∧ r.execution = w.execution then
      { r with entries := r.entries.modify w.position (fun e => { e with late := true }) } else r) := by
  by_cases h : k = w.scheme ∧ r.execution = w.execution
  · obtain ⟨rfl, execution⟩ := h
    rw [if_pos ⟨rfl, execution⟩]
    unfold TriggerRecord.markLate
    congr 1
    refine List.ext_getElem? fun j => ?_
    simp only [List.getElem?_mapIdx, List.getElem?_modify, Option.map_eq_map, Option.map_map]
    refine congrArg (fun f => r.entries[j]?.map f) (funext fun e => ?_)
    by_cases hj : w.position = j <;> simp [namesEntry, execution, hj]
  · have none : ∀ j, namesEntry (w :: refs) k r.execution j = namesEntry refs k r.execution j := by
      intro j
      have other : (decide (w.scheme = k) && decide (w.execution = r.execution)) = false := by
        refine Bool.eq_false_iff.2 fun both => h ?_
        rw [Bool.and_eq_true, decide_eq_true_eq, decide_eq_true_eq] at both
        exact ⟨both.1.symm, both.2.symm⟩
      rw [namesEntry, List.any_cons, other]
      rfl
    rw [if_neg h]
    unfold TriggerRecord.markLate
    simp only [none]

/-- The late marks of a list of references, scheme by scheme; nothing else changes. -/
theorem State.markLate_run (refs : List WaitRef) : ∀ s : State,
    let t := refs.foldl (fun s r => s.modEntry r (fun e => { e with late := true })) s
    t = { s with schemes := t.schemes } ∧
    ∀ k : SchemeId, t.schemes[k] = { s.schemes[k] with
      record := (s.schemes[k]).record.map (TriggerRecord.markLate refs k) } := by
  induction refs with
  | nil =>
    refine fun s => ⟨rfl, fun k => ?_⟩
    rw [show TriggerRecord.markLate [] k = id from funext (TriggerRecord.markLate_nil k), Option.map_id_fun]
    rfl
  | cons w refs ih =>
    intro s
    obtain ⟨only, schemes⟩ := ih (s.modEntry w (fun e => { e with late := true }))
    refine ⟨only, fun k => (schemes k).trans ?_⟩
    rw [s.modEntry_scheme, show TriggerRecord.markLate (w :: refs) k = _ from
      funext (TriggerRecord.markLate_cons w refs k)]
    simp only [Option.map_map]
    rfl

/-- A late echo for a defined point, before its entries are marked (R30). -/
def State.lateEchoTaken (s : State) (p : PointId) (x : Point) (tag : Byte) : State :=
  let t := State.append { s with points := s.points.set p (some { x with
      orderState := if x.orderState = .idle then .tripped else x.orderState, lastOutcome := .confirmed }) }
    .orderLate ((s.lateLists[p]).head?.map WaitRef.scheme) (some p) none (some (tag.toNat : Int))
  if x.orderState = .idle then t.requestForPoint p else t

theorem State.takeLateEcho_eq {s : State} {p : PointId} {x : Point} (hx : s.points[p] = some x) (tag : Byte) :
    s.takeLateEcho p tag =
      let t := (s.lateLists[p]).foldl (fun s r => s.modEntry r (fun e => { e with late := true }))
        (s.lateEchoTaken p x tag)
      { t with lateLists := t.lateLists.set p [] } := by
  unfold State.takeLateEcho State.lateEchoTaken
  rw [s.modPoint_eq hx, hx]
  simp only [Option.map_some, Option.some.injEq, decide_eq_true_eq]
  rfl

theorem State.lateEchoTaken_scheme (s : State) (p : PointId) (x : Point) (tag : Byte) (k : SchemeId) :
    (s.lateEchoTaken p x tag).schemes[k] = { s.schemes[k] with
      pendingPass := (s.schemes[k]).pendingPass || (decide (x.orderState = .idle) && (s.schemes[k]).lists p) } := by
  unfold State.lateEchoTaken
  by_cases h : x.orderState = .idle
  · simp only [h, if_true, State.requestForPoint_scheme, State.append_schemes, decide_true, Bool.true_and]
  · simp only [h, if_false, State.append_schemes, decide_false, Bool.false_and, Bool.or_false]

/-- What the first part of a late echo appends, sets and leaves. -/
theorem State.lateEchoTaken_run (s : State) (p : PointId) (x : Point) (tag : Byte) :
    let t := s.lateEchoTaken p x tag
    t = { s with
      points := s.points.set p (some { x with
        orderState := if x.orderState = .idle then .tripped else x.orderState, lastOutcome := .confirmed })
      schemes := t.schemes, ring := t.ring, nextSeq := t.nextSeq, readers := t.readers } ∧
    s.Logs t [(.orderLate, (s.lateLists[p]).head?.map WaitRef.scheme, some p, none, some (tag.toNat : Int))] := by
  have logs (u : State) (h : SameRecord s u) := (State.Logs.nil h).append .orderLate
    ((s.lateLists[p]).head?.map WaitRef.scheme) (some p) none (some (tag.toNat : Int))
  unfold State.lateEchoTaken
  by_cases h : x.orderState = .idle
  · rw [if_pos h]
    refine ⟨rfl, State.Logs.same (logs _ ?_) (.requestForPoint _ p)⟩
    exact ⟨rfl, rfl, rfl, rfl⟩
  · rw [if_neg h]
    exact ⟨rfl, logs _ ⟨rfl, rfl, rfl, rfl⟩⟩

/-- A trigger record through a late echo: the entries named are marked, and nothing else of them changes (R146). -/
theorem TriggerRecord.markLate_spec (refs : List WaitRef) (k : SchemeId) (r : TriggerRecord) :
    r.markLate refs k = { r with entries := (r.markLate refs k).entries } ∧
    (r.markLate refs k).entries.length = r.entries.length ∧
    ∀ (j : Nat) (e : EntryResult), r.entries[j]? = some e →
      (r.markLate refs k).entries[j]? = some { e with late := e.late || namesEntry refs k r.execution j } := by
  refine ⟨rfl, List.length_mapIdx, fun j e h => ?_⟩
  simp only [TriggerRecord.markLate, List.getElem?_mapIdx, h, Option.map_some]

/-- A late echo for a defined point (R30): what it may change, its one record, and each scheme after it. -/
theorem State.takeLateEcho_run {s : State} {p : PointId} {x : Point} (hx : s.points[p] = some x) (tag : Byte) :
    let u := s.takeLateEcho p tag
    u = { s with
      points := s.points.set p (some { x with
        orderState := if x.orderState = .idle then .tripped else x.orderState, lastOutcome := .confirmed })
      lateLists := s.lateLists.set p []
      schemes := u.schemes, ring := u.ring, nextSeq := u.nextSeq, readers := u.readers } ∧
    s.Logs u [(.orderLate, (s.lateLists[p]).head?.map WaitRef.scheme, some p, none, some (tag.toNat : Int))] ∧
    ∀ k : SchemeId, u.schemes[k] = { s.schemes[k] with
      pendingPass := (s.schemes[k]).pendingPass || (decide (x.orderState = .idle) && (s.schemes[k]).lists p)
      record := (s.schemes[k]).record.map (TriggerRecord.markLate s.lateLists[p] k) } := by
  obtain ⟨first, logs⟩ := s.lateEchoTaken_run p x tag
  obtain ⟨marked, schemes⟩ := State.markLate_run s.lateLists[p] (s.lateEchoTaken p x tag)
  have pending := s.lateEchoTaken_scheme p x tag
  rw [State.takeLateEcho_eq hx]
  generalize s.lateEchoTaken p x tag = taken at *
  generalize (s.lateLists[p]).foldl (fun s r => s.modEntry r (fun e => { e with late := true })) taken = done at *
  refine ⟨?_, logs.same ?_, fun k => ?_⟩
  · dsimp only
    rw [marked, first]
  · rw [marked]
    exact ⟨rfl, rfl, rfl, rfl⟩
  · refine (schemes k).trans ?_
    rw [pending k]

/-! ## The accepted ECHO (R140 to R142) -/

theorem exec_echo (l : LinkId) (station tag address : Byte) (result : EchoResult) (s : State) :
    exec (.echo l station tag address result) s =
      s.event (fun s => s.takeFrame l station (.echo tag address result)) := rfl

theorem State.outsideFrame_orders (s : State) (l : LinkId) : ((s.outsideFrame l).links[l]).orders = (s.links[l]).orders := by
  simp [State.outsideFrame]

/-- An ECHO that is accepted, outside a frame. -/
theorem exec_echo_accepted {s : State} {l : LinkId} {station : Byte} (h : s.Accepts l station) (tag address : Byte)
    (result : EchoResult) : exec (.echo l station tag address result) s =
      State.ended ((s.outsideFrame l).takeEcho l tag address result) := by
  obtain ⟨awake, -⟩ := id h
  rw [exec_echo, State.event_awake awake, State.takeFrame_accepted h (fun _ e => by cases e)]
  rfl

namespace State

variable {s : State} {l : LinkId} {tag address : Byte}

theorem takeEcho_matched {o : TripOrder}
    (h : (s.links[l]).orders.find? (fun o => o.position = .sent ∧ o.tag = tag ∧ o.address = address) = some o) :
    s.takeEcho l tag address .executed = s.confirmOrder l o .echo ∧
      s.takeEcho l tag address .refused = s.failOrder l o false := by
  simp only [takeEcho, h, and_self]

theorem takeEcho_unmatched
    (h : (s.links[l]).orders.find? (fun o => o.position = .sent ∧ o.tag = tag ∧ o.address = address) = none) :
    s.takeEcho l tag address .refused = s ∧
    (∀ p, (List.finRange 128).find? (s.isLateFor l tag address) = some p →
      s.takeEcho l tag address .executed = s.takeLateEcho p tag) ∧
    ((List.finRange 128).find? (s.isLateFor l tag address) = none → s.takeEcho l tag address .executed = s) := by
  refine ⟨?_, fun p hp => ?_, fun hp => ?_⟩
  · simp only [takeEcho, h]
  · simp only [takeEcho, h, hp]
  · simp only [takeEcho, h, hp]

end State

/-- Settles O29: whether the echo is accepted, matched, or late for a point decides; then what a late echo does. -/
theorem echoIsTaken : Obligations.EchoIsTaken := by
  intro l station tag address s
  refine ⟨fun ha => ⟨fun o ho => ?_, fun ho => ?_⟩, fun result hs ha => ?_, s.isLateFor_iff l tag address, fun p x hx => ?_⟩
  · rw [← s.outsideFrame_orders l] at ho
    obtain ⟨executed, refused⟩ := State.takeEcho_matched ho
    exact ⟨(exec_echo_accepted ha ..).trans (congrArg State.ended executed),
      (exec_echo_accepted ha ..).trans (congrArg State.ended refused)⟩
  · rw [← s.outsideFrame_orders l] at ho
    obtain ⟨refused, late, nothing⟩ := State.takeEcho_unmatched ho
    refine ⟨(exec_echo_accepted ha ..).trans (congrArg State.ended refused),
      fun p hp => (exec_echo_accepted ha ..).trans (congrArg State.ended (late p hp)),
      fun none => (exec_echo_accepted ha ..).trans (congrArg State.ended (nothing ?_))⟩
    exact List.find?_eq_none.2 fun p _ => by rw [show (s.outsideFrame l).isLateFor l tag address p = false from none p]; decide
  · rw [exec_echo, State.event_awake hs, State.takeFrame_refused hs (fun h => ha h.1)]
  · intro u
    obtain ⟨only, logs, schemes⟩ := State.takeLateEcho_run hx tag
    refine ⟨(congrArg State.points only :), logs, (congrArg State.lateLists only :), (congrArg State.links only :),
      (congrArg State.meas only :), (congrArg State.det only :), (congrArg State.execCount only :), (congrArg State.engine only :),
      fun k => ?_⟩
    have record : u.schemes[k].record = _ := congrArg Scheme.record (schemes k)
    refine ⟨(schemes k).trans (by rw [record]), by rw [record, Option.isSome_map], fun r r' hr hr' => ?_⟩
    rw [record, hr] at hr'
    obtain rfl := Option.some.inj hr'
    exact r.markLate_spec s.lateLists[p] k

end Sys2Proof.Machine
end

section
/-! SUPPORT. What carrying out orders and executions keeps of every scheme and of the input tables (R121, R134, R148, R149),
and the installation of a record (R71, R72, R110, R111, R129). -/

namespace Sys2Proof.Machine

/-! ## What an execution keeps -/

/-- Trigger record `r'` is `r` later in its execution: as it was taken, with the same entries to give results to, and closed
if it was (R122, R134). -/
structure TriggerRecord.Continues (r r' : TriggerRecord) : Prop where
  taken : r' = { r with entries := r'.entries, completion := r'.completion, delivered := r'.delivered }
  entries : r'.entries.length = r.entries.length
  opened : r'.completion = none → r.completion = none

theorem TriggerRecord.Continues.refl (r : TriggerRecord) : r.Continues r := ⟨rfl, rfl, id⟩

theorem TriggerRecord.Continues.trans {r r' r'' : TriggerRecord} (h : r.Continues r') (h' : r'.Continues r'') :
    r.Continues r'' := by
  refine ⟨h'.taken.trans ?_, h'.entries.trans h.entries, fun e => h.opened (h'.opened e)⟩
  rw [h.taken]

/-- Scheme entry `b` is `a` after orders were carried out: its definition, its arming and a clear latch stand, its trigger
record goes on, and while that is open the scheme's state stands (R121, R149). -/
structure Scheme.Continues (a b : Scheme) : Prop where
  defn : b.defn = a.defn
  armGen : b.armGen = a.armGen
  live : b.live = a.live
  latch : a.latch = none → b.latch = none
  record : ∀ r, a.record = some r → ∃ r', b.record = some r' ∧ r.Continues r' ∧
    (r'.completion = none → b.state = a.state ∧ b.rearming = a.rearming)

theorem Scheme.Continues.refl (a : Scheme) : a.Continues a :=
  ⟨rfl, rfl, rfl, id, fun r h => ⟨r, h, .refl r, fun _ => ⟨rfl, rfl⟩⟩⟩

theorem Scheme.Continues.trans {a b c : Scheme} (h : a.Continues b) (h' : b.Continues c) : a.Continues c := by
  refine ⟨h'.defn.trans h.defn, h'.armGen.trans h.armGen, h'.live.trans h.live, fun e => h'.latch (h.latch e), fun r hr => ?_⟩
  obtain ⟨r', hr', continues, stands⟩ := h.record r hr
  obtain ⟨r'', hr'', continues', stands'⟩ := h'.record r' hr'
  refine ⟨r'', hr'', continues.trans continues', fun e => ?_⟩
  obtain ⟨state, rearming⟩ := stands (continues'.opened e)
  obtain ⟨state', rearming'⟩ := stands' e
  exact ⟨state'.trans state, rearming'.trans rearming⟩

/-- A change that leaves all but the pending-pass flag. -/
theorem Scheme.Continues.pending {a : Scheme} {b : Bool} : a.Continues { a with pendingPass := b } :=
  ⟨rfl, rfl, rfl, id, fun r h => ⟨r, h, .refl r, fun _ => ⟨rfl, rfl⟩⟩⟩

/-- Between `s` and `t` orders were placed and carried out: every scheme goes on, and the input tables, the clock and the
number of the next execution stand. -/
structure Executes (s t : State) : Prop where
  clock : t.clock = s.clock
  meas : t.meas = s.meas
  det : t.det = s.det
  execCount : t.execCount = s.execCount
  schemes : ∀ k : SchemeId, (s.schemes[k]).Continues t.schemes[k]

namespace Executes

variable {s t u : State}

theorem refl (s : State) : Executes s s := ⟨rfl, rfl, rfl, rfl, fun _ => .refl _⟩

theorem trans (h : Executes s t) (h' : Executes t u) : Executes s u :=
  ⟨h'.clock.trans h.clock, h'.meas.trans h.meas, h'.det.trans h.det, h'.execCount.trans h.execCount,
    fun k => (h.schemes k).trans (h'.schemes k)⟩

theorem foldl {α : Type} {f : State → α → State} (hf : ∀ s x, Executes s (f s x)) (xs : List α) (h : Executes s t) :
    Executes s (xs.foldl f t) := by
  induction xs generalizing t with
  | nil => exact h
  | cons x xs ih => exact ih (h.trans (hf t x))

theorem ite {c : Prop} [Decidable c] (h : Executes s t) (h' : Executes s u) : Executes s (if c then t else u) := by
  split <;> assumption

theorem modScheme {k : SchemeId} {f : Scheme → Scheme} (hf : (t.schemes[k]).Continues (f t.schemes[k]))
    (h : Executes s t) : Executes s (t.modScheme k f) := by
  refine h.trans ⟨rfl, rfl, rfl, rfl, fun j => ?_⟩
  rw [State.modScheme_schemes, getElem_modV_fin]
  split
  · next e => exact e ▸ hf
  · exact .refl _

theorem modPoint {p : PointId} {f : Point → Point} (h : Executes s t) : Executes s (t.modPoint p f) :=
  h.trans ⟨rfl, rfl, rfl, rfl, fun _ => .refl _⟩

theorem modLink {l : LinkId} {f : Link → Link} (h : Executes s t) : Executes s (t.modLink l f) :=
  h.trans ⟨rfl, rfl, rfl, rfl, fun _ => .refl _⟩

theorem late {v : Vector (List WaitRef) 128} (h : Executes s t) : Executes s { t with lateLists := v } :=
  h.trans ⟨rfl, rfl, rfl, rfl, fun _ => .refl _⟩

theorem append {kind : EventKind} {sch : Option SchemeId} {pt : Option PointId} {pa : Option PartyId} {de : Option Int}
    (h : Executes s t) : Executes s (t.append kind sch pt pa de) := h.trans ⟨rfl, rfl, rfl, rfl, fun _ => .refl _⟩

theorem voidPass {k : SchemeId} (h : Executes s t) : Executes s (t.voidPass k) :=
  h.trans ⟨rfl, rfl, rfl, rfl, fun _ => .refl _⟩

theorem requestForPoint {p : PointId} (h : Executes s t) : Executes s (t.requestForPoint p) := by
  refine h.trans ⟨rfl, rfl, rfl, rfl, fun k => ?_⟩
  rw [State.requestForPoint_scheme]
  exact .pending

theorem modEntry {w : WaitRef} {f : EntryResult → EntryResult} (h : Executes s t) : Executes s (t.modEntry w f) := by
  refine h.modScheme ⟨rfl, rfl, rfl, id, fun r hr => ⟨_, by rw [hr]; rfl, ?_, fun _ => ⟨rfl, rfl⟩⟩⟩
  dsimp only
  split
  · exact ⟨rfl, List.length_modify .., id⟩
  · exact .refl r

theorem finishEntry {w : WaitRef} {o : EntryOutcome} (h : Executes s t) : Executes s (t.finishEntry w o) := h.modEntry

theorem completeBlock {p : PointId} (h : Executes s t) : Executes s (t.completeBlock p) := by
  unfold State.completeBlock
  split
  · exact ite h.modPoint.append.requestForPoint h
  · exact h

theorem dropLatch {k : SchemeId} (h : Executes s t) : Executes s (t.dropLatch k) := by
  unfold State.dropLatch
  split
  · exact (h.modScheme ⟨rfl, rfl, rfl, fun _ => rfl, fun r hr => ⟨r, hr, .refl r, fun _ => ⟨rfl, rfl⟩⟩⟩).append
  · exact h

/-- A closed record lets the scheme's state, consents and re-arming mark change. -/
theorem closed {k : SchemeId} {f : Scheme → Scheme} {r : TriggerRecord} (hr : (t.schemes[k]).record = some r)
    (hc : r.completion ≠ none) (hf : ∀ sc : Scheme, (f sc).defn = sc.defn ∧ (f sc).armGen = sc.armGen ∧
      (f sc).live = sc.live ∧ (f sc).latch = sc.latch ∧ (f sc).record = sc.record) (h : Executes s t) :
    Executes s (t.modScheme k f) := by
  obtain ⟨defn, armGen, live, latch, record⟩ := hf t.schemes[k]
  refine h.modScheme ⟨defn, armGen, live, fun e => latch.trans e, fun r' hr' => ?_⟩
  obtain rfl := Option.some.inj (hr.symm.trans hr')
  exact ⟨r, record.trans hr, .refl r, fun e => absurd e hc⟩

theorem completeExecution {k : SchemeId} (h : Executes s t) : Executes s (t.completeExecution k) := by
  unfold State.completeExecution
  split
  · exact h
  · next r hr =>
    let r' : TriggerRecord := { r with completion := some t.clock, delivered := some r.deliveredAmount }
    have step : (t.schemes[k]).Continues { t.schemes[k] with record := some r' } := by
      refine ⟨rfl, rfl, rfl, id, fun q hq => ?_⟩
      obtain rfl := Option.some.inj (hr.symm.trans hq)
      exact ⟨r', rfl, ⟨rfl, rfl, nofun⟩, nofun⟩
    have record : ((t.modScheme k (fun sc => { sc with record := some r' })).schemes[k]).record = some r' := by
      rw [State.modScheme_schemes, getElem_modV_fin, if_pos rfl]
    have done := (h.modScheme (f := fun sc => { sc with record := some r' }) step).append (kind := .execComplete)
      (sch := some k) (pt := none) (pa := none) (de := some (r.deliveredAmount : Int))
    refine ite ?_ (dropLatch (voidPass ?_)) <;>
      exact done.closed record nofun fun _ => ⟨rfl, rfl, rfl, rfl, rfl⟩

theorem completeIfDone {k : SchemeId} (h : Executes s t) : Executes s (t.completeIfDone k) := ite h.completeExecution h

theorem completeAll {refs : List WaitRef} (h : Executes s t) : Executes s (t.completeAll refs) :=
  h.foldl (fun s _ => completeIfDone (.refl s)) _

theorem confirmOrder {l : LinkId} {o : TripOrder} {c : ConfirmCause} (h : Executes s t) :
    Executes s (t.confirmOrder l o c) := by
  unfold State.confirmOrder
  refine completeAll (foldl (fun s r => finishEntry (.refl s)) _ ?_)
  exact (h.modPoint.modLink.append.requestForPoint).completeBlock

theorem placeOrder {p : PointId} {d : PointDef} {o : TripOrder} (h : Executes s t) : Executes s (t.placeOrder p d o) :=
  h.modLink.modPoint.late.requestForPoint

theorem joinOrder {l : LinkId} {p : PointId} {w : WaitRef} (h : Executes s t) : Executes s (t.joinOrder l p w) := h.modLink

theorem fireEntry {k : SchemeId} {n : BitVec 32} {e : (PointId × Nat) × Nat} (h : Executes s t) :
    Executes s (State.fireEntry k n t e) := by
  unfold State.fireEntry
  dsimp only
  split
  · split
    · exact ite h.placeOrder.modEntry.append.confirmOrder h.placeOrder.modEntry.append
    · split
      · exact h.joinOrder.modEntry
      · exact h
    · exact h.modEntry.finishEntry
    · exact h.modEntry.finishEntry
  · exact h.modEntry.finishEntry

theorem requestBackup {failed b : PointId} {w : WaitRef} (h : Executes s t) :
    Executes s (t.requestBackup failed b w) := by
  unfold State.requestBackup
  dsimp only
  split
  · split
    · exact ite h.placeOrder.modEntry.append.confirmOrder h.placeOrder.modEntry.append
    · split
      · exact h.joinOrder.modEntry
      · exact h
    · exact h.modEntry.finishEntry
  · exact h.modEntry.finishEntry

theorem failEntry {o : TripOrder} {backup : Option PointId} {r : WaitRef × Nat} (h : Executes s t) :
    Executes s (State.failEntry o backup t r) := by
  unfold State.failEntry
  split
  · exact h.finishEntry
  · split
    · split
      · exact h.finishEntry
      · exact h.requestBackup
    · exact h.finishEntry

theorem failOrder {l : LinkId} {o : TripOrder} {expired : Bool} (h : Executes s t) :
    Executes s (t.failOrder l o expired) := by
  unfold State.failOrder
  refine completeAll (late (foldl (fun s r => failEntry (.refl s)) _ ?_))
  exact h.modPoint.modLink.append.requestForPoint

end Executes

/-! ## Taking a latched trigger (R121, R129) -/

/-- A trigger has been taken for scheme `k` with snapshot `snap`, and no firing request is made yet (R121). -/
def State.triggerTaken (s : State) (k : SchemeId) (trg : Trigger) (replayed : Bool) (snap : ArmingRecord) : State :=
  ((State.modScheme { s with execCount := s.execCount + 1 } k (fun sc =>
      { sc with record := some ((s.schemes[k]).newRecord snap trg s.clock replayed s.execCount) })).append .triggerTaken
    (some k) none none (some ((trg.slot.val : Int) + if replayed then 64 else 0))).modScheme k
    (fun sc => { sc with state := .firing })

theorem State.triggerTaken_scheme (s : State) (k : SchemeId) (trg : Trigger) (replayed : Bool) (snap : ArmingRecord) :
    (s.triggerTaken k trg replayed snap).schemes[k] = { s.schemes[k] with
      record := some ((s.schemes[k]).newRecord snap trg s.clock replayed s.execCount), state := .firing } := by
  simp only [State.triggerTaken, State.modScheme_schemes, State.append_schemes, getElem_modV_fin, if_true]

/-- A taking makes its firing requests and completes its execution where it is done at once (R121, R135). -/
theorem State.takeTrigger_executes {s : State} {k : SchemeId} {snap : ArmingRecord} (h : (s.schemes[k]).live = some snap)
    (trg : Trigger) (replayed : Bool) :
    Executes (s.triggerTaken k trg replayed snap) (s.takeTrigger k trg replayed) := by
  unfold State.takeTrigger
  rw [h]
  exact .completeIfDone (.foldl (fun s e => .fireEntry (.refl s)) _ (.refl _))

namespace State

variable {s : State} {k : SchemeId}

theorem replayLatch_clear (h : (s.schemes[k]).latch = none) : s.replayLatch k = s := by
  simp only [replayLatch, h]

theorem replayLatch_set {trg : Trigger} (h : (s.schemes[k]).latch = some trg) (hs : (s.schemes[k]).state = .armed) :
    s.replayLatch k =
      (s.modScheme k (fun sc => { sc with latch := none, rearming := false })).takeTrigger k trg true := by
  simp only [replayLatch, h, hs, if_true]

/-! ## Installing a record (R71, R110) -/

/-- The live arming record of scheme `k` is replaced, with ARMING_SHORT where it becomes SHORT (steps 1 and 2 of R110). -/
def recordInstalled (s : State) (k : SchemeId) (new : ArmingRecord) : State :=
  let t := s.modScheme k (fun sc => { sc with live := some new })
  if becomesShort (s.schemes[k]).live new then
    t.append .armingShort (some k) none none (new.shortfall.map (fun n : Nat => (n : Int)))
  else t

/-- A PRIMED scheme becomes ARMED (R71, R72). -/
def schemeArmed (s : State) (k : SchemeId) : State :=
  (s.modScheme k (fun sc =>
    { sc with state := .armed, armGen := nextArmGen (s.schemes[k]).armGen, rearming := false })).append .schemeArmed
    (some k) none none (some ((nextArmGen (s.schemes[k]).armGen).toNat : Int))

theorem install_eq (s : State) (k : SchemeId) (new : ArmingRecord) : s.install k new =
    (releasedPoints (s.schemes[k]).live new).foldl completeBlock ((s.recordInstalled k new).tellInstalled k) := rfl

theorem tellInstalled_other (h : (s.schemes[k]).state ≠ .primed) : s.tellInstalled k = s := by
  unfold tellInstalled
  split
  · contradiction
  all_goals rfl

theorem tellInstalled_primed (h : (s.schemes[k]).state = .primed) :
    s.tellInstalled k = (s.schemeArmed k).replayLatch k := by
  unfold tellInstalled
  rw [h]
  rfl

variable (s k) (new : ArmingRecord)

/-- The record of an installation that becomes SHORT (step 2 of R110). -/
def shortReports : List Report :=
  if new.adequacy = .short ∧ (s.schemes[k]).live.map ArmingRecord.adequacy ≠ some .short then
    [(.armingShort, some k, none, none, new.shortfall.map (fun n : Nat => (n : Int)))]
  else []

theorem becomesShort_iff (old : Option ArmingRecord) (new : ArmingRecord) : becomesShort old new = true ↔
    new.adequacy = .short ∧ old.map ArmingRecord.adequacy ≠ some .short := by
  cases old <;> simp [becomesShort]

theorem recordInstalled_run :
    let t := s.recordInstalled k new
    t = { s with schemes := modV s.schemes k (fun sc => { sc with live := some new }), ring := t.ring,
                 nextSeq := t.nextSeq, readers := t.readers } ∧ s.Logs t (s.shortReports k new) := by
  unfold recordInstalled shortReports
  simp only [← becomesShort_iff]
  split
  · exact ⟨rfl, (Logs.nil (.modScheme s k _)).append .armingShort (some k) none none _⟩
  · exact ⟨rfl, .nil (.modScheme s k _)⟩

theorem recordInstalled_schemes :
    (s.recordInstalled k new).schemes = modV s.schemes k (fun sc => { sc with live := some new }) :=
  (congrArg State.schemes (s.recordInstalled_run k new).1 :)

theorem recordInstalled_clock : (s.recordInstalled k new).clock = s.clock :=
  (congrArg State.clock (s.recordInstalled_run k new).1 :)

theorem recordInstalled_execCount : (s.recordInstalled k new).execCount = s.execCount :=
  (congrArg State.execCount (s.recordInstalled_run k new).1 :)

theorem recordInstalled_scheme : (s.recordInstalled k new).schemes[k] = { s.schemes[k] with live := some new } := by
  rw [recordInstalled_schemes, getElem_modV_fin, if_pos rfl]

theorem schemeArmed_logs : s.Logs (s.schemeArmed k)
    [(.schemeArmed, some k, none, none, some ((nextArmGen (s.schemes[k]).armGen).toNat : Int))] :=
  (Logs.nil (.modScheme s k _)).append .schemeArmed (some k) none none _

theorem schemeArmed_scheme : (s.schemeArmed k).schemes[k] = { s.schemes[k] with
    state := .armed, armGen := nextArmGen (s.schemes[k]).armGen, rearming := false } := by
  simp only [schemeArmed, append_schemes, modScheme_schemes, getElem_modV_fin, if_true]

end State

/-! ## The points an installation releases (R111) -/

theorem State.holders_eq_zero (s : State) (p : PointId) :
    s.holders p = 0 ↔ ∀ k : SchemeId, (s.schemes[k]).holdsPoint p = false := by
  unfold State.holders
  rw [List.countP_eq_zero]
  refine ⟨fun h k => by simpa using h s.schemes[k] (by simp), fun h sc mem => ?_⟩
  obtain ⟨i, hi, rfl⟩ := Vector.mem_iff_getElem.1 (Vector.mem_toList_iff.1 mem)
  simpa using h ⟨i, hi⟩

theorem releasedPoints_eq (sc : Scheme) (new : ArmingRecord) :
    releasedPoints sc.live new = (List.finRange 128).filter (fun p => sc.holdsPoint p && !new.holds p) := by
  unfold releasedPoints Scheme.holdsPoint
  cases sc.live with
  | none => exact (List.filter_eq_nil_iff.2 fun _ _ => by simp).symm
  | some r => rfl

/-- The installation of record `new` for scheme `k` makes point `p` BLOCKED where nothing fires: no live arming record holds
the point any more, and its block is pending (R34, R111). -/
def State.installReleases (s : State) (k : SchemeId) (new : ArmingRecord) (p : PointId) : Bool :=
  (s.schemes[k]).holdsPoint p && !new.holds p &&
    (List.finRange 32).all (fun j => decide (j = k) || !(s.schemes[j]).holdsPoint p) &&
    (match s.points[p] with
     | some x => x.blockPending && decide (x.orderState ≠ .ordered)
     | none => false)

/-- The installation has changed no point, and of the live arming records that of scheme `k` alone. -/
structure QuietlyInstalled (s : State) (k : SchemeId) (new : ArmingRecord) (t : State) : Prop where
  points : t.points = s.points
  live : ∀ j : SchemeId, (t.schemes[j]).live = if k = j then some new else (s.schemes[j]).live

namespace QuietlyInstalled

variable {s t : State} {k : SchemeId} {new : ArmingRecord}

theorem holders_eq_zero (h : QuietlyInstalled s k new t) (p : PointId) : t.holders p = 0 ↔
    new.holds p = false ∧ ∀ j : SchemeId, j = k ∨ (s.schemes[j]).holdsPoint p = false := by
  rw [t.holders_eq_zero]
  have held : ∀ j : SchemeId, (t.schemes[j]).holdsPoint p = if k = j then new.holds p else (s.schemes[j]).holdsPoint p := by
    intro j
    unfold Scheme.holdsPoint
    rw [h.live j]
    by_cases e : k = j
    · simp only [if_pos e]
    · simp only [if_neg e]
  simp only [held]
  refine ⟨fun none => ⟨by simpa using none k, fun j => ?_⟩, fun ⟨own, others⟩ j => ?_⟩
  · by_cases e : k = j
    · exact .inl e.symm
    · exact .inr (by simpa [e] using none j)
  · split
    · exact own
    · next e => exact (others j).resolve_left fun e' => e e'.symm

/-- The deferred blocks due after the installation, among the points released. -/
theorem releases_eq (h : QuietlyInstalled s k new t) (p : PointId) :
    s.installReleases k new p = (t.blockDue p && ((s.schemes[k]).holdsPoint p && !new.holds p)) := by
  unfold State.installReleases State.blockDue
  rw [h.points]
  cases s.points[p] with
  | none => rw [Bool.and_false, Bool.false_and]
  | some x =>
    rw [Bool.eq_iff_iff]
    simp only [Bool.and_eq_true, Bool.not_eq_true', decide_eq_true_eq, h.holders_eq_zero, List.all_eq_true,
      List.mem_finRange, true_imp_iff, Bool.or_eq_true]
    tauto

theorem released (h : QuietlyInstalled s k new t) : (releasedPoints (s.schemes[k]).live new).filter t.blockDue =
    (List.finRange 128).filter (s.installReleases k new) := by
  rw [releasedPoints_eq, List.filter_filter]
  exact List.filter_congr fun p _ => (h.releases_eq p).symm

theorem mem_released (h : QuietlyInstalled s k new t) (p : PointId) :
    p ∈ releasedPoints (s.schemes[k]).live new ∧ t.blockDue p = true ↔ s.installReleases k new p = true := by
  rw [releasedPoints_eq, List.mem_filter, h.releases_eq, Bool.and_eq_true, and_comm]
  simp

end QuietlyInstalled

/-! ## The three ways of an installation -/

namespace State

section

variable (s : State) (k : SchemeId) (new : ArmingRecord)

/-- The deferred blocks completed at the end of an installation: of the schemes, pending-pass flags alone change. -/
theorem install_run :
    let told := (s.recordInstalled k new).tellInstalled k
    let t := s.install k new
    (∀ j : SchemeId, ∃ b, t.schemes[j] = { told.schemes[j] with pendingPass := b }) ∧ t.execCount = told.execCount ∧
    told.Logs t (((releasedPoints (s.schemes[k]).live new).filter told.blockDue).map (fun p =>
      (.pointBlocked, none, some p, none, some 0))) ∧
    ∀ p : PointId, t.points[p] = if p ∈ releasedPoints (s.schemes[k]).live new ∧ told.blockDue p = true then
      told.points[p].map (fun x => { x with availability := .blocked, blockPending := false }) else told.points[p] := by
  have nodup : (releasedPoints (s.schemes[k]).live new).Nodup := by
    rw [releasedPoints_eq]
    exact (List.nodup_finRange 128).filter _
  intro told t
  obtain ⟨logs, points⟩ := completeBlocks_run _ nodup told
  obtain ⟨only, schemes⟩ := completeBlocks_only _ nodup told
  rw [show t = _ from s.install_eq k new]
  exact ⟨fun j => ⟨_, schemes j⟩, (congrArg State.execCount only :), logs, points⟩

variable {s k new}

/-- An installation after which nothing fires: its records, and the points it makes BLOCKED. -/
theorem install_quiet {reports : List Report}
    (h : QuietlyInstalled s k new ((s.recordInstalled k new).tellInstalled k))
    (hl : s.Logs ((s.recordInstalled k new).tellInstalled k) reports) :
    s.Logs (s.install k new) (reports ++ ((List.finRange 128).filter (s.installReleases k new)).map (fun p =>
      (.pointBlocked, none, some p, none, some 0))) ∧
    ∀ p : PointId, (s.install k new).points[p] = if s.installReleases k new p then
      (s.points[p]).map (fun x => { x with availability := .blocked, blockPending := false }) else s.points[p] := by
  obtain ⟨-, -, logs, points⟩ := s.install_run k new
  rw [h.released] at logs
  refine ⟨hl.trans logs, fun p => (points p).trans ?_⟩
  rw [h.points]
  exact if_congr (h.mem_released p) rfl rfl

theorem recordInstalled_quiet : QuietlyInstalled s k new (s.recordInstalled k new) := by
  refine ⟨(congrArg State.points (s.recordInstalled_run k new).1 :), fun j => ?_⟩
  rw [recordInstalled_schemes, getElem_modV_fin]
  split <;> rfl

/-- Arming a scheme leaves what the installation has left. -/
theorem schemeArmed_quiet {t : State} (h : QuietlyInstalled s k new t) : QuietlyInstalled s k new (t.schemeArmed k) := by
  refine ⟨by rw [← h.points]; simp [schemeArmed], fun j => ?_⟩
  rw [← h.live j]
  simp only [schemeArmed, append_schemes, modScheme_schemes, getElem_modV_fin]
  split <;> rfl

theorem told_other (h : (s.schemes[k]).state ≠ .primed) :
    (s.recordInstalled k new).tellInstalled k = s.recordInstalled k new :=
  tellInstalled_other (by rw [recordInstalled_scheme]; exact h)

theorem told_primed (h : (s.schemes[k]).state = .primed) : (s.recordInstalled k new).tellInstalled k =
    ((s.recordInstalled k new).schemeArmed k).replayLatch k :=
  tellInstalled_primed (by rw [recordInstalled_scheme]; exact h)

/-- A PRIMED scheme with its new record, ARMED (R71, R72). -/
theorem installedAndArmed_scheme : ((s.recordInstalled k new).schemeArmed k).schemes[k] = { s.schemes[k] with
    live := some new, state := .armed, armGen := nextArmGen (s.schemes[k]).armGen, rearming := false } := by
  rw [schemeArmed_scheme, recordInstalled_scheme]

theorem installedAndArmed_logs : s.Logs ((s.recordInstalled k new).schemeArmed k) (s.shortReports k new ++
    [(.schemeArmed, some k, none, none, some ((nextArmGen (s.schemes[k]).armGen).toNat : Int))]) := by
  have armed := (s.recordInstalled k new).schemeArmed_logs k
  rw [recordInstalled_scheme] at armed
  exact (s.recordInstalled_run k new).2.trans armed

theorem told_armed (h : (s.schemes[k]).state = .primed) (hl : (s.schemes[k]).latch = none) :
    (s.recordInstalled k new).tellInstalled k = (s.recordInstalled k new).schemeArmed k := by
  rw [told_primed h, replayLatch_clear (by rw [installedAndArmed_scheme]; exact hl)]

/-- A PRIMED scheme with a latched trigger fires on it at once, with the record just installed (R129). -/
theorem told_fired (h : (s.schemes[k]).state = .primed) {trg : Trigger} (hl : (s.schemes[k]).latch = some trg) :
    let told := (s.recordInstalled k new).tellInstalled k
    let sc : Scheme := { s.schemes[k] with
      live := some new, state := .armed, armGen := nextArmGen (s.schemes[k]).armGen, rearming := false, latch := none }
    Scheme.Continues { sc with
      record := some (sc.newRecord new trg s.clock true s.execCount), state := .firing } told.schemes[k] ∧
    told.execCount = s.execCount + 1 ∧
    ∃ more, s.Logs told (s.shortReports k new ++
      [(.schemeArmed, some k, none, none, some ((nextArmGen (s.schemes[k]).armGen).toNat : Int))] ++
      [(.triggerTaken, some k, none, none, some ((trg.slot.val : Int) + 64))] ++ more) := by
  intro told sc
  let fresh := ((s.recordInstalled k new).schemeArmed k).modScheme k (fun sc => { sc with latch := none, rearming := false })
  have scheme : fresh.schemes[k] = sc := by
    simp only [fresh, modScheme_schemes, getElem_modV_fin, if_true]
    rw [installedAndArmed_scheme]
  have clock : fresh.clock = s.clock := by simp [fresh, schemeArmed, recordInstalled_clock]
  have count : fresh.execCount = s.execCount := by simp [fresh, schemeArmed, recordInstalled_execCount]
  have live : (fresh.schemes[k]).live = some new := by rw [scheme]
  have fired : told = fresh.takeTrigger k trg true := by
    refine (told_primed h).trans (replayLatch_set ?_ ?_) <;> rw [installedAndArmed_scheme]
    exact hl
  have executes := takeTrigger_executes live trg true
  obtain ⟨more, logs⟩ := fresh.takeTrigger_logs k trg true (by rw [live]; nofun)
  rw [← fired] at executes logs
  refine ⟨?_, executes.execCount.trans (congrArg (· + 1) count), more, ?_⟩
  · have continues := executes.schemes k
    rw [triggerTaken_scheme, scheme, clock, count] at continues
    exact continues
  · rw [List.append_assoc]
    exact (installedAndArmed_logs.same (.modScheme _ k _)).trans logs

end

end State

/-- Settles O25: nothing fires outside PRIMED or without a latch, and a latched trigger of a PRIMED scheme is taken. -/
theorem installationArms : Obligations.InstallationArms := by
  intro k new s
  obtain ⟨schemes, count, blocks, -⟩ := s.install_run k new
  obtain ⟨flag, scheme⟩ := schemes k
  by_cases primed : (s.schemes[k]).state = .primed
  · cases latch : (s.schemes[k]).latch with
    | none =>
      have told := State.told_armed (new := new) primed latch
      obtain ⟨logs, points⟩ := State.install_quiet (told ▸ State.schemeArmed_quiet State.recordInstalled_quiet)
        (told ▸ State.installedAndArmed_logs)
      rw [told, State.installedAndArmed_scheme] at scheme
      simp only [primed, latch, if_true, scheme, List.append_nil]
      exact ⟨trivial, fun h => absurd rfl h, fun _ => ⟨rfl, fun _ => ⟨trivial, trivial⟩, nofun⟩, ⟨_, logs⟩,
        fun _ => ⟨logs, points⟩⟩
    | some trg =>
      obtain ⟨continues, counted, more, logs⟩ := State.told_fired (new := new) primed latch
      obtain ⟨r, record, ⟨taken, entries, -⟩, stands⟩ := continues.record _ rfl
      simp only [primed, if_true, scheme]
      refine ⟨continues.live, fun h => absurd rfl h, fun _ => ⟨continues.armGen, nofun, fun trg' e => ?_⟩,
        ⟨_, by rw [← List.append_assoc]; exact logs.trans blocks⟩, fun h => ?_⟩
      · obtain rfl := Option.some.inj e
        have defGen : r.defGen = ((s.schemes[k]).defn.map SchemeDef.defGen).getD 0 :=
          (congrArg TriggerRecord.defGen taken :)
        refine ⟨r, record, (congrArg TriggerRecord.trigger taken :), (congrArg TriggerRecord.takeTime taken :),
          (congrArg TriggerRecord.replayed taken :), (congrArg TriggerRecord.snapshot taken :),
          (congrArg TriggerRecord.armGen taken :), fun d hd => ?_, (congrArg TriggerRecord.execution taken :),
          entries.trans List.length_replicate, count.trans counted, continues.latch rfl, stands⟩
        rw [defGen, hd]
        rfl
      · rcases h with h | h
        · exact absurd rfl h
        · cases h
  · have told := State.told_other (new := new) primed
    obtain ⟨logs, points⟩ := State.install_quiet (told ▸ State.recordInstalled_quiet)
      (told ▸ (s.recordInstalled_run k new).2)
    rw [told, State.recordInstalled_scheme] at scheme
    simp only [if_neg primed, scheme, List.append_nil]
    refine ⟨trivial, fun _ => ⟨trivial, trivial⟩, fun h => absurd h primed,
      ⟨((List.finRange 128).filter (s.installReleases k new)).map (fun p => (.pointBlocked, none, some p, none, some 0)), ?_⟩,
      fun _ => ⟨logs, points⟩⟩
    cases (s.schemes[k]).latch <;> (rw [List.append_nil]; exact logs)

end Sys2Proof.Machine
end

section
/-! SUPPORT. A confirmed order (R28, R141, R147) step by step: its point, its entries, and the executions that complete. -/

namespace Sys2Proof.Machine

theorem getElem_set_fin {α : Type} {n : Nat} (v : Vector α n) (p q : Fin n) (x : α) :
    (v.set p x)[q] = if p = q then x else v[q] := by
  simp only [Fin.getElem_fin, Vector.getElem_set, Fin.ext_iff]

/-! ## Completing executions (R149) -/

/-- State `s` with the schemes, the pass in flight and the event record of `u`. -/
def State.withExecutions (s u : State) : State :=
  { s with schemes := u.schemes, engine := u.engine, ring := u.ring, nextSeq := u.nextSeq, readers := u.readers }

/-- `t` differs from `s` at most in its schemes, the pass in flight and the event record. -/
def OnlyExecutions (s t : State) : Prop := t = s.withExecutions t

namespace OnlyExecutions

variable {s t u : State}

theorem refl (s : State) : OnlyExecutions s s := rfl

theorem trans (h : OnlyExecutions s t) (h' : OnlyExecutions t u) : OnlyExecutions s u := by
  have both : (s.withExecutions t).withExecutions u = s.withExecutions u := rfl
  unfold OnlyExecutions at *
  rw [← both, ← h, ← h']

theorem foldl {α : Type} {f : State → α → State} (hf : ∀ s x, OnlyExecutions s (f s x)) (xs : List α)
    (h : OnlyExecutions s t) : OnlyExecutions s (xs.foldl f t) := by
  induction xs generalizing t with
  | nil => exact h
  | cons x xs ih => exact ih (h.trans (hf t x))

theorem modScheme {k : SchemeId} {f : Scheme → Scheme} (h : OnlyExecutions s t) : OnlyExecutions s (t.modScheme k f) :=
  h.trans rfl

theorem append {kind : EventKind} {sch : Option SchemeId} {pt : Option PointId} {pa : Option PartyId} {de : Option Int}
    (h : OnlyExecutions s t) : OnlyExecutions s (t.append kind sch pt pa de) := h.trans rfl

theorem voidPass {k : SchemeId} (h : OnlyExecutions s t) : OnlyExecutions s (t.voidPass k) := h.trans rfl

theorem dropLatch {k : SchemeId} (h : OnlyExecutions s t) : OnlyExecutions s (t.dropLatch k) := by
  unfold State.dropLatch
  split
  · exact h.modScheme.append
  · exact h

theorem completeIfDone {k : SchemeId} (h : OnlyExecutions s t) : OnlyExecutions s (t.completeIfDone k) := by
  unfold State.completeIfDone State.completeExecution
  split
  · split
    · exact h
    · dsimp only
      split
      · exact h.modScheme.append.modScheme
      · exact h.modScheme.append.modScheme.voidPass.dropLatch
  · exact h

theorem completeAll {refs : List WaitRef} (h : OnlyExecutions s t) : OnlyExecutions s (t.completeAll refs) :=
  h.foldl (fun s _ => completeIfDone (.refl s)) _

/-! What the relation leaves, field by field. -/

theorem points (h : OnlyExecutions s t) : t.points = s.points := by unfold OnlyExecutions at h; rw [h]; rfl
theorem links (h : OnlyExecutions s t) : t.links = s.links := by unfold OnlyExecutions at h; rw [h]; rfl
theorem lateLists (h : OnlyExecutions s t) : t.lateLists = s.lateLists := by unfold OnlyExecutions at h; rw [h]; rfl
theorem meas (h : OnlyExecutions s t) : t.meas = s.meas := by unfold OnlyExecutions at h; rw [h]; rfl
theorem det (h : OnlyExecutions s t) : t.det = s.det := by unfold OnlyExecutions at h; rw [h]; rfl
theorem clock (h : OnlyExecutions s t) : t.clock = s.clock := by unfold OnlyExecutions at h; rw [h]; rfl
theorem execCount (h : OnlyExecutions s t) : t.execCount = s.execCount := by unfold OnlyExecutions at h; rw [h]; rfl

end OnlyExecutions

/-! ## An order that ends (R28, R29) -/

/-- The link without the orders of point `p`. -/
def Link.without (k : Link) (p : PointId) : Link := { k with orders := k.orders.filter (fun o => o.point ≠ p) }

/-- State `s` with contents `y` of point `p`, no order for it on link `l`, and the schemes and the event record of `t`. -/
def State.endedLike (s : State) (l : LinkId) (p : PointId) (y : Point) (t : State) : State :=
  { s with
    points := s.points.set p (some y), links := s.links.set l ((s.links[l]).without p)
    schemes := t.schemes, ring := t.ring, nextSeq := t.nextSeq, readers := t.readers }

theorem State.endedLike_set {s t : State} {l : LinkId} {p : PointId} {y : Point} (h : t = s.endedLike l p y t)
    (z : Point) : { t with points := t.points.set p (some z) } = s.endedLike l p z t := by
  have set : { s.endedLike l p y t with points := (s.endedLike l p y t).points.set p (some z) } = s.endedLike l p z t := by
    unfold State.endedLike
    rw [Vector.set_set]
  rwa [← h] at set

theorem State.endedLike_schemes {s t u : State} {l : LinkId} {p : PointId} {y : Point} (h : t = s.endedLike l p y t)
    (only : u = { t with schemes := u.schemes }) : u = s.endedLike l p y u := by
  generalize u.schemes = schemes at only
  subst only
  exact congrArg (fun v : State => { v with schemes := schemes }) h

section

variable (s t : State) (l : LinkId) (p : PointId) (y : Point)

theorem State.endedLike_points : (s.endedLike l p y t).points = s.points.set p (some y) := rfl
theorem State.endedLike_links : (s.endedLike l p y t).links = s.links.set l ((s.links[l]).without p) := rfl
theorem State.endedLike_lateLists : (s.endedLike l p y t).lateLists = s.lateLists := rfl
theorem State.endedLike_meas : (s.endedLike l p y t).meas = s.meas := rfl
theorem State.endedLike_det : (s.endedLike l p y t).det = s.det := rfl
theorem State.endedLike_clock : (s.endedLike l p y t).clock = s.clock := rfl
theorem State.endedLike_execCount : (s.endedLike l p y t).execCount = s.execCount := rfl
theorem State.endedLike_bench : (s.endedLike l p y t).bench = s.bench := rfl

end

/-- An order for point `p` ends: the point changes, its orders leave link `l`, record `r` is appended, and the requests of
R25 are made (R141, R144). -/
def State.orderEnded (s : State) (l : LinkId) (p : PointId) (f : Point → Point) (r : Report) : State :=
  (((s.modPoint p f).discardOrder l p).report r).requestForPoint p

section

variable (s : State) (l : LinkId) (p : PointId) (f : Point → Point) (r : Report)

theorem State.orderEnded_eq {x : Point} (hx : s.points[p] = some x) :
    s.orderEnded l p f r = s.endedLike l p (f x) (s.orderEnded l p f r) := by
  unfold State.orderEnded
  rw [s.modPoint_eq hx]
  rfl

theorem State.orderEnded_logs : s.Logs (s.orderEnded l p f r) [r] :=
  ((State.Logs.nil ((SameRecord.modPoint s _ _).trans (.discardOrder _ l _))).append r.1 r.2.1 r.2.2.1 r.2.2.2.1
    r.2.2.2.2).same (.requestForPoint _ _)

theorem State.orderEnded_scheme (k : SchemeId) : (s.orderEnded l p f r).schemes[k] = { s.schemes[k] with
    pendingPass := (s.schemes[k]).pendingPass || (s.schemes[k]).lists p } :=
  State.requestForPoint_scheme _ p k

theorem State.orderEnded_point {x : Point} (hx : s.points[p] = some x) :
    (s.orderEnded l p f r).points[p] = some (f x) := by
  rw [s.orderEnded_eq l p f r hx]
  exact Vector.getElem_set_self _

end

/-! ## Confirming an order: the point (R141, steps 1 to 4) -/

theorem State.holders_congr {s t : State} (h : ∀ k : SchemeId, (t.schemes[k]).live = (s.schemes[k]).live) (p : PointId) :
    t.holders p = 0 ↔ s.holders p = 0 := by
  simp only [State.holders_eq_zero, Scheme.holdsPoint, h]

/-- A confirmed point, with its pending block completed where it is `due` (R28, R34). -/
def Point.confirmed (x : Point) (due : Bool) : Point :=
  { x with
    orderState := .tripped, lastOutcome := .confirmed
    availability := if due then .blocked else x.availability, blockPending := if due then false else x.blockPending }

/-- ORDER_CONFIRMED (R150). -/
def TripOrder.confirmReport (o : TripOrder) (cause : ConfirmCause) : Report :=
  (.orderConfirmed, some o.placer, some o.point, none, some ((o.tag.toNat : Int) + cause.mark))

/-- The pending block of a point with contents `x` completes when its order is confirmed (R34). -/
def State.confirmBlocks (s : State) (p : PointId) (x : Point) : Bool := x.blockPending && decide (s.holders p = 0)

/-- The first two steps of a confirmation, with its record and requests. -/
def State.orderConfirmed (s : State) (l : LinkId) (o : TripOrder) (cause : ConfirmCause) : State :=
  s.orderEnded l o.point (fun x => { x with orderState := .tripped, lastOutcome := .confirmed }) (o.confirmReport cause)

/-- Steps 1 to 4 of a confirmation: a pending block that is due completes. -/
def State.pointConfirmed (s : State) (l : LinkId) (o : TripOrder) (cause : ConfirmCause) : State :=
  (s.orderConfirmed l o cause).completeBlock o.point

/-- Steps 1 to 5 of a confirmation: the waiting entries have their outcomes. -/
def State.entriesConfirmed (s : State) (l : LinkId) (o : TripOrder) (cause : ConfirmCause) : State :=
  o.waiting.zipIdx.foldl (fun s r => s.finishEntry r.1 (o.confirmedOutcome r.2 r.1.role)) (s.pointConfirmed l o cause)

theorem State.confirmOrder_eq (s : State) (l : LinkId) (o : TripOrder) (cause : ConfirmCause) :
    s.confirmOrder l o cause = (s.entriesConfirmed l o cause).completeAll o.waiting := rfl

section

variable {s : State} {l : LinkId} {o : TripOrder} {cause : ConfirmCause} {x : Point}

theorem State.orderConfirmed_blockDue (hx : s.points[o.point] = some x) :
    (s.orderConfirmed l o cause).blockDue o.point = s.confirmBlocks o.point x := by
  have holders : (s.orderConfirmed l o cause).holders o.point = 0 ↔ s.holders o.point = 0 :=
    State.holders_congr (fun k => by unfold State.orderConfirmed; rw [s.orderEnded_scheme]) _
  unfold State.blockDue
  rw [State.orderConfirmed, s.orderEnded_point _ _ _ _ hx, ← State.orderConfirmed]
  simp only [holders, State.confirmBlocks]
  simp

theorem State.pointConfirmed_eq (hx : s.points[o.point] = some x) : s.pointConfirmed l o cause =
    s.endedLike l o.point (x.confirmed (s.confirmBlocks o.point x)) (s.pointConfirmed l o cause) := by
  have ended : s.orderConfirmed l o cause = s.endedLike l o.point (x.confirmed false) (s.orderConfirmed l o cause) :=
    s.orderEnded_eq l o.point _ _ hx
  have point : (s.orderConfirmed l o cause).points[o.point] = some (x.confirmed false) :=
    s.orderEnded_point l o.point _ _ hx
  have due := State.orderConfirmed_blockDue (l := l) (cause := cause) hx
  unfold State.pointConfirmed
  cases h : s.confirmBlocks o.point x with
  | false => rwa [State.completeBlock_not_due (due.trans h)]
  | true =>
    rw [State.completeBlock_due (due.trans h), State.modPoint_eq _ point, State.endedLike_set ended]
    rfl

theorem State.pointConfirmed_logs (hx : s.points[o.point] = some x) :
    s.Logs (s.pointConfirmed l o cause) (o.confirmReport cause ::
      if s.confirmBlocks o.point x then [(.pointBlocked, none, some o.point, none, some 0)] else []) := by
  have block := ((s.orderConfirmed l o cause).completeBlock_run o.point).1
  rw [State.orderConfirmed_blockDue hx] at block
  exact (s.orderEnded_logs ..).trans block

theorem State.pointConfirmed_scheme (k : SchemeId) : (s.pointConfirmed l o cause).schemes[k] = { s.schemes[k] with
    pendingPass := (s.schemes[k]).pendingPass || (s.schemes[k]).lists o.point } := by
  have ended : (s.orderConfirmed l o cause).schemes[k] = { s.schemes[k] with
    pendingPass := (s.schemes[k]).pendingPass || (s.schemes[k]).lists o.point } := s.orderEnded_scheme ..
  unfold State.pointConfirmed
  cases h : (s.orderConfirmed l o cause).blockDue o.point with
  | false => rw [State.completeBlock_not_due h, ended]
  | true =>
    rw [State.completeBlock_due h, State.requestForPoint_scheme, State.append_schemes, State.modPoint_schemes, ended]
    simp only [Scheme.lists, Bool.or_assoc, Bool.or_self]

/-! ## Confirming an order: the entries (R141, step 5) -/

theorem State.entriesConfirmed_eq (hx : s.points[o.point] = some x) : s.entriesConfirmed l o cause =
    s.endedLike l o.point (x.confirmed (s.confirmBlocks o.point x)) (s.entriesConfirmed l o cause) :=
  State.endedLike_schemes (State.pointConfirmed_eq hx) (State.finishEntries_only _ _ _).1

theorem State.entriesConfirmed_record :
    SameRecord (s.pointConfirmed l o cause) (s.entriesConfirmed l o cause) := by
  have only := (State.finishEntries_only (fun r => o.confirmedOutcome r.2 r.1.role) o.waiting.zipIdx
    (s.pointConfirmed l o cause)).1
  unfold State.entriesConfirmed
  rw [only]
  exact ⟨rfl, rfl, rfl, rfl⟩

theorem State.entriesConfirmed_logs (hx : s.points[o.point] = some x) :
    s.Logs (s.entriesConfirmed l o cause) (o.confirmReport cause ::
      if s.confirmBlocks o.point x then [(.pointBlocked, none, some o.point, none, some 0)] else []) :=
  (State.pointConfirmed_logs hx).same State.entriesConfirmed_record

theorem State.entriesConfirmed_scheme (k : SchemeId) : ∃ es : List EntryResult,
    (s.entriesConfirmed l o cause).schemes[k] = { s.schemes[k] with
      pendingPass := (s.schemes[k]).pendingPass || (s.schemes[k]).lists o.point
      record := (s.schemes[k]).record.map (fun r => { r with entries := es }) } := by
  obtain ⟨es, h⟩ := (State.finishEntries_only (fun r => o.confirmedOutcome r.2 r.1.role) o.waiting.zipIdx
    (s.pointConfirmed l o cause)).2 k
  exact ⟨es, h.trans (by rw [State.pointConfirmed_scheme])⟩

end

/-! ## Confirming an order: the whole of it -/

/-- The references of a waiting list name what they name with their positions in the list forgotten. -/
theorem zipIdx_keys (ws : List WaitRef) : ws.zipIdx.map (fun r => r.1.key) = ws.map WaitRef.key := by
  rw [show (fun r : WaitRef × Nat => r.1.key) = WaitRef.key ∘ Prod.fst from rfl, ← List.map_map, List.zipIdx_map_fst]

section

variable {s : State} {l : LinkId} {o : TripOrder} {cause : ConfirmCause} {x : Point}

theorem State.confirmOrder_onlyExecutions :
    OnlyExecutions (s.entriesConfirmed l o cause) (s.confirmOrder l o cause) := by
  rw [State.confirmOrder_eq]
  exact (OnlyExecutions.refl _).completeAll

theorem State.confirmOrder_points (hx : s.points[o.point] = some x) : (s.confirmOrder l o cause).points =
    s.points.set o.point (some (x.confirmed (s.confirmBlocks o.point x))) :=
  State.confirmOrder_onlyExecutions.points.trans (by rw [State.entriesConfirmed_eq hx, State.endedLike_points])

theorem State.confirmOrder_links (hx : s.points[o.point] = some x) : (s.confirmOrder l o cause).links =
    s.links.set l ((s.links[l]).without o.point) :=
  State.confirmOrder_onlyExecutions.links.trans (by rw [State.entriesConfirmed_eq hx, State.endedLike_links])

theorem State.confirmOrder_sameResults : SameResults (s.entriesConfirmed l o cause) (s.confirmOrder l o cause) := by
  rw [State.confirmOrder_eq]
  exact (SameResults.refl _).completeAll

theorem State.pointConfirmed_sameResults : SameResults s (s.pointConfirmed l o cause) := fun k => by
  rw [State.pointConfirmed_scheme]
  rfl

/-- Each waiting entry takes its outcome, where no two wait for one entry (R141). -/
theorem State.confirmOrder_entry (hx : s.points[o.point] = some x) (nodup : (o.waiting.map WaitRef.key).Nodup) {i : Nat}
    {w : WaitRef} (hw : o.waiting[i]? = some w) : (s.confirmOrder l o cause).entry w =
      (s.entry w).map (fun e => { e with outcome := some (o.confirmedOutcome i w.role), outcomeTime := some s.clock }) := by
  have finish := State.finishEntries_entry (fun r => o.confirmedOutcome r.2 r.1.role) o.waiting.zipIdx
    (s.pointConfirmed l o cause) (by rwa [zipIdx_keys]) (w, i) (List.mk_mem_zipIdx_iff_getElem?.2 hw)
  have clock : (s.pointConfirmed l o cause).clock = s.clock := by rw [State.pointConfirmed_eq hx, State.endedLike_clock]
  rw [State.confirmOrder_sameResults.entry, State.entriesConfirmed, finish, State.pointConfirmed_sameResults.entry, clock]

/-- Every trigger record keeps its execution number, and the entries that none waits for stand. -/
theorem State.confirmOrder_other (k : SchemeId) : ((s.confirmOrder l o cause).schemes[k]).results.map Prod.fst =
    ((s.schemes[k]).results.map Prod.fst) ∧
    ∀ w : WaitRef, (∀ v ∈ o.waiting, v.key ≠ w.key) → (s.confirmOrder l o cause).entry w = s.entry w := by
  obtain ⟨-, execution, other⟩ := State.finishEntries_other (fun r => o.confirmedOutcome r.2 r.1.role) o.waiting.zipIdx
    (s.pointConfirmed l o cause)
  refine ⟨?_, fun w hw => ?_⟩
  · rw [State.confirmOrder_sameResults k]
    exact (execution k).trans (congrArg _ (State.pointConfirmed_sameResults k))
  · rw [State.confirmOrder_sameResults.entry]
    exact (other w (fun r hr => hw r.1 (List.fst_mem_of_mem_zipIdx hr))).trans (State.pointConfirmed_sameResults.entry w)

end

/-- A reference of the record's own execution reads its entry. -/
theorem State.entry_of_record {s : State} {k : SchemeId} {r : TriggerRecord} (hr : (s.schemes[k]).record = some r)
    {n : BitVec 32} (execution : r.execution = n) (j : Nat) : s.entry ⟨k, n, j, .primary⟩ = r.entries[j]? := by
  unfold State.entry Scheme.results
  dsimp only
  rw [hr, Option.map_some, Option.bind_some, if_pos execution]

/-- The trigger record goes on, and entries that references read alike are alike. -/
theorem State.entries_of_entry {s t : State} {k : SchemeId} {r : TriggerRecord} (hr : (s.schemes[k]).record = some r)
    (execution : (t.schemes[k]).results.map Prod.fst = (s.schemes[k]).results.map Prod.fst) :
    ∃ r', (t.schemes[k]).record = some r' ∧ r'.execution = r.execution ∧
      ∀ (j : Nat), t.entry ⟨k, r.execution, j, .primary⟩ = s.entry ⟨k, r.execution, j, .primary⟩ →
        r'.entries[j]? = r.entries[j]? := by
  unfold Scheme.results at execution
  rw [hr] at execution
  cases hr' : (t.schemes[k]).record with
  | none => rw [hr'] at execution; exact nomatch execution
  | some r' =>
    rw [hr'] at execution
    have same : r'.execution = r.execution := Option.some.inj execution
    exact ⟨r', rfl, same, fun j h => by rwa [State.entry_of_record hr' same, State.entry_of_record hr rfl] at h⟩

/-- Settles O30: the point first, then its pending block, the entries that wait, and the executions that are done. -/
theorem confirmationTripsThePoint : Obligations.ConfirmationTripsThePoint := by
  intro l o cause x s hx t due tripped first
  have executions : OnlyExecutions (s.entriesConfirmed l o cause) t := State.confirmOrder_onlyExecutions
  have ended := State.entriesConfirmed_eq (l := l) (cause := cause) hx
  have logs := State.entriesConfirmed_logs (l := l) (cause := cause) hx
  have points : t.points = s.points.set o.point (some tripped) := State.confirmOrder_points hx
  have links : t.links = s.links.set l ((s.links[l]).without o.point) := State.confirmOrder_links hx
  have logs' : s.Logs (s.entriesConfirmed l o cause) first := by
    cases cause <;> exact logs
  refine ⟨?_, fun q hq => ?_, ?_, fun j hj => ?_, executions.meas.trans ?_, executions.det.trans ?_,
    executions.clock.trans ?_, executions.execCount.trans ?_, executions.lateLists.trans ?_, ?_, ?_, ?_, ?_⟩
  · rw [points]
    exact Vector.getElem_set_self _
  · rw [points, getElem_set_fin, if_neg (Ne.symm hq)]
  · rw [links]
    exact Vector.getElem_set_self _
  · rw [links, getElem_set_fin, if_neg (Ne.symm hj)]
  · rw [ended, State.endedLike_meas]
  · rw [ended, State.endedLike_det]
  · rw [ended, State.endedLike_clock]
  · rw [ended, State.endedLike_execCount]
  · rw [ended, State.endedLike_lateLists]
  · exact logs'.more (.completeAll (.refl _))
  · refine ⟨s.entriesConfirmed l o cause, State.completeAll_eq_dedup _ _, ended, logs', fun k => ?_⟩
    obtain ⟨es, scheme⟩ := State.entriesConfirmed_scheme (s := s) (l := l) (o := o) (cause := cause) k
    have results : (t.schemes[k]).results = _ := State.confirmOrder_sameResults k
    refine ⟨es, scheme, ?_⟩
    simpa [Scheme.results, Function.comp_def] using congrArg (Option.map Prod.snd) results
  · intro nodup i w r e hw hr execution he
    have before : s.entry w = some e := State.entry_eq_some.2 ⟨r, hr, execution, he⟩
    have after := State.confirmOrder_entry (l := l) (cause := cause) hx nodup hw
    rw [before, Option.map_some] at after
    obtain ⟨r', hr', -, he'⟩ := State.entry_eq_some.1 after
    refine ⟨r', hr', he'.trans ?_⟩
    cases role : w.role <;> simp [TripOrder.confirmedOutcome]
  · intro k r hr
    obtain ⟨executions', other⟩ := State.confirmOrder_other (s := s) (l := l) (o := o) (cause := cause) k
    obtain ⟨r', hr', execution, entries⟩ := State.entries_of_entry hr executions'
    refine ⟨r', hr', execution, fun j hj => entries j (other _ fun w hw named => ?_)⟩
    simp only [WaitRef.key, Prod.mk.injEq] at named
    exact hj w hw named.1 named.2.1 named.2.2

end Sys2Proof.Machine
end

section
/-! SUPPORT. A failed order (R29, R144) and the backup request (R27, R145). -/

namespace Sys2Proof.Machine

/-! ## What a backup request is answered (R145) -/

namespace State

variable {s : State} {failed b : PointId} {w : WaitRef} {y : Point}

/-- Point `b` is not to be had for a backup: undefined, TRIPPED, or IDLE and not IN_SERVICE. -/
def NoBackup (s : State) (b : PointId) : Prop :=
  s.points[b] = none ∨
    ∃ y, s.points[b] = some y ∧ (y.orderState = .tripped ∨ (y.orderState = .idle ∧ y.availability ≠ .inService))

theorem requestBackup_unavailable (h : s.NoBackup b) : s.requestBackup failed b w = s.modEntry w (fun e => { e with
    backupPoint := some b, backupAnswer := some .unavailable, outcome := some .backupUnavailable
    outcomeTime := some s.clock }) := by
  unfold requestBackup
  rcases h with hy | ⟨y, hy, tripped | ⟨idle, notInService⟩⟩
  · simp only [hy]
    exact s.modEntry_finishEntry _ _ _
  · simp only [hy, tripped]
    exact s.modEntry_finishEntry _ _ _
  · cases available : y.availability with
    | inService => exact absurd available notInService
    | blocked =>
      simp only [hy, idle, available]
      exact s.modEntry_finishEntry _ _ _
    | faulted =>
      simp only [hy, idle, available]
      exact s.modEntry_finishEntry _ _ _

theorem requestBackup_follows (hy : s.points[b] = some y) (ordered : y.orderState = .ordered) {j : LinkId} {n : TripOrder}
    (inFlight : s.orderOf b = some (j, n)) : s.requestBackup failed b w =
      (s.joinOrder j b { w with role := .backup }).modEntry w (fun e => { e with
        backupPoint := some b, backupAnswer := some .follows, backupTag := some n.tag
        backupValue := some (s.backupValue y.defn) }) := by
  simp only [requestBackup, hy, ordered, inFlight]

/-- An ORDERED point without an order in flight, which the order law excludes. -/
theorem requestBackup_lost (hy : s.points[b] = some y) (ordered : y.orderState = .ordered) (none : s.orderOf b = none) :
    s.requestBackup failed b w = s := by
  simp only [requestBackup, hy, ordered, none]

/-- The state after a PLACED backup request, before bench mode confirms its order. -/
def backupPlaced (s : State) (failed b : PointId) (w : WaitRef) (y : Point) : State :=
  s.requestPlaced b y.defn (s.newOrder b y.defn { w with role := .backup } true) w
    (fun e => { e with
      backupPoint := some b, backupAnswer := some .placed, backupTag := some (s.links[y.defn.link]).nextTag
      backupValue := some (s.backupValue y.defn) })
    (.backupPlaced, some w.scheme, some b, none,
      some (((s.links[y.defn.link]).nextTag.toNat : Int) + 256 * (failed.val : Int)))

theorem requestBackup_eq_placed (hy : s.points[b] = some y) (idle : y.orderState = .idle)
    (inService : y.availability = .inService) : s.requestBackup failed b w =
      if s.bench then (s.backupPlaced failed b w y).confirmOrder y.defn.link
        (s.newOrder b y.defn { w with role := .backup } true) .bench
      else s.backupPlaced failed b w y :=
  requestBackup_placed hy idle inService rfl

/-- The four things a backup request can meet. -/
theorem backupPoint_cases (s : State) (b : PointId) : s.NoBackup b ∨
    (∃ y, s.points[b] = some y ∧ y.orderState = .idle ∧ y.availability = .inService) ∨
    (∃ y j n, s.points[b] = some y ∧ y.orderState = .ordered ∧ s.orderOf b = some (j, n)) ∨
    ∃ y, s.points[b] = some y ∧ y.orderState = .ordered ∧ s.orderOf b = none := by
  cases hy : s.points[b] with
  | none => exact .inl (.inl hy)
  | some y =>
    cases state : y.orderState with
    | tripped => exact .inl (.inr ⟨y, hy, .inl state⟩)
    | idle =>
      by_cases inService : y.availability = .inService
      · exact .inr (.inl ⟨y, rfl, state, inService⟩)
      · exact .inl (.inr ⟨y, hy, .inr ⟨state, inService⟩⟩)
    | ordered =>
      cases order : s.orderOf b with
      | none => exact .inr (.inr (.inr ⟨y, rfl, state, rfl⟩))
      | some jn => exact .inr (.inr (.inl ⟨y, jn.1, jn.2, rfl, state, rfl⟩))

/-! ## The entry results through a backup request -/

theorem requestPlaced_entry (p : PointId) (d : PointDef) (o : TripOrder) (f : EntryResult → EntryResult) (r : Report)
    (v : WaitRef) : (s.requestPlaced p d o w f r).entry v =
      if w.key = v.key then (s.entry v).map f else s.entry v := by
  have placed : SameResults s (s.placeOrder p d o) := SameResults.requestForPoint (SameResults.of_schemes rfl)
  rw [← placed.entry v, ← modEntry_entry]
  rfl

/-- A backup request leaves every entry but the one that makes it. -/
theorem requestBackup_entry_other {v : WaitRef} (hv : w.key ≠ v.key) : (s.requestBackup failed b w).entry v = s.entry v := by
  rcases s.backupPoint_cases b with none | ⟨y, hy, idle, inService⟩ | ⟨y, j, n, hy, ordered, inFlight⟩ | ⟨y, hy, ordered, lost⟩
  · rw [requestBackup_unavailable none, modEntry_entry, if_neg hv]
  · have placed : (s.backupPlaced failed b w y).entry v = s.entry v := by
      rw [backupPlaced, requestPlaced_entry, if_neg hv]
    rw [requestBackup_eq_placed hy idle inService]
    split
    · refine ((confirmOrder_other w.scheme).2 v fun u hu => ?_).trans placed
      obtain rfl : u = { w with role := .backup } := List.mem_singleton.1 hu
      exact hv
    · exact placed
  · rw [requestBackup_follows hy ordered inFlight, modEntry_entry, if_neg hv]
    rfl
  · rw [requestBackup_lost hy ordered lost]

end State

/-! ## What a failed order gives its entries (R144, step 5) -/

namespace State

variable {o : TripOrder} {backup : Option PointId} {s : State} {w : WaitRef} {i : Nat}

theorem failEntry_backup (role : w.role = .backup) :
    failEntry o backup s (w, i) = s.finishEntry w .backupFailed := by
  simp only [failEntry, role]

theorem failEntry_merged (role : w.role = .primary) (h : i ≠ 0 ∨ o.backup = true) :
    failEntry o backup s (w, i) = s.finishEntry w .mergedFailed := by
  have not : ¬ (i = 0 ∧ o.backup = false) := fun ⟨zero, primary⟩ => h.elim (· zero) (by simp [primary])
  simp only [failEntry, role, if_neg not]

theorem failEntry_failed (role : w.role = .primary) (zero : i = 0) (primary : o.backup = false) (none : backup = none) :
    failEntry o backup s (w, i) = s.finishEntry w .failed := by
  simp only [failEntry, role, zero, primary, none, and_self, if_true]

theorem failEntry_requests (role : w.role = .primary) (zero : i = 0) (primary : o.backup = false) {b : PointId}
    (some : backup = some b) : failEntry o backup s (w, i) = s.requestBackup o.point b w := by
  simp only [failEntry, role, zero, primary, some, and_self, if_true]

/-- The four things a failed order can give an entry: an outcome, or a backup request. -/
theorem failEntry_cases (o : TripOrder) (backup : Option PointId) (s : State) (r : WaitRef × Nat) :
    (∃ outcome, failEntry o backup s r = s.finishEntry r.1 outcome) ∨
      ∃ b, failEntry o backup s r = s.requestBackup o.point b r.1 := by
  obtain ⟨w, i⟩ := r
  cases role : w.role with
  | backup => exact .inl ⟨_, failEntry_backup role⟩
  | primary =>
    by_cases first : i = 0 ∧ o.backup = false
    · cases h : backup with
      | none => exact .inl ⟨_, failEntry_failed role first.1 first.2 rfl⟩
      | some b => exact .inr ⟨b, failEntry_requests role first.1 first.2 rfl⟩
    · refine .inl ⟨_, failEntry_merged role ?_⟩
      simpa [← imp_iff_not_or] using first

theorem failEntry_entry_other {r : WaitRef × Nat} {v : WaitRef} (hv : r.1.key ≠ v.key) :
    (failEntry o backup s r).entry v = s.entry v := by
  rcases failEntry_cases o backup s r with ⟨outcome, h⟩ | ⟨b, h⟩
  · rw [h, finishEntry, modEntry_entry, if_neg hv]
  · rw [h, requestBackup_entry_other hv]

theorem failEntries_entry_other (o : TripOrder) (backup : Option PointId) {v : WaitRef} :
    ∀ (ws : List (WaitRef × Nat)) (s : State), (∀ r ∈ ws, r.1.key ≠ v.key) →
      (ws.foldl (failEntry o backup) s).entry v = s.entry v := by
  intro ws
  induction ws with
  | nil => exact fun _ _ => rfl
  | cons r ws ih =>
    intro s hv
    rw [List.foldl_cons, ih _ (fun u hu => hv u (List.mem_cons_of_mem _ hu)), failEntry_entry_other (hv r List.mem_cons_self)]

/-- An entry that a failed order gives an outcome whatever the state has it at the end, where no two wait for one entry. -/
theorem failEntries_entry (o : TripOrder) (backup : Option PointId) {r : WaitRef × Nat} {outcome : EntryOutcome}
    (gives : ∀ u : State, failEntry o backup u r = u.finishEntry r.1 outcome) :
    ∀ (ws : List (WaitRef × Nat)) (s : State), (ws.map (fun r => r.1.key)).Nodup → r ∈ ws →
      (ws.foldl (failEntry o backup) s).entry r.1 =
        (s.entry r.1).map (fun e => { e with outcome := some outcome, outcomeTime := some s.clock }) := by
  intro ws
  induction ws with
  | nil => exact fun _ _ mem => nomatch mem
  | cons u ws ih =>
    intro s nodup mem
    obtain ⟨head, nodup⟩ := List.nodup_cons.1 nodup
    have apart : ∀ v ∈ ws, v.1.key ≠ u.1.key := fun v hv same => head (List.mem_map.2 ⟨v, hv, same⟩)
    rw [List.foldl_cons]
    rcases List.mem_cons.1 mem with rfl | mem
    · rw [failEntries_entry_other o backup ws _ apart, gives, finishEntry, modEntry_entry, if_pos rfl]
    · rw [ih _ nodup mem, failEntry_entry_other (apart r mem).symm]
      rw [(Executes.failEntry (.refl s)).clock]

end State

/-! ## The failed point through the backup requests -/

/-- Point `p` is IDLE and FAULTED with contents `y`, and link `l` has no order for it. -/
structure State.OutOfUse (s : State) (l : LinkId) (p : PointId) (y : Point) : Prop where
  point : s.points[p] = some y
  idle : y.orderState = .idle
  faulted : y.availability = .faulted
  orders : ∀ u ∈ (s.links[l]).orders, u.point ≠ p

namespace State.OutOfUse

variable {s t : State} {l : LinkId} {p : PointId} {y : Point}

theorem of_eq (h : s.OutOfUse l p y) (points : t.points = s.points) (links : t.links = s.links) : t.OutOfUse l p y :=
  ⟨by rw [points]; exact h.point, h.idle, h.faulted, by rw [links]; exact h.orders⟩

theorem modEntry {w : WaitRef} {f : EntryResult → EntryResult} (h : s.OutOfUse l p y) : (s.modEntry w f).OutOfUse l p y :=
  h.of_eq rfl rfl

theorem joinOrder {j : LinkId} {b : PointId} {w : WaitRef} (h : s.OutOfUse l p y) : (s.joinOrder j b w).OutOfUse l p y := by
  refine ⟨h.point, h.idle, h.faulted, ?_⟩
  rw [State.joinOrder, State.modLink_links, getElem_modV_fin]
  split
  · next same =>
    subst same
    intro u mem
    obtain ⟨v, hv, rfl⟩ := List.mem_map.1 mem
    split <;> exact h.orders v hv
  · exact h.orders

/-- A confirmation of another point's order. -/
theorem confirmOrder {j : LinkId} {o : TripOrder} {c : ConfirmCause} {x : Point} (h : s.OutOfUse l p y)
    (hx : s.points[o.point] = some x) (other : o.point ≠ p) : (s.confirmOrder j o c).OutOfUse l p y := by
  refine ⟨?_, h.idle, h.faulted, ?_⟩
  · rw [State.confirmOrder_points hx, getElem_set_fin, if_neg other]
    exact h.point
  · rw [State.confirmOrder_links hx, getElem_set_fin]
    split
    · next same =>
      subst same
      exact fun u mem => h.orders u (List.mem_of_mem_filter mem)
    · exact h.orders

theorem requestPlaced {b : PointId} {x : Point} {o : TripOrder} {w : WaitRef} {f : EntryResult → EntryResult} {r : Report}
    (h : s.OutOfUse l p y) (hx : s.points[b] = some x) (other : b ≠ p) (ho : o.point = b) :
    (s.requestPlaced b x.defn o w f r).OutOfUse l p y := by
  refine ⟨?_, h.idle, h.faulted, ?_⟩
  · rw [State.requestPlaced_points x.defn o w f r hx, getElem_set_fin, if_neg other]
    exact h.point
  · rw [State.requestPlaced_links, getElem_set_fin]
    split
    · next same =>
      subst same
      dsimp only
      split
      · exact h.orders
      · intro u mem
        rcases List.mem_append.1 mem with mem | mem
        · exact h.orders u mem
        · obtain rfl := List.mem_singleton.1 mem
          exact ho.trans_ne other
    · exact h.orders

theorem requestBackup {failed b : PointId} {w : WaitRef} (h : s.OutOfUse l p y) :
    (s.requestBackup failed b w).OutOfUse l p y := by
  rcases s.backupPoint_cases b with none | ⟨x, hx, idle, inService⟩ | ⟨x, j, n, hx, ordered, inFlight⟩ | ⟨x, hx, ordered, lost⟩
  · rw [State.requestBackup_unavailable none]
    exact h.modEntry
  · have other : b ≠ p := by
      rintro rfl
      obtain rfl : y = x := Option.some.inj (h.point.symm.trans hx)
      exact nomatch h.faulted.symm.trans inService
    have placed : (s.backupPlaced failed b w x).OutOfUse l p y := h.requestPlaced hx other rfl
    have point := State.requestPlaced_points x.defn (s.newOrder b x.defn { w with role := .backup } true) w
      (fun e => { e with
        backupPoint := some b, backupAnswer := some .placed, backupTag := some (s.links[x.defn.link]).nextTag
        backupValue := some (s.backupValue x.defn) })
      (.backupPlaced, some w.scheme, some b, Option.none,
        some (((s.links[x.defn.link]).nextTag.toNat : Int) + 256 * (failed.val : Int))) hx
    rw [State.requestBackup_eq_placed hx idle inService]
    split
    · exact placed.confirmOrder ((congrArg (·[b]) point).trans (Vector.getElem_set_self _)) other
    · exact placed
  · rw [State.requestBackup_follows hx ordered inFlight]
    exact h.joinOrder.modEntry
  · rwa [State.requestBackup_lost hx ordered lost]

theorem failEntries {o : TripOrder} {backup : Option PointId} (ws : List (WaitRef × Nat)) (h : s.OutOfUse l p y) :
    (ws.foldl (State.failEntry o backup) s).OutOfUse l p y := by
  induction ws generalizing s with
  | nil => exact h
  | cons r ws ih =>
    refine ih ?_
    rcases State.failEntry_cases o backup s r with ⟨outcome, eq⟩ | ⟨b, eq⟩
    · rw [eq]
      exact h.modEntry
    · rw [eq]
      exact h.requestBackup

end State.OutOfUse

/-! ## Failing an order (R144) -/

/-- A failed point (R29). -/
def Point.failed (x : Point) : Point :=
  { x with orderState := .idle, availability := .faulted, lastOutcome := .failed, blockPending := false }

/-- ORDER_FAILED (R150). -/
def TripOrder.failReport (o : TripOrder) (expired : Bool) : Report :=
  (.orderFailed, some o.placer, some o.point, none, some ((o.tag.toNat : Int) + if expired then 256 else 0))

/-- Steps 1 to 4 of a failure: the point, the order, the record and the requests. -/
def State.orderFailed (s : State) (l : LinkId) (o : TripOrder) (expired : Bool) : State :=
  s.orderEnded l o.point Point.failed (o.failReport expired)

/-- Steps 1 to 5 of a failure: each waiting entry is given its due; `backup` is the point's backup. -/
def State.entriesFailed (s : State) (l : LinkId) (o : TripOrder) (expired : Bool) (backup : Option PointId) : State :=
  o.waiting.zipIdx.foldl (State.failEntry o backup) (s.orderFailed l o expired)

/-- Steps 1 to 6 of a failure: the late list names the entries that waited (R146). -/
def State.lateListKept (s : State) (l : LinkId) (o : TripOrder) (expired : Bool) (backup : Option PointId) : State :=
  { s.entriesFailed l o expired backup with
    lateLists := (s.entriesFailed l o expired backup).lateLists.set o.point o.waiting }

section

variable {s : State} {l : LinkId} {o : TripOrder} {expired : Bool} {x : Point}

theorem State.failOrder_eq (hx : s.points[o.point] = some x) :
    s.failOrder l o expired = (s.lateListKept l o expired x.defn.backup).completeAll o.waiting := by
  have point : (s.orderFailed l o expired).points[o.point] = some x.failed := s.orderEnded_point _ _ _ _ hx
  have start : s.failOrder l o expired = State.completeAll { s.entriesFailed l o expired
      (((s.orderFailed l o expired).points[o.point].map (fun x => x.defn.backup)).getD none) with
    lateLists := (s.entriesFailed l o expired (((s.orderFailed l o expired).points[o.point].map
      (fun x => x.defn.backup)).getD none)).lateLists.set o.point o.waiting } o.waiting := rfl
  rw [start, point]
  rfl

theorem State.failOrder_onlyExecutions (hx : s.points[o.point] = some x) :
    OnlyExecutions (s.lateListKept l o expired x.defn.backup) (s.failOrder l o expired) := by
  rw [State.failOrder_eq hx]
  exact (OnlyExecutions.refl _).completeAll

theorem State.failOrder_entry (hx : s.points[o.point] = some x) (w : WaitRef) :
    (s.failOrder l o expired).entry w = (s.entriesFailed l o expired x.defn.backup).entry w := by
  have kept : SameResults (s.entriesFailed l o expired x.defn.backup) (s.lateListKept l o expired x.defn.backup) :=
    .of_schemes rfl
  rw [State.failOrder_eq hx]
  exact kept.completeAll.entry w

theorem State.orderFailed_eq (hx : s.points[o.point] = some x) :
    s.orderFailed l o expired = s.endedLike l o.point x.failed (s.orderFailed l o expired) :=
  s.orderEnded_eq l o.point _ _ hx

theorem State.orderFailed_sameResults : SameResults s (s.orderFailed l o expired) := fun k => by
  rw [State.orderFailed, State.orderEnded_scheme]
  rfl

theorem State.orderFailed_outOfUse (hx : s.points[o.point] = some x) :
    (s.orderFailed l o expired).OutOfUse l o.point x.failed := by
  refine ⟨s.orderEnded_point _ _ _ _ hx, rfl, rfl, ?_⟩
  rw [State.orderFailed_eq hx, State.endedLike_links, getElem_set_fin, if_pos rfl]
  intro u mem
  simpa using (List.mem_filter.1 mem).2

theorem State.failOrder_outOfUse (hx : s.points[o.point] = some x) :
    (s.failOrder l o expired).OutOfUse l o.point x.failed := by
  have entries : (s.entriesFailed l o expired x.defn.backup).OutOfUse l o.point x.failed :=
    (State.orderFailed_outOfUse hx).failEntries _
  have kept : (s.lateListKept l o expired x.defn.backup).OutOfUse l o.point x.failed := entries.of_eq rfl rfl
  exact kept.of_eq (State.failOrder_onlyExecutions hx).points (State.failOrder_onlyExecutions hx).links

theorem State.failOrder_lateList (hx : s.points[o.point] = some x) :
    (s.failOrder l o expired).lateLists[o.point] = o.waiting := by
  rw [(State.failOrder_onlyExecutions hx).lateLists]
  exact Vector.getElem_set_self _

/-! ### The entries at the end -/

/-- An entry that the failure gives an outcome whatever the state. -/
theorem State.failOrder_gives (hx : s.points[o.point] = some x) (nodup : (o.waiting.map WaitRef.key).Nodup) {i : Nat}
    {w : WaitRef} (hw : o.waiting[i]? = some w) {outcome : EntryOutcome}
    (gives : ∀ u : State, State.failEntry o x.defn.backup u (w, i) = u.finishEntry w outcome) :
    (s.failOrder l o expired).entry w =
      (s.entry w).map (fun e => { e with outcome := some outcome, outcomeTime := some s.clock }) := by
  have clock : (s.orderFailed l o expired).clock = s.clock := by rw [State.orderFailed_eq hx, State.endedLike_clock]
  rw [State.failOrder_entry hx, State.entriesFailed, State.failEntries_entry o x.defn.backup (r := (w, i)) gives
    o.waiting.zipIdx _ (by rwa [zipIdx_keys]) (List.mk_mem_zipIdx_iff_getElem?.2 hw), State.orderFailed_sameResults.entry,
    clock]

/-- The entry that makes the backup request: the first, and it meets the point and the order just ended. -/
theorem State.failOrder_requests (hx : s.points[o.point] = some x) (nodup : (o.waiting.map WaitRef.key).Nodup)
    {w : WaitRef} (hw : o.waiting[0]? = some w) (role : w.role = .primary) (primary : o.backup = false) {b : PointId}
    (backup : x.defn.backup = some b) : (s.failOrder l o expired).entry w =
      ((s.orderFailed l o expired).requestBackup o.point b w).entry w := by
  have keys := zipIdx_keys o.waiting
  rw [State.failOrder_entry hx, State.entriesFailed]
  obtain ⟨ws, waiting⟩ : ∃ ws, o.waiting = w :: ws := by
    cases h : o.waiting with
    | nil => simp [h] at hw
    | cons v ws =>
      obtain rfl : v = w := by simpa [h] using hw
      exact ⟨ws, rfl⟩
  rw [waiting] at nodup keys ⊢
  rw [← keys, List.zipIdx_cons, List.map_cons, List.nodup_cons] at nodup
  rw [List.zipIdx_cons, List.foldl_cons, State.failEntry_requests role rfl primary backup,
    State.failEntries_entry_other _ _ _ _ fun v hv same => nodup.1 (List.mem_map.2 ⟨v, hv, same⟩)]

/-- Another point is the same after the failed order's steps 1 to 4. -/
theorem State.orderFailed_point (hx : s.points[o.point] = some x) {b : PointId} (other : b ≠ o.point) :
    (s.orderFailed l o expired).points[b] = s.points[b] := by
  rw [State.orderFailed_eq hx, State.endedLike_points, getElem_set_fin, if_neg other.symm]

theorem State.orderFailed_nextTag (hx : s.points[o.point] = some x) (j : LinkId) :
    ((s.orderFailed l o expired).links[j]).nextTag = (s.links[j]).nextTag := by
  rw [State.orderFailed_eq hx, State.endedLike_links, getElem_set_fin]
  split
  · next same => subst same; rfl
  · rfl

/-- The order of another point stays in flight. -/
theorem State.orderFailed_orderOf (hx : s.points[o.point] = some x) {b : PointId} (other : b ≠ o.point) :
    (s.orderFailed l o expired).orderOf b = s.orderOf b := by
  have found (j : LinkId) : ((s.orderFailed l o expired).links[j]).orders.find? (fun n => n.point = b) =
      (s.links[j]).orders.find? (fun n => n.point = b) := by
    rw [State.orderFailed_eq hx, State.endedLike_links, getElem_set_fin]
    split
    · next same =>
      subst same
      simp only [Link.without, List.find?_filter]
      congr 1
      funext n
      by_cases h : n.point = b
      · simp [h, other]
      · simp [h]
    · rfl
  unfold State.orderOf
  rw [State.orderFailed_point hx other]
  cases s.points[b] with
  | none => rfl
  | some y => simp only [found]

theorem State.orderFailed_backupValue (hx : s.points[o.point] = some x) (d : PointDef) :
    (s.orderFailed l o expired).backupValue d = s.backupValue d := by
  have meas : (s.orderFailed l o expired).meas = s.meas := by rw [State.orderFailed_eq hx, State.endedLike_meas]
  unfold State.backupValue
  rw [meas]

/-- What the entry that asks point `b` for a backup is at the end, by what `b` is before the failure (R145, R147). -/
theorem State.failOrder_backup (hx : s.points[o.point] = some x) (nodup : (o.waiting.map WaitRef.key).Nodup)
    {w : WaitRef} (hw : o.waiting[0]? = some w) (role : w.role = .primary) (primary : o.backup = false) {b : PointId}
    (backup : x.defn.backup = some b) (other : b ≠ o.point) :
    (s.NoBackup b → (s.failOrder l o expired).entry w = (s.entry w).map (fun e => { e with
      backupPoint := some b, backupAnswer := some .unavailable, outcome := some .backupUnavailable
      outcomeTime := some s.clock })) ∧
    (∀ y j n, s.points[b] = some y → y.orderState = .ordered → s.orderOf b = some (j, n) →
      (s.failOrder l o expired).entry w = (s.entry w).map (fun e => { e with
        backupPoint := some b, backupAnswer := some .follows, backupTag := some n.tag
        backupValue := some (s.backupValue y.defn) })) ∧
    (∀ y, s.bench = false → s.points[b] = some y → y.orderState = .idle → y.availability = .inService →
      (s.failOrder l o expired).entry w = (s.entry w).map (fun e => { e with
        backupPoint := some b, backupAnswer := some .placed, backupTag := some (s.links[y.defn.link]).nextTag
        backupValue := some (s.backupValue y.defn) })) := by
  have ended := State.orderFailed_eq (l := l) (expired := expired) hx
  have point := State.orderFailed_point (l := l) (expired := expired) hx other
  have entry : (s.orderFailed l o expired).entry w = s.entry w := State.orderFailed_sameResults.entry w
  have clock : (s.orderFailed l o expired).clock = s.clock := by rw [ended, State.endedLike_clock]
  rw [State.failOrder_requests hx nodup hw role primary backup]
  refine ⟨fun none => ?_, fun y j n hy ordered inFlight => ?_, fun y bench hy idle inService => ?_⟩
  · have none' : (s.orderFailed l o expired).NoBackup b := by
      unfold State.NoBackup
      rwa [point]
    rw [State.requestBackup_unavailable none', State.modEntry_entry, if_pos rfl, entry, clock]
  · have joined : SameResults (s.orderFailed l o expired)
      ((s.orderFailed l o expired).joinOrder j b { w with role := .backup }) := .of_schemes rfl
    rw [State.requestBackup_follows (point.trans hy) ordered ((State.orderFailed_orderOf hx other).trans inFlight),
      State.modEntry_entry, if_pos rfl, joined.entry, entry, State.orderFailed_backupValue hx]
  · have bench' : (s.orderFailed l o expired).bench = false := by rw [ended, State.endedLike_bench, bench]
    rw [State.requestBackup_eq_placed (point.trans hy) idle inService, bench', if_neg Bool.false_ne_true,
      State.backupPlaced, State.requestPlaced_entry, if_pos rfl, entry, State.orderFailed_backupValue hx,
      State.orderFailed_nextTag hx]

end

/-! ## The obligation -/

section

variable (l : LinkId) (o : TripOrder) (expired : Bool) {x : Point} {s : State}

/-- A failure's steps: the order ends, the entries are given their due, the late list is kept, the executions complete. -/
theorem State.failOrder_run (hx : s.points[o.point] = some x) : ∃ u : State,
    (let m := o.waiting.zipIdx.foldl (State.failEntry o x.defn.backup) u
     s.failOrder l o expired = (o.waiting.map WaitRef.scheme).dedup.foldl State.completeIfDone
      { m with lateLists := m.lateLists.set o.point o.waiting }) ∧
    u = s.endedLike l o.point x.failed u ∧ s.Logs u [o.failReport expired] ∧
    ∀ k : SchemeId, u.schemes[k] = { s.schemes[k] with
      pendingPass := (s.schemes[k]).pendingPass || (s.schemes[k]).lists o.point } :=
  ⟨s.orderFailed l o expired, (State.failOrder_eq hx).trans (State.completeAll_eq_dedup _ _), State.orderFailed_eq hx,
    s.orderEnded_logs .., fun k => s.orderEnded_scheme _ _ _ _ k⟩

end

/-- Settles O31: the point first, then each entry that waits by its role and place, the late list, and the executions that
are done; of the entries only the first asks for a backup, which finds every other point as the failure found it. -/
theorem failureFaultsThePoint : Obligations.FailureFaultsThePoint := by
  refine ⟨fun l o expired x s hx => ?_, fun o backup w i s => ?_, fun failed b w s => ?_⟩
  · intro t
    have gone : t.OutOfUse l o.point x.failed := State.failOrder_outOfUse hx
    have executes : Executes s t := .failOrder (.refl s)
    refine ⟨gone.point, gone.orders, State.failOrder_lateList hx, executes.meas, executes.det, executes.clock,
      executes.execCount, s.failOrder_logs l o expired, State.failOrder_run l o expired hx, ?_⟩
    intro nodup i w r e hw hr execution he becomes
    have before : s.entry w = some e := State.entry_eq_some.2 ⟨r, hr, execution, he⟩
    have becomes_of {e' : EntryResult} {f : EntryResult → EntryResult} (h : t.entry w = (s.entry w).map f)
        (he' : f e = e') : becomes e' := by
      rw [before, Option.map_some, he'] at h
      obtain ⟨r', hr', -, he'⟩ := State.entry_eq_some.1 h
      exact ⟨r', hr', he'⟩
    refine ⟨fun role => ?_, fun role merged => ?_, fun role zero primary none => ?_, ?_⟩
    · exact becomes_of (State.failOrder_gives hx nodup hw fun u => State.failEntry_backup role) rfl
    · exact becomes_of (State.failOrder_gives hx nodup hw fun u => State.failEntry_merged role merged) rfl
    · exact becomes_of (State.failOrder_gives hx nodup hw fun u => State.failEntry_failed role zero primary none) rfl
    · intro b role zero primary backup other bench
      subst zero
      obtain ⟨unavailable, follows, placed⟩ := State.failOrder_backup (l := l) (expired := expired) hx nodup hw role primary
        backup other
      exact ⟨fun none => becomes_of (unavailable none) rfl, fun y hy =>
        ⟨fun j n ordered inFlight => becomes_of (follows y j n hy ordered inFlight) rfl,
          fun idle inService => becomes_of (placed y bench hy idle inService) rfl⟩⟩
  · exact ⟨State.failEntry_backup, State.failEntry_merged, State.failEntry_failed,
      fun _ role zero primary some => State.failEntry_requests role zero primary some⟩
  · refine ⟨fun y hy idle inService bench => ?_, fun y j n hy ordered inFlight => ?_, State.requestBackup_unavailable⟩
    · intro j tag
      have placed : s.requestBackup failed b w = s.backupPlaced failed b w y := by
        rw [State.requestBackup_eq_placed hy idle inService, bench, if_neg Bool.false_ne_true]
      have links : (s.backupPlaced failed b w y).links = _ := State.requestPlaced_links ..
      rw [bench, if_neg Bool.false_ne_true] at links
      rw [placed]
      exact ⟨State.requestPlaced_points _ _ _ _ _ hy, links, State.requestPlaced_lateLists .., State.requestPlaced_logs ..,
        State.requestPlaced_meas .., State.requestPlaced_det .., State.requestPlaced_execCount ..,
        State.requestPlaced_engine ..⟩
    · exact State.requestBackup_follows hy ordered inFlight

end Sys2Proof.Machine
end

section
/-! SUPPORT. What every change of the part keeps of the scheme law (R41, R61 to R63, R78, R103, R108, R114, R120, R126). -/

namespace Sys2Proof.Machine

/-! ## What a lawful entry holds in its state -/

/-- A warm reset leaves no scheme ARMED (R79). -/
theorem Scheme.warm_state_ne_armed (sc : Scheme) : sc.warm.state ≠ .armed := by
  unfold Scheme.warm
  dsimp only
  split
  · decide
  · assumption

namespace Scheme.Lawful

variable {sc : Scheme} {d : SchemeDef}

theorem defn_ne_none (h : sc.Lawful) (hn : sc.state ≠ .disabled) : sc.defn ≠ none :=
  fun e => hn (congrArg Scheme.state (h.undefined e))

/-- The re-arming mark is clear outside PRIMED (R120). -/
theorem unmarked (h : sc.Lawful) (hp : sc.state ≠ .primed) : sc.rearming = false :=
  Bool.eq_false_iff.2 fun marked => hp (h.mark marked)

/-- The latch is clear outside FIRING and PRIMED (R126). -/
theorem unlatched (h : sc.Lawful) (hf : sc.state ≠ .firing) (hp : sc.state ≠ .primed) : sc.latch = none := by
  refine Option.not_isSome_iff_eq_none.1 fun set => ?_
  rcases h.latch set with firing | ⟨primed, -⟩
  · exact hf firing
  · exact hp primed

/-- A scheme in a state that runs passes holds exactly the consents of its authority set (R61, R62). -/
theorem consented (h : sc.Lawful) (hd : sc.defn = some d) (hs : sc.state.runsPasses = true) (p : PartyId) :
    sc.consents[p] = if d.hasAuthority p then some d.defGen else none := by
  have ok := h.consents d hd p
  unfold consentOk at ok
  cases state : sc.state with
  | primed | armed | firing => rw [state] at ok; exact ok
  | disabled | standby | lockout => rw [state] at hs; cases hs

/-- A DISABLED scheme and one in LOCKOUT hold no consent (R61). -/
theorem unconsented (h : sc.Lawful) (hd : sc.defn = some d) (hs : sc.state = .disabled ∨ sc.state = .lockout)
    (p : PartyId) : sc.consents[p] = none := by
  have ok := h.consents d hd p
  unfold consentOk at ok
  rcases hs with hs | hs <;> rw [hs] at ok <;> exact ok

/-- A scheme in STANDBY holds some of the consents of its authority set (R61, R62). -/
theorem consenting (h : sc.Lawful) (hd : sc.defn = some d) (hs : sc.state = .standby) (p : PartyId) :
    sc.consents[p] = none ∨ (d.hasAuthority p = true ∧ sc.consents[p] = some d.defGen) := by
  have ok := h.consents d hd p
  unfold consentOk at ok
  rw [hs] at ok
  exact ok

/-! ## Changes of an entry that leave its state -/

/-- A pass is requested of a defined scheme (R104). -/
theorem requested (h : sc.Lawful) (hd : sc.defn.isSome = true) : Lawful { sc with pendingPass := true } :=
  ⟨fun e => absurd e (Option.isSome_iff_ne_none.1 hd), h.consents, h.mark, h.latch, h.disabled, h.armed⟩

/-- The engine takes the pending-pass flag (R105). -/
theorem flagTaken (h : sc.Lawful) : Lawful { sc with pendingPass := false } :=
  ⟨fun e => congrArg (fun sc : Scheme => { sc with pendingPass := false }) (h.undefined e), h.consents, h.mark, h.latch,
    h.disabled, h.armed⟩

/-- A record is installed for a scheme whose pass was not void (R110). -/
theorem installed (h : sc.Lawful) (hn : sc.state ≠ .disabled) (r : ArmingRecord) : Lawful { sc with live := some r } :=
  ⟨fun e => absurd e (h.defn_ne_none hn), h.consents, h.mark, h.latch, fun e => absurd e hn, fun _ => rfl⟩

/-- The live record is edited (R33). -/
theorem edited (h : sc.Lawful) (f : ArmingRecord → ArmingRecord) : Lawful { sc with live := sc.live.map f } :=
  ⟨fun e => congrArg (fun sc : Scheme => { sc with live := sc.live.map f }) (h.undefined e), h.consents, h.mark, h.latch,
    fun e => congrArg (Option.map f) (h.disabled e), fun e => Option.isSome_map.trans (h.armed e)⟩

/-- The latch is cleared, and the re-arming mark stands or is cleared with it (R129, R130). -/
theorem unlatch (h : sc.Lawful) {marked : Bool} (hm : marked = true → sc.rearming = true) :
    Lawful { sc with latch := none, rearming := marked } := by
  refine ⟨fun e => ?_, h.consents, fun e => h.mark (hm e), nofun, h.disabled, h.armed⟩
  have entry := h.undefined e
  obtain rfl : marked = false := Bool.eq_false_iff.2 fun e => nomatch (hm e).symm.trans (congrArg Scheme.rearming entry)
  exact congrArg (fun sc : Scheme => { sc with latch := none, rearming := false }) entry

/-- A trigger is latched (R127). -/
theorem latched (h : sc.Lawful) (hs : sc.state = .firing ∨ (sc.state = .primed ∧ sc.rearming = true)) (t : Trigger) :
    Lawful { sc with latch := some t } := by
  have defined : sc.defn ≠ none := h.defn_ne_none (by rcases hs with hs | ⟨hs, -⟩ <;> rw [hs] <;> decide)
  exact ⟨fun e => absurd e defined, h.consents, h.mark, fun _ => hs, h.disabled, h.armed⟩

/-- A trigger record is made for an ARMED scheme (R121). -/
theorem recorded (h : sc.Lawful) (hn : sc.state ≠ .disabled) (r : TriggerRecord) :
    Lawful { sc with record := some r } :=
  ⟨fun e => absurd e (h.defn_ne_none hn), h.consents, h.mark, h.latch, h.disabled, h.armed⟩

/-- The trigger record goes on (R134, R149). -/
theorem goesOn (h : sc.Lawful) (f : TriggerRecord → TriggerRecord) : Lawful { sc with record := sc.record.map f } :=
  ⟨fun e => congrArg (fun sc : Scheme => { sc with record := sc.record.map f }) (h.undefined e), h.consents, h.mark,
    h.latch, h.disabled, h.armed⟩

/-- A party of the authority set consents (R68). -/
theorem consents_set (h : sc.Lawful) (hd : sc.defn = some d) (hs : sc.state = .standby) {p : PartyId}
    (ha : d.hasAuthority p = true) : Lawful { sc with consents := sc.consents.set p (some d.defGen) } := by
  refine ⟨fun e => (nomatch hd.symm.trans e), fun d' hd' q => ?_, h.mark, h.latch, h.disabled, h.armed⟩
  obtain rfl := Option.some.inj (hd.symm.trans hd')
  simp only [consentOk, hs]
  rw [getElem_set_fin]
  split
  · next e => exact .inr ⟨e ▸ ha, rfl⟩
  · exact h.consenting hd hs q

/-! ## Changes of an entry's state -/

/-- PRIMED to ARMED (R71): the re-arming mark and the latch are cleared. -/
theorem arms (h : sc.Lawful) (hs : sc.state = .primed) (hl : sc.live.isSome = true) (g : Gen) :
    Lawful { sc with state := .armed, armGen := g, latch := none, rearming := false } :=
  ⟨fun e => absurd e (h.defn_ne_none (by rw [hs]; decide)), fun _ hd => h.consented hd (by rw [hs]; rfl), nofun, nofun,
    nofun, fun _ => hl⟩

/-- ARMED to FIRING (R121). -/
theorem fires (h : sc.Lawful) (hs : sc.state = .armed) : Lawful { sc with state := .firing } := by
  have unmarked := h.unmarked (by rw [hs]; decide)
  exact ⟨fun e => absurd e (h.defn_ne_none (by rw [hs]; decide)), fun _ hd => h.consented hd (by rw [hs]; rfl),
    fun e => (nomatch unmarked.symm.trans e), fun _ => .inl rfl, nofun, nofun⟩

/-- FIRING to PRIMED (R76, R120). -/
theorem rearms (h : sc.Lawful) (hs : sc.state = .firing) :
    Lawful { sc with state := .primed, rearming := true, pendingPass := true } :=
  ⟨fun e => absurd e (h.defn_ne_none (by rw [hs]; decide)), fun _ hd => h.consented hd (by rw [hs]; rfl),
    fun _ => rfl, fun _ => .inr ⟨rfl, rfl⟩, nofun, nofun⟩

/-- FIRING to LOCKOUT (R75, R128): the consents end and the latch is dropped. -/
theorem locksOut (h : sc.Lawful) (hs : sc.state = .firing) :
    Lawful { sc with state := .lockout, consents := Vector.replicate 4 none, latch := none } := by
  have unmarked := h.unmarked (by rw [hs]; decide)
  exact ⟨fun e => absurd e (h.defn_ne_none (by rw [hs]; decide)), fun _ _ _ => Vector.getElem_replicate _,
    fun e => (nomatch unmarked.symm.trans e), nofun, nofun, nofun⟩

/-- DISABLED to STANDBY (R65). -/
theorem enables (h : sc.Lawful) (hd : sc.defn = some d) (hs : sc.state = .disabled) :
    Lawful { sc with state := .standby } := by
  have unmarked := h.unmarked (by rw [hs]; decide)
  have unlatched := h.unlatched (by rw [hs]; decide) (by rw [hs]; decide)
  refine ⟨fun e => (nomatch hd.symm.trans e), fun d hd p => .inl (h.unconsented hd (.inl hs) p),
    fun e => (nomatch unmarked.symm.trans e), fun e => ?_, nofun, nofun⟩
  rw [unlatched] at e
  cases e

/-- LOCKOUT to STANDBY (R70). -/
theorem unlocks (h : sc.Lawful) (hs : sc.state = .lockout) : Lawful { sc with state := .standby } := by
  have unmarked := h.unmarked (by rw [hs]; decide)
  have unlatched := h.unlatched (by rw [hs]; decide) (by rw [hs]; decide)
  refine ⟨fun e => absurd e (h.defn_ne_none (by rw [hs]; decide)), fun d hd p => .inl (h.unconsented hd (.inr hs) p),
    fun e => (nomatch unmarked.symm.trans e), fun e => ?_, nofun, nofun⟩
  rw [unlatched] at e
  cases e

/-- To DISABLED (R66): consents, live record, mark and latch are given up. -/
theorem disables (hd : sc.defn = some d) : Lawful { sc with
    state := .disabled, consents := Vector.replicate 4 none, live := none, latch := none, rearming := false } :=
  ⟨fun e => (nomatch hd.symm.trans e), fun _ _ _ => Vector.getElem_replicate _, nofun, nofun, fun _ => rfl, nofun⟩

/-- STANDBY to PRIMED with no consent missing (R68). -/
theorem primes (h : sc.Lawful) (hd : sc.defn = some d) (hs : sc.state = .standby) (hm : sc.missing d = []) :
    Lawful { sc with state := .primed, pendingPass := true } := by
  have unmarked := h.unmarked (by rw [hs]; decide)
  have unlatched := h.unlatched (by rw [hs]; decide) (by rw [hs]; decide)
  refine ⟨fun e => (nomatch hd.symm.trans e), fun d' hd' p => ?_, fun _ => rfl, fun e => ?_, nofun, nofun⟩
  · obtain rfl := Option.some.inj (hd.symm.trans hd')
    show sc.consents[p] = if d.hasAuthority p then some d.defGen else none
    have present := List.filter_eq_nil_iff.1 hm p (List.mem_finRange p)
    rcases h.consenting hd hs p with absent | ⟨authority, given⟩
    · rw [absent, if_neg (by simpa [absent] using present)]
    · rw [given, if_pos authority]
  · rw [unlatched] at e
    cases e

/-- From STANDBY, PRIMED or ARMED to STANDBY (R69): one consent, the live record, the mark and the latch are given up. -/
theorem withdraws (h : sc.Lawful) (hd : sc.defn = some d)
    (hs : sc.state = .standby ∨ sc.state = .primed ∨ sc.state = .armed) (p : PartyId) :
    Lawful { sc with
      state := .standby, consents := sc.consents.set p none, live := none, latch := none, rearming := false } := by
  refine ⟨fun e => (nomatch hd.symm.trans e), fun d' hd' q => ?_, nofun, nofun, nofun, nofun⟩
  show (sc.consents.set p none)[q] = none ∨ (d'.hasAuthority q = true ∧ (sc.consents.set p none)[q] = some d'.defGen)
  rw [getElem_set_fin]
  split
  · exact .inl rfl
  · rcases hs with hs | hs | hs
    · exact h.consenting hd' hs q
    all_goals
      rw [h.consented hd' (by rw [hs]; rfl) q]
      split
      · next authority => exact .inr ⟨authority, rfl⟩
      · exact .inl rfl

/-- An entry through a warm reset, its latch dropped before (R79, R113, R120). -/
theorem warmed (h : sc.Lawful) (hl : sc.latch = none) : sc.warm.Lawful := by
  have latch : sc.warm.latch = none := hl
  refine ⟨fun e => ?_, fun d hd p => ?_, nofun, fun e => (nomatch latch ▸ e), fun _ => rfl,
    fun e => absurd e sc.warm_state_ne_armed⟩
  · exact congrArg Scheme.warm (h.undefined e)
  · by_cases armed : sc.state = .armed
    · simpa only [consentOk, Scheme.warm, armed, if_true] using h.consented hd (by rw [armed]; rfl) p
    · simpa only [consentOk, Scheme.warm, armed, if_false] using h.consents d hd p

/-! ## Writes and loads -/

/-- A definition replaced in a DISABLED scheme (R49). -/
theorem rewritten (h : sc.Lawful) (hd : sc.defn = some d) (hs : sc.state = .disabled) (d' : SchemeDef) :
    Lawful { sc with defn := some d' } := by
  refine ⟨nofun, fun d'' _ p => ?_, h.mark, h.latch, h.disabled, h.armed⟩
  simp only [consentOk, hs]
  exact h.unconsented hd (.inl hs) p

/-- A definition of the same authority set and generation: its protection is set (R54). -/
theorem protects (h : sc.Lawful) (hd : sc.defn = some d) (x : Protection) :
    Lawful { sc with defn := some { d with protection := x } } := by
  refine ⟨nofun, fun d' hd' p => ?_, h.mark, h.latch, h.disabled, h.armed⟩
  obtain rfl := Option.some.inj hd'
  exact h.consents d hd p

end Scheme.Lawful

/-- An undefined entry that is defined (R49). -/
theorem Scheme.defined_lawful (g : Gen) (d : SchemeDef) : Lawful { Scheme.undefined g with defn := some d } :=
  ⟨nofun, fun _ _ _ => Vector.getElem_replicate _, nofun, nofun, fun _ => rfl, nofun⟩

/-- An entry right after a load (R41, R55, R56). -/
theorem Scheme.loaded_lawful (g : Gen) (d : Option SchemeDef) : (Scheme.loaded g d).Lawful := by
  cases d with
  | none => exact Scheme.undefined_lawful g
  | some x =>
    have none : ∀ p : PartyId, (Scheme.undefined g).consents[p] = none := fun p => Vector.getElem_replicate _
    simp only [Scheme.loaded]
    split
    · exact ⟨nofun, fun _ _ p => .inl (none p), nofun, nofun, nofun, nofun⟩
    · exact ⟨nofun, fun _ _ p => none p, nofun, nofun, fun _ => rfl, nofun⟩

/-! ## The law of the whole table -/

namespace State.SchemeLaw

variable {s t : State} {k : SchemeId} {f : Scheme → Scheme}

/-- An entry changes, and its state with it or not. -/
theorem moves (hs : s.SchemeLaw) {a b : SchemeState} (old : (s.schemes[k]).state = a) (new : (f s.schemes[k]).state = b)
    (runs : a.runsPasses = true → b.runsPasses = true) (loads : s.loading = true → a = .disabled → b = .disabled)
    (hf : (s.schemes[k]).Lawful → (f s.schemes[k]).Lawful) : (s.modScheme k f).SchemeLaw :=
  SchemeLaw_modScheme k f hs (fun h => .inl (by rw [new]; exact runs (old ▸ h))) hf
    (fun loading h => new.trans (loads loading (old.symm.trans h)))

/-- An entry changes but for its state. -/
theorem stays (hs : s.SchemeLaw) (state : (f s.schemes[k]).state = (s.schemes[k]).state)
    (hf : (s.schemes[k]).Lawful → (f s.schemes[k]).Lawful) : (s.modScheme k f).SchemeLaw :=
  hs.moves rfl state id (fun _ => id) hf

/-- A scheme gives up its pass in flight and its latch (R108, R130). -/
theorem givesUp (hs : s.SchemeLaw) (schemes : t.schemes = modV s.schemes k (fun sc => { f sc with latch := none }))
    (store : t.storeOp = s.storeOp) (engine : t.engine = (s.voidPass k).engine)
    (loads : s.loading = true → (s.schemes[k]).state = .disabled → (f s.schemes[k]).state = .disabled)
    (hf : (s.schemes[k]).Lawful → Scheme.Lawful { f s.schemes[k] with latch := none }) : t.SchemeLaw :=
  SchemeLaw_mod hs schemes store (engine_voided engine) hf loads

/-- Every entry changes, in a way that keeps it running passes or DISABLED, and the pass in flight stands. -/
theorem map (hs : s.SchemeLaw) (schemes : t.schemes = mapV f s.schemes) (store : t.storeOp = s.storeOp)
    (engine : t.engine = s.engine) (runs : ∀ sc, sc.state.runsPasses = true → (f sc).state.runsPasses = true)
    (loads : ∀ sc, sc.state = .disabled → (f sc).state = .disabled)
    (hf : ∀ k : SchemeId, (s.schemes[k]).Lawful → (f s.schemes[k]).Lawful) : t.SchemeLaw := by
  obtain ⟨entries, pass, loading, cold⟩ := hs
  have entry : ∀ k : SchemeId, t.schemes[k] = f s.schemes[k] := fun k => by rw [schemes]; exact getElem_mapV ..
  refine ⟨fun k => ?_, fun x hx valid => ?_, fun hl k => ?_, fun hc => ?_⟩
  · rw [entry]
    exact hf k (entries k)
  · rw [entry]
    exact runs _ (pass x (engine ▸ hx) valid)
  · rw [entry]
    exact loads _ (loading (by rw [State.loading, store] at hl; exact hl) k)
  · rw [engine]
    exact cold (store ▸ hc)

/-- The engine is free. -/
theorem free (hs : s.SchemeLaw) (schemes : t.schemes = s.schemes) (store : t.storeOp = s.storeOp)
    (engine : t.engine = none) : t.SchemeLaw := by
  obtain ⟨entries, -, loading, -⟩ := hs
  refine ⟨schemes ▸ entries, fun x hx => (nomatch engine ▸ hx), fun hl => ?_, fun _ => engine⟩
  rw [schemes]
  exact loading (by rw [State.loading, store] at hl; exact hl)

/-- While a STORE_LOAD is in flight no scheme is in another state than DISABLED (R78). -/
theorem not_loading (hs : s.SchemeLaw) (h : (s.schemes[k]).state ≠ .disabled) : s.loading = false :=
  Bool.eq_false_iff.2 fun loading => h (hs.2.2.1 loading k)

end State.SchemeLaw

/-- Every change inside an event keeps the scheme law. -/
theorem Work.keeps_schemeLaw {s t : State} (h : Work s t) (hs : s.SchemeLaw) : t.SchemeLaw := by
  obtain ⟨entries, pass, loading, cold⟩ := id hs
  cases h with
  | request f hf =>
    refine hs.map rfl rfl rfl (fun sc h => ?_) (fun sc h => ?_) (fun k h => ?_)
    · split <;> exact h
    · split <;> exact h
    · split
      · next picked => exact h.requested (hf _ picked)
      · exact h
  | flag k => exact hs.stays rfl Scheme.Lawful.flagTaken
  | begin k d hd hr hc he =>
    refine ⟨entries, fun x hx _ => ?_, loading, fun e => absurd e hc⟩
    obtain rfl := Option.some.inj hx
    exact hr
  | walk x n m hx =>
    refine ⟨entries, fun y hy valid => ?_, loading, fun e => (nomatch hx.symm.trans (cold e))⟩
    obtain rfl := Option.some.inj hy
    exact pass x hx valid
  | free => exact hs.free rfl rfl rfl
  | install x hx valid =>
    have runs := pass x hx valid
    have freed : State.SchemeLaw { s with engine := none } := hs.free rfl rfl rfl
    exact freed.stays rfl fun h => h.installed (fun e => by rw [e] at runs; cases runs) _
  | arm k g hp hl =>
    have awake := hs.not_loading (k := k) (by rw [hp]; decide)
    refine SchemeLaw_same (s := s.modScheme k (fun sc =>
      { sc with state := .armed, armGen := g, latch := none, rearming := false })) ?_ (by simp [modV_modV]) rfl rfl
    exact hs.moves hp rfl (fun _ => rfl) (fun e => (nomatch awake.symm.trans e)) (fun h => h.arms hp hl g)
  | unlatch k f hf =>
    obtain ⟨eq, mark⟩ := hf s.schemes[k]
    exact hs.stays (by rw [eq]) fun h => by rw [eq]; exact h.unlatch mark
  | without p =>
    refine hs.map rfl rfl rfl (fun sc h => ?_) (fun sc h => ?_) (fun k h => ?_)
    · split <;> exact h
    · split <;> exact h
    · split
      · exact h.edited _
      · exact h
  | take k r _ ha => exact hs.stays rfl fun h => h.recorded (by rw [ha]; decide) r
  | fire k ha =>
    have awake := hs.not_loading (k := k) (by rw [ha]; decide)
    exact hs.moves ha rfl (fun _ => rfl) (fun e => (nomatch awake.symm.trans e)) (fun h => h.fires ha)
  | latch k x _ hst => exact hs.stays rfl fun h => h.latched hst x
  | record k f => exact hs.stays rfl fun h => h.goesOn f
  | rearm k hf =>
    have awake := hs.not_loading (k := k) (by rw [hf]; decide)
    exact hs.moves hf rfl (fun _ => rfl) (fun e => (nomatch awake.symm.trans e)) (fun h => h.rearms hf)
  | lockout k hf =>
    refine hs.givesUp (k := k) (f := fun sc => { sc with state := .lockout, consents := Vector.replicate 4 none })
      ?_ (by simp) (by simp [State.voidPass]) (fun _ e => (nomatch hf.symm.trans e)) (fun h => h.locksOut hf)
    simp [modV_modV]
  | enable k d hd hst hl =>
    exact hs.moves hst rfl nofun (fun e => (nomatch hl.symm.trans e)) (fun h => h.enables hd hst)
  | disable k d pa de hd =>
    refine hs.givesUp (k := k) (f := fun sc => { sc with
      state := .disabled, consents := Vector.replicate 4 none, live := none, rearming := false })
      ?_ (by simp) (by simp [State.voidPass]) (fun _ _ => rfl) (fun _ => Scheme.Lawful.disables hd)
    simp [modV_modV]
  | consent k p d hd ha hst => exact hs.stays rfl fun h => h.consents_set hd hst ha
  | prime k d hd hm hst =>
    have awake := hs.not_loading (k := k) (by rw [hst]; decide)
    exact hs.moves hst rfl nofun (fun e => (nomatch awake.symm.trans e)) (fun h => h.primes hd hst hm)
  | withdraw k p d pa de hd hst =>
    refine hs.givesUp (k := k) (f := fun sc => { sc with
      state := .standby, consents := sc.consents.set p none, live := none, rearming := false })
      ?_ (by simp) (by simp [State.voidPass]) (fun _ e => ?_) (fun h => h.withdraws hd hst p)
    · simp [modV_modV]
    · rcases hst with hst | hst | hst <;> exact nomatch hst.symm.trans e
  | resetLockout k hst =>
    have awake := hs.not_loading (k := k) (by rw [hst]; decide)
    exact hs.moves hst rfl nofun (fun e => (nomatch awake.symm.trans e)) (fun h => h.unlocks hst)
  | storeOp op hc hl =>
    refine ⟨entries, pass, fun e k => ?_, fun e => absurd e hc⟩
    unfold State.loading at e
    dsimp only at e
    split at e
    · next p =>
      rcases hl p rfl k with undefined | disabled
      · exact congrArg Scheme.state ((entries k).undefined undefined)
      · exact disabled
    · cases e
  | warmLinks => exact hs.free rfl rfl rfl
  | warmSchemes hl =>
    refine hs.map rfl rfl rfl (fun sc h => ?_) (fun sc h => ?_) (fun k h => h.warmed (hl k))
    · unfold Scheme.warm
      dsimp only
      split
      · rfl
      · exact h
    · simp [Scheme.warm, h]
  | _ => exact SchemeLaw_same hs rfl rfl rfl

/-- Every change keeps the scheme law. -/
theorem Change.keeps_schemeLaw {s t : State} (h : Change s t) (hs : s.SchemeLaw) : t.SchemeLaw := by
  obtain ⟨entries, pass, loading, cold⟩ := id hs
  cases h with
  | work h => exact h.keeps_schemeLaw hs
  | write k sec c d d' hd hst => exact hs.stays rfl fun h => h.rewritten hd hst _
  | define k c x hd =>
    have disabled : (s.schemes[k]).state = .disabled := congrArg Scheme.state ((entries k).undefined hd)
    exact hs.moves disabled rfl nofun (fun _ _ => rfl) (fun _ => Scheme.defined_lawful _ _)
  | protect k d x hd => exact hs.stays rfl fun h => h.protects hd x
  | load m image hop =>
    refine ⟨fun k => ?_, fun x hx valid => ?_, nofun, nofun⟩
    · rw [State.loadTables_schemes]
      exact Scheme.loaded_lawful _ _
    · rcases hop with hop | hop
      · exact nomatch (show s.engine = some x from hx).symm.trans (cold hop)
      · have runs := pass x hx valid
        rw [loading hop] at runs
        cases runs
  | assertReset => exact ⟨entries, nofun, nofun, nofun⟩
  | cold =>
    refine ⟨fun k => ?_, nofun, nofun, fun _ => rfl⟩
    rw [State.cold_schemes]
    exact Scheme.undefined_lawful 0
  | _ => exact SchemeLaw_same hs rfl rfl rfl

/-- Settles O57: each kind of change keeps the law, and a step makes only such changes. -/
theorem everyStepKeepsTheSchemeLaw : Obligations.EveryStepKeepsTheSchemeLaw := fun _ _ hs h =>
  step_keeps (fun _ _ hs => hs) (fun _ _ c hs => c.keeps_schemeLaw hs) h hs

end Sys2Proof.Machine
end

section
/-! SUPPORT. What every change of the part keeps of the arming law (R40, R88, R93, R94, R101 to R103). -/

namespace Sys2Proof.Machine

/-! ## One scheme entry -/

/-- A scheme entry whose definition, live arming record and snapshot are lawful. -/
structure Scheme.ArmingLawful (sc : Scheme) : Prop where
  defn : ∀ d, sc.defn = some d → d.Lawful
  live : ∀ r, sc.live = some r → r.Lawful
  snapshot : ∀ r, sc.record = some r → r.snapshot.Lawful

theorem State.armingLaw_iff (s : State) : s.ArmingLaw ↔
    (∀ k : SchemeId, (s.schemes[k]).ArmingLawful) ∧ ∀ x, s.engine = some x → x.Lawful :=
  ⟨fun ⟨defns, lives, snapshots, pass⟩ => ⟨fun k => ⟨defns k, lives k, snapshots k⟩, pass⟩,
    fun ⟨entries, pass⟩ => ⟨fun k => (entries k).defn, fun k => (entries k).live, fun k => (entries k).snapshot, pass⟩⟩

/-- The definition generation is no part of what makes a definition lawful. -/
theorem SchemeDef.Lawful.withGen {d : SchemeDef} (h : d.Lawful) (g : Gen) : Lawful { d with defGen := g } :=
  ⟨h.label, h.authority, h.terms, h.curve, h.candidates, h.sources, h.coincidence⟩

/-- The protection is no part of what makes a definition lawful. -/
theorem SchemeDef.Lawful.withProtection {d : SchemeDef} (h : d.Lawful) (x : Protection) :
    Lawful { d with protection := x } :=
  ⟨h.label, h.authority, h.terms, h.curve, h.candidates, h.sources, h.coincidence⟩

namespace Scheme.ArmingLawful

variable {sc : Scheme}

theorem undefined (g : Gen) : (Scheme.undefined g).ArmingLawful :=
  ⟨fun _ e => (nomatch e), fun _ e => (nomatch e), fun _ e => (nomatch e)⟩

theorem defined (g : Gen) {d : SchemeDef} (hd : d.Lawful) : ArmingLawful { Scheme.undefined g with defn := some d } :=
  ⟨fun _ e => Option.some.inj e ▸ hd, fun _ e => (nomatch e), fun _ e => (nomatch e)⟩

theorem loaded (g : Gen) {d : Option SchemeDef} (hd : ∀ x, d = some x → x.Lawful) : (Scheme.loaded g d).ArmingLawful := by
  cases d with
  | none => exact undefined g
  | some x => exact ⟨fun _ e => Option.some.inj e ▸ hd x rfl, fun _ e => (nomatch e), fun _ e => (nomatch e)⟩

theorem rewritten (h : sc.ArmingLawful) {d : SchemeDef} (hd : d.Lawful) : ArmingLawful { sc with defn := some d } :=
  ⟨fun _ e => Option.some.inj e ▸ hd, h.live, h.snapshot⟩

theorem installed (h : sc.ArmingLawful) {r : ArmingRecord} (hr : r.Lawful) : ArmingLawful { sc with live := some r } :=
  ⟨h.defn, fun _ e => Option.some.inj e ▸ hr, h.snapshot⟩

/-- The live record gives up a point it holds (R33). -/
theorem without (h : sc.ArmingLawful) {p : PointId} (hp : sc.holdsPoint p = true) :
    ArmingLawful { sc with live := sc.live.map (fun r => r.without p) } := by
  refine ⟨h.defn, fun r e => ?_, h.snapshot⟩
  obtain ⟨old, live, rfl⟩ := Option.map_eq_some_iff.1 e
  refine ArmingRecord.without_lawful (h.live old live) ?_
  simpa only [Scheme.holdsPoint, live] using hp

/-- The snapshot of a taking is the live record (R121). -/
theorem recorded (h : sc.ArmingLawful) {r : TriggerRecord} (hr : sc.live = some r.snapshot) :
    ArmingLawful { sc with record := some r } :=
  ⟨h.defn, h.live, fun _ e => Option.some.inj e ▸ h.live _ hr⟩

/-- The trigger record goes on with its snapshot (R134, R149). -/
theorem goesOn (h : sc.ArmingLawful) {f : TriggerRecord → TriggerRecord} (hf : ∀ r, (f r).snapshot = r.snapshot) :
    ArmingLawful { sc with record := sc.record.map f } := by
  refine ⟨h.defn, h.live, fun r e => ?_⟩
  obtain ⟨old, record, rfl⟩ := Option.map_eq_some_iff.1 e
  rw [hf]
  exact h.snapshot old record

/-- What leaves definition, live record and trigger record, or empties the live record, keeps an entry lawful. -/
theorem of_same {sc' : Scheme} (h : sc.ArmingLawful) (defn : sc'.defn = sc.defn)
    (live : sc'.live = sc.live ∨ sc'.live = none) (record : sc'.record = sc.record) : sc'.ArmingLawful := by
  refine ⟨fun d e => h.defn d (defn ▸ e), fun r e => ?_, fun r e => h.snapshot r (record ▸ e)⟩
  rcases live with live | live
  · exact h.live r (live ▸ e)
  · exact nomatch live.symm.trans e

end Scheme.ArmingLawful

/-! ## The whole table and the pass in flight -/

/-- The walk of a pass in flight goes on lawfully (R99, R100). -/
theorem Pass.Lawful.walkOn {x : Pass} (h : x.Lawful) (s : State) (n : Nat) :
    Pass.Lawful { x with walk := s.walkOn x.inputs.figures x.walk.remaining n x.walk } :=
  have walk := WalkLawful_walkOn (s := s) (n := n) (Pass.walk_lawful h)
  ⟨h.inputs, walk.points, walk.count, walk.total, walk.cap, walk.nil⟩

/-- The record that a lawful pass installs is lawful (R101 to R103, R109). -/
theorem Pass.Lawful.record {x : Pass} (h : x.Lawful) (s : State) :
    (s.checkedRecord x.inputs.figures (s.finishedWalk x)).Lawful :=
  checkedRecord_lawful (PassInputs.figures_lawful h.inputs) (WalkLawful_walkOn (Pass.walk_lawful h))

namespace State.ArmingLaw

variable {s t : State} {k : SchemeId} {f : Scheme → Scheme}

/-- Every entry stands or changes to a lawful one, and so does the pass in flight. -/
theorem of_entries (hs : s.ArmingLaw) (entry : ∀ k : SchemeId, (s.schemes[k]).ArmingLawful → (t.schemes[k]).ArmingLawful)
    (pass : (∀ x, s.engine = some x → x.Lawful) → ∀ x, t.engine = some x → x.Lawful) : t.ArmingLaw := by
  obtain ⟨entries, lawful⟩ := s.armingLaw_iff.1 hs
  exact t.armingLaw_iff.2 ⟨fun k => entry k (entries k), pass lawful⟩

/-- One entry changes. -/
theorem modScheme (hs : s.ArmingLaw) (hf : (s.schemes[k]).ArmingLawful → (f s.schemes[k]).ArmingLawful) :
    (s.modScheme k f).ArmingLaw := by
  refine hs.of_entries (fun j h => ?_) id
  rw [State.modScheme_schemes, getElem_modV_fin]
  split
  · next e => subst e; exact hf h
  · exact h

/-- Every entry changes. -/
theorem map (hs : s.ArmingLaw) (hf : ∀ sc : Scheme, sc.ArmingLawful → (f sc).ArmingLawful) :
    State.ArmingLaw { s with schemes := mapV f s.schemes } := by
  refine hs.of_entries (fun j h => ?_) id
  show ((mapV f s.schemes)[j.val]).ArmingLawful
  rw [getElem_mapV]
  exact hf _ h

/-- The arming law speaks of the entries and the engine only. -/
theorem of_same (hs : s.ArmingLaw) (schemes : t.schemes = s.schemes) (engine : t.engine = s.engine) : t.ArmingLaw :=
  hs.of_entries (fun _ h => schemes ▸ h) (fun h => engine ▸ h)

/-- A scheme gives up its pass in flight and its latch (R108, R130). -/
theorem givesUp (hs : s.ArmingLaw) (schemes : t.schemes = modV s.schemes k (fun sc => { f sc with latch := none }))
    (engine : t.engine = (s.voidPass k).engine)
    (hf : (s.schemes[k]).ArmingLawful → (f s.schemes[k]).ArmingLawful) : t.ArmingLaw := by
  refine hs.of_entries (fun j h => ?_) (fun h => engine ▸ Pass.lawful_voidPass h)
  rw [schemes, getElem_modV_fin]
  split
  · next e => subst e; exact (hf h).of_same rfl (.inl rfl) rfl
  · exact h

end State.ArmingLaw

/-- Every change inside an event keeps the arming law. -/
theorem Work.keeps_armingLaw {s t : State} (h : Work s t) (hs : s.ArmingLaw) : t.ArmingLaw := by
  obtain ⟨entries, pass⟩ := s.armingLaw_iff.1 hs
  cases h with
  | request f => exact hs.map fun sc h => by split <;> exact h.of_same rfl (.inl rfl) rfl
  | begin k d hd =>
    refine hs.of_entries (fun _ => id) (fun _ x hx => ?_)
    obtain rfl := Option.some.inj hx
    exact State.newPass_lawful ((entries k).defn d hd)
  | walk x n m hx =>
    refine hs.of_entries (fun _ => id) (fun _ y hy => ?_)
    obtain rfl := Option.some.inj hy
    exact (pass x hx).walkOn s n
  | free => exact hs.of_entries (fun _ => id) (fun _ => nofun)
  | install x hx =>
    have freed : State.ArmingLaw { s with engine := none } := hs.of_entries (fun _ => id) (fun _ => nofun)
    exact freed.modScheme fun h => h.installed ((pass x hx).record s)
  | arm k g =>
    exact (hs.modScheme (f := fun sc => { sc with state := .armed, armGen := g, rearming := false })
      fun h => h.of_same rfl (.inl rfl) rfl).modScheme fun h => h.of_same rfl (.inl rfl) rfl
  | unlatch k f hf =>
    obtain ⟨eq, -⟩ := hf s.schemes[k]
    exact hs.modScheme fun h => by rw [eq]; exact h.of_same rfl (.inl rfl) rfl
  | without p =>
    refine hs.map fun sc h => ?_
    split
    · next holds => exact h.without holds
    · exact h
  | take k r hl => exact hs.modScheme fun h => h.recorded hl
  | record k f hf => exact hs.modScheme fun h => h.goesOn hf
  | lockout k =>
    refine hs.givesUp (k := k) (f := fun sc => { sc with state := .lockout, consents := Vector.replicate 4 none })
      ?_ (by simp [State.voidPass]) (fun h => h.of_same rfl (.inl rfl) rfl)
    simp [modV_modV]
  | disable k d pa de =>
    refine hs.givesUp (k := k) (f := fun sc => { sc with
      state := .disabled, consents := Vector.replicate 4 none, live := none, rearming := false })
      ?_ (by simp [State.voidPass]) (fun h => h.of_same rfl (.inr rfl) rfl)
    simp [modV_modV]
  | withdraw k p d pa de =>
    refine hs.givesUp (k := k) (f := fun sc => { sc with
      state := .standby, consents := sc.consents.set p none, live := none, rearming := false })
      ?_ (by simp [State.voidPass]) (fun h => h.of_same rfl (.inr rfl) rfl)
    simp [modV_modV]
  | flag | fire | latch | rearm | enable | consent | prime | resetLockout =>
    exact hs.modScheme fun h => h.of_same rfl (.inl rfl) rfl
  | warmLinks => exact hs.of_entries (fun _ => id) (fun _ => nofun)
  | warmSchemes => exact hs.map fun sc h => h.of_same rfl (.inr rfl) rfl
  | _ => exact hs.of_same rfl rfl

/-- Every change keeps the arming law: what is written and what is loaded is lawful (R49, R55). -/
theorem Change.keeps_armingLaw {s t : State} (h : Change s t) (hs : s.ArmingLaw) : t.ArmingLaw := by
  obtain ⟨entries, pass⟩ := s.armingLaw_iff.1 hs
  cases h with
  | work h => exact h.keeps_armingLaw hs
  | write k sec c d d' hd _ hw =>
    exact hs.modScheme fun h => h.rewritten ((writtenSection_lawful (h.defn d hd) hw).withGen _)
  | define k c x _ hp => exact hs.modScheme fun _ => .defined _ (SchemeDef.new_lawful (parseHeader_ok hp))
  | protect k d x hd => exact hs.modScheme fun h => h.rewritten ((h.defn d hd).withProtection x)
  | load m image =>
    refine hs.of_entries (fun k _ => ?_) id
    rw [State.loadTables_schemes]
    exact .loaded _ fun _ => loadScheme_lawful
  | assertReset => exact hs.of_entries (fun _ => id) (fun _ => nofun)
  | cold =>
    refine hs.of_entries (fun k _ => ?_) (fun _ => nofun)
    rw [State.cold_schemes]
    exact .undefined 0
  | _ => exact hs.of_same rfl rfl

/-- Settles O58: each kind of change keeps the law, and a step makes only such changes. -/
theorem everyStepKeepsTheArmingLaw : Obligations.EveryStepKeepsTheArmingLaw := fun _ _ hs h =>
  step_keeps (fun _ _ hs => hs) (fun _ _ c hs => c.keeps_armingLaw hs) h hs

end Sys2Proof.Machine
end

section
/-! SUPPORT. What a written section is (R42 to R46, R49): the fields it sets, and the bytes that R166 and R168 lay them out
in, which are the contents they are read from. -/

namespace Sys2Proof.Machine

open Wire

/-! ## Fields laid out in the bytes they are read from (R168) -/

theorem u8_toNat (b : Byte) : u8 b.toNat = b := by simp [u8]

theorem u16_toNat (hi lo : Byte) : u16 (hi ++ lo).toNat = [hi, lo] := by
  rw [u16, BitVec.ofNat_toNat, BitVec.setWidth_eq]
  exact be16_split hi lo

theorem i16_toInt (hi lo : Byte) : i16 (hi ++ lo).toInt = [hi, lo] := by
  rw [i16, BitVec.ofInt_toInt]
  exact be16_split hi lo

theorem policyCode_of {code : Byte} {x : StalePolicy} (h : policyOf code = some x) : policyCode x = code := by
  unfold policyOf at h
  split at h
  · next e => cases h; exact e.symm
  · split at h
    · next e => cases h; exact e.symm
    · cases h

/-- The two flag bits of a header (R42). -/
theorem flags_bits {flags : Byte} (h : flags.toNat < 4) :
    u8 ((flags.getLsbD 0).toNat + 2 * (flags.getLsbD 1).toNat) = flags := by
  have cases : flags = 0 ∨ flags = 1 ∨ flags = 2 ∨ flags = 3 := by bv_omega
  rcases cases with rfl | rfl | rfl | rfl <;> rfl

/-- An authority set of four bits in its byte. -/
theorem authority_bits {a : Byte} (h : a.toNat < 16) : (a.setWidth 4).setWidth 8 = a := by
  apply BitVec.eq_of_toNat_eq
  simp only [BitVec.toNat_setWidth]
  omega

/-- Object numbers in the bytes they are read from, behind their count. -/
theorem counted_numbers {n : Nat} {xs : List (Fin n)} {bytes : List Byte} (h : xs.map Fin.val = bytes.map BitVec.toNat) :
    counted (fun x => [u8 x.val]) xs = u8 bytes.length :: bytes := by
  have length : xs.length = bytes.length := by simpa using congrArg List.length h
  have numbers : xs.flatMap (fun x => [u8 x.val]) = bytes := by
    calc xs.flatMap (fun x => [u8 x.val]) = (xs.map Fin.val).map u8 := by rw [List.map_map, List.map_eq_flatMap]; rfl
      _ = bytes := by rw [h, List.map_map]; exact (List.map_congr_left fun b _ => u8_toNat b).trans (List.map_id _)
  rw [counted, length, numbers]

/-- The terms read from `3 n` bytes (R43) are laid out in them. -/
theorem termBytesOf_bytes : ∀ (n : Nat) (bytes : List Byte), bytes.length = 3 * n → (termBytesOf n bytes).length = n ∧
    (termBytesOf n bytes).flatMap (fun t => u8 t.1 :: i16 t.2) = bytes := by
  intro n
  induction n with
  | zero => intro bytes h; rw [List.eq_nil_of_length_eq_zero h]; exact ⟨rfl, rfl⟩
  | succ n ih =>
    intro bytes h
    match bytes, h with
    | slot :: hi :: lo :: rest, h =>
      obtain ⟨length, layout⟩ := ih rest (by simp at h; omega)
      refine ⟨congrArg (· + 1) length, ?_⟩
      rw [termBytesOf, List.flatMap_cons, layout, u8_toNat, i16_toInt]
      rfl

/-- The breakpoints read from `4 n` bytes (R44) are laid out in them. -/
theorem curveBytesOf_bytes : ∀ (n : Nat) (bytes : List Byte), bytes.length = 4 * n → (curveBytesOf n bytes).length = n ∧
    (curveBytesOf n bytes).flatMap (fun c => i16 c.1 ++ u16 c.2) = bytes := by
  intro n
  induction n with
  | zero => intro bytes h; rw [List.eq_nil_of_length_eq_zero h]; exact ⟨rfl, rfl⟩
  | succ n ih =>
    intro bytes h
    match bytes, h with
    | xh :: xl :: yh :: yl :: rest, h =>
      obtain ⟨length, layout⟩ := ih rest (by simp at h; omega)
      refine ⟨congrArg (· + 1) length, ?_⟩
      rw [curveBytesOf, List.flatMap_cons, layout, i16_toInt, u16_toNat]
      rfl

/-! ## The form of a section's contents (R48, R166) -/

section

variable {c : List Byte}

theorem sectionFormOk_terms (h : sectionFormOk .terms c = true) :
    ∃ code count rest, c = code :: count :: rest ∧ rest.length = 3 * count.toNat := by
  simp only [sectionFormOk, Bool.and_eq_true, decide_eq_true_eq] at h
  obtain ⟨⟨least, length⟩, -⟩ := h
  match c, least, length with
  | code :: count :: rest, _, length =>
    exact ⟨code, count, rest, rfl, by simp at length; omega⟩

theorem sectionFormOk_curve (h : sectionFormOk .curve c = true) :
    ∃ mh ml oh ol count rest, c = mh :: ml :: oh :: ol :: count :: rest ∧ rest.length = 4 * count.toNat := by
  obtain ⟨least, length⟩ := of_decide_eq_true h
  match c, least, length with
  | mh :: ml :: oh :: ol :: count :: rest, _, length =>
    exact ⟨mh, ml, oh, ol, count, rest, rfl, by simp at length; omega⟩

theorem sectionFormOk_candidates (h : sectionFormOk .candidates c = true) :
    ∃ count rest, c = count :: rest ∧ rest.length = count.toNat := by
  obtain ⟨least, length⟩ := of_decide_eq_true h
  match c, least, length with
  | count :: rest, _, length => exact ⟨count, rest, rfl, by simp at length; omega⟩

theorem sectionFormOk_triggers (h : sectionFormOk .triggers c = true) :
    ∃ k wh wl count rest, c = k :: wh :: wl :: count :: rest ∧ rest.length = count.toNat := by
  obtain ⟨least, length⟩ := of_decide_eq_true h
  match c, least, length with
  | k :: wh :: wl :: count :: rest, _, length => exact ⟨k, wh, wl, count, rest, rfl, by simp at length; omega⟩

end

/-! ## What each section sets (R42 to R46) -/

section

variable {c : List Byte} {d d' : SchemeDef}

theorem writtenSection_header (h : writtenSection .header c d = some d') :
    ∃ x, parseHeader c = some x ∧ x.owner = d.owner ∧ d' = d.withHeader x := by
  unfold writtenSection at h
  dsimp only at h
  split at h
  · next x hx =>
    split at h
    · next owner => exact ⟨x, hx, owner, (Option.some.inj h).symm⟩
    · cases h
  · cases h

theorem writtenSection_terms (h : writtenSection .terms c d = some d') :
    ∃ policy ts, policyOf (c.getD 0 0) = some policy ∧ termsOf (termBytesOf (c.getD 1 0).toNat (c.drop 2)) = some ts ∧
      1 ≤ ts.length ∧ d' = { d with terms := ts, policy := policy } := by
  unfold writtenSection at h
  dsimp only at h
  split at h
  · next policy ts hp ht =>
    split at h
    · next count => exact ⟨policy, ts, hp, ht, count.1, (Option.some.inj h).symm⟩
    · cases h
  · cases h

theorem writtenSection_curve (h : writtenSection .curve c d = some d') :
    let curve := curveBytesOf (c.getD 4 0).toNat (c.drop 5)
    2 ≤ curve.length ∧
      d' = { d with curve := curve, margin := (word16At c 0).toNat, overshoot := (word16At c 2).toNat } := by
  unfold writtenSection at h
  dsimp only at h
  split at h
  · next valid => exact ⟨valid.1, (Option.some.inj h).symm⟩
  · cases h

theorem writtenSection_candidates (h : writtenSection .candidates c d = some d') :
    ∃ ps, candidatesOf ((c.drop 1).map BitVec.toNat) = some ps ∧ d' = { d with candidates := ps } := by
  unfold writtenSection at h
  dsimp only at h
  split at h
  · next ps hp => exact ⟨ps, hp, (Option.some.inj h).symm⟩
  · cases h

theorem writtenSection_triggers (h : writtenSection .triggers c d = some d') :
    ∃ ds, sourcesOf ((c.drop 4).map BitVec.toNat) = some ds ∧ 1 ≤ ds.length ∧ (c.getD 0 0).toNat ≤ ds.length ∧
      d' = { d with sources := ds, k := (c.getD 0 0).toNat, window := (word16At c 1).toNat } := by
  unfold writtenSection at h
  dsimp only at h
  split at h
  · next ds hd =>
    split at h
    · next valid =>
      obtain ⟨least, -, most, -⟩ := valid
      exact ⟨ds, hd, least, most, (Option.some.inj h).symm⟩
    · cases h
  · cases h

/-! ## The bytes of each section are the contents it was read from -/

theorem parseHeader_bytes {x : HeaderFields} (h : parseHeader c = some x) : c = x.label ++
    [u8 x.owner.val, x.authority.setWidth 8, u8 (x.autoRearm.toNat + 2 * x.enabledAtStart.toNat)] := by
  unfold parseHeader at h
  split at h
  · next owner authority flags tail =>
    unfold headerFields at h
    split at h
    · next o ho =>
      split at h
      · next valid =>
        obtain ⟨-, -, authorityOk, -, flagsOk⟩ := valid
        cases h
        dsimp only
        rw [finOf_eq ho, u8_toNat, authority_bits authorityOk, flags_bits flagsOk, ← tail, List.take_append_drop]
      · cases h
    · cases h
  · cases h

theorem candidatesOf_numbers {xs : List Nat} {ps : List PointId} (h : candidatesOf xs = some ps) :
    ps.map Fin.val = xs := by
  unfold candidatesOf at h
  split at h
  · exact mapM_finOf h
  · cases h

theorem sourcesOf_numbers {xs : List Nat} {ds : List DetId} (h : sourcesOf xs = some ds) : ds.map Fin.val = xs := by
  unfold sourcesOf at h
  split at h
  · exact mapM_finOf h
  · cases h

theorem termsOf_terms {xs : List (Nat × Int)} {ts : List (MeasId × Int)} (h : termsOf xs = some ts) :
    ts.map (fun t => (t.1.val, t.2)) = xs := by
  unfold termsOf at h
  split at h
  · exact mapM_terms h
  · cases h

theorem headerBytes_written (h : writtenSection .header c d = some d') : c = headerBytes d' := by
  obtain ⟨x, hx, -, rfl⟩ := writtenSection_header h
  exact parseHeader_bytes hx

theorem termsBytes_written (form : sectionFormOk .terms c = true) (h : writtenSection .terms c d = some d') :
    c = termsBytes d' := by
  obtain ⟨code, count, rest, rfl, length⟩ := sectionFormOk_terms form
  obtain ⟨policy, ts, hp, ht, -, rfl⟩ := writtenSection_terms h
  have terms : ts.map (fun t => (t.1.val, t.2)) = termBytesOf count.toNat rest := termsOf_terms ht
  obtain ⟨number, layout⟩ := termBytesOf_bytes count.toNat rest length
  have counts : ts.length = count.toNat := by rw [← number, ← terms, List.length_map]
  have bytes : ts.flatMap (fun t => u8 t.1.val :: i16 t.2) = rest := by
    rw [← terms, List.flatMap_map] at layout
    exact layout
  rw [termsBytes, counted, counts, bytes, u8_toNat, policyCode_of hp]
  rfl

theorem curveBytes_written (form : sectionFormOk .curve c = true) (h : writtenSection .curve c d = some d') :
    c = curveBytes d' := by
  obtain ⟨mh, ml, oh, ol, count, rest, rfl, length⟩ := sectionFormOk_curve form
  obtain ⟨-, rfl⟩ := writtenSection_curve h
  obtain ⟨number, layout⟩ := curveBytesOf_bytes count.toNat rest length
  show _ = u16 (mh ++ ml).toNat ++ u16 (oh ++ ol).toNat ++
    counted (fun c => i16 c.1 ++ u16 c.2) (curveBytesOf count.toNat rest)
  rw [u16_toNat, u16_toNat, counted, number, layout, u8_toNat]
  rfl

theorem candidatesBytes_written (form : sectionFormOk .candidates c = true)
    (h : writtenSection .candidates c d = some d') : c = candidatesBytes d' := by
  obtain ⟨count, rest, rfl, length⟩ := sectionFormOk_candidates form
  obtain ⟨ps, hp, rfl⟩ := writtenSection_candidates h
  rw [candidatesBytes, counted_numbers (candidatesOf_numbers hp), List.drop_one, List.tail_cons, length, u8_toNat]

theorem triggersBytes_written (form : sectionFormOk .triggers c = true)
    (h : writtenSection .triggers c d = some d') : c = triggersBytes d' := by
  obtain ⟨k, wh, wl, count, rest, rfl, length⟩ := sectionFormOk_triggers form
  obtain ⟨ds, hd, -, -, rfl⟩ := writtenSection_triggers h
  have sources : ds.map Fin.val = rest.map BitVec.toNat := sourcesOf_numbers hd
  show _ = u8 k.toNat :: u16 (wh ++ wl).toNat ++ counted (fun x => [u8 x.val]) ds
  rw [counted_numbers sources, u8_toNat, u16_toNat, length, u8_toNat]
  rfl

end

/-- Settles O41: the fields section by section, the law from the checks, and the bytes read back. -/
theorem writtenSectionIsValid : Obligations.WrittenSectionIsValid := by
  intro sec c d d' h
  have lawful : d.Lawful → d'.Lawful := fun hd => writtenSection_lawful hd h
  cases sec with
  | header =>
    have bytes := headerBytes_written h
    obtain ⟨x, -, owner, rfl⟩ := writtenSection_header h
    exact ⟨lawful, owner, rfl, rfl, fun e => absurd rfl e, nofun, fun _ => ⟨rfl, rfl⟩, nofun, fun _ => ⟨rfl, rfl, rfl⟩,
      fun _ => rfl, nofun, fun _ => ⟨rfl, rfl, rfl⟩, fun _ => bytes⟩
  | terms =>
    have bytes := fun form => termsBytes_written form h
    obtain ⟨policy, ts, -, -, least, rfl⟩ := writtenSection_terms h
    exact ⟨lawful, rfl, rfl, rfl, fun _ => ⟨rfl, rfl, rfl, rfl⟩, fun _ => least, fun e => absurd rfl e, nofun,
      fun _ => ⟨rfl, rfl, rfl⟩, fun _ => rfl, nofun, fun _ => ⟨rfl, rfl, rfl⟩, bytes⟩
  | curve =>
    have bytes := fun form => curveBytes_written form h
    obtain ⟨least, rfl⟩ := writtenSection_curve h
    exact ⟨lawful, rfl, rfl, rfl, fun _ => ⟨rfl, rfl, rfl, rfl⟩, nofun, fun _ => ⟨rfl, rfl⟩, fun _ => least,
      fun e => absurd rfl e, fun _ => rfl, nofun, fun _ => ⟨rfl, rfl, rfl⟩, bytes⟩
  | candidates =>
    have bytes := fun form => candidatesBytes_written form h
    obtain ⟨ps, -, rfl⟩ := writtenSection_candidates h
    exact ⟨lawful, rfl, rfl, rfl, fun _ => ⟨rfl, rfl, rfl, rfl⟩, nofun, fun _ => ⟨rfl, rfl⟩, nofun,
      fun _ => ⟨rfl, rfl, rfl⟩, fun e => absurd rfl e, nofun, fun _ => ⟨rfl, rfl, rfl⟩, bytes⟩
  | triggers =>
    have bytes := fun form => triggersBytes_written form h
    obtain ⟨ds, -, least, most, rfl⟩ := writtenSection_triggers h
    exact ⟨lawful, rfl, rfl, rfl, fun _ => ⟨rfl, rfl, rfl, rfl⟩, nofun, fun _ => ⟨rfl, rfl⟩, nofun,
      fun _ => ⟨rfl, rfl, rfl⟩, fun _ => rfl, fun _ => ⟨least, most⟩, fun e => absurd rfl e, bytes⟩

end Sys2Proof.Machine
end

section
/-! SUPPORT. The section writes (R42 to R46, R48, R49) and PROTECT (R54): one lemma for each check that fails, in the
rule's order, and one for each effect. -/

namespace Sys2Proof.Machine

theorem exec_writeCommand (sec : Section) (p : PartyId) (b : Byte) (c : List Byte) (s : State) :
    exec (writeCommand sec p b c) s = s.event (fun s => s.request p (fun s => s.writeSection sec p b c)) := by
  cases sec <;> rfl

theorem protectionCode_of {code : Byte} {x : Protection} (h : protectionOf code = some x) :
    Wire.protectionCode x = code := by
  unfold protectionOf at h
  split at h
  · next e => cases h; exact e.symm
  · split at h
    · next e => cases h; exact e.symm
    · split at h
      · next e => cases h; exact e.symm
      · cases h

namespace State

/-- No definition write and no PROTECT goes on while a STORE_SAVE or a STORE_LOAD is in flight (R48, R54). -/
theorem storing_of {s : State} (h : s.saving = true ∨ s.loading = true) : (s.saving || s.loading) = true :=
  Bool.or_eq_true_iff.2 h

theorem not_storing {s : State} (hs : s.saving = false) (hl : s.loading = false) : ¬ (s.saving || s.loading) = true := by
  rw [hs, hl]
  decide

section

variable {s : State} {sec : Section} {p : PartyId} {b : Byte} {c : List Byte} {k : SchemeId} {d d' : SchemeDef}

/-! ## A section write refused (R48) -/

theorem writeSection_out_of_range (h : 32 ≤ b.toNat) : s.writeSection sec p b c = (s, refuse .badArgument) := by
  have none : finOf 32 b.toNat = none := dif_neg (by omega)
  simp only [writeSection, none]

theorem writeSection_malformed (h : sectionFormOk sec c = false) :
    s.writeSection sec p b c = (s, refuse .badArgument) := by
  unfold writeSection
  split
  · rfl
  · exact if_pos h

section

variable (hb : b.toNat = k.val) (form : sectionFormOk sec c = true)

include hb form

theorem writeSection_undefined (hd : (s.schemes[k]).defn = none) (h : sec ≠ .header) :
    s.writeSection sec p b c = (s, refuse .badArgument) := by
  simp only [writeSection, hb, finOf_val, form, hd]
  exact if_pos h

theorem writeSection_unauthorized (hd : (s.schemes[k]).defn = some d) (ho : d.owner ≠ p) :
    s.writeSection sec p b c = (s, refuse .notAuthorized) := by
  simp only [writeSection, hb, finOf_val, form, hd]
  exact if_pos ho

theorem writeSection_storing (hd : (s.schemes[k]).defn = some d) (ho : d.owner = p)
    (hs : s.saving = true ∨ s.loading = true) : s.writeSection sec p b c = (s, refuse .storeBusy) := by
  simp only [writeSection, hb, finOf_val, form, hd]
  exact (if_neg (not_not.2 ho)).trans (if_pos (storing_of hs))

end

end

/-- Checks 2 and 3 of R48 are passed: the owner of a defined scheme, with no store operation in the way. -/
structure Owned (s : State) (p : PartyId) (k : SchemeId) (d : SchemeDef) : Prop where
  defn : (s.schemes[k]).defn = some d
  owner : d.owner = p
  saving : s.saving = false
  loading : s.loading = false

section

variable {s : State} {sec : Section} {p : PartyId} {b : Byte} {c : List Byte} {k : SchemeId} {d d' : SchemeDef}
variable (hb : b.toNat = k.val) (form : sectionFormOk sec c = true) (h : s.Owned p k d)

include hb form h

theorem writeSection_wrongState (hst : (s.schemes[k]).state ≠ .disabled) :
    s.writeSection sec p b c = (s, refuse .wrongState) := by
  simp only [writeSection, hb, finOf_val, form, Bool.true_eq_false, if_false, h.defn]
  rw [if_neg (not_not.2 h.owner), if_neg (not_storing h.saving h.loading), if_pos hst]

variable (hst : (s.schemes[k]).state = .disabled)

include hst

theorem writeSection_protected (hp : d.protection ≠ .opened) :
    s.writeSection sec p b c = (s, refuse .isProtected) := by
  simp only [writeSection, hb, finOf_val, form, Bool.true_eq_false, if_false, h.defn]
  rw [if_neg (not_not.2 h.owner), if_neg (not_storing h.saving h.loading), if_neg (not_not.2 hst), if_pos hp]

variable (hp : d.protection = .opened)

include hp

theorem writeSection_invalid (hw : writtenSection sec c d = none) :
    s.writeSection sec p b c = (s, refuse .badArgument) := by
  simp only [writeSection, hb, finOf_val, form, Bool.true_eq_false, if_false, h.defn, hw]
  rw [if_neg (not_not.2 h.owner), if_neg (not_storing h.saving h.loading), if_neg (not_not.2 hst), if_neg (not_not.2 hp)]

theorem writeSection_limit (hw : writtenSection sec c d = some d') (hg : d.defGen = genMax) :
    s.writeSection sec p b c = (s, refuse .generationLimit) := by
  simp only [writeSection, hb, finOf_val, form, Bool.true_eq_false, if_false, h.defn, hw]
  rw [if_neg (not_not.2 h.owner), if_neg (not_storing h.saving h.loading), if_neg (not_not.2 hst), if_neg (not_not.2 hp),
    if_pos hg]

/-- The section is replaced and the generation advances (R49). -/
theorem writeSection_done (hw : writtenSection sec c d = some d') (hg : d.defGen ≠ genMax) :
    s.writeSection sec p b c = ({ s with
      schemes := s.schemes.set k { s.schemes[k] with defn := some { d' with defGen := d.defGen + 1 } } },
      done (Wire.be24 (d.defGen + 1))) := by
  simp only [writeSection, hb, finOf_val, form, Bool.true_eq_false, if_false, h.defn, hw]
  rw [if_neg (not_not.2 h.owner), if_neg (not_storing h.saving h.loading), if_neg (not_not.2 hst), if_neg (not_not.2 hp),
    if_neg hg]
  rfl

end

/-! ## A header write to an undefined entry (R48, R49) -/

section

variable {s : State} {p : PartyId} {b : Byte} {c : List Byte} {k : SchemeId} (hb : b.toNat = k.val)
  (form : sectionFormOk .header c = true) (hd : (s.schemes[k]).defn = none) (ho : (c.getD 8 0).toNat = p.val)

include hb form hd ho

theorem writeHeader_storing (hs : s.saving = true ∨ s.loading = true) :
    s.writeSection .header p b c = (s, refuse .storeBusy) := by
  simp only [writeSection, hb, finOf_val, form, hd]
  exact (if_neg (not_not.2 ho)).trans (if_pos (storing_of hs))

theorem writeHeader_invalid (hs : s.saving = false) (hl : s.loading = false) (hc : parseHeader c = none) :
    s.writeSection .header p b c = (s, refuse .badArgument) := by
  simp only [writeSection, hb, finOf_val, form, hd, hc]
  exact (if_neg (not_not.2 ho)).trans (if_neg (not_storing hs hl))

/-- The entry is defined at generation 1 (R49). -/
theorem writeHeader_defines (hs : s.saving = false) (hl : s.loading = false) {h : HeaderFields}
    (hc : parseHeader c = some h) : s.writeSection .header p b c = ({ s with
      schemes := s.schemes.set k { Scheme.undefined (s.schemes[k]).armGen with defn := some (.new h) } },
      done (Wire.be24 1)) := by
  simp only [writeSection, hb, finOf_val, form, hd, hc]
  exact (if_neg (not_not.2 ho)).trans (if_neg (not_storing hs hl))

end

/-! ## PROTECT (R54) -/

section

variable {s : State} {p : PartyId} {b target : Byte} {k : SchemeId} {d : SchemeDef} {x : Protection}

theorem protect_bad_target (h : protectionOf target = none) : s.protect p b target = (s, refuse .badArgument) := by
  simp only [protect, h]

theorem protect_unnamed (h : s.namedScheme b = none) : s.protect p b target = (s, refuse .badArgument) := by
  unfold protect
  split
  · next e => exact nomatch h.symm.trans e
  · rfl

variable (hx : protectionOf target = some x) (h : s.namedScheme b = some (k, d)) (ho : d.owner = p)

include hx h ho

theorem protect_storing (hs : s.saving = true ∨ s.loading = true) : s.protect p b target = (s, refuse .storeBusy) := by
  simp only [protect, hx, h]
  exact (if_neg (not_not.2 ho)).trans (if_pos (storing_of hs))

variable (hs : s.saving = false) (hl : s.loading = false)

include hs hl

theorem protect_fixed (hf : d.protection = .fixed) : s.protect p b target = (s, refuse .isProtected) := by
  simp only [protect, hx, h]
  rw [if_neg (not_not.2 ho), if_neg (not_storing hs hl), if_pos hf]

theorem protect_done (hf : d.protection ≠ .fixed) : s.protect p b target = ({ s with
    schemes := s.schemes.set k { s.schemes[k] with defn := some { d with protection := x } } }, done [target]) := by
  simp only [protect, hx, h]
  rw [if_neg (not_not.2 ho), if_neg (not_storing hs hl), if_neg hf, protectionCode_of hx]
  rfl

end

end State

/-- The owner that a valid header names is its byte 8 (R42, R166). -/
theorem parseHeader_owner {c : List Byte} {h : HeaderFields} (hc : parseHeader c = some h) :
    (c.getD 8 0).toNat = h.owner.val := by
  obtain ⟨⟨length, -⟩, -⟩ := parseHeader_ok hc
  rw [parseHeader_bytes hc, List.getD_append_right _ _ _ _ length.le, length]
  exact Nat.mod_eq_of_lt (by omega)

/-- Settles O40: the checks of R48 in their order, then the two effects of R49. -/
theorem sectionWriteIsTaken : Obligations.SectionWriteIsTaken := by
  intro sec p b c s hs
  rw [exec_writeCommand]
  refine ⟨fun h => State.request_answered hs ?_, fun k hb form => ⟨fun hsave hload d d' hd ho hst hp hw hg => ?_,
    fun hsave hload h header hd hc ho => ?_, fun header hd => ?_, fun header hd => ?_, fun d hd => ⟨fun ho => ?_,
      fun ho busy => ?_, fun ho hsave hload => ?_⟩⟩⟩
  · rcases h with range | malformed
    · exact State.writeSection_out_of_range range
    · exact State.writeSection_malformed malformed
  · exact State.request_served hs (State.writeSection_done hb form ⟨hd, ho, hsave, hload⟩ hst hp hw hg)
  · subst header
    have owner : (c.getD 8 0).toNat = p.val := by rw [parseHeader_owner hc, ho]
    exact State.request_served hs (State.writeHeader_defines hb form hd owner hsave hload hc)
  · exact State.request_answered hs (State.writeSection_undefined hb form hd header)
  · subst header
    exact ⟨fun ho => State.request_answered hs (State.writeHeader_unauthorized hb hd (of_decide_eq_true form) ho),
      fun ho busy => State.request_answered hs (State.writeHeader_storing hb form hd ho busy),
      fun ho hsave hload hc => State.request_answered hs (State.writeHeader_invalid hb form hd ho hsave hload hc)⟩
  · exact State.request_answered hs (State.writeSection_unauthorized hb form hd ho)
  · exact State.request_answered hs (State.writeSection_storing hb form hd ho busy)
  · have owned : s.Owned p k d := ⟨hd, ho, hsave, hload⟩
    exact ⟨fun hst => State.request_answered hs (State.writeSection_wrongState hb form owned hst),
      fun hst => ⟨fun hp => State.request_answered hs (State.writeSection_protected hb form owned hst hp),
        fun hp hw => State.request_answered hs (State.writeSection_invalid hb form owned hst hp hw),
        fun d' hp hw hg => State.request_answered hs (State.writeSection_limit hb form owned hst hp hw hg)⟩⟩

/-- Settles O42: the checks of R54 in their order, then the effect. -/
theorem protectIsTaken : Obligations.ProtectIsTaken := by
  intro p b target s hs
  refine ⟨fun h => State.request_answered hs ?_, fun k hb => ⟨fun hd => ?_, fun x d hx hd => ?_⟩⟩
  · rcases h with range | bad
    · exact State.protect_unnamed (s.namedScheme_out_of_range range)
    · exact State.protect_bad_target bad
  · exact State.request_answered hs (State.protect_unnamed (s.namedScheme_undefined hb hd))
  · have named := s.namedScheme_defined hb hd
    exact ⟨fun ho => State.request_answered hs (State.protect_unauthorized named ho hx),
      fun ho busy => State.request_answered hs (State.protect_storing hx named ho busy),
      fun ho hsave hload => ⟨fun hf => State.request_served hs (State.protect_done hx named ho hsave hload hf),
        fun hf => State.request_answered hs (State.protect_fixed hx named ho hsave hload hf)⟩⟩

end Sys2Proof.Machine
end

section
/-! SUPPORT. The consent of an authority party (R67, R68): one lemma for each answer. -/

namespace Sys2Proof.Machine

namespace State

variable (s : State) {k : SchemeId}

/-- An append neither reads nor changes a scheme entry. -/
theorem append_modScheme (f : Scheme → Scheme) (kind : EventKind) (sch : Option SchemeId) (pt : Option PointId)
    (pa : Option PartyId) (de : Option Int) :
    (s.modScheme k f).append kind sch pt pa de = (s.append kind sch pt pa de).modScheme k f := rfl

theorem modScheme_modScheme (f g : Scheme → Scheme) :
    (s.modScheme k f).modScheme k g = s.modScheme k (fun sc => g (f sc)) := by
  unfold modScheme
  rw [modV_modV]

theorem modScheme_own (f : Scheme → Scheme) : (s.modScheme k f).schemes[k] = f s.schemes[k] := by
  rw [modScheme_schemes, getElem_modV_fin, if_pos rfl]

end State

/-! ## The parties still to consent (R67) -/

/-- The authority parties other than `p` whose consent is absent. -/
def Scheme.awaiting (sc : Scheme) (d : SchemeDef) (p : PartyId) : List PartyId :=
  (List.finRange 4).filter (fun q => decide (q ≠ p) && d.authority.getLsbD q.val && sc.consents[q].isNone)

/-- Once `p` has consented, the missing consents are those of the other parties. -/
theorem Scheme.missing_eq_awaiting {sc sc' : Scheme} {p : PartyId} (d : SchemeDef) (given : sc'.consents[p] ≠ none)
    (same : ∀ q, q ≠ p → sc'.consents[q] = sc.consents[q]) : sc'.missing d = sc.awaiting d p := by
  refine List.filter_congr fun q _ => ?_
  by_cases h : q = p
  · subst h
    rw [Option.isNone_eq_false_iff.2 (Option.isSome_iff_ne_none.2 given), decide_eq_false (not_not.2 rfl), Bool.and_false,
      Bool.false_and, Bool.false_and]
  · rw [same q h, decide_eq_true h, Bool.true_and]
    rfl

theorem Scheme.missing_consented {sc : Scheme} {p : PartyId} (d : SchemeDef) (h : sc.consents[p] ≠ none) :
    sc.missing d = sc.awaiting d p :=
  missing_eq_awaiting d h fun _ _ => rfl

/-- The missing consents when `p` consents now. -/
theorem Scheme.missing_consents_set (sc : Scheme) (p : PartyId) (d : SchemeDef) (g : Gen) :
    Scheme.missing { sc with consents := sc.consents.set p (some g) } d = sc.awaiting d p := by
  refine missing_eq_awaiting d ?_ fun q hq => ?_
  · rw [getElem_set_fin, if_pos rfl]
    exact Option.some_ne_none g
  · rw [getElem_set_fin, if_neg (Ne.symm hq)]

/-! ## CONSENT in each case (R67, R68) -/

namespace State

section

variable {s : State} {p : PartyId} {b : Byte} {k : SchemeId} {d : SchemeDef}

theorem consent_wrongState (h : s.namedScheme b = some (k, d)) (ha : d.hasAuthority p = true)
    (hs : (s.schemes[k]).state ≠ .standby) (g : Gen) : s.consent p b g = (s, refuse .wrongState) := by
  simp only [consent, h]
  rw [if_neg (by rw [ha]; decide), if_pos hs]

theorem consent_stale (h : s.namedScheme b = some (k, d)) (ha : d.hasAuthority p = true)
    (hs : (s.schemes[k]).state = .standby) {g : Gen} (hg : g ≠ d.defGen) :
    s.consent p b g = (s, refuse .staleGeneration) := by
  simp only [consent, h]
  rw [if_neg (by rw [ha]; decide), if_neg (not_not.2 hs), if_pos hg]

theorem consent_repeated (h : s.namedScheme b = some (k, d)) (ha : d.hasAuthority p = true)
    (hs : (s.schemes[k]).state = .standby) (hc : (s.schemes[k]).consents[p] ≠ none) :
    s.consent p b d.defGen = (s, done [1, Wire.u8 ((s.schemes[k]).awaiting d p).length]) := by
  simp only [consent, h]
  rw [if_neg (by rw [ha]; decide), if_neg (not_not.2 hs), if_neg (not_not.2 rfl),
    if_pos (Option.isSome_iff_ne_none.2 hc), Scheme.missing_consented d hc]
  rfl

/-- A first consent: recorded, and the scheme PRIMED where it completes the authority set. -/
theorem consent_first (h : s.namedScheme b = some (k, d)) (ha : d.hasAuthority p = true)
    (hs : (s.schemes[k]).state = .standby) (hc : (s.schemes[k]).consents[p] = none) :
    s.consent p b d.defGen =
      (let t := (s.modScheme k (fun sc => { sc with consents := sc.consents.set p (some d.defGen) })).append .consent
        (some k) none (some p) (some (d.defGen.toNat : Int))
      if (s.schemes[k]).awaiting d p = [] then
        (t.modScheme k (fun sc => { sc with state := .primed, pendingPass := true }), done [2, 0])
      else (t, done [1, Wire.u8 ((s.schemes[k]).awaiting d p).length])) := by
  have first : ¬ (s.schemes[k]).consents[p].isSome = true := by rw [hc]; decide
  simp only [consent, h]
  rw [if_neg (by rw [ha]; decide), if_neg (not_not.2 hs), if_neg (not_not.2 rfl), if_neg first]
  simp only [append_schemes, modScheme_own, Scheme.missing_consents_set]
  rfl

theorem consent_recorded (h : s.namedScheme b = some (k, d)) (ha : d.hasAuthority p = true)
    (hs : (s.schemes[k]).state = .standby) (hc : (s.schemes[k]).consents[p] = none)
    (more : (s.schemes[k]).awaiting d p ≠ []) :
    s.consent p b d.defGen =
      (State.append { s with
          schemes := s.schemes.set k { s.schemes[k] with
            consents := (s.schemes[k]).consents.set p (some d.defGen) } } .consent (some k) none (some p)
          (some (d.defGen.toNat : Int)), done [1, Wire.u8 ((s.schemes[k]).awaiting d p).length]) := by
  rw [consent_first h ha hs hc]
  exact if_neg more

theorem consent_completes (h : s.namedScheme b = some (k, d)) (ha : d.hasAuthority p = true)
    (hs : (s.schemes[k]).state = .standby) (hc : (s.schemes[k]).consents[p] = none)
    (last : (s.schemes[k]).awaiting d p = []) :
    s.consent p b d.defGen =
      (State.append { s with
          schemes := s.schemes.set k { s.schemes[k] with
            consents := (s.schemes[k]).consents.set p (some d.defGen), state := .primed, pendingPass := true } }
          .consent (some k) none (some p) (some (d.defGen.toNat : Int)), done [2, 0]) := by
  rw [consent_first h ha hs hc]
  refine (if_pos last).trans ?_
  rw [append_modScheme, modScheme_modScheme]
  rfl

end

end State

/-- Settles O44: the checks of R67 in their order, then whether the consent is a first one and whether it is the last. -/
theorem consentIsTaken : Obligations.ConsentIsTaken := by
  intro p b k d s hs hb hd ha others given
  have named := s.namedScheme_defined hb hd
  exact ⟨fun hst g => State.request_answered hs (State.consent_wrongState named ha hst g),
    fun hst => ⟨fun g hg => State.request_answered hs (State.consent_stale named ha hst hg),
      fun hc => State.request_answered hs (State.consent_repeated named ha hst hc),
      fun hc more => State.request_served hs (State.consent_recorded named ha hst hc more),
      fun hc last => State.request_served hs (State.consent_completes named ha hst hc last)⟩⟩

end Sys2Proof.Machine
end

section
/-! SUPPORT. The warm reset request, its staging read and its taking (R80, R177). -/

namespace Sys2Proof.Machine

namespace State

variable {s : State} {map : Option (Vector LinkParams 8)}

theorem beginStaging_begins (hw : s.warm = .held) (hi : s.storeOp = .idle) :
    s.beginStaging = { s with storeOp := .staging } := if_pos ⟨hw, hi⟩

theorem beginStaging_waits (hi : s.storeOp ≠ .idle) : s.beginStaging = s := if_neg fun h => hi h.2

/-- A first request is held, and its staging read begins as soon as the store is idle. -/
theorem requestWarm_first (hw : s.warm = .none) : s.requestWarm = State.beginStaging { s with warm := .held } := by
  simp only [requestWarm, hw]

theorem requestWarm_begins (hw : s.warm = .none) (hi : s.storeOp = .idle) :
    s.requestWarm = { s with warm := .held, storeOp := .staging } :=
  (requestWarm_first hw).trans (beginStaging_begins rfl hi)

theorem requestWarm_waits (hw : s.warm = .none) (hi : s.storeOp ≠ .idle) : s.requestWarm = { s with warm := .held } :=
  (requestWarm_first hw).trans (beginStaging_waits hi)

theorem requestWarm_again (hw : s.warm ≠ .none) : s.requestWarm = s := by
  unfold requestWarm
  cases h : s.warm with
  | none => exact absurd h hw
  | held => rfl
  | staged _ => rfl

theorem endStaging_stages (a : StoreAnswer) (h : s.storeOp = .staging) : s.endStaging a =
    { s with
      store := (s.storeRead a).2
      storeOp := .idle
      warm := .staged ((validImage (readImage (s.storeRead a).1)).map (fun x => stationMap (x.body 0))) } := if_pos h

theorem anyFiring_iff (s : State) : s.anyFiring = true ↔ ∃ k : SchemeId, (s.schemes[k]).state = .firing := by
  rw [anyFiring, List.any_eq_true]
  constructor
  · rintro ⟨sc, mem, firing⟩
    obtain ⟨i, hi, rfl⟩ := Vector.mem_iff_getElem.1 (Vector.mem_toList_iff.1 mem)
    exact ⟨⟨i, hi⟩, of_decide_eq_true firing⟩
  · rintro ⟨k, firing⟩
    exact ⟨s.schemes[k], Vector.mem_toList_iff.2 (Vector.getElem_mem k.isLt), decide_eq_true firing⟩

/-- The conditions of R177 for a staged request. -/
theorem warmDue_iff (h : s.warm = .staged map) :
    s.warmDue = true ↔ s.storeOp = .idle ∧ ∀ k : SchemeId, (s.schemes[k]).state ≠ .firing := by
  have quiet : s.anyFiring = false ↔ ∀ k : SchemeId, (s.schemes[k]).state ≠ .firing := by
    rw [← Bool.not_eq_true, anyFiring_iff, not_exists]
  simp only [warmDue, h, Bool.true_and, Bool.and_eq_true, Bool.not_eq_true', quiet, storeIdle, decide_eq_true_eq,
    and_comm]

theorem warmIfDue_taken (h : s.warm = .staged map) (hi : s.storeOp = .idle)
    (hf : ∀ k : SchemeId, (s.schemes[k]).state ≠ .firing) : s.warmIfDue = s.takeWarmReset map := by
  simp only [warmIfDue, h]
  exact if_pos ((warmDue_iff h).2 ⟨hi, hf⟩)

theorem warmIfDue_waits (h : s.warm = .staged map)
    (hn : s.storeOp ≠ .idle ∨ ∃ k : SchemeId, (s.schemes[k]).state = .firing) : s.warmIfDue = s := by
  simp only [warmIfDue, h]
  refine if_neg fun due => ?_
  obtain ⟨idle, quiet⟩ := (warmDue_iff h).1 due
  rcases hn with busy | ⟨k, firing⟩
  · exact busy idle
  · exact quiet k firing

end State

section

variable (s : State)

theorem exec_warmResetRequest : exec .warmResetRequest s = s.event State.requestWarm := rfl

theorem exec_stagingReadBegin : exec .stagingReadBegin s = s.event State.beginStaging := rfl

theorem exec_stagingReadEnd (a : StoreAnswer) : exec (.stagingReadEnd a) s = s.event (fun s => s.endStaging a) := rfl

theorem exec_warmResetTaken : exec .warmResetTaken s = s.event State.warmIfDue := rfl

end

/-- Settles O9: each of the four commands where its condition holds and where it does not. -/
theorem warmResetIsHeldStagedAndTaken : Obligations.WarmResetIsHeldStagedAndTaken := by
  intro a s hs
  rw [exec_warmResetRequest, exec_stagingReadBegin, exec_stagingReadEnd, exec_warmResetTaken]
  simp only [State.event_awake hs]
  refine ⟨fun hw hi => ?_, fun hw hi => ?_, fun hw => ?_, fun hw hi => ?_, fun hst => ?_, fun map hw hi hf => ?_,
    fun map hw hn => ?_⟩
  · rw [State.requestWarm_begins hw hi]
  · rw [State.requestWarm_waits hw hi]
  · rw [State.requestWarm_again hw]
  · rw [State.beginStaging_begins hw hi]
  · refine congrArg State.ended ((State.endStaging_stages a hst).trans ?_)
    cases readImage (s.storeRead a).1 <;> rfl
  · rw [State.warmIfDue_taken hw hi hf]
  · rw [State.warmIfDue_waits hw hn]

end Sys2Proof.Machine
end

section
/-! SUPPORT. The completion of an execution (R149 with R75, R76) and its delivered amount (R148). -/

namespace Sys2Proof.Machine

/-! ## When an execution is complete (R149) -/

/-- A trigger record that its execution's completion closes at time `t`. -/
def TriggerRecord.closed (r : TriggerRecord) (t : BitVec 32) : TriggerRecord :=
  { r with completion := some t, delivered := some r.deliveredAmount }

theorem Scheme.executionDone_iff (sc : Scheme) : sc.executionDone = true ↔
    ∃ r, sc.record = some r ∧ sc.state = .firing ∧ r.completion = none ∧ ∀ e ∈ r.entries, e.outcome ≠ none := by
  unfold Scheme.executionDone
  cases sc.record with
  | none => simp
  | some r => simp [and_assoc, Option.isSome_iff_ne_none]

namespace State

variable {s : State} {k : SchemeId} {r : TriggerRecord} {d : SchemeDef}

theorem completeIfDone_done (h : (s.schemes[k]).executionDone = true) :
    s.completeIfDone k = s.completeExecution k := if_pos h

theorem completeIfDone_not_done (h : ¬ (s.schemes[k]).executionDone = true) : s.completeIfDone k = s := if_neg h

/-- The record is closed and EXEC_COMPLETE appended; then the scheme re-arms (R76) or locks out (R75). -/
theorem completeExecution_eq (hr : (s.schemes[k]).record = some r) (hd : (s.schemes[k]).defn = some d) :
    s.completeExecution k =
      (let t := (s.modScheme k (fun sc => { sc with record := some (r.closed s.clock) })).append .execComplete (some k)
        none none (some (r.deliveredAmount : Int))
      if d.autoRearm then t.modScheme k (fun sc => { sc with state := .primed, rearming := true, pendingPass := true })
      else ((t.modScheme k (fun sc =>
        { sc with state := .lockout, consents := Vector.replicate 4 none })).voidPass k).dropLatch k) := by
  simp only [completeExecution, hr, append_schemes, modScheme_own, hd, Option.map_some, Option.getD_some]
  rfl

theorem completeExecution_rearms (hr : (s.schemes[k]).record = some r) (hd : (s.schemes[k]).defn = some d)
    (ha : d.autoRearm = true) : s.completeExecution k =
      { State.append s .execComplete (some k) none none (some (r.deliveredAmount : Int)) with
        schemes := s.schemes.set k { s.schemes[k] with
          record := some (r.closed s.clock), state := .primed, rearming := true, pendingPass := true } } := by
  rw [completeExecution_eq hr hd]
  refine (if_pos ha).trans ?_
  rw [append_modScheme, modScheme_modScheme]
  rfl

theorem completeExecution_locksOut (hr : (s.schemes[k]).record = some r) (hd : (s.schemes[k]).defn = some d)
    (ha : d.autoRearm = false) : s.completeExecution k =
      (State.voidPass { State.append s .execComplete (some k) none none (some (r.deliveredAmount : Int)) with
        schemes := s.schemes.set k { s.schemes[k] with
          record := some (r.closed s.clock), state := .lockout, consents := Vector.replicate 4 none } } k).dropLatch
        k := by
  rw [completeExecution_eq hr hd]
  refine (if_neg (by rw [ha]; decide)).trans ?_
  rw [append_modScheme, modScheme_modScheme]
  rfl

end State

theorem exec_executionComplete (k : SchemeId) (s : State) :
    exec (.executionComplete k) s = s.event (fun s => s.completeIfDone k) := rfl

/-! ## The delivered amount (R148) -/

/-- The entry was confirmed by its backup at point `b`. -/
def EntryResult.confirmedBy (b : PointId) (e : EntryResult) : Bool :=
  decide (e.outcome = some .backupConfirmed ∧ e.backupPoint = some b)

theorem EntryResult.confirmedBy_iff {b : PointId} {e : EntryResult} :
    e.confirmedBy b = true ↔ e.outcome = some .backupConfirmed ∧ e.backupPoint = some b := decide_eq_true_iff

/-- An entry is confirmed by one backup at most. -/
theorem EntryResult.confirmedBy_unique {b c : PointId} {e : EntryResult} (hb : e.confirmedBy b = true)
    (hc : e.confirmedBy c = true) : b = c := by
  obtain ⟨-, hb⟩ := confirmedBy_iff.1 hb
  obtain ⟨-, hc⟩ := confirmedBy_iff.1 hc
  exact Option.some.inj (hb.symm.trans hc)

theorem backupSum_cons_confirmed {b : PointId} {e : EntryResult} (h : e.confirmedBy b = true) (seen : List PointId)
    (es : List EntryResult) : backupSum seen (e :: es) =
      if b ∈ seen then backupSum seen es else e.backupValue.getD 0 + backupSum (b :: seen) es := by
  obtain ⟨outcome, point⟩ := EntryResult.confirmedBy_iff.1 h
  simp only [backupSum, outcome, point, List.contains_iff_mem]

theorem backupSum_cons_unconfirmed {e : EntryResult} (h : ∀ b, ¬ e.confirmedBy b = true) (seen : List PointId)
    (es : List EntryResult) : backupSum seen (e :: es) = backupSum seen es := by
  rw [backupSum]
  split
  · next b outcome point => exact absurd (EntryResult.confirmedBy_iff.2 ⟨outcome, point⟩) (h b)
  · rfl

/-- `xs` are the backup points outside `seen` that confirmed entries of `es`, each once, with the first entry that it
confirmed. -/
structure CountsBackups (seen : List PointId) (es : List EntryResult) (xs : List (PointId × EntryResult)) : Prop where
  nodup : (xs.map Prod.fst).Nodup
  first : ∀ x ∈ xs, es.find? (EntryResult.confirmedBy x.1) = some x.2
  points : ∀ b : PointId, b ∈ xs.map Prod.fst ↔ (∃ e ∈ es, e.confirmedBy b = true) ∧ b ∉ seen

namespace CountsBackups

variable {seen : List PointId} {es : List EntryResult} {xs : List (PointId × EntryResult)} {e : EntryResult}

theorem nil (seen : List PointId) : CountsBackups seen [] [] :=
  ⟨List.nodup_nil, fun _ mem => absurd mem List.not_mem_nil, by simp⟩

theorem unseen (h : CountsBackups seen es xs) {x : PointId × EntryResult} (hx : x ∈ xs) : x.1 ∉ seen :=
  ((h.points x.1).1 (List.mem_map_of_mem hx)).2

/-- An entry that no backup outside `seen` confirmed adds nothing. -/
theorem skip (h : CountsBackups seen es xs) (he : ∀ b, e.confirmedBy b = true → b ∈ seen) :
    CountsBackups seen (e :: es) xs := by
  refine ⟨h.nodup, fun x hx => ?_, fun b => ?_⟩
  · rw [List.find?_cons_of_neg fun confirmed => h.unseen hx (he x.1 confirmed)]
    exact h.first x hx
  · rw [h.points b]
    refine and_congr_left fun unseen => ?_
    have other : ¬ e.confirmedBy b = true := fun confirmed => unseen (he b confirmed)
    simp [other]

/-- An entry confirmed by a backup outside `seen` adds that backup, which later entries do not add again. -/
theorem count {b : PointId} (h : CountsBackups (b :: seen) es xs) (he : e.confirmedBy b = true) (hb : b ∉ seen) :
    CountsBackups seen (e :: es) ((b, e) :: xs) := by
  have only : ∀ c, e.confirmedBy c = true ↔ c = b :=
    fun c => ⟨fun hc => EntryResult.confirmedBy_unique hc he, fun hc => hc ▸ he⟩
  refine ⟨List.nodup_cons.2 ⟨fun mem => ((h.points b).1 mem).2 List.mem_cons_self, h.nodup⟩, fun x hx => ?_, fun c => ?_⟩
  · rcases List.mem_cons.1 hx with rfl | hx
    · exact List.find?_cons_of_pos he
    · have other : x.1 ≠ b := fun same => h.unseen hx (same ▸ List.mem_cons_self)
      rw [List.find?_cons_of_neg fun confirmed => other ((only x.1).1 confirmed)]
      exact h.first x hx
  · rw [List.map_cons, List.mem_cons, h.points c]
    by_cases own : c = b
    · simp [own, he, hb]
    · simp [own, only c]

end CountsBackups

/-- What `backupSum` adds up: the backup value of each counted backup (R148). -/
theorem backupSum_counts (es : List EntryResult) : ∀ seen : List PointId, ∃ xs, CountsBackups seen es xs ∧
    backupSum seen es = (xs.map (fun x => x.2.backupValue.getD 0)).sum := by
  induction es with
  | nil => exact fun seen => ⟨[], .nil seen, rfl⟩
  | cons e es ih =>
    intro seen
    by_cases confirmed : ∃ b, e.confirmedBy b = true
    · obtain ⟨b, hb⟩ := confirmed
      rw [backupSum_cons_confirmed hb]
      by_cases mem : b ∈ seen
      · obtain ⟨xs, counts, sum⟩ := ih seen
        refine ⟨xs, counts.skip fun c hc => EntryResult.confirmedBy_unique hb hc ▸ mem, ?_⟩
        rw [if_pos mem, sum]
      · obtain ⟨xs, counts, sum⟩ := ih (b :: seen)
        refine ⟨(b, e) :: xs, counts.count hb mem, ?_⟩
        rw [if_neg mem, sum, List.map_cons, List.sum_cons]
    · obtain ⟨xs, counts, sum⟩ := ih seen
      refine ⟨xs, counts.skip fun b hb => absurd ⟨b, hb⟩ confirmed, ?_⟩
      rw [backupSum_cons_unconfirmed (not_exists.1 confirmed), sum]

/-- The credits of the entries confirmed by their own or a merged order (R148). -/
def TriggerRecord.ownCredits (r : TriggerRecord) : List (PointId × Nat) :=
  ((r.snapshot.selected.zip r.entries).filter (fun x =>
    decide (x.2.outcome = some .confirmed ∨ x.2.outcome = some .mergedConfirmed))).map Prod.fst

theorem TriggerRecord.deliveredAmount_eq (r : TriggerRecord) : r.deliveredAmount =
    min 65000 ((r.ownCredits.map Prod.snd).sum + backupSum (r.ownCredits.map Prod.fst) r.entries) := by
  have own : (fun x : (PointId × Nat) × EntryResult => x.2.ownDelivered) =
      fun x => decide (x.2.outcome = some .confirmed ∨ x.2.outcome = some .mergedConfirmed) :=
    funext fun _ => (Bool.decide_or _ _).symm
  rw [deliveredAmount, own, ownCredits]

/-- Settles O33: what completes is decided by the record, how it completes by the definition; the amount by induction on
the entries. -/
theorem executionCompletes : Obligations.ExecutionCompletes := by
  refine ⟨fun k r d s hr hf hd hc he => ?_, fun k s h => ?_, fun r => ?_⟩
  · have done : s.completeIfDone k = s.completeExecution k :=
      State.completeIfDone_done ((Scheme.executionDone_iff _).2 ⟨r, hr, hf, hc, he⟩)
    intro closed rearmed lockedOut
    have event (hs : s.inReset = false) : exec (.executionComplete k) s = State.ended (s.completeExecution k) := by
      rw [exec_executionComplete, State.event_awake hs, done]
    refine ⟨fun ha => ?_, fun ha => ?_⟩
    · have result : s.completeExecution k = rearmed := State.completeExecution_rearms hr hd ha
      rw [← result]
      exact ⟨done, event⟩
    · have result : s.completeExecution k = lockedOut := State.completeExecution_locksOut hr hd ha
      rw [← result]
      exact ⟨done, event⟩
  · have waits : s.completeIfDone k = s := by
      refine State.completeIfDone_not_done fun done => ?_
      obtain ⟨r, hr, hf, hc, final⟩ := (Scheme.executionDone_iff _).1 done
      obtain ⟨e, mem, waiting⟩ := h r hr hf hc
      exact final e mem waiting
    refine ⟨waits, fun hs => ?_⟩
    rw [exec_executionComplete, State.event_awake hs, waits]
  · obtain ⟨xs, counts, sum⟩ := backupSum_counts r.entries (r.ownCredits.map Prod.fst)
    exact ⟨xs, sum ▸ r.deliveredAmount_eq, counts.nodup, counts.first, counts.points⟩

end Sys2Proof.Machine
end

section
/-! SUPPORT. The arming arithmetic (R83 to R95): the index division, the curve, and the figures of a pass. -/

namespace Sys2Proof.Machine

/-! ## The index division (R86, R87) -/

theorem roundedIndex_of_nonneg {sum : Int} (h : 0 ≤ sum) : roundedIndex sum = (sum + 128) / 256 := if_pos h

theorem roundedIndex_of_neg {sum : Int} (h : sum < 0) : roundedIndex sum = -((-sum + 128) / 256) := if_neg (by omega)

/-- The division rounds both signs alike. -/
theorem roundedIndex_neg (sum : Int) : roundedIndex (-sum) = -roundedIndex sum := by
  rcases lt_trichotomy sum 0 with h | rfl | h
  · rw [roundedIndex_of_nonneg (by omega), roundedIndex_of_neg h, neg_neg]
  · rfl
  · rw [roundedIndex_of_neg (by omega), roundedIndex_of_nonneg h.le, neg_neg]

/-- The nearest quotient, and away from zero at a tie. -/
def Nearest (sum r : Int) : Prop :=
  2 * |256 * r - sum| ≤ 256 ∧ (2 * |256 * r - sum| = 256 → |sum| < |256 * r|)

theorem Nearest.neg {sum r : Int} (h : Nearest sum r) : Nearest (-sum) (-r) := by
  have error : |256 * -r - -sum| = |256 * r - sum| := by rw [← abs_neg]; congr 1; ring
  unfold Nearest
  rw [error, mul_neg, abs_neg, abs_neg]
  exact h

theorem nearest_roundedIndex (sum : Int) : Nearest sum (roundedIndex sum) := by
  have nonneg {n : Int} (h : 0 ≤ n) : Nearest n (roundedIndex n) := by
    rw [roundedIndex_of_nonneg h, Nearest, abs_of_nonneg h, abs_of_nonneg (show 0 ≤ 256 * ((n + 128) / 256) by omega)]
    rcases abs_cases (256 * ((n + 128) / 256) - n) with ⟨e, -⟩ | ⟨e, -⟩ <;> rw [e] <;> omega
  rcases le_total 0 sum with h | h
  · exact nonneg h
  · rw [← neg_neg sum, roundedIndex_neg]
    exact (nonneg (neg_nonneg.2 h)).neg

/-- The index sum of terms whose weights lie within `w` and whose inputs lie within `v`. -/
theorem indexSum_abs_le {w v : Int} (hw : 0 ≤ w) : ∀ {terms : List TermCopy},
    (∀ t ∈ terms, |t.weight| ≤ w ∧ |t.input| ≤ v) → |indexSum terms| ≤ terms.length * (w * v)
  | [], _ => by simp [indexSum]
  | t :: terms, h => by
    obtain ⟨weight, input⟩ := h t List.mem_cons_self
    have first : |t.weight * t.input| ≤ w * v := abs_mul t.weight _ ▸ mul_le_mul weight input (abs_nonneg _) hw
    have rest := indexSum_abs_le hw fun u hu => h u (List.mem_cons_of_mem t hu)
    calc |indexSum (t :: terms)| ≤ |t.weight * t.input| + |indexSum terms| := abs_add_le _ _
      _ ≤ w * v + terms.length * (w * v) := add_le_add first rest
      _ = (t :: terms).length * (w * v) := by push_cast [List.length_cons]; ring

/-- Settles O19: both signs are reduced to the sums from 0 on. -/
theorem indexDivisionRoundsToNearest : Obligations.IndexDivisionRoundsToNearest := by
  refine ⟨fun sum => ?_, by decide, fun terms count range => ?_⟩
  · obtain ⟨within, tie⟩ := nearest_roundedIndex sum
    exact ⟨within, tie, roundedIndex_of_nonneg, roundedIndex_of_neg, roundedIndex_neg sum⟩
  · have bound : |indexSum terms| ≤ terms.length * (1024 * 32767) :=
      indexSum_abs_le (by decide) fun t ht => by
        obtain ⟨w, w', v, v'⟩ := range t ht
        exact ⟨abs_le.2 ⟨w, w'⟩, abs_le.2 ⟨v, v'⟩⟩
    rw [abs_le] at bound ⊢
    unfold roundedIndex
    split <;> omega

/-! ## The curve (R89 to R92) -/

/-- The step is the smallest integer not less than N / D. -/
theorem segmentStep_le_iff {n d : Int} (hd : 0 < d) (k : Int) : segmentStep n d ≤ k ↔ n ≤ d * k := by
  unfold segmentStep
  split
  · rw [← Int.lt_add_one_iff, Int.ediv_lt_iff_lt_mul hd, add_mul, one_mul, mul_comm d k]
    omega
  · rw [neg_le, Int.le_ediv_iff_mul_le hd, neg_mul, neg_le_neg_iff, mul_comm]

theorem lt_segmentStep_iff {n d : Int} (hd : 0 < d) (k : Int) : k < segmentStep n d ↔ d * k < n := by
  rw [← not_le, segmentStep_le_iff hd, not_le]

theorem segmentStep_zero {d : Int} (hd : 0 < d) : segmentStep 0 d = 0 :=
  le_antisymm ((segmentStep_le_iff hd 0).2 (by simp)) (Int.le_of_sub_one_lt ((lt_segmentStep_iff hd _).2 (by omega)))

section

variable {q x x' : Int} {y y' : Nat}

/-- N and the step of a rising segment. -/
theorem segment_rising (h : x ≤ q) (h' : q < x') (hy : y < y') :
    let n := (q - x) * ((y' : Int) - y)
    let d := x' - x
    0 ≤ n ∧ n < ((y' : Int) - y) * d ∧ 0 ≤ segmentStep n d ∧ segmentStep n d ≤ (y' : Int) - y ∧
      (x < q → 1 ≤ segmentStep n d) := by
  intro n d
  have hd : 0 < d := by omega
  have rise : 0 < (y' : Int) - y := by omega
  have nonneg : 0 ≤ n := mul_nonneg (by omega) rise.le
  have below : n < ((y' : Int) - y) * d := by
    rw [mul_comm _ d]
    exact mul_lt_mul_of_pos_right (by omega) rise
  refine ⟨nonneg, below, ?_, (segmentStep_le_iff hd _).2 (by rw [mul_comm]; exact below.le), fun inside => ?_⟩
  · exact Int.le_of_sub_one_lt ((lt_segmentStep_iff hd _).2 (by omega))
  · exact (lt_segmentStep_iff hd 0).2 (by rw [mul_zero]; exact mul_pos (by omega) rise)

/-- N and the step of a falling segment. -/
theorem segment_falling (h : x ≤ q) (h' : q < x') (hy : y' < y) :
    let n := (q - x) * ((y' : Int) - y)
    let d := x' - x
    ((y' : Int) - y) * d < n ∧ n ≤ 0 ∧ (y' : Int) - y + 1 ≤ segmentStep n d ∧ segmentStep n d ≤ 0 := by
  intro n d
  have hd : 0 < d := by omega
  have fall : (y' : Int) - y < 0 := by omega
  have nonpos : n ≤ 0 := mul_nonpos_of_nonneg_of_nonpos (by omega) fall.le
  have above : ((y' : Int) - y) * d < n := by
    rw [mul_comm _ d]
    exact mul_lt_mul_of_neg_right (by omega) fall
  exact ⟨above, nonpos, (lt_segmentStep_iff hd _).2 (by rw [mul_comm]; exact above),
    (segmentStep_le_iff hd 0).2 (by rw [mul_zero]; exact nonpos)⟩

/-- The step of a flat segment. -/
theorem segment_flat (h : x ≤ q) (h' : q < x') (hy : y = y') :
    segmentStep ((q - x) * ((y' : Int) - y)) (x' - x) = 0 := by
  rw [hy, sub_self, mul_zero]
  exact segmentStep_zero (by omega)

/-- A0 on a segment is not negative. -/
theorem segment_nonneg (h : x ≤ q) (h' : q < x') :
    0 ≤ (y : Int) + segmentStep ((q - x) * ((y' : Int) - y)) (x' - x) := by
  rcases lt_trichotomy y y' with hy | hy | hy
  · obtain ⟨-, -, step, -, -⟩ := segment_rising h h' hy
    omega
  · have := segment_flat h h' hy
    omega
  · obtain ⟨-, -, step, -⟩ := segment_falling h h' hy
    omega

end

theorem risingX_pairwise : ∀ {curve : List (Int × Nat)}, risingX curve = true → curve.Pairwise (fun a b => a.1 < b.1)
  | [], _ => .nil
  | [c], _ => List.pairwise_singleton _ c
  | (x, y) :: (x', y') :: rest, h => by
    obtain ⟨first, rising⟩ := (Bool.and_eq_true _ _).mp h
    have later := risingX_pairwise rising
    refine List.pairwise_cons.2 ⟨fun c hc => ?_, later⟩
    rcases List.mem_cons.1 hc with rfl | hc
    · exact of_decide_eq_true first
    · exact (of_decide_eq_true first).trans ((List.pairwise_cons.1 later).1 c hc)

/-- No breakpoint is before the first. -/
theorem first_x_le {cs : List (Int × Nat)} {c e : Int × Nat} (rising : (c :: cs).Pairwise (fun a b => a.1 < b.1))
    (mem : e ∈ c :: cs) : c.1 ≤ e.1 := by
  rcases List.mem_cons.1 mem with rfl | mem
  · exact le_rfl
  · exact ((List.pairwise_cons.1 rising).1 e mem).le

/-- Beyond every breakpoint that follows, the curve gives the last y. -/
theorem curveFrom_last {q : Int} : ∀ {cs : List (Int × Nat)} {c : Int × Nat} {x : Int} {y : Nat},
    (c :: cs).getLast? = some (x, y) → (∀ e ∈ cs, e.1 ≤ q) → curveFrom q c cs = y
  | [], (x, y), _, _, last, _ => by cases last; rfl
  | (x', y') :: cs, (x, y), _, _, last, below => by
    rw [curveFrom, if_neg (not_lt.2 (below _ List.mem_cons_self))]
    exact curveFrom_last (by rw [← last, List.getLast?_cons_cons]) fun e he => below e (List.mem_cons_of_mem _ he)

/-- Between two breakpoints the curve gives the segment's A0. -/
theorem curveFrom_segment {q x x' : Int} {y y' : Nat} (h : x ≤ q) (h' : q < x') :
    ∀ {k : Nat} {cs : List (Int × Nat)} {c : Int × Nat}, (c :: cs).Pairwise (fun a b => a.1 < b.1) →
      (c :: cs)[k]? = some (x, y) → (c :: cs)[k + 1]? = some (x', y') →
      (curveFrom q c cs : Int) = y + segmentStep ((q - x) * ((y' : Int) - y)) (x' - x)
  | 0, [], _, _, _, there => by simp at there
  | 0, e :: cs, c, _, here, there => by
    cases here
    cases there
    rw [curveFrom, if_pos h', Int.toNat_of_nonneg (segment_nonneg h h')]
  | k + 1, [], _, _, here, _ => by simp at here
  | k + 1, (a, b) :: cs, (_, _), rising, here, there => by
    have later := (List.pairwise_cons.1 rising).2
    have reached : a ≤ x := first_x_le later (List.mem_of_getElem? (l := (a, b) :: cs) (i := k) here)
    rw [curveFrom, if_neg (not_lt.2 (reached.trans h))]
    exact curveFrom_segment h h' later here there

section

variable {curve : List (Int × Nat)} {q x x' : Int} {y y' : Nat}

theorem curveAt_first (first : curve.head? = some (x, y)) (h : q ≤ x) : curveAt curve q = y := by
  obtain ⟨rest, rfl⟩ := List.head?_eq_some_iff.1 first
  exact if_pos h

/-- From the first breakpoint on; at it R90's two formulas agree. -/
theorem curveAt_from {rest : List (Int × Nat)} (rising : ((x, y) :: rest).Pairwise (fun a b => a.1 < b.1))
    (h : x ≤ q) : curveAt ((x, y) :: rest) q = curveFrom q (x, y) rest := by
  rw [curveAt]
  split
  · next h' =>
    obtain rfl := le_antisymm h h'
    cases rest with
    | nil => rfl
    | cons e rest =>
      have rises : x < e.1 := (List.pairwise_cons.1 rising).1 e List.mem_cons_self
      rw [curveFrom, if_pos rises, sub_self, zero_mul, segmentStep_zero (by omega), add_zero, Int.toNat_natCast]
  · rfl

theorem curveAt_last (rising : curve.Pairwise (fun a b => a.1 < b.1)) (last : curve.getLast? = some (x, y))
    (h : x ≤ q) : curveAt curve q = y := by
  have reached : ∀ e ∈ curve, e.1 ≤ q := fun e he => by
    obtain ⟨before, rfl⟩ := List.getLast?_eq_some_iff.1 last
    rcases List.mem_append.1 he with he | he
    · have : e.1 < x := (List.pairwise_append.1 rising).2.2 e he (x, y) List.mem_cons_self
      exact this.le.trans h
    · rw [List.mem_singleton.1 he]
      exact h
  cases curve with
  | nil => cases last
  | cons c cs =>
    rw [curveAt_from rising (reached c List.mem_cons_self)]
    exact curveFrom_last last fun e he => reached e (List.mem_cons_of_mem _ he)

theorem curveAt_segment (rising : curve.Pairwise (fun a b => a.1 < b.1)) {k : Nat} (here : curve[k]? = some (x, y))
    (there : curve[k + 1]? = some (x', y')) (h : x ≤ q) (h' : q < x') :
    (curveAt curve q : Int) = y + segmentStep ((q - x) * ((y' : Int) - y)) (x' - x) := by
  cases curve with
  | nil => cases here
  | cons c cs =>
    rw [curveAt_from rising ((first_x_le rising (List.mem_of_getElem? here)).trans h)]
    exact curveFrom_segment h h' rising here there

end

/-- The largest y is one of the y values. -/
theorem largestY_mem {curve : List (Int × Nat)} (h : curve ≠ []) : ∃ c ∈ curve, largestY curve = c.2 := by
  cases curve with
  | nil => exact absurd rfl h
  | cons c cs =>
    have greatest : ((c :: cs).map Prod.snd).max? = some (largestY (c :: cs)) := by
      rw [List.map_cons, List.max?_cons', largestY, List.map_cons, List.foldl_cons, Nat.zero_max]
    obtain ⟨e, mem, value⟩ := List.mem_map.1 (List.max?_mem greatest)
    exact ⟨e, mem, value.symm⟩

/-- Settles O20: the step is a ceiling; the segments of the curve are found by recursion along it. -/
theorem segmentKeepsWithinItsEnds : Obligations.SegmentKeepsWithinItsEnds := by
  refine ⟨fun q x x' y y' h h' => ?_, fun curve rising => ?_⟩
  · intro n d step
    have hd : 0 < d := by omega
    refine ⟨⟨(lt_segmentStep_iff hd _).1 (sub_one_lt step), (segmentStep_le_iff hd step).1 le_rfl⟩,
      fun hy => ?_, fun hy => ?_, fun hy => ?_⟩
    · obtain ⟨nonneg, below, low, high, inside⟩ : _ ∧ _ ∧ 0 ≤ step ∧ step ≤ (y' : Int) - y ∧ _ :=
        segment_rising h h' hy
      exact ⟨nonneg, below, low, high, by omega, by omega, inside⟩
    · obtain ⟨above, nonpos, low, high⟩ : _ ∧ _ ∧ (y' : Int) - y + 1 ≤ step ∧ step ≤ 0 :=
        segment_falling h h' hy
      exact ⟨above, nonpos, low, high, by omega, by omega⟩
    · have flat : step = 0 := segment_flat h h' hy
      exact ⟨flat, by omega⟩
  · have rises := risingX_pairwise rising
    exact ⟨fun _ _ _ => curveAt_first, fun _ _ _ => curveAt_last rises, fun _ _ _ _ _ _ => curveAt_segment rises,
      fun bound => ⟨fun _ => curveAt_le bound, fun ne => ⟨largestY_le bound, largestY_mem ne⟩⟩⟩

/-! ## The figures (R83, R85, R88, R89, R93 to R95) -/

theorem TermCopy.input_stale {t : TermCopy} (h : t.stale = true) : t.input = t.held := if_pos h

theorem TermCopy.input_fresh {t : TermCopy} {v : Int} (h : t.stale = false) (hv : t.value = some v) : t.input = v := by
  simp [input, h, hv]

theorem clampIndex_above {n : Int} (h : 32767 < n) : clampIndex n = 32767 := if_pos h

theorem clampIndex_below {n : Int} (h : n < -32767) : clampIndex n = -32767 := by
  rw [clampIndex, if_neg (by omega), if_pos h]

theorem clampIndex_within {n : Int} (h : -32767 ≤ n) (h' : n ≤ 32767) : clampIndex n = n := by
  rw [clampIndex, if_neg (by omega), if_neg (by omega)]

/-- What the limiting changes (R88). -/
theorem clampIndex_ne_iff (n : Int) : clampIndex n ≠ n ↔ 32767 < |n| := by
  rw [lt_abs]
  by_cases above : 32767 < n
  · rw [clampIndex_above above]
    omega
  · by_cases below : n < -32767
    · rw [clampIndex_below below]
      omega
    · rw [clampIndex_within (by omega) (by omega)]
      omega

theorem anyStale_iff {terms : List TermCopy} : terms.any TermCopy.stale = true ↔ ∃ t ∈ terms, t.stale = true :=
  List.any_eq_true

theorem anySuspect_iff {terms : List TermCopy} :
    terms.any (fun t => t.quality = .suspect) = true ↔ ∃ t ∈ terms, t.quality = .suspect := by
  simp only [List.any_eq_true, decide_eq_true_eq]

namespace PassInputs

variable {x : PassInputs}

/-- The pass uses the largest y instead of the index (R89). -/
def ArmsFull (x : PassInputs) : Prop := x.policy = .armFull ∧ ∃ t ∈ x.terms, t.stale = true

/-- The figures of a base amount (R93, R94). -/
def figuresOf (x : PassInputs) (q : Option Int) (flags : ArmFlags) (a0 : Nat) : Figures :=
  { q := q, flags := flags, a0 := a0, a := requiredAmount a0 x.margin, cap := requiredAmount a0 x.margin + x.overshoot }

theorem figures_full (h : x.ArmsFull) : x.figures = x.figuresOf none fullArmingFlags (largestY x.curve) :=
  if_pos ⟨h.1, anyStale_iff.2 h.2⟩

theorem figures_computed (h : ¬ x.ArmsFull) : x.figures =
    x.figuresOf (some (clampIndex (roundedIndex (indexSum x.terms)))) (indexFlags x.terms)
      (curveAt x.curve (clampIndex (roundedIndex (indexSum x.terms)))) :=
  if_neg fun full => h ⟨full.1, anyStale_iff.1 full.2⟩

/-- The required amount and the cap follow from the base amount on every path. -/
theorem figures_amounts (x : PassInputs) :
    x.figures.a = requiredAmount x.figures.a0 x.margin ∧ x.figures.cap = x.figures.a + x.overshoot := by
  by_cases h : x.ArmsFull
  · rw [figures_full h]
    exact ⟨rfl, rfl⟩
  · rw [figures_computed h]
    exact ⟨rfl, rfl⟩

end PassInputs

/-- Settles O21: one case for a pass that arms full (R89), one for a pass that computes its index. -/
theorem armingFiguresInRange : Obligations.ArmingFiguresInRange := by
  refine ⟨fun t => ⟨TermCopy.input_stale, fun _ => TermCopy.input_fresh⟩, fun x lawful => ?_⟩
  obtain ⟨required, cap⟩ := x.figures_amounts
  refine ⟨PassInputs.figures_lawful lawful, required, cap, ?_⟩
  by_cases full : x.ArmsFull
  · rw [PassInputs.figures_full full]
    exact ⟨iff_of_true rfl full, iff_of_true rfl rfl, nofun, fun _ => ⟨rfl, rfl, rfl, rfl⟩⟩
  · rw [PassInputs.figures_computed full]
    refine ⟨iff_of_false nofun full, iff_of_false nofun nofun, fun q hq => ?_, nofun⟩
    cases hq
    exact ⟨rfl, clampIndex_above, clampIndex_below, clampIndex_within,
      decide_eq_true_iff.trans (clampIndex_ne_iff _), anyStale_iff, anySuspect_iff⟩

end Sys2Proof.Machine
end

section
/-! SUPPORT. The end of an event part by part (R80, R100, R105, R138, R177; log entry 9), and PASS_BEGIN (R82, R105). -/

namespace Sys2Proof.Machine

/-! ## PASS_BEGIN (R105) -/

theorem exec_passBegin (s : State) : exec .passBegin s = s.event State.takeFlags := rfl

/-- Settles O23: the fold over the scheme numbers, cut at the scheme that begins its pass. -/
theorem passBegins : Obligations.PassBegins := by
  intro k d s awake loaded free flag defined runs lower
  have begins : Begins s k := ⟨flag, by rw [defined]; exact Option.some_ne_none d, runs⟩
  have lowest : ∀ j, j < k → ¬ Begins s j := fun j hj ⟨flagged, defn, running⟩ => by
    rcases lower j hj flagged with idle | undefined
    · exact Bool.false_ne_true (idle.symm.trans running)
    · exact defn undefined
  obtain ⟨v, taken, entries⟩ := takeFlags_begins s k d free loaded begins defined lowest
  refine ⟨v, ?_, entries⟩
  rw [exec_passBegin, State.event_awake awake, taken]
  rfl

/-! ## What each part changes -/

namespace State

variable {s : State}

/-- Taking flags is about the schemes and the engine alone. -/
theorem takeFlag_frame (s : State) (k : SchemeId) : ∃ v e, s.takeFlag k = { s with schemes := v, engine := e } := by
  unfold takeFlag
  split
  · split
    · split
      · exact ⟨_, _, rfl⟩
      · exact ⟨_, _, rfl⟩
    · exact ⟨_, _, rfl⟩
  · exact ⟨_, _, rfl⟩

theorem takeFlags_starting (h : s.storeOp = .coldLoad) : s.takeFlags = s := if_pos ((starting_iff s).2 h)

theorem takeFlags_loaded (h : s.storeOp ≠ .coldLoad) : s.takeFlags = (List.finRange 32).foldl takeFlag s :=
  if_neg (Bool.not_eq_true _ ▸ (not_starting_iff s).2 h)

theorem takeFlags_busy (h : s.engine ≠ none) : s.takeFlags = s := by
  by_cases loading : s.storeOp = .coldLoad
  · exact takeFlags_starting loading
  · rw [takeFlags_loaded loading, takeFlag_foldl_busy _ s h]

theorem takeFlags_frame (s : State) : ∃ v e, s.takeFlags = { s with schemes := v, engine := e } := by
  have run (ks : List SchemeId) : ∀ s : State, ∃ v e, ks.foldl takeFlag s = { s with schemes := v, engine := e } := by
    induction ks with
    | nil => exact fun s => ⟨_, _, rfl⟩
    | cons k ks ih =>
      intro s
      obtain ⟨v, e, first⟩ := s.takeFlag_frame k
      rw [List.foldl_cons, first]
      exact ih _
  by_cases loading : s.storeOp = .coldLoad
  · exact ⟨_, _, takeFlags_starting loading⟩
  · rw [takeFlags_loaded loading]
    exact run _ s

theorem advanceWalk_free (h : s.engine = none) : s.advanceWalk = s := by simp only [advanceWalk, h]

theorem advanceWalk_busy {x : Pass} (h : s.engine = some x) : s.advanceWalk = { s with
    engine := some { x with walk := s.walkOn x.inputs.figures x.walk.remaining (Config.walkProgress s.openCount) x.walk }
    openCount := s.openCount + 1 } := by simp only [advanceWalk, h]

theorem advanceWalk_frame (s : State) : ∃ e n, s.advanceWalk = { s with engine := e, openCount := n } := by
  cases h : s.engine with
  | none => exact ⟨_, _, advanceWalk_free h⟩
  | some x => exact ⟨_, _, advanceWalk_busy h⟩

/-! ## The warm reset (R177) -/

/-- The three conditions of R177. -/
theorem warmDue_iff_conditions (s : State) : s.warmDue = true ↔
    (∃ map, s.warm = .staged map) ∧ (∀ k : SchemeId, (s.schemes[k]).state ≠ .firing) ∧ s.storeOp = .idle := by
  cases h : s.warm with
  | staged map =>
    rw [warmDue_iff h, and_comm]
    exact (and_iff_right ⟨map, rfl⟩).symm
  | none | held => simp [warmDue, h]

/-- A warm reset that has been taken is no longer due. -/
theorem takeWarmReset_not_due (s : State) (map : Option (Vector LinkParams 8)) :
    (s.takeWarmReset map).warmDue = false := by
  rw [← Bool.not_eq_true, warmDue_iff_conditions, (s.takeWarmReset_warmedTo map).warm]
  rintro ⟨⟨_, staged⟩, -⟩
  cases staged

theorem settle_due {map : Option (Vector LinkParams 8)} (h : s.warm = .staged map) (due : s.warmDue = true) :
    s.settle = (s.takeWarmReset map).settle := by
  obtain ⟨idle, quiet⟩ := (warmDue_iff h).1 due
  rw [settle_quiet _ (s.takeWarmReset_not_due map), settle, warmIfDue_taken h idle quiet]

end State

/-- What no event's end changes. -/
structure KeptAtEnd (s t : State) : Prop where
  pending : t.pending = s.pending
  inReset : t.inReset = s.inReset
  clock : t.clock = s.clock
  bench : t.bench = s.bench
  store : t.store = s.store
  storeOp : t.storeOp = s.storeOp
  parties : t.parties = s.parties
  execCount : t.execCount = s.execCount
  lateLists : t.lateLists = s.lateLists

theorem KeptAtEnd.trans {s t u : State} (h : KeptAtEnd s t) (h' : KeptAtEnd t u) : KeptAtEnd s u where
  pending := h'.pending.trans h.pending
  inReset := h'.inReset.trans h.inReset
  clock := h'.clock.trans h.clock
  bench := h'.bench.trans h.bench
  store := h'.store.trans h.store
  storeOp := h'.storeOp.trans h.storeOp
  parties := h'.parties.trans h.parties
  execCount := h'.execCount.trans h.execCount
  lateLists := h'.lateLists.trans h.lateLists

theorem SameElsewhere.keptAtEnd {s t : State} (h : SameElsewhere s t) : KeptAtEnd s t :=
  ⟨h.pending, h.inReset, h.clock, h.bench, h.store, h.storeOp, h.parties, h.execCount, h.lateLists⟩

theorem KeptAtEnd.takeWarmReset (s : State) (map : Option (Vector LinkParams 8)) :
    KeptAtEnd s (s.takeWarmReset map) := by
  have recorded : KeptAtEnd s (s.warmRecorded map) := by constructor <;> rfl
  have dropped := (s.warmDropped_onlyLatches map).keptAtEnd
  have cleared : KeptAtEnd (s.warmDropped map) (s.warmCleared map) := by constructor <;> rfl
  exact recorded.trans (dropped.trans (cleared.trans (s.takeWarmReset_onlyPoints map).keptAtEnd))

namespace State

variable {s : State}

/-- The end of an event where no warm reset is due is about the schemes, the engine, the links and the free values. -/
theorem settle_frame (h : s.warmDue = false) : ∃ v e n, s.settle =
    { s with schemes := v, engine := e, openCount := n, links := mapV (Link.startFrame s.bench) s.links } := by
  obtain ⟨v, e, flags⟩ := s.takeFlags_frame
  obtain ⟨e', n, walk⟩ := s.takeFlags.advanceWalk_frame
  refine ⟨v, e', n, ?_⟩
  rw [settle_quiet s h, walk, flags]
  rfl

theorem settle_kept (s : State) : KeptAtEnd s s.settle := by
  have quiet {t : State} (h : t.warmDue = false) : KeptAtEnd t t.settle := by
    obtain ⟨v, e, n, eq⟩ := settle_frame h
    rw [eq]
    constructor <;> rfl
  cases due : s.warmDue with
  | false => exact quiet due
  | true =>
    obtain ⟨⟨map, staged⟩, -⟩ := s.warmDue_iff_conditions.1 due
    rw [settle_due staged due]
    exact (KeptAtEnd.takeWarmReset s map).trans (quiet (s.takeWarmReset_not_due map))

/-! ## Where no warm reset is due -/

/-- Each link begins to transmit or stays as it is. -/
theorem settle_link (h : s.warmDue = false) (l : LinkId) : s.settle.links[l] = Link.startFrame s.bench s.links[l] := by
  obtain ⟨v, e, n, eq⟩ := settle_frame h
  rw [eq]
  exact getElem_mapV ..

theorem settle_busy (h : s.warmDue = false) {x : Pass} (busy : s.engine = some x) :
    s.settle.schemes = s.schemes ∧ ∃ n, s.settle.engine =
      some { x with walk := s.walkOn x.inputs.figures x.walk.remaining n x.walk } := by
  rw [settle_quiet s h, takeFlags_busy (busy ▸ Option.some_ne_none x), advanceWalk_busy busy]
  exact ⟨rfl, _, rfl⟩

theorem settle_starting (h : s.warmDue = false) (free : s.engine = none) (loading : s.storeOp = .coldLoad) :
    s.settle.schemes = s.schemes ∧ s.settle.engine = none := by
  rw [settle_quiet s h, takeFlags_starting loading, advanceWalk_free free]
  exact ⟨rfl, free⟩

theorem settle_idle (h : s.warmDue = false) (free : s.engine = none) (loaded : s.storeOp ≠ .coldLoad)
    (idle : ∀ j, ¬ Begins s j) : s.settle.engine = none ∧
      ∀ j : SchemeId, s.settle.schemes[j] = { s.schemes[j] with pendingPass := false } := by
  obtain ⟨v, taken, entries⟩ := takeFlags_idle s free loaded idle
  rw [settle_quiet s h, taken, advanceWalk_free (s := { s with schemes := v }) free]
  exact ⟨free, entries⟩

theorem settle_begins (h : s.warmDue = false) (free : s.engine = none) (loaded : s.storeOp ≠ .coldLoad) {k : SchemeId}
    {d : SchemeDef} (begins : Begins s k) (lowest : ∀ j, j < k → ¬ Begins s j) (defined : (s.schemes[k]).defn = some d) :
    (∃ n, s.settle.engine = some { s.newPass k d with
      walk := s.walkOn (s.copyInputs d).figures (s.copyInputs d).candidates n (s.copyInputs d).startWalk }) ∧
    ∀ j : SchemeId, s.settle.schemes[j] =
      if j ≤ k then { s.schemes[j] with pendingPass := false } else s.schemes[j] := by
  obtain ⟨v, taken, entries⟩ := takeFlags_begins s k d free loaded begins defined lowest
  rw [settle_quiet s h, taken, advanceWalk_busy rfl]
  refine ⟨⟨Config.walkProgress s.openCount, ?_⟩, entries⟩
  rw [← walkOn_congr (s := s) (t := { s with schemes := v, engine := some (s.newPass k d) }) rfl]
  rfl

end State

/-- Settles O6: the frame of every part of the end of an event, then the engine's four cases (busy, loading, no scheme to
begin, the lowest one that begins). -/
theorem endOfEventFrame : Obligations.EndOfEventFrame := by
  intro s
  obtain ⟨pending, inReset, clock, bench, store, storeOp, parties, execCount, lateLists⟩ := s.settle_kept
  refine ⟨⟨pending, inReset, clock, bench, store, storeOp, parties, execCount, lateLists⟩, s.warmDue_iff_conditions,
    fun map staged due => ⟨s.takeWarmReset_not_due map, State.settle_due staged due⟩, fun quiet => ⟨?_, fun l => ?_,
      fun x => State.settle_busy quiet, fun free => State.settle_starting quiet free, fun free loaded => ?_⟩⟩
  · obtain ⟨v, e, n, eq⟩ := State.settle_frame quiet
    rw [eq]
    exact ⟨rfl, rfl, rfl, rfl, rfl, rfl, rfl, rfl⟩
  · rw [State.settle_link quiet]
    exact Link.startFrame_cases s.bench s.links[l]
  · exact ⟨State.settle_idle quiet free loaded, fun k d begins lowest defined =>
      State.settle_begins quiet free loaded begins lowest defined⟩

end Sys2Proof.Machine
end

section
/-! SUPPORT. PASS_COMPLETION (R106, R108, R110) and the installation check (R109). -/

namespace Sys2Proof.Machine

namespace State

variable {s : State} {x : Pass}

/-! ## The completion (R106, R108) -/

theorem completePass_void (busy : s.engine = some x) (void : x.void = true) :
    s.completePass = { s with engine := none } := by
  simp only [completePass, busy, void, if_true]

theorem completePass_valid (busy : s.engine = some x) (valid : x.void = false) :
    s.completePass = State.install { s with engine := none } x.scheme
      (s.checkedRecord x.inputs.figures (s.finishedWalk x)) := by
  simp only [completePass, busy, valid, Bool.false_eq_true, if_false]

theorem exec_passCompletion (awake : s.inReset = false) :
    exec .passCompletion s = State.ended s.completePass :=
  State.event_awake awake State.completePass

/-! ## The installation check (R109) -/

theorem checkSelected_cons_available {e : PointId × Nat} (h : s.unavailable e.1 = none) (es : List (PointId × Nat)) :
    s.checkSelected (e :: es) = (e :: (s.checkSelected es).1, (s.checkSelected es).2) := by
  simp only [checkSelected, h]

theorem checkSelected_cons_unavailable {e : PointId × Nat} {why : SkipReason} (h : s.unavailable e.1 = some why)
    (es : List (PointId × Nat)) :
    s.checkSelected (e :: es) = ((s.checkSelected es).1, (e.1, why) :: (s.checkSelected es).2) := by
  simp only [checkSelected, h]

/-- The check keeps the entries whose points are available and lists the others with their reasons, each in walk order. -/
theorem checkSelected_eq (s : State) (es : List (PointId × Nat)) :
    s.checkSelected es = (es.filter (fun e => (s.unavailable e.1).isNone),
      es.filterMap (fun e => (s.unavailable e.1).map (fun why => (e.1, why)))) := by
  induction es with
  | nil => rfl
  | cons e es ih =>
    cases h : s.unavailable e.1 with
    | none => rw [checkSelected_cons_available h, ih]; simp [h]
    | some why => rw [checkSelected_cons_unavailable h, ih]; simp [h]

end State

/-- Settles O24: the completion by the void mark, the record by what the check keeps and lists. -/
theorem passCompletes : Obligations.PassCompletes := by
  refine ⟨fun x s awake busy => ?_, fun s f w => ?_⟩
  · rw [State.exec_passCompletion awake]
    exact ⟨fun void => congrArg State.ended (State.completePass_void busy void),
      fun valid => congrArg State.ended (State.completePass_valid busy valid)⟩
  · have check := s.checkSelected_eq w.selected
    exact ⟨rfl, rfl, congrArg Prod.fst check, congrArg (w.skipped ++ ·) (congrArg Prod.snd check), rfl, rfl⟩

end Sys2Proof.Machine
end

section
/-! SUPPORT. Triggers: coincidence (R117), the answer in each scheme state (R119, R127), the taking (R121, R122, R134, R135)
and the replay of a latched trigger (R129). -/

namespace Sys2Proof.Machine

namespace State

variable {s : State} {k : SchemeId} {trg : Trigger}

/-! ## Coincidence (R117) -/

/-- The rise time with which slot `e` counts for a rising event on `d` at time `t`, where it counts. -/
def countedRise (s : State) (window : Nat) (d : DetId) (t : Time) (e : DetId) : Option Time :=
  if e = d then some t
  else (s.det[e]).lastRise.filter (fun r => s.recentRise[e] && decide ((t - r).toNat < window))

theorem countedRise_eq_some_iff (s : State) (window : Nat) (d : DetId) (t : Time) (e : DetId) (r : Time) :
    s.countedRise window d t e = some r ↔ (e = d ∧ r = t) ∨
      (e ≠ d ∧ s.recentRise[e] = true ∧ (s.det[e]).lastRise = some r ∧ (t - r).toNat < window) := by
  unfold countedRise
  split
  · next same => simp only [same, Option.some.injEq, eq_comm, true_and, ne_eq, not_true_eq_false, false_and, or_false]
  · next other =>
    simp only [Option.filter_eq_some_iff, Bool.and_eq_true, decide_eq_true_eq, other, false_and, false_or, ne_eq,
      not_false_eq_true, true_and, and_left_comm]

theorem countedSources_eq (s : State) (sources : List DetId) (window : Nat) (d : DetId) (t : Time) :
    s.countedSources sources window d t = sources.filterMap (fun e => (s.countedRise window d t e).map (Prod.mk e)) := by
  unfold countedSources
  congr 1
  funext e
  unfold countedRise
  split
  · next same => rw [same]; rfl
  · cases (s.det[e]).lastRise with
    | none => rfl
    | some r =>
      simp only [Option.filter_some, Bool.and_eq_true, decide_eq_true_eq]
      split <;> rfl

/-- The counted sources are those with a rise that counts, in section order. -/
theorem countedSources_sublist (s : State) (sources : List DetId) (window : Nat) (d : DetId) (t : Time) :
    ((s.countedSources sources window d t).map Prod.fst).Sublist sources := by
  have kept : (s.countedSources sources window d t).map Prod.fst =
      sources.filter (fun e => (s.countedRise window d t e).isSome) := by
    rw [countedSources_eq, List.map_filterMap, ← List.filterMap_eq_filter]
    congr 1
    funext e
    cases rise : s.countedRise window d t e <;> simp [rise, Option.guard]
  rw [kept]
  exact List.filter_sublist

theorem mem_countedSources (s : State) (sources : List DetId) (window : Nat) (d : DetId) (t : Time) (e : DetId) (r : Time) :
    (e, r) ∈ s.countedSources sources window d t ↔ e ∈ sources ∧ s.countedRise window d t e = some r := by
  simp [countedSources_eq]

theorem triggerFor_eq_some_iff (d : DetId) : s.triggerFor d k = some trg ↔ ∃ x, (s.schemes[k]).defn = some x ∧
    (s.schemes[k]).state ≠ .disabled ∧ d ∈ x.sources ∧ trg.time = s.clock ∧ trg.slot = d ∧
    trg.counted = s.countedSources x.sources x.window d s.clock ∧ x.k ≤ trg.counted.length := by
  obtain ⟨time, slot, counted⟩ := trg
  unfold triggerFor
  split
  · next x defined => grind
  · next undefined => simp only [undefined, reduceCtorEq, false_and, exists_false]

theorem mem_triggered (d : DetId) : (k, trg) ∈ s.triggered d ↔ s.triggerFor d k = some trg := by
  simp [triggered]

/-! ## The answer to a trigger (R119, R127) -/

theorem latchTrigger_clear (h : (s.schemes[k]).latch = none) : s.latchTrigger k trg =
    State.append { s with schemes := s.schemes.set k { s.schemes[k] with latch := some trg } }
      .retriggerLatched (some k) none none (some (trg.slot.val : Int)) := by
  simp only [latchTrigger, h]
  rfl

theorem latchTrigger_set (h : (s.schemes[k]).latch ≠ none) : s.latchTrigger k trg =
    s.append .retriggerLost (some k) none none (some (trg.slot.val : Int)) := by
  obtain ⟨first, set⟩ := Option.ne_none_iff_exists'.1 h
  simp only [latchTrigger, set]

theorem answerTrigger_armed (h : (s.schemes[k]).state = .armed) : s.answerTrigger k trg = s.takeTrigger k trg false := by
  simp only [answerTrigger, h]

theorem answerTrigger_disabled (h : (s.schemes[k]).state = .disabled) : s.answerTrigger k trg = s := by
  simp only [answerTrigger, h]

theorem answerTrigger_unarmed (h : (s.schemes[k]).state = .standby ∨
      ((s.schemes[k]).state = .primed ∧ (s.schemes[k]).rearming = false)) :
    s.answerTrigger k trg = s.append .triggerUnarmed (some k) none none (some (trg.slot.val : Int)) := by
  rcases h with standby | ⟨primed, unmarked⟩
  · simp only [answerTrigger, standby]
  · simp only [answerTrigger, primed, unmarked, Bool.false_eq_true, if_false]

theorem answerTrigger_locked (h : (s.schemes[k]).state = .lockout) :
    s.answerTrigger k trg = s.append .triggerLocked (some k) none none (some (trg.slot.val : Int)) := by
  simp only [answerTrigger, h]

theorem answerTrigger_latches (h : (s.schemes[k]).state = .firing ∨
      ((s.schemes[k]).state = .primed ∧ (s.schemes[k]).rearming = true)) :
    s.answerTrigger k trg = s.latchTrigger k trg := by
  rcases h with firing | ⟨primed, marked⟩
  · simp only [answerTrigger, firing]
  · simp only [answerTrigger, primed, marked, if_true]

end State

/-- Settles O26: coincidence from what each source contributes, and the answer state by state. -/
theorem triggerOutsideArmed : Obligations.TriggerOutsideArmed := by
  intro k trg s slot
  refine ⟨State.triggerFor_eq_some_iff, State.mem_triggered, fun sources window d => ⟨?sections, fun e r => ?counts⟩,
    State.answerTrigger_armed, State.answerTrigger_disabled, State.answerTrigger_unarmed, State.answerTrigger_locked,
    fun latches => ⟨fun clear => ?latched, fun set => ?lost⟩⟩
  case sections => exact s.countedSources_sublist sources window d s.clock
  case counts => rw [State.mem_countedSources, State.countedRise_eq_some_iff]
  case latched => rw [State.answerTrigger_latches latches, State.latchTrigger_clear clear]
  case lost => rw [State.answerTrigger_latches latches, State.latchTrigger_set set]

namespace State

variable {s : State} {k : SchemeId} {snap : ArmingRecord}

/-! ## The taking (R121, R122, R134, R135) -/

/-- A taking makes the firing requests of its snapshot in order, and completes where no entry waits. -/
theorem takeTrigger_eq (h : (s.schemes[k]).live = some snap) (trg : Trigger) (replayed : Bool) :
    s.takeTrigger k trg replayed =
      (snap.selected.zipIdx.foldl (fireEntry k s.execCount) (s.triggerTaken k trg replayed snap)).completeIfDone k := by
  simp only [takeTrigger, h]
  rfl

theorem triggerTaken_eq (s : State) (k : SchemeId) (trg : Trigger) (replayed : Bool) (snap : ArmingRecord) :
    s.triggerTaken k trg replayed snap = (State.append { s with execCount := s.execCount + 1 } .triggerTaken (some k) none
      none (some ((trg.slot.val : Int) + if replayed then 64 else 0))).modScheme k (fun sc => { sc with
        state := .firing, record := some ((s.schemes[k]).newRecord snap trg s.clock replayed s.execCount) }) := by
  rw [triggerTaken, append_modScheme, modScheme_modScheme]

theorem triggerTaken_run (s : State) (k : SchemeId) (trg : Trigger) (replayed : Bool) (snap : ArmingRecord) :
    let u := s.triggerTaken k trg replayed snap
    u = { s with
      execCount := s.execCount + 1, ring := u.ring, nextSeq := u.nextSeq, readers := u.readers
      schemes := s.schemes.set k { s.schemes[k] with
        state := .firing, record := some ((s.schemes[k]).newRecord snap trg s.clock replayed s.execCount) } } := by
  dsimp only
  rw [triggerTaken_eq]
  rfl

theorem triggerTaken_logs (s : State) (k : SchemeId) (trg : Trigger) (replayed : Bool) (snap : ArmingRecord) :
    s.Logs (s.triggerTaken k trg replayed snap)
      [(.triggerTaken, some k, none, none, some ((trg.slot.val : Int) + if replayed then 64 else 0))] := by
  have counted : SameRecord s { s with execCount := s.execCount + 1 } := ⟨rfl, rfl, rfl, rfl⟩
  rw [triggerTaken_eq]
  exact ((Logs.nil counted).append .triggerTaken (some k) none none _).same (.modScheme _ k _)

end State

/-- The new record carries the definition generation (R122). -/
theorem Scheme.newRecord_defGen {sc : Scheme} {d : SchemeDef} (h : sc.defn = some d) (snap : ArmingRecord) (trg : Trigger)
    (now : Time) (replayed : Bool) (n : BitVec 32) : (sc.newRecord snap trg now replayed n).defGen = d.defGen := by
  simp only [Scheme.newRecord, h, Option.map_some, Option.getD_some]

/-- Settles O27: the state before the firing requests, and what carrying them out keeps of it. -/
theorem triggerIsTaken : Obligations.TriggerIsTaken := by
  intro k trg snap s live
  refine ⟨State.answerTrigger_armed, fun replayed => ?_⟩
  intro t taken
  have executes := State.takeTrigger_executes live trg replayed
  have scheme := executes.schemes k
  rw [State.triggerTaken_scheme] at scheme
  obtain ⟨r, record, ⟨kept, entries, -⟩, stands⟩ := scheme.record _ rfl
  have defGen (d : SchemeDef) (defined : (s.schemes[k]).defn = some d) :
      ((s.schemes[k]).newRecord snap trg s.clock replayed s.execCount).defGen = d.defGen :=
    Scheme.newRecord_defGen defined snap trg s.clock replayed s.execCount
  refine ⟨executes.execCount, scheme.live.trans live, s.takeTrigger_logs k trg replayed (by rw [live]; nofun),
    ⟨r, record, ?record⟩, s.triggerTaken k trg replayed snap, _, State.takeTrigger_eq live trg replayed,
    s.triggerTaken_run k trg replayed snap, defGen, s.triggerTaken_logs k trg replayed snap⟩
  case record => exact ⟨(congrArg TriggerRecord.trigger kept :), (congrArg TriggerRecord.takeTime kept :),
    (congrArg TriggerRecord.replayed kept :), (congrArg TriggerRecord.snapshot kept :),
    fun d defined => (congrArg TriggerRecord.defGen kept :).trans (defGen d defined),
    (congrArg TriggerRecord.armGen kept :), (congrArg TriggerRecord.execution kept :),
    entries.trans List.length_replicate, fun opened => (stands opened).1⟩

/-! ## The replay of a latched trigger (R129) -/

theorem exec_retriggerReplay (k : SchemeId) (s : State) :
    exec (.retriggerReplay k) s = s.event (fun s => s.replayLatch k) := rfl

theorem State.replayLatch_unarmed {s : State} {k : SchemeId} (h : (s.schemes[k]).state ≠ .armed) :
    s.replayLatch k = s := by
  cases latch : (s.schemes[k]).latch with
  | none => exact replayLatch_clear latch
  | some trg => simp only [replayLatch, latch, if_neg h]

/-- Settles O35: the latch is consumed and replayed exactly where it is set and the scheme ARMED. -/
theorem latchedTriggerIsReplayed : Obligations.LatchedTriggerIsReplayed := by
  intro k s awake
  rw [exec_retriggerReplay, State.event_awake awake]
  refine ⟨fun trg latched armed => ?replayed, fun idle => congrArg State.ended ?idle⟩
  case replayed => rw [State.replayLatch_set latched armed]; rfl
  case idle => exact idle.elim State.replayLatch_clear State.replayLatch_unarmed

end Sys2Proof.Machine
end

section
/-! SUPPORT. The event record: one append (R155, R156, R159), READ_EVENTS (R157, R158), and what every change of the part
keeps of the record's law (R153, R156, R159). -/

namespace Sys2Proof.Machine

/-! ## One append (R155, R156, R159) -/

namespace Reader

variable {oldest : Seq} {r : Reader}

theorem pulled_at (h : r.cursor = oldest) : r.pulled oldest =
    { r with cursor := r.cursor + 1, lost := if r.lost = 0xFFFFFFFF#32 then r.lost else r.lost + 1 } := if_pos h

theorem pulled_past (h : r.cursor ≠ oldest) : r.pulled oldest = r := if_neg h

/-- The lost count rises by one and saturates (R156). -/
theorem pulled_lost_toNat (h : r.cursor = oldest) :
    (r.pulled oldest).lost.toNat = min 0xFFFFFFFF (r.lost.toNat + 1) := by
  rw [pulled_at h]
  split
  · next full => rw [full]; rfl
  · next room => bv_omega

end Reader

section

variable (s : State) (kind : EventKind) (sch : Option SchemeId) (pt : Option PointId) (pa : Option PartyId)
  (de : Option Int)

theorem State.append_reader (p : PartyId) : (s.append kind sch pt pa de).readers[p] =
    Reader.follow (s.nextSeq + 1) (if 256 ≤ s.ring.length then (s.readers[p]).pulled s.oldestSeq else s.readers[p]) :=
  getElem_mapV ..

/-- Where no record is removed, or the cursor is not at the removed one, the reader keeps its place (R156). -/
theorem State.append_reader_kept {p : PartyId} (h : s.ring.length < 256 ∨ (s.readers[p]).cursor ≠ s.oldestSeq) :
    (s.append kind sch pt pa de).readers[p] = (s.readers[p]).follow (s.nextSeq + 1) := by
  rw [State.append_reader]
  split
  · next full => rw [Reader.pulled_past (h.resolve_left full.not_gt)]
  · rfl

/-- A cursor at the removed record is pulled on (R156). -/
theorem State.append_reader_pulled {p : PartyId} (full : 256 ≤ s.ring.length) :
    (s.append kind sch pt pa de).readers[p] = ((s.readers[p]).pulled s.oldestSeq).follow (s.nextSeq + 1) := by
  rw [State.append_reader, if_pos full]

theorem State.append_ring : (s.append kind sch pt pa de).ring =
    (if s.ring.length < 256 then s.ring else s.ring.tail) ++
      [{ seq := s.nextSeq, time := s.clock, kind := kind, scheme := sch, point := pt, party := pa, detail := de }] := by
  unfold State.append Config.ringSize
  dsimp only
  split
  · next full => rw [if_neg full.not_gt]
  · next room => rw [if_pos (Nat.lt_of_not_le room)]

end

/-- Settles O36: the ring is that of `State.append_ring`, and each reader keeps its place or is pulled on. -/
theorem recordIsAppended : Obligations.RecordIsAppended := by
  intro kind sch pt pa de s
  refine ⟨_, (s.append kind sch pt pa de).readers, rfl, s.append_ring kind sch pt pa de,
    fun p => ⟨?attn, fun kept => ?kept, fun full oldest => ?pulled⟩⟩
  case attn =>
    rw [State.append_reader]
    rfl
  case kept =>
    rw [State.append_reader_kept s kind sch pt pa de kept]
    exact ⟨rfl, rfl⟩
  case pulled =>
    rw [State.append_reader_pulled s kind sch pt pa de full]
    exact ⟨congrArg Reader.cursor (Reader.pulled_at oldest), Reader.pulled_lost_toNat oldest⟩

/-! ## READ_EVENTS (R157, R158) -/

theorem countOk_iff (count : Byte) : countOk count = true ↔ 1 ≤ count.toNat ∧ count.toNat ≤ 8 := by
  simp only [countOk, Bool.and_eq_true, decide_eq_true_eq]

theorem countOk_eq_false {count : Byte} (h : count.toNat = 0 ∨ 8 < count.toNat) : countOk count = false :=
  Bool.eq_false_iff.2 fun ok => by
    obtain ⟨low, high⟩ := (countOk_iff count).1 ok
    omega

theorem exec_readEvents (p : PartyId) (count : Byte) (s : State) :
    exec (.readEvents p count) s = s.event (fun s => s.request p (fun s => s.readEvents p count)) := rfl

theorem exec_readEventsStart (p : PartyId) (count : Byte) (start : Seq) (s : State) :
    exec (.readEventsStart p count start) s =
      s.event (fun s => s.request p (fun s => s.readEventsStart count start)) := rfl

/-- Party `p` has read `n` records from its cursor (R157, R159). -/
def State.eventsRead (s : State) (p : PartyId) (n : Nat) : State :=
  { s with readers := (s.readers.set p
      (Reader.mk ((s.readers[p]).cursor + BitVec.ofNat 32 n) 0 (decide (s.lag p - n ≠ 0)))) }

namespace State

variable (s : State) {p : PartyId} {count : Byte} {start : Seq}

theorem readEvents_refused (h : countOk count = false) : s.readEvents p count = (s, refuse .badArgument) := if_pos h

theorem readEvents_taken (h : countOk count = true) : s.readEvents p count =
    (s.eventsRead p (min count.toNat (s.lag p)),
      done (eventsBody (decide ((s.readers[p]).lost ≠ 0)) (some (s.readers[p]).lost)
        (s.lag p - min count.toNat (s.lag p))
        ((s.ring.drop (s.ring.length - s.lag p)).take (min count.toNat (s.lag p))))) := by
  rw [readEvents, h]
  rfl

theorem readEventsStart_refused (h : countOk count = false) :
    s.readEventsStart count start = (s, refuse .badArgument) := if_pos h

/-- The start lies in the ring or at the next number (R158). -/
theorem readEventsStart_inside (h : countOk count = true) (inside : (s.nextSeq - start).toNat ≤ s.ring.length) :
    s.readEventsStart count start = (s, done (eventsBody false none
      ((s.nextSeq - start).toNat -
        ((s.ring.drop (s.ring.length - (s.nextSeq - start).toNat)).take count.toNat).length)
      ((s.ring.drop (s.ring.length - (s.nextSeq - start).toNat)).take count.toNat))) := by
  rw [readEventsStart, h]
  exact if_pos inside

/-- Any other start: the records from the oldest on (R158). -/
theorem readEventsStart_outside (h : countOk count = true) (outside : s.ring.length < (s.nextSeq - start).toNat) :
    s.readEventsStart count start = (s, done (eventsBody true none
      (s.ring.length - (s.ring.take count.toNat).length) (s.ring.take count.toNat))) := by
  rw [readEventsStart, h]
  exact if_neg outside.not_ge

end State

/-- Settles O37: the count is refused, or the block answers from the cursor. -/
theorem eventsAreReadFromTheCursor : Obligations.EventsAreReadFromTheCursor := by
  intro p count s takes
  rw [exec_readEvents]
  exact ⟨fun low high => State.request_served takes (s.readEvents_taken ((countOk_iff count).2 ⟨low, high⟩)),
    fun bad => State.request_answered takes (s.readEvents_refused (countOk_eq_false bad))⟩

/-- Settles O38: the count is refused, or the start lies in the ring, or outside it. -/
theorem eventsAreReadFromAStart : Obligations.EventsAreReadFromAStart := by
  intro p count start s takes
  rw [exec_readEventsStart]
  exact ⟨fun low high inside => State.request_answered takes
      (s.readEventsStart_inside ((countOk_iff count).2 ⟨low, high⟩) inside),
    fun low high outside => State.request_answered takes
      (s.readEventsStart_outside ((countOk_iff count).2 ⟨low, high⟩) outside),
    fun bad => State.request_answered takes (s.readEventsStart_refused (countOk_eq_false bad))⟩

/-! ## The event record law (R153, R156, R159) -/

theorem State.eventsRead_reader (s : State) (p : PartyId) (n : Nat) (q : PartyId) :
    (s.eventsRead p n).readers[q] = if p = q then
      Reader.mk ((s.readers[p]).cursor + BitVec.ofNat 32 n) 0 (decide (s.lag p - n ≠ 0)) else s.readers[q] := by
  simp only [State.eventsRead, Fin.getElem_fin, Vector.getElem_set, Fin.ext_iff]

/-- A party that reads `n` of its unread records has that many fewer left (R157). -/
theorem State.lag_eventsRead {s : State} {p : PartyId} {n : Nat} (h : n ≤ s.lag p) :
    (s.eventsRead p n).lag p = s.lag p - n := by
  unfold State.lag at *
  rw [State.eventsRead_reader, if_pos rfl]
  show (s.nextSeq - (_ + _)).toNat = _
  bv_omega

theorem State.lag_eventsRead_other {s : State} {p q : PartyId} {n : Nat} (h : p ≠ q) :
    (s.eventsRead p n).lag q = s.lag q := by
  unfold State.lag
  rw [State.eventsRead_reader, if_neg h]
  rfl

namespace State.RecordLaw

variable {s t : State}

/-- Where the ring and the next number stand, the law is about each reader. -/
theorem of_readers (hs : s.RecordLaw) (ring : t.ring = s.ring) (nextSeq : t.nextSeq = s.nextSeq)
    (reader : ∀ p : PartyId,
      t.lag p ≤ s.lag p ∧ (t.inReset = false → (t.readers[p]).attn = decide (0 < t.lag p))) : t.RecordLaw := by
  obtain ⟨size, seqs, behind, -⟩ := hs
  refine ⟨ring ▸ size, fun i hi => ?_, fun p => ring ▸ (reader p).1.trans (behind p),
    fun awake p => (reader p).2 awake⟩
  simp only [State.oldestSeq, ring, nextSeq]
  exact seqs i (ring ▸ hi)

theorem modScheme (hs : s.RecordLaw) {k : SchemeId} {f : Scheme → Scheme} : (s.modScheme k f).RecordLaw :=
  RecordLaw_same s _ hs rfl rfl rfl rfl

theorem voidPass (hs : s.RecordLaw) {k : SchemeId} : (s.voidPass k).RecordLaw :=
  RecordLaw_same s _ hs rfl rfl rfl rfl

/-- A party reads its records (R157, R159). -/
theorem eventsRead (hs : s.RecordLaw) {p : PartyId} {n : Nat} (h : n ≤ s.lag p) : (s.eventsRead p n).RecordLaw := by
  obtain ⟨-, -, -, attn⟩ := id hs
  refine hs.of_readers rfl rfl fun q => ?_
  by_cases e : p = q
  · subst e
    rw [State.lag_eventsRead h, State.eventsRead_reader, if_pos rfl]
    exact ⟨Nat.sub_le _ n, fun _ => decide_eq_decide.2 Nat.pos_iff_ne_zero.symm⟩
  · rw [State.lag_eventsRead_other e, State.eventsRead_reader, if_neg e]
    exact ⟨le_rfl, fun awake => attn awake q⟩

/-- RESET# deasserts every ATTN line, and the cursors stand (R174). -/
theorem assertReset (hs : s.RecordLaw) : s.assertReset.RecordLaw := by
  refine hs.of_readers rfl rfl fun p => ⟨Nat.le_of_eq ?_, nofun⟩
  have reader : s.assertReset.readers[p] = { s.readers[p] with attn := false } := getElem_mapV ..
  unfold State.lag
  rw [reader]
  rfl

/-- When cold reset ends the ring is empty and every party has read all of it (R174). -/
theorem cold (bench : Bool) (store : Memory) (parties : Vector PartyLink 4) (commands : List Instr) (n : Nat) :
    (State.cold bench store parties commands n).RecordLaw := by
  have lag (p : PartyId) : (State.cold bench store parties commands n).lag p = 0 := by
    rw [State.lag, State.cold_readers]
    exact congrArg BitVec.toNat (BitVec.sub_self (0 : Seq))
  refine ⟨Nat.zero_le _, nofun, fun p => (lag p).le, fun _ p => ?_⟩
  rw [lag, State.cold_readers]
  rfl

end State.RecordLaw

/-- Every change inside an event keeps the record law: an append and a read do, and nothing else touches the record. -/
theorem Work.keeps_recordLaw {s t : State} (h : Work s t) (hs : s.RecordLaw) : t.RecordLaw := by
  cases h with
  | append kind sch pt pa de => exact RecordLaw_append s kind sch pt pa de hs
  | arm k g => exact (RecordLaw_append _ .schemeArmed (some k) none none _ hs.modScheme).modScheme
  | lockout k => exact RecordLaw_dropLatch _ k hs.modScheme.voidPass
  | disable k d pa de =>
    exact RecordLaw_dropLatch _ k (RecordLaw_append _ .schemeDisabled (some k) none pa de hs.modScheme.voidPass)
  | withdraw k p d pa de =>
    exact RecordLaw_dropLatch _ k (RecordLaw_append _ .withdraw (some k) none pa de hs.modScheme.voidPass)
  | reader p n h => exact hs.eventsRead h
  | _ => exact RecordLaw_same s _ hs rfl rfl rfl rfl

/-- Every change keeps the record law: a load and a write leave the record, and the cold reset empties it. -/
theorem Change.keeps_recordLaw {s t : State} (h : Change s t) (hs : s.RecordLaw) : t.RecordLaw := by
  cases h with
  | work h => exact h.keeps_recordLaw hs
  | assertReset => exact hs.assertReset
  | cold => exact .cold ..
  | _ => exact RecordLaw_same s _ hs rfl rfl rfl rfl

/-- Settles O59: each kind of change keeps the law, and a step makes only such changes. -/
theorem everyStepKeepsTheRecordLaw : Obligations.EveryStepKeepsTheRecordLaw := fun _ _ hs h =>
  step_keeps (fun _ _ hs => hs) (fun _ _ c hs => c.keeps_recordLaw hs) h hs

end Sys2Proof.Machine
end

section
/-! SUPPORT. The select periods of a party link (R161, R163 to R165; log entries 12 and 22) and the requests as whole
periods. -/

namespace Sys2Proof.Machine

/-! ## Changed party links -/

namespace State

section

variable (s : State) (p : PartyId)

theorem modParty_eq (f : PartyLink → PartyLink) :
    s.modParty p f = { s with parties := s.parties.set p (f s.parties[p]) } := rfl

/-- Changing a party link to itself changes nothing. -/
theorem modParty_self {f : PartyLink → PartyLink} (h : f s.parties[p] = s.parties[p]) : s.modParty p f = s := by
  unfold modParty
  rw [modV_self _ _ _ h]

theorem modParty_modParty (f g : PartyLink → PartyLink) :
    (s.modParty p f).modParty p g = s.modParty p (fun q => g (f q)) := by
  unfold modParty
  rw [modV_modV]

theorem setSelect_self (x : Select) (h : (s.parties[p]).select = x) : s.setSelect p x = s :=
  s.modParty_self p (by subst h; rfl)

/-- The end of a period that is ignored leaves only the select line. -/
theorem setSelect_ignored_endPeriod : (s.setSelect p .ignored).endPeriod p = s.setSelect p .inactive :=
  s.modParty_modParty p _ _

end

end State

/-! ## The end of a period (R163, R164) -/

namespace PartyLink

variable {q : PartyLink} {r : Response} {n : Nat}

theorem endPeriod_ignored (h : q.select = .ignored) : q.endPeriod = { q with select := .inactive } := by
  simp only [endPeriod, h]

theorem endPeriod_receiving {got : List Byte} (h : q.select = .receiving got) :
    q.endPeriod = { q.form (refuse .frameError) with select := .inactive } := by
  simp only [endPeriod, h]

theorem endPeriod_reading (h : q.select = .reading n) : q.endPeriod = q.endRead n := by
  simp only [endPeriod, h]

/-- A response read to its last check byte is discarded, with READY and the overrun flag. -/
theorem endRead_whole (waits : q.exchange = .responseWaiting) (response : q.waiting = some r)
    (whole : (Wire.responseFrame q.overrun r).length ≤ n) : q.endRead n =
      { q with exchange := .idle, waiting := none, overrun := false, ready := false, select := .inactive } := by
  simp only [endRead, waits, response]
  exact if_pos whole

theorem endRead_part (response : q.waiting = some r) (part : n < (Wire.responseFrame q.overrun r).length) :
    q.endRead n = { q with select := .inactive } := by
  unfold endRead
  split
  · next r' _ response' =>
    cases response.symm.trans response'
    exact if_neg (by omega)
  · rfl

theorem endRead_no_response (free : q.exchange ≠ .responseWaiting) :
    q.endRead n = { q with select := .inactive } := by
  unfold endRead
  split
  · next waits _ => exact absurd waits free
  · rfl

/-! ## What a read period drives (R161, R164) -/

theorem driven_response (waits : q.exchange = .responseWaiting) (response : q.waiting = some r) :
    q.driven n = (Wire.responseFrame q.overrun r).take n ++
      List.replicate (n - (Wire.responseFrame q.overrun r).length) 0xFF := by
  simp only [driven, waits, response]

theorem driven_no_response (free : q.exchange ≠ .responseWaiting) : q.driven n = List.replicate n 0xFF := by
  unfold driven
  split
  · next waits _ => exact absurd waits free
  · rfl

end PartyLink

/-! ## The bytes of a period (R161, R165) -/

namespace State

variable {s : State} {p : PartyId}

theorem clockIn_nil : s.clockIn p [] = s := rfl

theorem clockIn_ignored (h : (s.parties[p]).select = .ignored) (bytes : List Byte) : s.clockIn p bytes = s := by
  cases bytes with
  | nil => rfl
  | cons => simp only [clockIn, h]

theorem clockIn_overrun (inactive : (s.parties[p]).select = .inactive)
    (waits : (s.parties[p]).exchange = .responseWaiting) (got : List Byte) :
    s.clockIn p (0xD1#8 :: got) = (s.markOverrun p).setSelect p .ignored := by
  simp only [clockIn, inactive, waits]
  exact if_pos rfl

theorem clockIn_request (inactive : (s.parties[p]).select = .inactive)
    (free : (s.parties[p]).exchange ≠ .responseWaiting) (got : List Byte) :
    s.clockIn p (0xD1#8 :: got) = s.receive p got := by
  simp only [clockIn, inactive]
  refine (if_pos rfl).trans ?_
  split
  · next waits => exact absurd waits free
  · rfl
  · rfl

theorem clockIn_receiving {before bytes : List Byte} (h : (s.parties[p]).select = .receiving before)
    (more : bytes ≠ []) : s.clockIn p bytes = s.receive p (before ++ bytes) := by
  cases bytes with
  | nil => exact absurd rfl more
  | cons => simp only [clockIn, h]

theorem clockIn_read {bytes : List Byte} (inactive : (s.parties[p]).select = .inactive)
    (read : bytes.head? ≠ some 0xD1#8) (more : bytes ≠ []) : s.clockIn p bytes = s.drive p bytes.length := by
  cases bytes with
  | nil => exact absurd rfl more
  | cons first rest =>
    simp only [clockIn, inactive]
    exact if_neg fun marker => read (congrArg some marker)

theorem clockIn_reading {before : Nat} {bytes : List Byte} (h : (s.parties[p]).select = .reading before)
    (more : bytes ≠ []) : s.clockIn p bytes = s.drive p (before + bytes.length) := by
  cases bytes with
  | nil => exact absurd rfl more
  | cons => simp only [clockIn, h]

/-! ## A request frame is received, taken and judged (R163) -/

theorem receive_incomplete {got : List Byte} (h : frameComplete got = false) :
    s.receive p got = s.modParty p (fun q => { q with exchange := .receiving, select := .receiving got }) :=
  if_neg (by rw [h]; exact Bool.false_ne_true)

theorem receive_complete {got : List Byte} (h : frameComplete got = true) :
    s.receive p got = (s.takeRequest p got).setSelect p .ignored := if_pos h

theorem takeRequest_frameError {got : List Byte} (h : judgeFrame got = .frameError) :
    s.takeRequest p got = s.respond p (refuse .frameError) := by
  simp only [takeRequest, h]

theorem takeRequest_starting {got : List Byte} {x : ParsedRequest} (h : judgeFrame got = .parsed x)
    (loading : s.storeOp = .coldLoad) : s.takeRequest p got = s.respond p (refuse .starting) := by
  simp only [takeRequest, h]
  exact if_pos (s.starting_iff.2 loading)

/-- What a party is answered whose frame passes checks 1 to 3, and the tables after it. -/
def judged (s : State) (p : PartyId) : ParsedRequest → State × Response
  | .unknown => (s, refuse .unknownRequest)
  | .malformed => (s, refuse .badArgument)
  | .request r => State.serve p r s

theorem takeRequest_loaded {got : List Byte} {x : ParsedRequest} (h : judgeFrame got = .parsed x)
    (loaded : s.storeOp ≠ .coldLoad) : s.takeRequest p got = (s.judged p x).1.respond p (s.judged p x).2 := by
  simp only [takeRequest, h]
  refine (if_neg (fun starting => loaded (s.starting_iff.1 starting))).trans ?_
  cases x <;> rfl

/-! ## The period commands -/

theorem event_inReset (h : s.inReset = true) (f : State → State) : s.event f = .next s := if_pos h

/-- While RESET# is asserted a whole period on a link whose select line is inactive changes nothing (R174). -/
theorem selectEvent_inReset (h : s.inReset = true) (inactive : (s.parties[p]).select = .inactive)
    (bytes : List Byte) : s.selectEvent p ⟨bytes, true⟩ = .next s := by
  rw [selectEvent, if_pos h]
  exact congrArg _ (s.setSelect_self p _ inactive)

theorem selectEvent_awake (awake : s.inReset = false) (x : Transfer) :
    s.selectEvent p x = (s.selectPeriod p x).ended := by
  rw [selectEvent, awake, if_neg Bool.false_ne_true, event_awake awake]

theorem overrunPeriod_waiting (inactive : (s.parties[p]).select = .inactive)
    (waits : (s.parties[p]).exchange = .responseWaiting) : s.overrunPeriod p = s.markOverrun p := by
  rw [overrunPeriod, s.endPeriod_inactive p inactive]
  exact if_pos waits

theorem overrunPeriod_free (inactive : (s.parties[p]).select = .inactive)
    (free : (s.parties[p]).exchange ≠ .responseWaiting) : s.overrunPeriod p = s := by
  rw [overrunPeriod, s.endPeriod_inactive p inactive]
  exact if_neg free

/-- A whole request period begins with the end of the one under way (log entry 22). -/
theorem overrunPeriod_endPeriod : (s.endPeriod p).overrunPeriod p = s.overrunPeriod p := by
  simp only [overrunPeriod, endPeriod_endPeriod]

end State

theorem exec_requestRejected (p : PartyId) (x : Transfer) (s : State) :
    exec (.requestRejected p x) s = s.selectEvent p x := rfl

theorem exec_responseRead (p : PartyId) (x : Transfer) (s : State) :
    exec (.responseRead p x) s = s.selectEvent p x := rfl

theorem exec_overrun (p : PartyId) (s : State) :
    exec (.overrun p) s = s.event (fun s => s.overrunPeriod p) := rfl

/-- Settles O52: the commands, then the bytes by what the select line is doing, then the frame's judgement and the end
of the period. -/
theorem partyPeriodsAreTaken : Obligations.PartyPeriodsAreTaken := by
  intro p s
  refine ⟨fun awake bytes ends => ?commands, fun awake inactive => ?overrun, fun awake _ => ?overrunUnderWay,
    fun bytes got inactive request waits => ?overrunBytes, fun bytes got begun => ?request, fun bytes n begun => ?read,
    fun bytes idle => ?ignored, fun got => ⟨State.takeRequest_frameError, fun x passed => ?judge⟩, fun r => rfl,
    s.endPeriod_inactive p, fun ignored => ?endIgnored, fun got receiving => ?endReceiving,
    fun n reading => ?endReading⟩
  case commands =>
    rw [exec_requestRejected, exec_responseRead, State.selectEvent_awake awake]
    exact ⟨rfl, rfl⟩
  case overrun =>
    rw [exec_overrun, State.event_awake awake]
    exact ⟨fun waits => by rw [State.overrunPeriod_waiting inactive waits]; rfl,
      fun free => by rw [State.overrunPeriod_free inactive free]⟩
  case overrunUnderWay =>
    rw [exec_overrun, exec_overrun, State.event_awake awake, State.event_awake (s := s.endPeriod p) awake,
      State.overrunPeriod_endPeriod]
  case overrunBytes =>
    subst request
    rw [State.clockIn_overrun inactive waits]
    exact s.modParty_modParty p _ _
  case request =>
    have received : s.clockIn p bytes = s.receive p got := by
      rcases begun with ⟨inactive, free, rfl⟩ | ⟨before, receiving, more, rfl⟩
      · exact State.clockIn_request inactive free got
      · exact State.clockIn_receiving receiving more
    rw [received]
    exact ⟨State.receive_incomplete, State.receive_complete⟩
  case read =>
    have driven : s.clockIn p bytes = s.drive p n := by
      rcases begun with ⟨inactive, read, more, rfl⟩ | ⟨before, reading, more, rfl⟩
      · exact State.clockIn_read inactive read more
      · exact State.clockIn_reading reading more
    rw [driven, State.drive, State.modParty_eq]
    exact ⟨fun r waits response => by rw [PartyLink.driven_response waits response],
      fun free => by rw [PartyLink.driven_no_response free]⟩
  case ignored =>
    rcases idle with ignored | rfl
    · exact State.clockIn_ignored ignored bytes
    · rfl
  case judge =>
    refine ⟨State.takeRequest_starting passed, fun loaded => ?_⟩
    rw [State.takeRequest_loaded passed loaded]
    exact ⟨fun h => by rw [h]; rfl, fun h => by rw [h]; rfl, fun r h => by rw [h]; rfl⟩
  all_goals rw [State.endPeriod, State.modParty_eq]
  case endIgnored => rw [PartyLink.endPeriod_ignored ignored]
  case endReceiving => rw [PartyLink.endPeriod_receiving receiving]; rfl
  case endReading =>
    rw [PartyLink.endPeriod_reading reading]
    exact ⟨fun r waits response whole => by rw [PartyLink.endRead_whole waits response whole],
      fun r response part => by rw [PartyLink.endRead_part response part],
      fun free => by rw [PartyLink.endRead_no_response free]⟩

/-! ## A request as a whole period (R161, R163, R165) -/

namespace State

section

variable {s : State} {p : PartyId} (handler : State → State × Response)

theorem request_overrun (inactive : (s.parties[p]).select = .inactive)
    (waits : (s.parties[p]).exchange = .responseWaiting) : s.request p handler = s.markOverrun p := by
  rw [request, s.endPeriod_inactive p inactive]
  simp only [waits]

/-- Where no response waits a request is judged by check 3 of R163 and then reaches its block. -/
theorem request_free (inactive : (s.parties[p]).select = .inactive)
    (free : (s.parties[p]).exchange ≠ .responseWaiting) : s.request p handler =
      if s.starting then s.respond p (refuse .starting) else (handler s).1.respond p (handler s).2 := by
  rw [request, s.endPeriod_inactive p inactive]
  split
  · next waits => exact absurd waits free
  · rfl
  · rfl

theorem request_endPeriod : (s.endPeriod p).request p handler = s.request p handler := by
  simp only [request, endPeriod_endPeriod]

end

end State

/-- Each of the 27 request commands is its request, handed to the block that owns it. -/
theorem exec_of_requestOf {c : Instr} {p : PartyId} {r : Request} (h : requestOf c = some (p, r)) (s : State) :
    exec c s = s.event (fun s => s.request p (State.serve p r)) := by
  cases c <;> cases h <;> rfl

/-- Settles O50: the request commands are one operation, taken apart by what its link and the store are doing. -/
theorem requestsReachTheirBlock : Obligations.RequestsReachTheirBlock := by
  refine ⟨fun c p r s request awake => ?_, fun t p status body => ⟨_, rfl, (State.settle_kept _).parties⟩⟩
  simp only [exec_of_requestOf request]
  refine ⟨fun inactive waits => ?overrun, fun inactive free loading => ?starting, fun takes => ?taken,
    fun _ => ⟨?underWay, by simp⟩⟩
  case taken => exact State.request_served takes rfl
  all_goals rw [State.event_awake awake]
  case overrun => rw [State.request_overrun _ inactive waits]; rfl
  case starting => rw [State.request_free _ inactive free, if_pos (s.starting_iff.2 loading)]; rfl
  case underWay => rw [State.event_awake (s := s.endPeriod p) awake, State.request_endPeriod]

end Sys2Proof.Machine
end

section
/-! SUPPORT. The blocks that serve the requests (R166) touch no party link: forming the response is the link's own. -/

namespace Sys2Proof.Machine.State

variable (s : State)

theorem completeBlock_parties (p : PointId) : (s.completeBlock p).parties = s.parties :=
  (completeBlock_onlyPoints s p).1.parties

theorem completeBlocks_parties (ps : List PointId) (t : State) :
    (ps.foldl (fun s p => s.completeBlock p) t).parties = t.parties := by
  induction ps generalizing t with
  | nil => rfl
  | cons p ps ih => rw [List.foldl_cons, ih, completeBlock_parties]

@[simp] theorem releaseRecord_parties (old : Option ArmingRecord) : (s.releaseRecord old).parties = s.parties :=
  completeBlocks_parties _ _

section

variable (p : PartyId) (b : Byte)

theorem enable_parties : (s.enable p b).1.parties = s.parties := by
  unfold enable
  repeat' split
  all_goals rfl

theorem disable_parties : (s.disable p b).1.parties = s.parties := by
  unfold disable
  repeat' split
  all_goals simp

theorem consent_parties (g : Gen) : (s.consent p b g).1.parties = s.parties := by
  unfold consent
  dsimp only
  repeat' split
  all_goals rfl

theorem withdraw_parties : (s.withdraw p b).1.parties = s.parties := by
  unfold withdraw
  repeat' split
  all_goals simp

theorem resetLockout_parties : (s.resetLockout p b).1.parties = s.parties := by
  unfold resetLockout
  repeat' split
  all_goals rfl

theorem writeSection_parties (sec : Section) (c : List Byte) : (s.writeSection sec p b c).1.parties = s.parties := by
  unfold writeSection
  repeat' split
  all_goals rfl

theorem protect_parties (target : Byte) : (s.protect p b target).1.parties = s.parties := by
  unfold protect
  repeat' split
  all_goals rfl

theorem blockImmediate_parties : (s.blockImmediate p b).1.parties = s.parties := by
  unfold blockImmediate
  repeat' split
  all_goals rfl

theorem blockDeferred_parties : (s.blockDeferred p b).1.parties = s.parties := by
  unfold blockDeferred
  dsimp only
  repeat' split
  all_goals rfl

theorem unblockPoint_parties : (s.unblockPoint p b).1.parties = s.parties := by
  unfold unblockPoint
  dsimp only
  repeat' split
  all_goals rfl

theorem restorePoint_parties : (s.restorePoint p b).1.parties = s.parties := by
  unfold restorePoint
  repeat' split
  all_goals rfl

theorem writePoint_parties (body : PointBody) : (s.writePoint p body).1.parties = s.parties := by
  unfold writePoint
  dsimp only
  repeat' split
  all_goals rfl

theorem readEvents_parties : (s.readEvents p b).1.parties = s.parties := by
  unfold readEvents
  split <;> rfl

theorem startLoad_parties : (s.startLoad p).1.parties = s.parties := by
  unfold startLoad
  repeat' split
  all_goals rfl

theorem startSave_parties : (s.startSave p).1.parties = s.parties := by
  unfold startSave
  split <;> rfl

end

theorem serve_parties (p : PartyId) (r : Request) : (State.serve p r s).1.parties = s.parties := by
  cases r with
  | queryStatus => rfl
  | readScheme k => exact congrArg parties (s.readScheme_fst k)
  | readPoint x => exact congrArg parties (s.readPoint_fst x)
  | readMeasurements a b => exact congrArg parties (s.readMeasurements_fst a b)
  | readDetections a b => exact congrArg parties (s.readDetections_fst a b)
  | readArming k => exact congrArg parties (s.readArming_fst k)
  | readTrigger k => exact congrArg parties (s.readTrigger_fst k)
  | readEvents n => exact s.readEvents_parties p n
  | readEventsStart n q => exact congrArg parties (s.readEventsStart_fst n q)
  | writeSection sec k c => exact s.writeSection_parties p k sec c
  | writePoint b => exact s.writePoint_parties p b
  | enable k => exact s.enable_parties p k
  | disable k => exact s.disable_parties p k
  | consent k g => exact s.consent_parties p k g
  | withdraw k => exact s.withdraw_parties p k
  | resetLockout k => exact s.resetLockout_parties p k
  | protect k t => exact s.protect_parties p k t
  | blockImmediate x => exact s.blockImmediate_parties p x
  | blockDeferred x => exact s.blockDeferred_parties p x
  | unblockPoint x => exact s.unblockPoint_parties p x
  | restorePoint x => exact s.restorePoint_parties p x
  | storeLoad => exact s.startLoad_parties p
  | storeSave => exact s.startSave_parties p

end Sys2Proof.Machine.State
end

section
/-! SUPPORT. The request frames (R162, R163, R166, manual 10.4; log entry 14): where a frame ends, which bodies are
requests, and a request given by its bytes (log entry 12). -/

namespace Sys2Proof.Machine

open Wire

/-! ## Where a frame ends (R163) -/

/-- Bytes with `n` bytes of a body and two check bytes at their front. -/
theorem body_and_check_iff (n : Nat) (bytes : List Byte) : n + 2 ≤ bytes.length ↔
    ∃ (body : List Byte) (c1 c2 : Byte) (rest : List Byte), body.length = n ∧ bytes = body ++ c1 :: c2 :: rest := by
  constructor
  · intro long
    have split := List.take_append_drop n bytes
    match behind : bytes.drop n with
    | c1 :: c2 :: rest =>
      exact ⟨bytes.take n, c1, c2, rest, List.length_take_of_le (by omega), by rw [← behind, split]⟩
    | [] | [_] =>
      have := congrArg List.length behind
      simp at this
      omega
  · rintro ⟨body, c1, c2, rest, rfl, rfl⟩
    simp

theorem frameComplete_iff (bytes : List Byte) : frameComplete bytes = true ↔
    ∃ (kind len : Byte) (body : List Byte) (c1 c2 : Byte) (rest : List Byte),
      len.toNat ≤ 250 ∧ body.length = len.toNat ∧ bytes = kind :: len :: (body ++ c1 :: c2 :: rest) := by
  constructor
  · intro complete
    match bytes, complete with
    | kind :: len :: behind, complete =>
      simp only [frameComplete, Bool.and_eq_true, decide_eq_true_eq, body_and_check_iff] at complete
      obtain ⟨short, body, c1, c2, rest, length, rfl⟩ := complete
      exact ⟨kind, len, body, c1, c2, rest, short, length, rfl⟩
  · rintro ⟨kind, len, body, c1, c2, rest, short, length, rfl⟩
    simp only [frameComplete, Bool.and_eq_true, decide_eq_true_eq, body_and_check_iff]
    exact ⟨short, body, c1, c2, rest, length, rfl⟩

theorem judgeFrame_incomplete {bytes : List Byte} (h : frameComplete bytes = false) :
    judgeFrame bytes = .frameError := by
  match bytes, h with
  | [], _ | [_], _ => rfl
  | kind :: len :: behind, h =>
    simp only [frameComplete, Bool.and_eq_false_iff, decide_eq_false_iff_not] at h
    exact if_pos (by omega)

/-- A complete frame passes check 2 exactly where its link check is right, and then it is read. -/
theorem judgeFrame_complete (kind : Byte) {len : Byte} {body : List Byte} (c1 c2 : Byte) (rest : List Byte)
    (short : len.toNat ≤ 250) (length : body.length = len.toNat) :
    judgeFrame (kind :: len :: (body ++ c1 :: c2 :: rest)) =
      if [c1, c2] ≠ be16 (crc (kind :: len :: body)) then .frameError else .parsed (parseRequest kind body) := by
  have long : ¬ (250 < body.length ∨ (body ++ c1 :: c2 :: rest).length < body.length + 2) := by simp; omega
  simp only [judgeFrame, ← length, if_neg long, List.take_left, List.drop_left, List.take_succ_cons, List.take_zero]

theorem judgeFrame_eq_parsed_iff (bytes : List Byte) (x : ParsedRequest) : judgeFrame bytes = .parsed x ↔
    ∃ (kind len : Byte) (body rest : List Byte), len.toNat ≤ 250 ∧ body.length = len.toNat ∧
      bytes = kind :: len :: (body ++ be16 (crc (kind :: len :: body)) ++ rest) ∧ x = parseRequest kind body := by
  constructor
  · intro parsed
    cases complete : frameComplete bytes with
    | false => cases (judgeFrame_incomplete complete).symm.trans parsed
    | true =>
      obtain ⟨kind, len, body, c1, c2, rest, short, length, rfl⟩ := (frameComplete_iff bytes).1 complete
      rw [judgeFrame_complete kind c1 c2 rest short length] at parsed
      split at parsed
      · cases parsed
      · next check =>
        cases parsed
        exact ⟨kind, len, body, rest, short, length, by rw [← not_not.1 check, List.append_assoc]; rfl, rfl⟩
  · rintro ⟨kind, len, body, rest, short, length, rfl, rfl⟩
    rw [List.append_assoc]
    exact (judgeFrame_complete kind _ _ rest short length).trans (if_neg (not_not.2 rfl))

/-! ## The kinds and their layouts (R166) -/

/-- The kind codes of R166. -/
def requestKinds : List Byte :=
  [0x01, 0x02, 0x03, 0x04, 0x05, 0x06, 0x07, 0x08, 0x10, 0x11, 0x20, 0x21, 0x22, 0x23, 0x24, 0x25, 0x30, 0x31, 0x32,
    0x40, 0x41]

theorem parseRequest_unlisted {kind : Byte} (body : List Byte) (h : kind ∉ requestKinds) :
    parseRequest kind body = .unknown := by
  simp only [requestKinds, List.mem_cons, List.not_mem_nil, or_false, not_or] at h
  simp only [parseRequest, h, if_false]

/-- The kind is known, and a body that is read as a request is that request's layout. -/
def LaidOut (kind : Byte) (body : List Byte) (x : ParsedRequest) : Prop :=
  x ≠ .unknown ∧ ∀ r, x = .request r → requestParts r = (kind, body)

namespace LaidOut

variable {kind : Byte} {body : List Byte}

theorem malformed : LaidOut kind body .malformed := ⟨nofun, nofun⟩

theorem request {r : Request} (h : requestParts r = (kind, body)) : LaidOut kind body (.request r) :=
  ⟨nofun, fun _ e => by cases e; exact h⟩

theorem noBytes {r : Request} (h : requestParts r = (kind, [])) : LaidOut kind body (noBytes body r) := by
  unfold Machine.noBytes
  split
  · exact request h
  · exact malformed

theorem oneByte {f : Byte → Request} (h : ∀ x, requestParts (f x) = (kind, [x])) :
    LaidOut kind body (oneByte body f) := by
  unfold Machine.oneByte
  split
  · exact request (h _)
  · exact malformed

theorem twoBytes {f : Byte → Byte → Request} (h : ∀ x y, requestParts (f x y) = (kind, [x, y])) :
    LaidOut kind body (twoBytes body f) := by
  unfold Machine.twoBytes
  split
  · exact request (h _ _)
  · exact malformed

theorem readEvents (body : List Byte) : LaidOut 0x08 body (parseRequest 0x08 body) := by
  simp only [parseRequest, BitVec.reduceEq, if_false, if_true]
  split
  · exact request rfl
  · next n a b c d => exact request (congrArg (fun start => (0x08, n :: start)) (be32_split a b c d))
  · exact malformed

theorem writeSection (body : List Byte) : LaidOut 0x10 body (parseRequest 0x10 body) := by
  simp only [parseRequest, BitVec.reduceEq, if_false, if_true]
  split
  · split
    · next named => exact request (by rw [requestParts, sectionCode_of named])
    · exact malformed
  · exact malformed

theorem writePoint (body : List Byte) : LaidOut 0x11 body (parseRequest 0x11 body) := by
  simp only [parseRequest, BitVec.reduceEq, if_false, if_true]
  split
  · exact request rfl
  · exact malformed

theorem consent (body : List Byte) : LaidOut 0x22 body (parseRequest 0x22 body) := by
  simp only [parseRequest, BitVec.reduceEq, if_false, if_true]
  split
  · next k a b c => exact request (congrArg (fun g => (0x22, k :: g)) (be24_split a b c))
  · exact malformed

theorem block (body : List Byte) : LaidOut 0x30 body (parseRequest 0x30 body) := by
  simp only [parseRequest, BitVec.reduceEq, if_false, if_true]
  split
  · split
    · next immediate => exact request (by rw [immediate]; rfl)
    · split
      · next deferred => exact request (by rw [deferred]; rfl)
      · exact malformed
  · exact malformed

end LaidOut

/-- Every body of a listed kind, kind by kind. -/
theorem parseRequest_laidOut {kind : Byte} (body : List Byte) (h : kind ∈ requestKinds) :
    LaidOut kind body (parseRequest kind body) := by
  simp only [requestKinds, List.mem_cons, List.not_mem_nil, or_false] at h
  rcases h with rfl | rfl | rfl | rfl | rfl | rfl | rfl | rfl | rfl | rfl | rfl | rfl | rfl | rfl | rfl | rfl | rfl |
    rfl | rfl | rfl | rfl
  · exact .noBytes (r := .queryStatus) rfl
  · exact .oneByte (f := .readScheme) fun _ => rfl
  · exact .oneByte (f := .readPoint) fun _ => rfl
  · exact .twoBytes (f := .readMeasurements) fun _ _ => rfl
  · exact .twoBytes (f := .readDetections) fun _ _ => rfl
  · exact .oneByte (f := .readArming) fun _ => rfl
  · exact .oneByte (f := .readTrigger) fun _ => rfl
  · exact .readEvents body
  · exact .writeSection body
  · exact .writePoint body
  · exact .oneByte (f := .enable) fun _ => rfl
  · exact .oneByte (f := .disable) fun _ => rfl
  · exact .consent body
  · exact .oneByte (f := .withdraw) fun _ => rfl
  · exact .oneByte (f := .resetLockout) fun _ => rfl
  · exact .twoBytes (f := .protect) fun _ _ => rfl
  · exact .block body
  · exact .oneByte (f := .unblockPoint) fun _ => rfl
  · exact .oneByte (f := .restorePoint) fun _ => rfl
  · exact .noBytes (r := .storeLoad) rfl
  · exact .noBytes (r := .storeSave) rfl

theorem parseRequest_eq_unknown_iff (kind : Byte) (body : List Byte) :
    parseRequest kind body = .unknown ↔ kind ∉ requestKinds :=
  ⟨fun unknown listed => (parseRequest_laidOut body listed).1 unknown, parseRequest_unlisted body⟩

theorem parseRequest_eq_request_iff (kind : Byte) (body : List Byte) (r : Request) :
    parseRequest kind body = .request r ↔ requestParts r = (kind, body) := by
  constructor
  · intro read
    have listed : kind ∈ requestKinds := by
      by_contra unlisted
      cases (parseRequest_unlisted body unlisted).symm.trans read
    exact (parseRequest_laidOut body listed).2 r read
  · intro parts
    have read := parseRequest_requestParts r
    rwa [parts] at read

/-! ## The frame of a request -/

/-- The frame of a request that fits is read back, and is complete at its last check byte. -/
theorem requestBytes_readBack {r : Request} (fits : requestFits r = true) :
    judgeFrame (requestBytes r) = .parsed (.request r) ∧ frameComplete (requestBytes r) = true := by
  have short : (requestParts r).2.length ≤ 250 := decide_eq_true_iff.1 fits
  have len : (u8 (requestParts r).2.length).toNat = (requestParts r).2.length := toNat_byte (by omega)
  have read : judgeFrame (requestBytes r) = .parsed (.request r) :=
    (judgeFrame_eq_parsed_iff _ _).2 ⟨(requestParts r).1, u8 (requestParts r).2.length, (requestParts r).2, [],
      len.symm ▸ short, len.symm, by rw [List.append_nil]; rfl, (parseRequest_requestParts r).symm⟩
  refine ⟨read, ?_⟩
  by_contra incomplete
  cases (judgeFrame_incomplete (Bool.eq_false_iff.2 incomplete)).symm.trans read

/-! ## A request given by its bytes (log entry 12) -/

namespace State

variable {s : State} {p : PartyId}

theorem respond_select (r : Response) : ((s.respond p r).parties[p]).select = (s.parties[p]).select := by simp

/-- The end of a period whose frame has been taken. -/
theorem taken_endPeriod {t : State} (inactive : (t.parties[p]).select = .inactive) :
    (t.setSelect p .ignored).endPeriod p = t := by
  rw [setSelect_ignored_endPeriod, setSelect_self _ _ _ inactive]

/-- A whole period whose bytes are the frame of a request is that request's period. -/
theorem selectPeriod_request {bytes : List Byte} {r : Request} (inactive : (s.parties[p]).select = .inactive)
    (complete : frameComplete bytes = true) (read : judgeFrame bytes = .parsed (.request r)) :
    s.selectPeriod p ⟨0xD1#8 :: bytes, true⟩ = s.request p (State.serve p r) := by
  show (s.clockIn p (0xD1#8 :: bytes)).endPeriod p = _
  by_cases waits : (s.parties[p]).exchange = .responseWaiting
  · rw [clockIn_overrun inactive waits, request_overrun _ inactive waits]
    exact taken_endPeriod (by simpa using inactive)
  · rw [clockIn_request inactive waits, receive_complete complete, request_free _ inactive waits]
    split
    · next starting =>
      rw [takeRequest_starting read (s.starting_iff.1 starting)]
      exact taken_endPeriod (by rw [respond_select, inactive])
    · next loaded =>
      rw [takeRequest_loaded read (fun loading => loaded (s.starting_iff.2 loading))]
      exact taken_endPeriod (by rw [respond_select, judged, serve_parties, inactive])

end State

/-- Settles O51: the frame of a request is read back and its bytes are its period; where a frame ends; which bodies are
requests. -/
theorem requestFramesReadBack : Obligations.RequestFramesReadBack := by
  refine ⟨fun c p r s request fits => ?_, fun bytes => ⟨frameComplete_iff bytes, judgeFrame_eq_parsed_iff bytes⟩,
    fun kind body => ⟨parseRequest_eq_unknown_iff kind body, parseRequest_eq_request_iff kind body⟩⟩
  obtain ⟨read, complete⟩ := requestBytes_readBack fits
  refine ⟨read, complete, fun inactive => ?_⟩
  rw [exec_requestRejected, exec_of_requestOf request]
  cases awake : s.inReset with
  | true => rw [State.selectEvent_inReset awake inactive, State.event_inReset awake]
  | false =>
    rw [State.selectEvent_awake awake, State.event_awake awake, State.selectPeriod_request inactive complete read]

end Sys2Proof.Machine
end

section
/-! SUPPORT. The store operations, the cold reset that cuts them off, and the store law (R172, R174 to R176). -/

namespace Sys2Proof.Machine

/-! ## RESET# asserted (R174) -/

namespace State

variable (s : State)

theorem assertReset_links (l : LinkId) :
    s.assertReset.links[l] = { s.links[l] with orders := [], transmitting := none, receiving := [] } :=
  getElem_mapV ..

theorem assertReset_readers (p : PartyId) : s.assertReset.readers[p] = { s.readers[p] with attn := false } :=
  getElem_mapV ..

theorem assertReset_parties (p : PartyId) : s.assertReset.parties[p] = { s.parties[p] with ready := false } :=
  getElem_mapV ..

variable {s}

/-- A save that a cold reset cuts off has written some of its words, and not the last one (R176, log entry 6). -/
theorem assertReset_store_of_save {p : PartyId} {ws : List (Nat × Word16)} {n : Nat} (h : s.storeOp = .save p ws n) :
    s.assertReset.store = Memory.writeAll s.store (ws.take (Config.saveProgress s.openCount % ws.length)) := by
  simp only [assertReset, h]

/-- Without a save in flight the external store keeps its words. -/
theorem assertReset_store_of_not_save (h : ∀ p ws n, s.storeOp ≠ .save p ws n) : s.assertReset.store = s.store := by
  unfold assertReset
  cases op : s.storeOp with
  | save p ws n => exact absurd op (h p ws n)
  | idle => rfl
  | coldLoad => rfl
  | load => rfl
  | staging => rfl

end State

theorem exec_resetAsserted {s : State} (awake : s.inReset = false) : exec .resetAsserted s = .next s.assertReset :=
  if_neg (by rw [awake]; exact Bool.false_ne_true)

/-! ## The store law (log entry 2) -/

theorem State.StoreLaw.of_store {s t : State} (hs : s.StoreLaw) (h : t.store = s.store) : t.StoreLaw :=
  (congrArg Memory.wf h).trans hs

/-- The words of a cut-off save leave the store canonical, like any others. -/
theorem State.StoreLaw.assertReset {s : State} (hs : s.StoreLaw) : s.assertReset.StoreLaw := by
  by_cases saving : ∃ p ws n, s.storeOp = .save p ws n
  · obtain ⟨p, ws, n, op⟩ := saving
    exact (congrArg Memory.wf (State.assertReset_store_of_save op)).trans (Memory.wf_writeAll _ hs)
  · exact hs.of_store (State.assertReset_store_of_not_save fun p ws n op => saving ⟨p, ws, n, op⟩)

/-- Inside an event the store is changed by canonical writes alone. -/
theorem Work.keeps_storeLaw {s t : State} (h : Work s t) (hs : s.StoreLaw) : t.StoreLaw := by
  cases h with
  | store m canonical => exact canonical hs
  | tables => exact hs
  | _ => exact hs.of_store (by simp)

/-- A load leaves the store canonical, rewritten from outside or not (log entry 8), and so does a cut-off save. -/
theorem Change.keeps_storeLaw {s t : State} (h : Change s t) (hs : s.StoreLaw) : t.StoreLaw := by
  cases h with
  | work h => exact h.keeps_storeLaw hs
  | load m image _ canonical => exact canonical hs
  | assertReset => exact hs.assertReset
  | _ => exact hs

/-- Settles O60: each kind of change keeps the law, and a step makes only such changes. -/
theorem everyStepKeepsTheStoreLaw : Obligations.EveryStepKeepsTheStoreLaw := fun _ _ hs h =>
  step_keeps (fun _ _ hs => hs) (fun _ _ c hs => c.keeps_storeLaw hs) h hs

/-! ## While RESET# is asserted (R174) -/

/-- Beside the beginning and the end of a cold reset and the select periods, every command is one event. -/
theorem exec_eq_event {c : Instr} (noAssertion : c ≠ .resetAsserted) (noEnd : ∀ b, c ≠ .coldResetEnd b)
    (noPeriod : ∀ p x, c ≠ .requestRejected p x ∧ c ≠ .responseRead p x) :
    ∃ f : State → State, ∀ s, exec c s = s.event f := by
  cases c with
  | resetAsserted => exact absurd rfl noAssertion
  | coldResetEnd bench => exact absurd rfl (noEnd bench)
  | requestRejected p x => exact absurd rfl (noPeriod p x).1
  | responseRead p x => exact absurd rfl (noPeriod p x).2
  | _ => exact ⟨_, fun _ => rfl⟩

/-- A second assertion and every event leave the part in reset as it is. -/
theorem exec_inReset {c : Instr} {s : State} (reset : s.inReset = true) (noEnd : ∀ b, c ≠ .coldResetEnd b)
    (noPeriod : ∀ p x, c ≠ .requestRejected p x ∧ c ≠ .responseRead p x) : exec c s = .next s := by
  by_cases assertion : c = .resetAsserted
  · subst assertion
    exact if_pos reset
  · obtain ⟨f, event⟩ := exec_eq_event assertion noEnd noPeriod
    rw [event, State.event_inReset reset]

/-- Where the select line stands after a period, or a part of one, in reset (R161, log entry 23). -/
theorem Select.inReset_eq (q : Select) (bytes : List Byte) (ends : Bool) : q.inReset ⟨bytes, ends⟩ =
    if ends = true then .inactive else if q = .inactive ∧ bytes ≠ [] then .ignored else q := by
  cases ends with
  | true => rfl
  | false => cases q <;> cases bytes <;> rfl

/-- A period in reset moves the select line of its link alone. -/
theorem State.selectEvent_in_reset {s : State} (reset : s.inReset = true) (p : PartyId) (bytes : List Byte)
    (ends : Bool) : s.selectEvent p ⟨bytes, ends⟩ = .next (s.setSelect p
      (if ends = true then .inactive
       else if (s.parties[p]).select = .inactive ∧ bytes ≠ [] then .ignored else (s.parties[p]).select)) := by
  rw [State.selectEvent, if_pos reset, Select.inReset_eq]

/-- Settles O3: the assertion field by field; in reset the events by `exec_inReset`, the periods by the select line. -/
theorem resetAssertedEndsOperations : Obligations.ResetAssertedEndsOperations := by
  refine ⟨fun s awake => ⟨s.assertReset, exec_resetAsserted awake, rfl, rfl, rfl, rfl,
      fun p => ⟨s.assertReset_parties p, s.assertReset_readers p⟩, s.assertReset_links,
      State.assertReset_store_of_not_save, rfl, rfl, rfl, rfl, rfl, rfl, rfl, rfl, rfl, rfl, rfl, rfl⟩,
    fun c s => exec_inReset, fun p bytes ends s reset => ?_⟩
  rw [exec_requestRejected, exec_responseRead, State.selectEvent_in_reset reset, State.setSelect, State.modParty_eq]
  exact ⟨rfl, rfl⟩

/-! ## A save cut off (R172, R176) -/

/-- The word a save writes last seals the image; before it the save writes no word 0 (R176). -/
theorem saveWrites_eq_append_seal (bodies : List (List Word16)) :
    ∃ before, saveWrites bodies = before ++ [(0, sealedControl (imageLength bodies))] ∧ 0 ∉ before.map Prod.fst := by
  unfold saveWrites
  refine ⟨_ ++ _ ++ [(15, checkWord bodies)], by rw [List.append_assoc _ [_] [_]]; rfl, ?_⟩
  simp [Config.moduleBase]

/-- A save that has not written its last word has not written word 0. -/
theorem read_partSave {m : Memory} (hm : Memory.wf m = true) (bodies : List (List Word16)) {n : Nat}
    (part : n < (saveWrites bodies).length) :
    Memory.read (Memory.writeAll m ((saveWrites bodies).take n)) 0 = Memory.read m 0 := by
  obtain ⟨before, split, unsealed⟩ := saveWrites_eq_append_seal bodies
  rw [split, List.length_append] at part
  rw [split, List.take_append_of_le_length (Nat.le_of_lt_succ part)]
  refine Memory.read_writeAll_of_not_mem _ hm fun written => unsealed ?_
  rw [List.map_take] at written
  exact List.mem_of_mem_take written

/-- A word 0 without the signature rejects the image with cause 1 (R172). -/
theorem readImage_unsigned {m : Memory} (h : (Memory.read m 0).extractLsb' 14 2 ≠ 0b10#2) : readImage m = .error 1 :=
  if_pos (.inl h)

/-- Settles O13: whatever part of the save was written, word 0 was not. -/
theorem cutOffSaveIsRejected : Obligations.CutOffSaveIsRejected := by
  intro p bodies n s t awake _ op law unsigned reset
  rw [exec_resetAsserted awake] at reset
  cases reset
  have saves : 0 < (saveWrites bodies).length := by
    obtain ⟨before, split, -⟩ := saveWrites_eq_append_seal bodies
    rw [split, List.length_append]
    exact Nat.succ_pos _
  refine readImage_unsigned ?_
  rw [State.assertReset_store_of_save op, read_partSave law bodies (Nat.mod_lt _ saves), unsigned]
  decide

/-! ## Operations that complete (R172, R174 to R176) -/

namespace State

variable {s : State} {p : PartyId}

theorem endColdLoad_loading (h : s.storeOp = .coldLoad) (a : StoreAnswer) : s.endColdLoad a =
    ((State.loadTables { s with store := (s.storeRead a).2, storeOp := .idle }
      (validImage (readImage (s.storeRead a).1))).appendLoad (readImage (s.storeRead a).1) none).beginStaging :=
  if_pos h

theorem endLoad_loading (h : s.storeOp = .load p) (a : StoreAnswer) : s.endLoad a =
    ((State.loadTables { s with store := (s.storeRead a).2, storeOp := .idle }
      (validImage (readImage (s.storeRead a).1))).appendLoad (readImage (s.storeRead a).1) (some p)).beginStaging := by
  simp only [endLoad, h]

theorem endSave_saving {ws : List (Nat × Word16)} {n : Nat} (h : s.storeOp = .save p ws n) : s.endSave =
    (State.append { s with store := Memory.writeAll s.store ws, storeOp := .idle }
      .storeSaved none none (some p) (some (n : Int))).beginStaging := by
  simp only [endSave, h]

end State

section

variable (s : State) (a : StoreAnswer) (p : PartyId)

theorem exec_coldLoadComplete : exec (.coldLoadComplete a) s = s.event (fun s => s.endColdLoad a) := rfl

theorem exec_storeLoadComplete : exec (.storeLoadComplete a) s = s.event (fun s => s.endLoad a) := rfl

theorem exec_storeSaveComplete : exec .storeSaveComplete s = s.event State.endSave := rfl

theorem exec_storeLoad : exec (.storeLoad p) s = s.event (fun s => s.request p (fun s => s.startLoad p)) := rfl

theorem exec_storeSave : exec (.storeSave p) s = s.event (fun s => s.request p (fun s => s.startSave p)) := rfl

end

/-- Settles O7: each completion where its operation is in flight, a load by what reading the image gives. -/
theorem storeOperationsComplete : Obligations.StoreOperationsComplete := by
  intro a s awake
  rw [exec_coldLoadComplete, exec_storeSaveComplete]
  simp only [exec_storeLoadComplete, State.event_awake awake]
  refine ⟨fun op => ?_, fun p op => ?_, fun p ws n op => ?_⟩
  · rw [State.endColdLoad_loading op]
    cases readImage (s.storeRead a).1 with
    | ok x => rfl
    | error cause => rfl
  · rw [State.endLoad_loading op]
    cases readImage (s.storeRead a).1 with
    | ok x => rfl
    | error cause => rfl
  · rw [State.endSave_saving op]

/-! ## STORE_LOAD and STORE_SAVE (R175, R176) -/

namespace State

variable {s : State} (p : PartyId)

theorem storeIdle_iff : s.storeIdle = true ↔ s.storeOp = .idle := decide_eq_true_iff

theorem not_storeIdle_iff : s.storeIdle = false ↔ s.storeOp ≠ .idle := decide_eq_false_iff_not

/-- The check of R175 that every scheme is undefined or DISABLED. -/
theorem allDisabled_iff :
    s.schemes.toList.all (fun sc => sc.defn.isNone || decide (sc.state = .disabled)) = true ↔
      ∀ k : SchemeId, (s.schemes[k]).defn = none ∨ (s.schemes[k]).state = .disabled := by
  simp only [List.all_eq_true, Vector.mem_toList_iff, Bool.or_eq_true, Option.isNone_iff_eq_none, decide_eq_true_eq]
  refine ⟨fun all k => all _ (Vector.getElem_mem k.isLt), fun all sc mem => ?_⟩
  obtain ⟨i, hi, rfl⟩ := Vector.mem_iff_getElem.1 mem
  exact all ⟨i, hi⟩

theorem startLoad_busy (h : s.storeOp ≠ .idle) : s.startLoad p = (s, refuse .storeBusy) :=
  if_pos (not_storeIdle_iff.2 h)

theorem startSave_busy (h : s.storeOp ≠ .idle) : s.startSave p = (s, refuse .storeBusy) :=
  if_pos (not_storeIdle_iff.2 h)

theorem startLoad_begins (idle : s.storeOp = .idle)
    (all : ∀ k : SchemeId, (s.schemes[k]).defn = none ∨ (s.schemes[k]).state = .disabled) :
    s.startLoad p = ({ s with storeOp := .load p }, done []) := by
  rw [startLoad, storeIdle_iff.2 idle, allDisabled_iff.2 all]
  rfl

theorem startLoad_refused (idle : s.storeOp = .idle)
    (inUse : ∃ k : SchemeId, (s.schemes[k]).defn ≠ none ∧ (s.schemes[k]).state ≠ .disabled) :
    s.startLoad p = (s, refuse .wrongState) := by
  obtain ⟨k, defined, enabled⟩ := inUse
  rw [startLoad, storeIdle_iff.2 idle, if_neg nofun, if_pos]
  rw [← Bool.not_eq_true, allDisabled_iff]
  exact fun all => (all k).elim defined enabled

theorem startSave_begins (idle : s.storeOp = .idle) : s.startSave p =
    ({ s with
       store := Memory.write s.store 0 (0b00#2 ++ Config.openControlBits s.openCount : BitVec 16)
       openCount := s.openCount + 1
       storeOp := .save p (saveWrites s.moduleBodies) (imageLength s.moduleBodies) }, done []) := by
  rw [startSave, storeIdle_iff.2 idle]
  rfl

end State

/-- Settles O11: the checks of R175 in their order, then what each request begins. -/
theorem storeRequestsAreTaken : Obligations.StoreRequestsAreTaken := by
  intro p s takes
  rw [exec_storeLoad, exec_storeSave]
  exact ⟨fun idle all => State.request_served takes (State.startLoad_begins p idle all),
    fun idle inUse => State.request_answered takes (State.startLoad_refused p idle inUse),
    fun idle => ⟨_, State.request_served takes (State.startSave_begins p idle)⟩,
    fun busy => ⟨State.request_answered takes (State.startLoad_busy p busy),
      State.request_answered takes (State.startSave_busy p busy)⟩⟩

end Sys2Proof.Machine
end

section
/-! The machine as a whole: the step on a queue that holds a command, beside `step_of_empty` for the empty one. -/

namespace Sys2Proof.Machine

theorem step_of_cons {s : State} {c : Instr} {rest : List Instr} (h : s.pending = c :: rest) :
    step s = exec c { s with pending := rest } := by
  unfold step
  rw [h]

/-- Settles O1: the queue of the state in question is `c :: rest`, and its other fields are those of `s`. -/
theorem stepTakesFrontCommand : Obligations.StepTakesFrontCommand := by
  intro c rest s
  have front : ({ s with pending := c :: rest } : State).pending = c :: rest := rfl
  exact step_of_cons front

end Sys2Proof.Machine
end
